-- ==== Sys2Proof/Word.lean ====
section
/-! DEFINITION. The words of the part: a byte of the flash or of a link, and an upstream address. -/

namespace Sys2Proof

/-- One byte, as the links carry it and the flash holds it. -/
abbrev Byte := BitVec 8

/-- An upstream address, `0x000_0000` to `0x1FF_FFFF` (00, Terms). -/
abbrev Addr := BitVec 25

/-- The erased pattern, `0xFF` (00, Conventions). -/
abbrev erasedByte : Byte := 0xFF#8

/-- Bytes by offset, as a program covers them or a flash operation leaves them. -/
abbrev OffsetBytes := List (Nat × Byte)

end Sys2Proof
end

