-- ==== Sys2Proof/Syntax.lean ====
section
/-! DEFINITION. The commands of the part: one constructor for each row of the spec's table of operations and events. -/

namespace Sys2Proof

/-- The two upstream ports. -/
inductive Port where
  | a
  | t
  deriving DecidableEq, Repr

/-- The eight claimants of Port F, in the fixed order that breaks ties (R80). -/
inductive Claimant where
  | tRead
  | aRead
  | sysRead
  | qSys
  | qPass
  | qSet
  | qUni
  | prefetch
  deriving DecidableEq, Repr

/-- A command: what a master, the board, the flash or a clock does to the part, or a moment inside it.
A transaction's `closed` says whether the master closes it; while it is open the link carries it (R39, log entry 11).
`left` gives bytes, by offset from the start of the operation's range, that the flash holds where they are not the intended ones
(log entry 4). -/
inductive Instr where
  | deviceReset (fixture : Bool) (left : OffsetBytes)
  | read (p : Port) (start : Option Addr) (count : Nat)
  | readEnd (p : Port)
  | program (p : Port) (addr : Addr) (data : List Byte) (closed : Bool)
  | eraseSector (p : Port) (addr : Addr) (closed : Bool)
  | eraseBlock (p : Port) (addr : Addr) (closed : Bool)
  | writeEnable (p : Port)
  | writeDisable (p : Port)
  | statusRead (p : Port)
  | portReset (p : Port)
  | unknownCommand (p : Port) (count : Nat)
  | directiveStart
  | setMapFenceEnd
  | closeFenceEnd
  | recoverFenceEnd
  | recoverEraseEnd
  | sealFenceEnd
  | sealProgramEnd
  | sealFlashFailed
  | serviceCloseFenceEnd
  | flipDrainEnd
  | flipSwitchBegin
  | syncWaitEnd
  | controlRecordWriteEnd
  | awaitingWriteEntryMade
  | sysProgramEntryMade
  | pageReadEnd
  | preReadEnd
  | programCommandIssued
  | flashReady (error : Bool) (left : OffsetBytes)
  | waitLimitExpiry (left : OffsetBytes)
  | verifyEnd
  | eraseCheckEnd
  | agingStep (c : Claimant)
  | passIdleExpiry
  | stageIdleExpiry
  | releaseTimerExpiry
  deriving DecidableEq, Repr

end Sys2Proof
end

