-- ==== Sys2Proof/Config.lean ====
section
/-! DEFINITION. What an implementation fixes and the spec leaves open: three free values. -/

namespace Sys2Proof

/-- Whether the n-th attempt to blow the commissioning fuse leaves it reading blown (R3: "A blowing attempt succeeds when
the fuse reads blown afterwards"). The spec does not say when an attempt succeeds: a free value, with no body, applied to the
count of attempts in State (log entry 5). -/
opaque Config.fuseTakes : Nat → Bool

/-- The bytes, by offset, that the flash is left with where the n-th wait limit reached by a tick breaks an operation off (R85: "The
page's content after a FLASH-ERROR is what the flash made of it"). The spec states no content: a free value, with no body, applied to
the count of such breaks in State (log entry 4). -/
opaque Config.flashLeaves : Nat → OffsetBytes

/-- Whether R160 rather than R37 holds where the two meet: a read classified before a SET-MAP made its range the key sector, and still
clocked after a SEAL has carried a bundle there. R37: it "returns the content of the physical range it was given"; R160: "No upstream read
returns a byte of key sector content except" a Port A read of the KEY window. The spec ranks neither: a free value, with no body (log
entry 28). -/
opaque Config.secrecyHolds : Bool

end Sys2Proof
end

