-- ==== Sys2Proof/Machine/State.lean ====
section
/-! DEFINITION. The state of the part, as plain data: every item the spec names, held once by the block that owns it. -/

namespace Sys2Proof.Machine

/-- Bytes by address in one canonical form: addresses strictly rising, no byte `0xFF`. An unlisted address reads `0xFF`, the
erased pattern (log entry 3). The flash, the staging buffer, written images and expected images are held so. -/
abbrev Mem := List Host.Cell

/-! ### Lifecycle Controller -/

/-- The lifecycles of R1. -/
inductive Lifecycle where
  | blank
  | opened
  | sealed
  | closed
  | service
  | safe
  deriving DecidableEq, Repr

/-- The two uniformity banks (R114). -/
inductive Bank where
  | bank0
  | bank1
  deriving DecidableEq, Repr

/-- The classes of map entries (R20). -/
inductive RegionClass where
  | pass
  | uniformity
  | key
  | settings
  | directive
  deriving DecidableEq, Repr

/-- What a port may do in a PASS or SETTINGS entry (R20). -/
inductive Right where
  | none
  | read
  | readWrite
  deriving DecidableEq, Repr

/-- One enabled entry of the region map (R20). A field that does not apply to the class is 0, NONE or non-posted, as SET-MAP
requires its parameter to be (R34). -/
structure MapEntry where
  cls   : RegionClass
  ubase : Nat
  size  : Nat
  pbase : Nat
  pbase2 : Nat
  aRight : Right
  tRight : Right
  posted : Bool
  deriving DecidableEq, Repr

/-- Refresh families (R163). -/
inductive Family where
  | f50
  | f60
  | dual
  deriving DecidableEq, Repr

/-- A region code with a refresh family: the region cache, or what a region record names (R166). -/
structure Region where
  code : Nat
  family : Family
  deriving DecidableEq, Repr

/-- One scope of a key bundle: a region code and a set of families, one bit each (R146). -/
structure Scope where
  code : Nat
  families : Byte
  deriving DecidableEq, Repr

/-- The fields of the control record other than its lifecycle (R6). `map` lists entries 0 to 14, none for a disabled one. -/
structure Fields where
  live : Bank
  map : List (Option MapEntry)
  bundleLen : Nat
  scopes : List Scope
  region : Option Region
  releaseTime : Nat
  code : Option (List Byte)
  deriving DecidableEq, Repr

/-- A control record: lifecycle and fields (R6). -/
structure ControlRecord where
  lifecycle : Lifecycle
  fields : Fields
  deriving DecidableEq, Repr

/-- The Lifecycle Controller: the lifecycle in effect (none during LOADING), the FIXTURE and fuse values in effect, the fields in
effect, and the control sector as far as LOADING has read it. -/
structure LifecycleUnit where
  lifecycle : Option Lifecycle
  fixture : Bool
  fuse : Bool
  fields : Fields
  loaded : Mem
  loadPages : Nat
  deriving DecidableEq, Repr

/-! ### Write Queues -/

/-- The four write queues (R56). -/
inductive QueueId where
  | sys
  | pass
  | set
  | uni
  deriving DecidableEq, Repr

/-- One thing for each queue. -/
structure PerQueue (α : Type) where
  sys : α
  pass : α
  set : α
  uni : α
  deriving DecidableEq, Repr

/-- The three kinds of write (R57). -/
inductive WriteKind where
  | program
  | eraseSector
  | eraseBlock
  deriving DecidableEq, Repr

/-- Who made an entry: Port A, or the directive of a slot (R57). -/
inductive Origin where
  | portA
  | slot (n : Nat)
  deriving DecidableEq, Repr

/-- The phases of an entry being carried out (R58). -/
inductive WorkPhase where
  | preRead
  | program
  | wait
  | verify
  deriving DecidableEq, Repr

/-- QUEUED, ACTIVE in a phase, or SUSPENDED, whose phase is WAIT (R58). -/
inductive EntryState where
  | queued
  | active (ph : WorkPhase)
  | suspended
  deriving DecidableEq, Repr

/-- A queue entry (R57). `data` lists the covered offsets of the page, rising, with their bytes: mask and data in one. -/
structure Entry where
  seq : BitVec 32
  kind : WriteKind
  addr : Nat
  data : OffsetBytes
  page : Option Nat
  origin : Origin
  upstream : Option Nat
  posted : Bool
  state : EntryState
  retries : Nat
  image : Option Mem
  deriving DecidableEq, Repr

/-- A queue with its almost-full level and flag and its failure count (R56, R65, R67). -/
structure Queue where
  entries : List Entry
  level : Nat
  high : Bool
  failures : Nat
  deriving DecidableEq, Repr

/-- Why an entry failed (R64). -/
inductive FailReason where
  | verifyMismatch
  | flashError
  deriving DecidableEq, Repr

/-- The first-failure record while it is present (R66). -/
structure FirstFailure where
  queue : QueueId
  seq : BitVec 32
  kind : WriteKind
  addr : Nat
  origin : Origin
  upstream : Option Nat
  reason : FailReason
  deriving DecidableEq, Repr

/-! ### Ports -/

/-- Why BUSY is set (R40). ENTRY names its entry by sequence number. -/
inductive BusyCause where
  | none
  | loading
  | room (q : QueueId)
  | entry (seq : BitVec 32)
  | page
  deriving DecidableEq, Repr

/-- A write that has been taken and classified: its queue and what its entry will hold (R27, R49). -/
structure QueuedWrite where
  queue : QueueId
  kind : WriteKind
  addr : Nat
  data : OffsetBytes
  upstream : Nat
  posted : Bool
  deriving DecidableEq, Repr

/-- Where a read segment is answered from (R99), or that it is held by a FLIP's SWITCH (R134). -/
inductive Source where
  | window
  | erased
  | staging
  | flash
  | held
  deriving DecidableEq, Repr

/-- A read segment (R24): its upstream range, its class if it lies in an entry, its source, and for flash content the owning queue
and the physical address of its first byte. `offset` is the first byte's offset in its window. -/
structure Segment where
  first : Nat
  last : Nat
  cls : Option RegionClass
  source : Source
  owner : QueueId
  phys : Nat
  offset : Nat
  inPass : Bool
  deriving DecidableEq, Repr

/-- A byte range within one physical page: the page's address and the first and last offset (R79). -/
structure ReadRange where
  page : Nat
  lo : Nat
  hi : Nat
  deriving DecidableEq, Repr

/-- The present piece of a segment (R102): not yet judged, its bytes ready, or what it waits for. -/
inductive Piece where
  | fresh
  | ready (bytes : List Byte)
  | image (r : ReadRange)
  | claim (r : ReadRange)
  | slot (r : ReadRange)
  deriving DecidableEq, Repr

/-- A read in progress: the next address, the bytes clocked and not yet delivered, the present segment and piece, and what its
end will have to report (R53, R121, R122, R158). -/
structure Reading where
  addr : Nat
  want : Nat
  seg : Option Segment
  piece : Piece
  inPass : Bool
  passLast : Bool
  keyLast : Bool
  deriving DecidableEq, Repr

/-- What a link carries: nothing, a read, or a program or erase not yet closed (R40). -/
inductive Link where
  | idle
  | reading (r : Reading)
  | collecting (kind : WriteKind) (addr : Addr) (data : List Byte)
  deriving DecidableEq, Repr

/-- One upstream port (R40). `returned` is what the part has returned in the link's latest transaction, the model's own field
(log entry 17). -/
structure PortState where
  wel : Bool
  protectErr : Bool
  programErr : Bool
  ignored : Bool
  ignoredCount : Nat
  cause : BusyCause
  awaiting : Option QueuedWrite
  link : Link
  returned : List Byte
  deriving DecidableEq, Repr

/-! ### Flash Engine and Arbiter -/

/-- One thing for each claimant. -/
structure PerClaimant (α : Type) where
  tRead : α
  aRead : α
  sysRead : α
  qSys : α
  qPass : α
  qSet : α
  qUni : α
  prefetch : α
  deriving DecidableEq, Repr

/-- A standing claim: the range a read claim names, its aged steps, and the microseconds to its next step (R79, R81). -/
structure Claim where
  range : Option ReadRange
  aged : Nat
  due : Nat
  deriving DecidableEq, Repr

/-- A page read in flight (R83). `discard`: its bytes are wanted no more. -/
structure PageRead where
  claimant : Claimant
  range : ReadRange
  discard : Bool
  deriving DecidableEq, Repr

/-- The Flash Engine and the Arbiter (R78). `write` names the queue whose head occupies Port F, `waited` counts its microseconds in
WAIT not suspended (R85), `deferred` holds claims put off (log entry 13). -/
structure Engine where
  write : Option QueueId
  waited : Nat
  suspendCount : Nat
  lastSuspend : Nat
  read : Option PageRead
  claims : PerClaimant (Option Claim)
  deferred : PerClaimant (Option Claim)
  weights : PerClaimant Nat
  bar : Nat
  interval : Nat
  limit : Nat
  deriving DecidableEq, Repr

/-! ### Read-ahead, uniformity, keys -/

/-- A slot of the read-ahead buffer, with the physical page it names (R108). -/
inductive AheadSlot where
  | empty
  | filling (page : Nat)
  | held (page : Nat) (bytes : List Byte)
  deriving DecidableEq, Repr

/-- The read-ahead buffer: 8 slots and the position (R108). -/
structure ReadAhead where
  slots : List AheadSlot
  position : Option Nat
  deriving DecidableEq, Repr

/-- STOPPED, or RUNNING with the remaining microseconds. -/
inductive Timer where
  | stopped
  | running (remaining : Nat)
  deriving DecidableEq, Repr

/-- The state of a shadow sector (R116). -/
inductive Coverage where
  | stale
  | clean
  | written
  | failed
  deriving DecidableEq, Repr

/-- The pass record (R118). -/
structure PassRecord where
  isOpen : Bool
  bank : Bank
  length : Nat
  count : BitVec 16
  idle : Timer
  deriving DecidableEq, Repr

/-- The Uniformity Bank Controller (R114 to R138), less the live bank selector, which stands in the fields in effect. -/
structure UniformityUnit where
  coverage : List Coverage
  pass : PassRecord
  lengthSetting : Option Nat
  idleSetting : Option Nat
  deriving DecidableEq, Repr

/-- The key window state (R139). -/
inductive KeyWindow where
  | none
  | staging
  | released
  | hidden
  deriving DecidableEq, Repr

/-- The Key Store Controller (08). `stageTime` in seconds, `releaseTime` (currently set) in milliseconds. -/
structure KeyUnit where
  window : KeyWindow
  staging : Mem
  stageTimer : Timer
  releaseTimer : Timer
  stageTime : Nat
  releaseTime : Nat
  sealedLen : Nat
  sealCount : Nat
  deriving DecidableEq, Repr

/-! ### Directive Unit -/

/-- The states of a slot (R176). -/
inductive SlotState where
  | empty
  | pending
  | running
  | done
  | refused
  deriving DecidableEq, Repr

/-- The result codes (R188). -/
inductive ResultCode where
  | done
  | malformed
  | unknownCode
  | notInState
  | fixtureRequired
  | badParameter
  | cancelled
  | notCancellable
  | mapConflict
  | coverageIncomplete
  | shadowFailed
  | tableCheckFailed
  | bundleInvalid
  | regionInvalid
  | regionOutOfScope
  | flashFailed
  | controlFailed
  | fuseFailed
  | codeMismatch
  | attemptsExhausted
  | noServiceCode
  deriving DecidableEq, Repr

/-- A slot: its record and its written image (R176). -/
structure Slot where
  state : SlotState
  code : Byte
  tag : Byte
  len : Byte
  result : Option ResultCode
  data : List Byte
  image : Option Mem
  deriving DecidableEq, Repr

/-- Why a write was refused (R189). -/
inductive RefusalReason where
  | unmapped
  | noRight
  | classLocked
  | flipPending
  | spansEntries
  | noEnable
  | statusPage
  | slotBusy
  deriving DecidableEq, Repr

/-- The last-refused-write record while it is present (R189). -/
structure RefusedWrite where
  port : Port
  kind : WriteKind
  addr : Nat
  reason : RefusalReason
  deriving DecidableEq, Repr

/-- The phase in which the running directive waits, with what it carries (R15, R18, R19, R36, R37, R73, R127, R148, R168, R171, R172).
FLIP's CRC phase carries the table length, the stored CRC, the next shadow offset to read and the CRC register so far. -/
inductive Phase where
  | openRecord
  | closeFence
  | closeRecord
  | recoverFence
  | recoverErase
  | recoverRecord
  | setMapFence (n : Nat) (e : Option MapEntry)
  | setMapRecord (n : Nat) (e : Option MapEntry)
  | syncWait (names : PerQueue Bool)
  | flipDrain (full check : Bool)
  | flipHeader
  | flipCrc (len stored next : Nat) (crc : BitVec 32)
  | flipArm
  | flipSwitch
  | sealFence
  | sealValidate (len : Nat)
  | sealProgram (len : Nat) (r : Region)
  | sealRecord (len : Nat) (r : Region)
  | codeRecord
  | serviceOpenRecord
  | serviceCloseFence
  | serviceCloseCheck
  | serviceCloseRecord (r : Region)
  deriving DecidableEq, Repr

/-- The Directive Unit (10). Slot n stands at index n - 1. `flipCount` is the Classifier's count of FLIPs (R30). -/
structure DirectiveUnit where
  slots : List Slot
  queue : List Nat
  running : Option Phase
  events : BitVec 13
  mask : BitVec 13
  refusedWrite : Option RefusedWrite
  refusals : Nat
  flipCount : Nat
  deriving DecidableEq, Repr

/-- A run of Q-SYS work: a try of a control record write (R8), SEAL's key sector (R152), or RECOVER's block erases (R19). -/
inductive Work where
  | record (r : ControlRecord) (tryNo : Nat)
  | keySector (base len : Nat)
  | eraseAll
  deriving DecidableEq, Repr

/-- The run in progress: how many of its entries have been added, how many of those have not left, and the physical address of
the first that left FAILED. -/
structure Job where
  work : Work
  added : Nat
  unleft : Nat
  firstFailed : Option Nat
  deriving DecidableEq, Repr

/-! ### The whole -/

/-- The state of the part, of the flash and the fuse that outlive its reset, and of the queue of waiting commands. `carried` is the
base of the key sector into which a SEAL has begun to carry a bundle since device reset (R152; log entry 28). -/
structure State where
  pending : List Instr
  flash : Mem
  fuseCell : Bool
  fuseTries : Nat
  breaks : Nat
  portA : PortState
  portT : PortState
  life : LifecycleUnit
  queues : PerQueue Queue
  pool : List Nat
  nextSeq : BitVec 32
  firstFailure : Option FirstFailure
  engine : Engine
  ahead : ReadAhead
  uni : UniformityUnit
  key : KeyUnit
  attempts : Nat
  dir : DirectiveUnit
  job : Option Job
  carried : Option Nat
  deriving DecidableEq, Repr

/-- No command ends in a fault: the spec gives the part no stop. -/
inductive Fault where
  deriving DecidableEq, Repr

/-- The one refusal: a command that has no meaning yet, raised by `exec`'s refused arms (there are none); safe. -/
inductive Refusal where
  | notModelled (mnemonic : String)
  deriving DecidableEq, Repr

/-! ### Values after reset -/

/-- The same thing for each claimant. -/
def PerClaimant.all {α : Type} (x : α) : PerClaimant α := ⟨x, x, x, x, x, x, x, x⟩

/-- A port after device reset (R40). -/
def PortState.reset : PortState :=
  { wel := false, protectErr := false, programErr := false, ignored := false, ignoredCount := 0, cause := .loading,
    awaiting := none, link := .idle, returned := [] }

/-- Entry 0 of the default map: PASS over the whole space below the directive window, identity, non-posted (R23). -/
def MapEntry.default0 : MapEntry :=
  { cls := .pass, ubase := 0, size := 0x1FFF000, pbase := 0, pbase2 := 0, aRight := .readWrite, tRight := .read, posted := false }

/-- The default fields of R12. -/
def Fields.default : Fields :=
  { live := .bank0, map := some MapEntry.default0 :: List.replicate 14 none, bundleLen := 0, scopes := [], region := none,
    releaseTime := 3000, code := none }

/-- An empty queue with the default level (R75). -/
def Queue.reset : Queue := { entries := [], level := 24, high := false, failures := 0 }

/-- An EMPTY slot (R176). -/
def Slot.reset : Slot :=
  { state := .empty, code := 0, tag := 0, len := 0, result := none, data := [], image := none }

/-- The default weights (R78). -/
def defaultWeights : PerClaimant Nat :=
  { tRead := 15, aRead := 13, sysRead := 10, qSys := 10, qPass := 9, qSet := 6, qUni := 5, prefetch := 2 }

/-- The engine after reset, with the first SYS-READ of LOADING granted: page 0 of the control sector (R11, R78, R83). -/
def Engine.reset : Engine :=
  { write := none, waited := 0, suspendCount := 0, lastSuspend := 0,
    read := some { claimant := .sysRead, range := { page := 0x1FFF000, lo := 0, hi := 255 }, discard := false },
    claims := PerClaimant.all none, deferred := PerClaimant.all none, weights := defaultWeights, bar := 880, interval := 20,
    limit := 8 }

/-- The machine right after device reset: LOADING, with the first page of the control sector being read (R11).
The flash is blank, the fuse intact and FIXTURE low (log entries 3 and 6); what LOADING has yet to set stands at defaults
(log entry 18). -/
def State.reset : State :=
  { pending := []
    flash := []
    fuseCell := false
    fuseTries := 0
    breaks := 0
    portA := PortState.reset
    portT := PortState.reset
    life := { lifecycle := none, fixture := false, fuse := false, fields := Fields.default, loaded := [], loadPages := 0 }
    queues := ⟨Queue.reset, Queue.reset, Queue.reset, Queue.reset⟩
    pool := List.range 64
    nextSeq := 0
    firstFailure := none
    engine := Engine.reset
    ahead := { slots := List.replicate 8 .empty, position := none }
    uni := { coverage := [], pass := { isOpen := false, bank := .bank0, length := 0, count := 0, idle := .stopped },
             lengthSetting := none, idleSetting := none }
    key := { window := .none, staging := [], stageTimer := .stopped, releaseTimer := .stopped, stageTime := 10,
             releaseTime := 3000, sealedLen := 0, sealCount := 0 }
    attempts := 3
    dir := { slots := List.replicate 15 Slot.reset, queue := [], running := none, events := 0, mask := BitVec.allOnes 13,
             refusedWrite := none, refusals := 0, flipCount := 0 }
    job := none
    carried := none }

end Sys2Proof.Machine
end

