-- ==== Sys2Proof/Machine/Ops.lean ====
section
/-! DEFINITION. The named operations over memory, byte records and check codes, and the accessors of the blocks' state. -/

namespace Sys2Proof.Machine

/-! ### Memory -/

/-- The byte at an address; an unlisted address reads `0xFF`. -/
def Mem.get : Mem → Nat → Byte
  | [], _ => erasedByte
  | (k, b) :: m, a => if k = a then b else Mem.get m a

/-- Write one byte, keeping the canonical form: writing `0xFF` removes the entry. -/
def Mem.set : Mem → Nat → Byte → Mem
  | [], a, b => if b = erasedByte then [] else [(a, b)]
  | (k, c) :: m, a, b =>
    if a < k then (if b = erasedByte then (k, c) :: m else (a, b) :: (k, c) :: m)
    else if a = k then (if b = erasedByte then m else (a, b) :: m)
    else (k, c) :: Mem.set m a b

/-- The canonical form: addresses strictly rising and no byte `0xFF`. -/
def Mem.wf : Mem → Bool
  | [] => true
  | [c] => decide (c.2 ≠ erasedByte)
  | c :: d :: m => decide (c.2 ≠ erasedByte) && decide (c.1 < d.1) && Mem.wf (d :: m)

/-- Write bytes at offsets from a base. -/
def Mem.setAll (m : Mem) (base : Nat) (l : OffsetBytes) : Mem := l.foldl (fun m c => Mem.set m (base + c.1) c.2) m

/-- AND bytes into the bytes at offsets from a base: what a program does (R76). -/
def Mem.andAll (m : Mem) (base : Nat) (l : OffsetBytes) : Mem :=
  l.foldl (fun m c => Mem.set m (base + c.1) (Mem.get m (base + c.1) &&& c.2)) m

/-- Set a range to `0xFF`: what an erase does (R76). -/
def Mem.erase (m : Mem) (lo n : Nat) : Mem := m.filter (fun c => decide (c.1 < lo) || decide (lo + n ≤ c.1))

/-- The bytes of a range. -/
def Mem.slice (m : Mem) (lo n : Nat) : List Byte := (List.range n).map (fun i => Mem.get m (lo + i))

/-- The listed bytes of a range, by offset from its start. -/
def Mem.cut (m : Mem) (lo n : Nat) : Mem :=
  (m.filter (fun c => decide (lo ≤ c.1) && decide (c.1 < lo + n))).map (fun c => (c.1 - lo, c.2))

/-- Every byte of the range is `0xFF`. -/
def Mem.erasedIn (m : Mem) (lo n : Nat) : Bool := m.all (fun c => decide (c.1 < lo) || decide (lo + n ≤ c.1))

/-! ### Byte order and check codes -/

/-- A little-endian number (R192). -/
def leNat : List Byte → Nat
  | [] => 0
  | b :: l => b.toNat + 256 * leNat l

/-- The `n` low bytes of a number, little-endian (R192). -/
def leBytes : Nat → Nat → List Byte
  | 0, _ => []
  | n + 1, v => BitVec.ofNat 8 v :: leBytes n (v / 256)

/-- One bit of the reflected CRC-32 register (R193). -/
def crc32Bit (r : BitVec 32) : BitVec 32 :=
  if r.getLsbD 0 then (r >>> 1) ^^^ 0xEDB88320#32 else r >>> 1

/-- One byte into the CRC-32 register, least significant bit first (R193). -/
def crc32Step (r : BitVec 32) (b : Byte) : BitVec 32 :=
  crc32Bit (crc32Bit (crc32Bit (crc32Bit (crc32Bit (crc32Bit (crc32Bit (crc32Bit (r ^^^ b.setWidth 32))))))))

/-- The register at the start: all ones (R193). -/
def crc32Start : BitVec 32 := 0xFFFFFFFF#32

/-- The register over bytes (R193). -/
def crc32Over (r : BitVec 32) (l : List Byte) : BitVec 32 := l.foldl crc32Step r

/-- CRC-32 (R193): the register inverted after the last byte. -/
def crc32 (l : List Byte) : BitVec 32 := ~~~ (crc32Over crc32Start l)

/-- One bit of the CRC-16 register (R193). -/
def crc16Bit (r : BitVec 16) : BitVec 16 :=
  if r.getLsbD 15 then (r <<< 1) ^^^ 0x1021#16 else r <<< 1

/-- One byte into the CRC-16 register, most significant bit first (R193). -/
def crc16Step (r : BitVec 16) (b : Byte) : BitVec 16 :=
  crc16Bit (crc16Bit (crc16Bit (crc16Bit (crc16Bit (crc16Bit (crc16Bit (crc16Bit (r ^^^ (b.setWidth 16 <<< 8)))))))))

/-- CRC-16 (R193): from `0xFFFF`, without final inversion. -/
def crc16 (l : List Byte) : BitVec 16 := l.foldl crc16Step 0xFFFF#16

/-! ### One home for each register: accessors -/

/-- A queue's thing. -/
def PerQueue.get {α : Type} (x : PerQueue α) : QueueId → α
  | .sys => x.sys
  | .pass => x.pass
  | .set => x.set
  | .uni => x.uni

/-- Replace a queue's thing. -/
def PerQueue.put {α : Type} (x : PerQueue α) (q : QueueId) (v : α) : PerQueue α :=
  match q with
  | .sys => { x with sys := v }
  | .pass => { x with pass := v }
  | .set => { x with set := v }
  | .uni => { x with uni := v }

/-- A claimant's thing. -/
def PerClaimant.get {α : Type} (x : PerClaimant α) : Claimant → α
  | .tRead => x.tRead
  | .aRead => x.aRead
  | .sysRead => x.sysRead
  | .qSys => x.qSys
  | .qPass => x.qPass
  | .qSet => x.qSet
  | .qUni => x.qUni
  | .prefetch => x.prefetch

/-- Replace a claimant's thing. -/
def PerClaimant.put {α : Type} (x : PerClaimant α) (c : Claimant) (v : α) : PerClaimant α :=
  match c with
  | .tRead => { x with tRead := v }
  | .aRead => { x with aRead := v }
  | .sysRead => { x with sysRead := v }
  | .qSys => { x with qSys := v }
  | .qPass => { x with qPass := v }
  | .qSet => { x with qSet := v }
  | .qUni => { x with qUni := v }
  | .prefetch => { x with prefetch := v }

/-- Do the same to each claimant's thing. -/
def PerClaimant.map {α β : Type} (f : α → β) (x : PerClaimant α) : PerClaimant β :=
  ⟨f x.tRead, f x.aRead, f x.sysRead, f x.qSys, f x.qPass, f x.qSet, f x.qUni, f x.prefetch⟩

/-- A port's state. -/
def State.port (s : State) : Port → PortState
  | .a => s.portA
  | .t => s.portT

/-- Replace a port's state. -/
def State.setPort (s : State) (p : Port) (x : PortState) : State :=
  match p with
  | .a => { s with portA := x }
  | .t => { s with portT := x }

/-- Change a port's state. -/
def State.onPort (s : State) (p : Port) (f : PortState → PortState) : State := s.setPort p (f (s.port p))

/-- Change the engine and the Arbiter. -/
def State.onEngine (s : State) (f : Engine → Engine) : State := { s with engine := f s.engine }

/-- Change the read-ahead buffer. -/
def State.onAhead (s : State) (f : ReadAhead → ReadAhead) : State := { s with ahead := f s.ahead }

/-- Change the Uniformity Bank Controller. -/
def State.onUni (s : State) (f : UniformityUnit → UniformityUnit) : State := { s with uni := f s.uni }

/-- Change the Key Store Controller. -/
def State.onKey (s : State) (f : KeyUnit → KeyUnit) : State := { s with key := f s.key }

/-- Change the Lifecycle Controller. -/
def State.onLife (s : State) (f : LifecycleUnit → LifecycleUnit) : State := { s with life := f s.life }

/-- Change the Directive Unit. -/
def State.onDir (s : State) (f : DirectiveUnit → DirectiveUnit) : State := { s with dir := f s.dir }

/-- Set the run of Q-SYS work. -/
def State.setJob (s : State) (j : Option Job) : State := { s with job := j }

/-- Set the base of the key sector that a SEAL's bundle has been carried to. -/
def State.setCarried (s : State) (k : Option Nat) : State := { s with carried := k }

/-- Set the free pages. -/
def State.setPool (s : State) (l : List Nat) : State := { s with pool := l }

/-- Set the service attempts left. -/
def State.setAttempts (s : State) (n : Nat) : State := { s with attempts := n }

/-- Set the first-failure record. -/
def State.setFirstFailure (s : State) (x : Option FirstFailure) : State := { s with firstFailure := x }

/-- Set what the flash holds. -/
def State.setFlash (s : State) (m : Mem) : State := { s with flash := m }

/-- A queue's entries, oldest first. -/
def State.entriesOf (s : State) (q : QueueId) : List Entry := (s.queues.get q).entries

/-- Replace a queue. -/
def State.setQueue (s : State) (q : QueueId) (x : Queue) : State := { s with queues := s.queues.put q x }

/-- Change a queue. -/
def State.onQueue (s : State) (q : QueueId) (f : Queue → Queue) : State := s.setQueue q (f (s.queues.get q))

/-- Change the first entry of a list. -/
def onFirst (f : Entry → Entry) : List Entry → List Entry
  | [] => []
  | e :: l => f e :: l

/-- Change the head entry of a queue. -/
def State.setHead (s : State) (q : QueueId) (f : Entry → Entry) : State := s.onQueue q fun x => { x with entries := onFirst f x.entries }

/-- The claimant that stands for a queue. -/
def QueueId.claimant : QueueId → Claimant
  | .sys => .qSys
  | .pass => .qPass
  | .set => .qSet
  | .uni => .qUni

/-- The claimant of a port's reads. -/
def portClaimant : Port → Claimant
  | .a => .aRead
  | .t => .tRead

/-- The bank other than this one. -/
def Bank.other : Bank → Bank
  | .bank0 => .bank1
  | .bank1 => .bank0

/-- The number of a bank (R192). -/
def Bank.num : Bank → Nat
  | .bank0 => 0
  | .bank1 => 1

/-- The live bank selector (R114). -/
def State.live (s : State) : Bank := s.life.fields.live

/-- The read in progress on a port's link. -/
def State.reading (s : State) (p : Port) : Option Reading :=
  match (s.port p).link with
  | .reading r => some r
  | _ => none

/-- Replace the read in progress on a port's link. -/
def State.setReading (s : State) (p : Port) (r : Reading) : State := s.onPort p fun x => { x with link := .reading r }

/-- The part is in LOADING while no lifecycle is in effect (R1). -/
def State.loading (s : State) : Bool := s.life.lifecycle.isNone

/-- Free pool pages (R62). -/
def State.freePages (s : State) : Nat := s.pool.length

/-- The pool pages a queue's entries hold (R56). -/
def State.pagesHeld (s : State) (q : QueueId) : Nat := ((s.entriesOf q).filter (fun e => e.page.isSome)).length

/-- A count that stays at 255 (00, Conventions). -/
def saturate (n : Nat) : Nat := min 255 (n + 1)

end Sys2Proof.Machine
end

