-- ==== Sys2Proof/Machine/Operands.lean ====
section
/-! DEFINITION. Operand forms: addresses and their pages, sectors and blocks, the bytes a program covers, the directive record and its
parameters, the parameter block of a map entry, and the numbers of enumerated fields. -/

namespace Sys2Proof.Machine

/-! ### Geometry (00, Conventions) -/

/-- The control sector (R5). -/
def controlSector : Nat := 0x1FFF000

/-- The directive window's first upstream address (R20). -/
def windowBase : Nat := 0x1FFF000

/-- The size of the upstream space and of the flash. -/
def spaceSize : Nat := 0x2000000

/-- The address of the page that holds an address. -/
def pageOf (a : Nat) : Nat := a / 256 * 256

/-- The address of the sector that holds an address (R39). -/
def sectorOf (a : Nat) : Nat := a / 4096 * 4096

/-- The address of the block that holds an address (R39). -/
def blockOf (a : Nat) : Nat := a / 65536 * 65536

/-- The range of a kind of write: a page, a sector or a block. -/
def WriteKind.range : WriteKind → Nat
  | .program => 256
  | .eraseSector => 4096
  | .eraseBlock => 65536

/-- Two ranges have an address in common. -/
def overlaps (a n b m : Nat) : Bool := decide (a < b + m) && decide (b < a + n)

/-! ### The bytes a program covers (R39) -/

/-- Place a byte at an offset, keeping offsets rising; a later byte at an offset replaces an earlier one. -/
def placeByte : OffsetBytes → Nat → Byte → OffsetBytes
  | [], o, b => [(o, b)]
  | (k, c) :: l, o, b =>
    if o < k then (o, b) :: (k, c) :: l else if o = k then (o, b) :: l else (k, c) :: placeByte l o b

/-- The mask and data of a program: bytes placed from an offset of the page onward, wrapping at the end of the page. -/
def placeFrom : OffsetBytes → Nat → List Byte → OffsetBytes
  | acc, _, [] => acc
  | acc, o, b :: l => placeFrom (placeByte acc (o % 256) b) (o + 1) l

/-- What a PROGRAM at an address covers within its page. -/
def covered (addr : Nat) (data : List Byte) : OffsetBytes := placeFrom [] (addr % 256) data

/-- The mask covers an offset. -/
def covers (l : OffsetBytes) (o : Nat) : Bool := l.any (fun c => decide (c.1 = o))

/-- The data byte at a covered offset. -/
def coveredByte (l : OffsetBytes) (o : Nat) : Option Byte := (l.find? (fun c => decide (c.1 = o))).map Prod.snd

/-- The data of a page for a Q-SYS program, which covers all 256 offsets (R57). -/
def wholePage (l : List Byte) : OffsetBytes := (List.range 256).map (fun i => (i, l.getD i erasedByte))

/-! ### Directives (R183) -/

/-- The nineteen directives. -/
inductive Directive where
  | ack
  | setEventMask
  | cancel
  | opens
  | closes
  | recover
  | setMap
  | setQueueLevels
  | discard
  | sync
  | setArbiter
  | setPass
  | flip
  | setKeyTimers
  | seals
  | keyHide
  | setServiceCode
  | serviceOpen
  | serviceClose
  deriving DecidableEq, Repr

/-- The directive a code names (R183). -/
def Directive.ofCode (c : Byte) : Option Directive :=
  match c.toNat with
  | 0x01 => some .ack
  | 0x02 => some .setEventMask
  | 0x03 => some .cancel
  | 0x10 => some .opens
  | 0x11 => some .closes
  | 0x12 => some .recover
  | 0x20 => some .setMap
  | 0x30 => some .setQueueLevels
  | 0x31 => some .discard
  | 0x32 => some .sync
  | 0x40 => some .setArbiter
  | 0x50 => some .setPass
  | 0x51 => some .flip
  | 0x60 => some .setKeyTimers
  | 0x61 => some .seals
  | 0x62 => some .keyHide
  | 0x70 => some .setServiceCode
  | 0x71 => some .serviceOpen
  | 0x72 => some .serviceClose
  | _ => none

/-- The lifecycles in which a directive is allowed (the table of R183). -/
def Directive.allowed (d : Directive) (l : Lifecycle) : Bool :=
  match d with
  | .ack | .setEventMask | .cancel => true
  | .opens => l = .blank
  | .closes => l = .sealed
  | .recover => l = .safe
  | .setMap | .seals => l = .opened
  | .setQueueLevels | .discard | .setArbiter | .setKeyTimers => l ≠ .closed && l ≠ .safe
  | .sync => l ≠ .safe
  | .setPass | .flip | .setServiceCode => l = .opened || l = .sealed || l = .service
  | .keyHide => l = .sealed || l = .closed || l = .service
  | .serviceOpen => l = .closed
  | .serviceClose => l = .service

/-- The immediate directives (R179). -/
def Directive.immediate : Directive → Bool
  | .ack | .setEventMask | .cancel | .keyHide => true
  | _ => false

/-- The byte at a parameter offset of a written image (R192). -/
def param (img : Mem) (i : Nat) : Byte := Mem.get img (5 + i)

/-- The number held by `n` parameter bytes from an offset on. -/
def paramNat (img : Mem) (i n : Nat) : Nat := leNat (Mem.slice img (5 + i) n)

/-! ### The parameter block of a map entry (R34) -/

/-- The fields of a SET-MAP parameter block as written. -/
structure RawEntry where
  number : Nat
  enabled : Nat
  cls : Nat
  aRight : Nat
  tRight : Nat
  posted : Nat
  reserved : Nat
  ubase : Nat
  size : Nat
  pbase : Nat
  pbase2 : Nat
  deriving DecidableEq, Repr

/-- Read a parameter block from bytes at a base. -/
def RawEntry.read (m : Mem) (b : Nat) : RawEntry :=
  { number := (Mem.get m b).toNat, enabled := (Mem.get m (b + 1)).toNat, cls := (Mem.get m (b + 2)).toNat,
    aRight := (Mem.get m (b + 3)).toNat, tRight := (Mem.get m (b + 4)).toNat, posted := (Mem.get m (b + 5)).toNat,
    reserved := leNat (Mem.slice m (b + 6) 2), ubase := leNat (Mem.slice m (b + 8) 4), size := leNat (Mem.slice m (b + 12) 4),
    pbase := leNat (Mem.slice m (b + 16) 4), pbase2 := leNat (Mem.slice m (b + 20) 4) }

/-- The class a number names (SET-MAP's parameters). -/
def classOf : Nat → Option RegionClass
  | 1 => some .pass
  | 2 => some .uniformity
  | 3 => some .key
  | 4 => some .settings
  | _ => none

/-- The number of a class. -/
def RegionClass.num : RegionClass → Nat
  | .pass => 1
  | .uniformity => 2
  | .key => 3
  | .settings => 4
  | .directive => 5

/-- The right a number names. -/
def rightOf : Nat → Right
  | 1 => .read
  | 2 => .readWrite
  | _ => .none

/-- The number of a right. -/
def Right.num : Right → Nat
  | .none => 0
  | .read => 1
  | .readWrite => 2

/-- The size bound of a class (R22). -/
def sizeOk (c : RegionClass) (n : Nat) : Bool :=
  match c with
  | .pass => decide (4096 ≤ n) && decide (n ≤ 0x1FFF000)
  | .uniformity => decide (4096 ≤ n) && decide (n ≤ 0x800000)
  | .key => decide (n = 4096)
  | .settings => decide (4096 ≤ n) && decide (n ≤ 65536)
  | .directive => decide (n = 4096)

/-- A physical base fits: 4 KiB aligned, in the flash, at the upstream base's offset within its 64 KiB block (R34, steps 12, 13). -/
def baseOk (ubase size pbase : Nat) : Bool :=
  decide (pbase % 4096 = 0) && decide (pbase + size ≤ spaceSize) && decide (pbase % 65536 = ubase % 65536)

/-- R34, steps 3 to 13: the parameter offset of the first check that fails, or none. -/
def RawEntry.badOffset (r : RawEntry) : Option Nat :=
  if 14 < r.number then some 0
  else if 1 < r.enabled then some 1
  else if r.enabled = 0 then none
  else match classOf r.cls with
    | none => some 2
    | some c =>
      if 2 < r.aRight ∨ (r.aRight ≠ 0 ∧ c ≠ .pass) then some 3
      else if 1 < r.tRight ∨ (r.tRight ≠ 0 ∧ (c = .uniformity ∨ c = .key)) then some 4
      else if 1 < r.posted ∨ (r.posted ≠ 0 ∧ c ≠ .pass) then some 5
      else if r.reserved ≠ 0 then some 6
      else if r.ubase % 4096 ≠ 0 then some 8
      else if r.size % 4096 ≠ 0 ∨ sizeOk c r.size = false ∨ spaceSize < r.ubase + r.size then some 12
      else if baseOk r.ubase r.size r.pbase = false then some 16
      else if c = .uniformity then (if baseOk r.ubase r.size r.pbase2 = false then some 20 else none)
      else if r.pbase2 ≠ 0 then some 20
      else none

/-- The entry a parameter block describes; none for a disabled one. -/
def RawEntry.entry (r : RawEntry) : Option MapEntry :=
  if r.enabled = 1 then
    (classOf r.cls).map fun c =>
      { cls := c, ubase := r.ubase, size := r.size, pbase := r.pbase, pbase2 := r.pbase2, aRight := rightOf r.aRight,
        tRight := rightOf r.tRight, posted := decide (r.posted = 1) }
  else none

/-- The parameter block of entry `n`; a disabled entry's other bytes are 0. -/
def entryBytes (n : Nat) (e : Option MapEntry) : List Byte :=
  match e with
  | none => BitVec.ofNat 8 n :: List.replicate 23 0
  | some e =>
    [BitVec.ofNat 8 n, 1, BitVec.ofNat 8 e.cls.num, BitVec.ofNat 8 e.aRight.num, BitVec.ofNat 8 e.tRight.num,
     (if e.posted then 1 else 0), 0, 0] ++ leBytes 4 e.ubase ++ leBytes 4 e.size ++ leBytes 4 e.pbase ++ leBytes 4 e.pbase2

/-! ### Numbers of enumerated fields (R188, R189, R192) -/

/-- The family a number names. -/
def familyOf : Nat → Option Family
  | 1 => some .f50
  | 2 => some .f60
  | 3 => some .dual
  | _ => none

/-- The number of a family. -/
def Family.num : Family → Nat
  | .f50 => 1
  | .f60 => 2
  | .dual => 3

/-- The bit of a family in a families set (R192). -/
def Family.bit : Family → Nat
  | .f50 => 0
  | .f60 => 1
  | .dual => 2

/-- The number of a lifecycle on the status page. -/
def Lifecycle.num : Lifecycle → Nat
  | .blank => 0
  | .opened => 1
  | .sealed => 2
  | .closed => 3
  | .service => 4
  | .safe => 5

/-- The number of a key window state. -/
def KeyWindow.num : KeyWindow → Nat
  | .none => 0
  | .staging => 1
  | .released => 2
  | .hidden => 3

/-- The number of a slot state. -/
def SlotState.num : SlotState → Nat
  | .empty => 0
  | .pending => 1
  | .running => 2
  | .done => 3
  | .refused => 4

/-- The number of a result code (R188). -/
def ResultCode.num : ResultCode → Nat
  | .done => 0
  | .malformed => 1
  | .unknownCode => 2
  | .notInState => 3
  | .fixtureRequired => 4
  | .badParameter => 5
  | .cancelled => 6
  | .notCancellable => 7
  | .mapConflict => 8
  | .coverageIncomplete => 9
  | .shadowFailed => 10
  | .tableCheckFailed => 11
  | .bundleInvalid => 12
  | .regionInvalid => 13
  | .regionOutOfScope => 14
  | .flashFailed => 15
  | .controlFailed => 16
  | .fuseFailed => 17
  | .codeMismatch => 18
  | .attemptsExhausted => 19
  | .noServiceCode => 20

/-- The number of a kind of write. -/
def WriteKind.num : WriteKind → Nat
  | .program => 1
  | .eraseSector => 2
  | .eraseBlock => 3

/-- The number of a port. -/
def portNum : Port → Nat
  | .a => 0
  | .t => 1

/-- The number of a refusal reason (R189). -/
def RefusalReason.num : RefusalReason → Nat
  | .unmapped => 1
  | .noRight => 2
  | .classLocked => 3
  | .flipPending => 4
  | .spansEntries => 5
  | .noEnable => 6
  | .statusPage => 7
  | .slotBusy => 8

/-- The number of a queue. -/
def QueueId.num : QueueId → Nat
  | .sys => 0
  | .pass => 1
  | .set => 2
  | .uni => 3

/-- The number of a failure reason. -/
def FailReason.num : FailReason → Nat
  | .verifyMismatch => 1
  | .flashError => 2

/-- The number of an origin: 0 for Port A, else the slot. -/
def Origin.num : Origin → Nat
  | .portA => 0
  | .slot n => n

/-- One byte. -/
def byte (n : Nat) : Byte := BitVec.ofNat 8 n

end Sys2Proof.Machine
end

