-- ==== Sys2Proof/Machine/Flags.lean ====
section
/-! DEFINITION. Flag computations: the emulated status byte, the event set and EVENT, refusals and ignored writes, and the
almost-full flags. -/

namespace Sys2Proof.Machine

/-- The 13 events (R187). -/
inductive Event where
  | directiveDone
  | directiveRefused
  | writeRefused
  | ignoredBusy
  | programFailed
  | queueHigh
  | flipDone
  | passExpired
  | stageExpired
  | keyHidden
  | lifecycleChanged
  | codeRejected
  | controlFailed
  deriving DecidableEq, Repr

/-- The bit of an event (R187). -/
def Event.bit : Event → Nat
  | .directiveDone => 0
  | .directiveRefused => 1
  | .writeRefused => 2
  | .ignoredBusy => 3
  | .programFailed => 4
  | .queueHigh => 5
  | .flipDone => 6
  | .passExpired => 7
  | .stageExpired => 8
  | .keyHidden => 9
  | .lifecycleChanged => 10
  | .codeRejected => 11
  | .controlFailed => 12

/-- Add an event to the event set (R187). -/
def State.raise (s : State) (e : Event) : State :=
  s.onDir fun x => { x with events := x.events ||| (1#13 <<< e.bit) }

/-- EVENT is low exactly when the event set and the event mask have a member in common (R187). -/
def State.eventLow (s : State) : Bool := decide (s.dir.events &&& s.dir.mask ≠ 0)

/-- BUSY is 1 exactly while the busy cause is other than NONE (R40). -/
def PortState.busy (x : PortState) : Bool := decide (x.cause ≠ .none)

/-- The emulated status byte (R40, R192): BUSY, WEL, PROTECT-ERR, PROGRAM-ERR, IGNORED from bit 0 up. -/
def PortState.statusByte (x : PortState) : Byte :=
  byte (x.busy.toNat + 2 * x.wel.toNat + 4 * x.protectErr.toNat + 8 * x.programErr.toNat + 16 * x.ignored.toNat)

/-- Clear the three error flags (R42, R54). -/
def PortState.clearErrors (x : PortState) : PortState := { x with protectErr := false, programErr := false, ignored := false }

/-- A refused write (R27, R44, R46, R189): PROTECT-ERR, the last-refused-write record, the refusal count, WRITE-REFUSED. -/
def State.refuse (s : State) (p : Port) (kind : WriteKind) (addr : Nat) (reason : RefusalReason) : State :=
  let record : RefusedWrite := { port := p, kind := kind, addr := addr, reason := reason }
  ((s.onPort p fun x => { x with protectErr := true }).onDir fun x =>
    { x with refusedWrite := some record, refusals := saturate x.refusals }).raise .writeRefused

/-- A write ignored while BUSY (R45): IGNORED, the ignored count, IGNORED-BUSY. -/
def State.ignore (s : State) (p : Port) : State :=
  (s.onPort p fun x => { x with ignored := true, ignoredCount := saturate x.ignoredCount }).raise .ignoredBusy

/-- A queue holds at least as many entries as its level (R67). -/
def Queue.isHigh (x : Queue) : Bool := decide (x.level ≤ x.entries.length)

/-- A queue with its flag judged. -/
def Queue.judged (x : Queue) : Queue := { x with high := x.isHigh }

/-- Judge a queue's almost-full flag (R67); QUEUE-HIGH is raised when it passes from clear to set. -/
def State.judgeHigh (s : State) (q : QueueId) : State :=
  if (s.queues.get q).isHigh && !(s.queues.get q).high then (s.onQueue q Queue.judged).raise .queueHigh else s.onQueue q Queue.judged

/-- Replace a queue's entries, with its flag judged, as at each change of its count (R67). -/
def State.setEntries (s : State) (q : QueueId) (l : List Entry) : State :=
  (s.onQueue q fun x => { x with entries := l }).judgeHigh q

/-- A failed leaving is counted and raises PROGRAM-FAILED (R65). -/
def State.countFailure (s : State) (q : QueueId) : State :=
  (s.onQueue q fun x => { x with failures := saturate x.failures }).raise .programFailed

end Sys2Proof.Machine
end

