-- ==== Sys2Proof/Machine/RegionMap.lean ====
section
/-! DEFINITION. The region map: its entries and their ranges, SET-MAP's checks against the rest of the map, translation, and the
Classifier's decision on a program or erase. -/

namespace Sys2Proof.Machine

/-- Entry 15, which is fixed (R20). -/
def directiveEntry : MapEntry :=
  { cls := .directive, ubase := windowBase, size := 4096, pbase := 0, pbase2 := 0, aRight := .none, tRight := .none, posted := false }

/-- The upstream address lies in the entry's window (R20). -/
def MapEntry.holds (e : MapEntry) (a : Nat) : Bool := decide (e.ubase ≤ a) && decide (a < e.ubase + e.size)

/-- The physical base of a bank: bank 0 from physical base, bank 1 from physical base 2 (R114). -/
def MapEntry.bankBase (e : MapEntry) : Bank → Nat
  | .bank0 => e.pbase
  | .bank1 => e.pbase2

/-- The starts of the physical ranges of an entry, each of the entry's size (R20, R22). -/
def MapEntry.bases (e : MapEntry) : List Nat :=
  match e.cls with
  | .uniformity => [e.pbase, e.pbase2]
  | .directive => []
  | _ => [e.pbase]

/-- The enabled entries of a list, numbered from `n`. -/
def enabledFrom : Nat → List (Option MapEntry) → List (Nat × MapEntry)
  | _, [] => []
  | n, none :: l => enabledFrom (n + 1) l
  | n, some e :: l => (n, e) :: enabledFrom (n + 1) l

/-- The enabled entries of a map, entry 15 last (R20, R35). -/
def mapEntries (m : List (Option MapEntry)) : List (Nat × MapEntry) := enabledFrom 0 m ++ [(15, directiveEntry)]

/-- The enabled entries of the map in effect. -/
def State.entries (s : State) : List (Nat × MapEntry) := mapEntries s.life.fields.map

/-- The enabled entry an upstream address lies in. -/
def findEntry (es : List (Nat × MapEntry)) (a : Nat) : Option MapEntry := (es.find? (fun x => x.2.holds a)).map Prod.snd

/-- The enabled entry of a class. -/
def entryOfClass (m : List (Option MapEntry)) (c : RegionClass) : Option MapEntry :=
  ((mapEntries m).find? (fun x => decide (x.2.cls = c))).map Prod.snd

/-- The UNIFORMITY entry in effect. -/
def State.uniformity (s : State) : Option MapEntry := entryOfClass s.life.fields.map .uniformity

/-- The bank size of a map, 0 without a UNIFORMITY entry. -/
def bankSize (m : List (Option MapEntry)) : Nat :=
  match entryOfClass m .uniformity with
  | some e => e.size
  | none => 0

/-! ### Consistency (R21, R35) -/

/-- Two entries have a physical byte in common. -/
def physicalOverlap (e f : MapEntry) : Bool :=
  e.bases.any fun a => f.bases.any fun b => overlaps a e.size b f.size

/-- A class held by at most one entry (R21). -/
def RegionClass.single : RegionClass → Bool
  | .uniformity | .key | .settings => true
  | _ => false

/-- R35: the first conflict of entry `e`, written as number `n`, with the other enabled entries, as result data. -/
def conflict (n : Nat) (e : MapEntry) (es : List (Nat × MapEntry)) : Option Nat :=
  let others := es.filter (fun x => decide (x.1 ≠ n))
  match others.find? (fun x => overlaps e.ubase e.size x.2.ubase x.2.size) with
  | some x => some x.1
  | none =>
    match others.find? (fun x => physicalOverlap e x.2) with
    | some x => some x.1
    | none =>
      if e.cls = .uniformity ∧ overlaps e.pbase e.size e.pbase2 e.size = true then some n
      else if e.bases.any (fun a => overlaps a e.size controlSector 4096) then some 255
      else
        match others.find? (fun x => e.cls.single && decide (x.2.cls = e.cls)) with
        | some x => some x.1
        | none => none

/-- A map passes R35 for each of its enabled entries (R7, R21). -/
def mapConsistent (m : List (Option MapEntry)) : Bool :=
  (enabledFrom 0 m).all fun x => (conflict x.1 x.2 (mapEntries m)).isNone

/-! ### The locks (R36, R143, R172) -/

/-- SET-MAP's write lock: from the end of its fence until it leaves RUNNING (R36). -/
def State.writeLock (s : State) : Bool :=
  match s.dir.running with
  | some (.setMapRecord _ _) => true
  | _ => false

/-- SEAL's seal lock: from the end of its fence until it leaves RUNNING (R143). -/
def State.sealLock (s : State) : Bool :=
  match s.dir.running with
  | some (.sealValidate _) | some (.sealProgram _ _) | some (.sealRecord _ _) => true
  | _ => false

/-- SERVICE-CLOSE's lock: from the end of its fence until it leaves RUNNING (R172). -/
def State.serviceCloseLock (s : State) : Bool :=
  match s.dir.running with
  | some .serviceCloseCheck | some (.serviceCloseRecord _) => true
  | _ => false

/-- R27 step 4: the class is held by a lock. -/
def State.locked (s : State) : RegionClass → Bool
  | .pass => s.writeLock
  | .uniformity => s.writeLock || s.serviceCloseLock
  | .settings => s.writeLock || s.serviceCloseLock
  | .key => s.sealLock
  | .directive => false

/-! ### Classification of a program or erase (R26, R27) -/

/-- What the Classifier decides. -/
inductive Verdict where
  | refuse (r : RefusalReason)
  | stage
  | stageErase
  | slot
  | windowErase
  | queue (q : QueueId) (phys : Nat) (posted : Bool)
  deriving DecidableEq, Repr

/-- R26: the enabled entry a write lies wholly in, or the reason it has none. -/
def locate (es : List (Nat × MapEntry)) (kind : WriteKind) (a : Nat) : Except RefusalReason MapEntry :=
  match kind with
  | .eraseBlock =>
    match es.find? (fun x => decide (x.2.ubase ≤ blockOf a) && decide (blockOf a + 65536 ≤ x.2.ubase + x.2.size)) with
    | some x => .ok x.2
    | none => if es.any (fun x => overlaps (blockOf a) 65536 x.2.ubase x.2.size) then .error .spansEntries else .error .unmapped
  | _ =>
    match findEntry es a with
    | some e => .ok e
    | none => .error .unmapped

/-- The start of a write's range: its page, sector or block (R39). -/
def WriteKind.start (kind : WriteKind) (a : Nat) : Nat := a / kind.range * kind.range

/-- The rule of a class for a Port A write (R28, R30 to R33). -/
def State.classRule (s : State) (l : Lifecycle) (kind : WriteKind) (a : Nat) (e : MapEntry) : Verdict :=
  let off := kind.start a - e.ubase
  match e.cls with
  | .pass => if e.aRight = .readWrite then .queue .pass (e.pbase + off) e.posted else .refuse .noRight
  | .uniformity =>
    if l = .opened ∨ l = .sealed ∨ l = .service then
      if 0 < s.dir.flipCount then .refuse .flipPending else .queue .uni (e.bankBase s.live.other + off) true
    else .refuse .classLocked
  | .key => if l = .opened then (if kind = .program then .stage else .stageErase) else .refuse .classLocked
  | .settings => if l = .opened ∨ l = .service then .queue .set (e.pbase + off) true else .refuse .classLocked
  | .directive => if kind = .program then .slot else .windowErase

/-- R27: the first test that applies decides. -/
def State.classify (s : State) (p : Port) (l : Lifecycle) (kind : WriteKind) (a : Nat) : Verdict :=
  if p = .t then .refuse .noRight
  else if l = .safe ∧ (kind = .eraseBlock ∨ a < windowBase) then .refuse .classLocked
  else match locate s.entries kind a with
    | .error r => .refuse r
    | .ok e => if s.locked e.cls then .refuse .classLocked else s.classRule l kind a e

end Sys2Proof.Machine
end

