-- ==== Sys2Proof/Machine/Arbiter.lean ====
section
/-! DEFINITION. The Arbiter: claims, bids and grants; preemption, suspension and resumption (05). -/

namespace Sys2Proof.Machine

/-- The claimants in the fixed order that breaks ties (R80). -/
def claimants : List Claimant := [.tRead, .aRead, .sysRead, .qSys, .qPass, .qSet, .qUni, .prefetch]

/-- The queue a claimant stands for. -/
def claimQueue : Claimant → Option QueueId
  | .qSys => some .sys
  | .qPass => some .pass
  | .qSet => some .set
  | .qUni => some .uni
  | _ => none

/-- T-READ and A-READ, the claimants that may preempt (R90). -/
def isPortRead : Claimant → Bool
  | .tRead | .aRead => true
  | _ => false

/-- A claimant's standing claim. -/
def State.claim (s : State) (c : Claimant) : Option Claim := s.engine.claims.get c

/-- Set or remove a claimant's standing claim. -/
def State.setClaim (s : State) (c : Claimant) (v : Option Claim) : State :=
  s.onEngine fun x => { x with claims := x.claims.put c v }

/-- Set or remove a claimant's put-off claim (log entry 13). -/
def State.setDeferred (s : State) (c : Claimant) (v : Option Claim) : State :=
  s.onEngine fun x => { x with deferred := x.deferred.put c v }

/-! ### Bids (R80) -/

/-- The level of a claim: aged steps, plus the queue's count for a queue claim, at most 63. -/
def State.level (s : State) (c : Claimant) (cl : Claim) : Nat :=
  match claimQueue c with
  | none => min 63 cl.aged
  | some q => min 63 ((s.entriesOf q).length + cl.aged)

/-- The bid of a standing claim: 64 × weight + level. -/
def State.bid (s : State) (c : Claimant) : Option Nat :=
  (s.claim c).map fun cl => 64 * s.engine.weights.get c + s.level c cl

/-- The better of a claimant so far and the next in order: a later one wins only with a higher bid. -/
def State.better (s : State) (best : Option Claimant) (c : Claimant) : Option Claimant :=
  match s.bid c with
  | none => best
  | some n =>
    match best with
    | none => some c
    | some b => if (s.bid b).getD 0 < n then some c else some b

/-- The claimant with the highest bid among some, in tie-breaking order (R80, R82). -/
def State.highest (s : State) (cs : List Claimant) : Option Claimant := cs.foldl s.better none

/-! ### Grants (R82, R92, R93) -/

/-- The state of a queue's head. -/
def State.headState (s : State) (q : QueueId) : Option EntryState := (s.entriesOf q).head?.map Entry.state

/-- The operation in flight is suspended (R78). -/
def State.suspended (s : State) : Bool :=
  match s.engine.write with
  | some q => decide (s.headState q = some .suspended)
  | none => false

/-- Port F is free when no operation occupies it (R77). -/
def State.portFree (s : State) : Bool := s.engine.write.isNone && s.engine.read.isNone

/-- The phase in which an entry becomes ACTIVE (R82). -/
def WriteKind.firstPhase : WriteKind → WorkPhase
  | .program => .preRead
  | _ => .program

/-- An entry becomes ACTIVE (R82). -/
def Entry.activate (e : Entry) : Entry := { e with state := .active e.kind.firstPhase, retries := 0 }

/-- The page read of a claim. -/
def PageRead.of (c : Claimant) (cl : Claim) : PageRead :=
  { claimant := c, range := cl.range.getD { page := 0, lo := 0, hi := 0 }, discard := false }

/-- Grant Port F to a standing claim: a page read starts, or a queue's head becomes ACTIVE with suspend count 0 (R82). -/
def State.grant (s : State) (c : Claimant) : State :=
  match s.claim c with
  | none => s
  | some cl =>
    match claimQueue c with
    | some q =>
      ((s.setClaim c none).setHead q Entry.activate).onEngine fun x => { x with write := some q, suspendCount := 0, waited := 0 }
    | none => (s.setClaim c none).onEngine fun x => { x with read := some (PageRead.of c cl) }

/-- Resume the suspended operation: its entry is ACTIVE in WAIT (R93). -/
def State.resume (s : State) (q : QueueId) : State := s.setHead q (fun e => { e with state := .active .wait })

/-- A grant point. With Port F free, the highest bid of all; during a suspension, the higher bid of T-READ and A-READ, and where
neither stands the operation is resumed (R82, R92, R93). At a resumption no read claim stands, so R90 finds nothing to preempt. -/
def State.grantPoint (s : State) : State :=
  match s.engine.read with
  | some _ => s
  | none =>
    match s.engine.write with
    | none =>
      match s.highest claimants with
      | some c => s.grant c
      | none => s
    | some q =>
      if s.suspended then
        match s.highest [.tRead, .aRead] with
        | some c => s.grant c
        | none => s.resume q
      else s

/-! ### Preemption (R89 to R91) -/

/-- A read claim's bid is at least the preempt bar. -/
def State.overBar (s : State) (c : Claimant) : Bool :=
  match s.bid c with
  | some n => decide (s.engine.bar ≤ n)
  | none => false

/-- Suspend the operation: the entry is SUSPENDED and the count rises; the suspension is a grant point (R91, R92). -/
def State.suspend (s : State) (q : QueueId) : State :=
  ((s.setHead q (fun e => { e with state := .suspended })).onEngine fun x => { x with suspendCount := x.suspendCount + 1 }).grantPoint

/-- R90: a T-READ or A-READ claim at or over the bar preempts an operation in WAIT whose suspend count is below the limit. -/
def State.judgePreempt (s : State) : State :=
  match s.engine.write with
  | some q =>
    if s.headState q = some (.active .wait) ∧ s.engine.suspendCount < s.engine.limit
        ∧ (s.overBar .tRead || s.overBar .aRead) = true then s.suspend q
    else s
  | none => s

/-! ### Raising and withdrawing (R79, R81, R82) -/

/-- A discarded page read of the claimant is still running, so a new claim of it must wait (R79: "at most one claim standing or
granted"; log entry 13). -/
def State.discarding (s : State) (c : Claimant) : Bool :=
  match s.engine.read with
  | some r => decide (r.claimant = c) && r.discard
  | none => false

/-- A claim as it is raised (R81). -/
def State.newClaim (s : State) (range : Option ReadRange) : Claim := { range := range, aged := 0, due := s.engine.interval }

/-- Raise a claim: it starts with 0 aged steps, is granted at once where Port F is free, and a port's read is judged for
preemption (R81, R82, R90). -/
def State.raiseClaim (s : State) (c : Claimant) (range : Option ReadRange) : State :=
  if s.discarding c then s.setDeferred c (some (s.newClaim range))
  else if s.portFree then (s.setClaim c (some (s.newClaim range))).grant c
  else if isPortRead c then (s.setClaim c (some (s.newClaim range))).judgePreempt
  else s.setClaim c (some (s.newClaim range))

/-- Withdraw a claimant's claim that is not granted. -/
def State.withdraw (s : State) (c : Claimant) : State := (s.setClaim c none).setDeferred c none

/-- Mark a granted page read of the claimant as wanted no more: it runs to its end and its bytes are discarded (R53, R83). -/
def State.discardGranted (s : State) (c : Claimant) : State :=
  s.onEngine fun x => { x with read := x.read.map fun r => if r.claimant = c then { r with discard := true } else r }

/-- A reader stops reading: its claim is withdrawn, its granted page read discarded (R53, R96). -/
def State.dropRead (s : State) (c : Claimant) : State := (s.withdraw c).discardGranted c

/-- A claim put off stands again once the discarded page read has ended (log entry 13). -/
def State.raiseDeferred (s : State) (c : Claimant) : State :=
  match s.engine.deferred.get c with
  | some cl => (s.setDeferred c none).raiseClaim c cl.range
  | none => s

/-- A standing claim gains an aged step; its next comes one interval later; a port's read is judged for preemption (R81, R90). -/
def State.ageClaim (s : State) (c : Claimant) : State :=
  match s.claim c with
  | none => s
  | some cl =>
    let older := { cl with aged := cl.aged + 1, due := s.engine.interval }
    if isPortRead c then (s.setClaim c (some older)).judgePreempt else s.setClaim c (some older)

/-- A queue raises its claim when an entry becomes its head while QUEUED (R61). -/
def State.claimHead (s : State) (q : QueueId) : State :=
  if s.headState q = some .queued then s.raiseClaim q.claimant none else s

/-- Port F becomes free, or the page read of a suspension ends: a grant point (R82, R92). -/
def State.endPageRead (s : State) : State := (s.onEngine fun x => { x with read := none }).grantPoint

/-- The end of a program or erase: the suspend count is copied and cleared, Port F becomes free (R88). -/
def State.endWrite (s : State) : State :=
  (s.onEngine fun x => { x with write := none, waited := 0, lastSuspend := x.suspendCount, suspendCount := 0 }).grantPoint

end Sys2Proof.Machine
end

