-- ==== Sys2Proof/Machine/Passes.lean ====
section
/-! DEFINITION. The read-ahead buffer (06 section 6.5), passes and the coverage map (07). -/

namespace Sys2Proof.Machine

/-! ### The read-ahead buffer -/

/-- The physical page a slot names. -/
def AheadSlot.page? : AheadSlot → Option Nat
  | .empty => none
  | .filling p => some p
  | .held p _ => some p

/-- The slot that names a page. -/
def State.aheadSlot (s : State) (page : Nat) : Option AheadSlot := s.ahead.slots.find? (fun x => decide (x.page? = some page))

/-- The physical base of the open pass's bank. -/
def State.passBase (s : State) : Nat :=
  match s.uniformity with
  | some e => e.bankBase s.uni.pass.bank
  | none => 0

/-- Some slot is FILLING. -/
def State.isFilling (s : State) : Bool := s.ahead.slots.any fun x => match x with | .filling _ => true | _ => false

/-- Change each slot. -/
def State.mapSlots (s : State) (f : AheadSlot → AheadSlot) : State :=
  s.onAhead fun x => { x with slots := x.slots.map f }

/-- The FILLING slot is wanted no more: with its claim not granted the claim is withdrawn and the slot is EMPTY; with it granted
the slot stays until the page read ends, whose bytes are discarded (R109, R113). -/
def State.dropFilling (s : State) : State :=
  if (s.claim .prefetch).isSome then
    (s.withdraw .prefetch).mapSlots fun x => match x with | .filling _ => .empty | y => y
  else s.discardGranted .prefetch

/-- Clear the buffer (R113). -/
def State.clearAhead (s : State) : State :=
  (s.dropFilling.mapSlots fun x => match x with | .held _ _ => .empty | y => y).onAhead fun x => { x with position := none }

/-- A page lies outside the position and the 8 pages after it (R109). -/
def outside (base i page : Nat) : Bool := decide (page < base + 256 * i) || decide (base + 256 * (i + 8) < page)

/-- A HELD slot outside the window is freed (R109). -/
def AheadSlot.freeOutside (base i : Nat) : AheadSlot → AheadSlot
  | .held p b => if outside base i p then .empty else .held p b
  | x => x

/-- The slot is FILLING with a page outside the window. -/
def AheadSlot.fillsOutside (base i : Nat) : AheadSlot → Bool
  | .filling p => outside base i p
  | _ => false

/-- A FILLING slot outside the window is wanted no more (R109). -/
def State.dropOutside (s : State) (base i : Nat) : State :=
  if s.ahead.slots.any (AheadSlot.fillsOutside base i) then s.dropFilling else s

/-- Move the position: slots outside it and the 8 pages after it are freed (R109). -/
def State.movePosition (s : State) (i : Nat) : State :=
  let base := s.passBase
  ((s.mapSlots (AheadSlot.freeOutside base i)).dropOutside base i).onAhead fun x => { x with position := some i }

/-- Put a page to be filled into the first EMPTY slot. R110 marks "one EMPTY slot" and does not say which: the first of the list is the
model's choice (log entry 30). -/
def fillFirst (page : Nat) : List AheadSlot → List AheadSlot
  | [] => []
  | .empty :: l => .filling page :: l
  | x :: l => x :: fillFirst page l

/-- The PREFETCH page wanted (R110): the lowest page of the 8 after the position that is in no slot, where it lies below the pass
length, while a pass is open, no slot is FILLING and some slot is EMPTY. -/
def State.prefetchWanted (s : State) : Option Nat :=
  match s.ahead.position with
  | none => none
  | some i =>
    if s.uni.pass.isOpen = true ∧ s.life.lifecycle ≠ some .safe ∧ s.isFilling = false
        ∧ s.ahead.slots.any (fun x => decide (x = .empty)) = true then
      match ((List.range 8).map (fun k => i + 1 + k)).find? (fun k => (s.aheadSlot (s.passBase + 256 * k)).isNone) with
      | some k => if 256 * k < s.uni.pass.length then some (s.passBase + 256 * k) else none
      | none => none
    else none

/-- Judge the PREFETCH demand (R110). -/
def State.judgePrefetch (s : State) : State :=
  match s.prefetchWanted with
  | some page =>
    (s.onAhead fun x => { x with slots := fillFirst page x.slots }).raiseClaim .prefetch
      (some { page := page, lo := 0, hi := 255 })
  | none => s

/-! ### Passes (R118 to R124) -/

/-- The default pass idle time in milliseconds, by the refresh family of the region cache (R124). -/
def defaultIdle : Option Region → Nat
  | some ⟨_, .f60⟩ => 34
  | some ⟨_, .dual⟩ => 34
  | _ => 40

/-- The pass idle time in effect, in microseconds (R124). -/
def State.passIdle (s : State) : Nat := 1000 * s.uni.idleSetting.getD (defaultIdle s.life.fields.region)

/-- The pass length in effect (R124). -/
def State.passLength (s : State) : Nat := s.uni.lengthSetting.getD (bankSize s.life.fields.map)

/-- Change the pass record. -/
def State.onPass (s : State) (f : PassRecord → PassRecord) : State := s.onUni fun x => { x with pass := f x.pass }

/-- A Port T uniformity segment opens a pass on the live bank, or continues the open one and stops its idle timer (R119 to R121). -/
def State.takePass (s : State) : State :=
  if s.uni.pass.isOpen then s.onPass fun x => { x with idle := .stopped }
  else s.onPass fun x => { x with isOpen := true, bank := s.live, length := s.passLength }

/-- The effects of a pass's close (R123 steps 1 to 3). -/
def State.closePass (s : State) : State :=
  (s.onPass fun x => { x with isOpen := false, idle := .stopped, count := x.count + 1 }).clearAhead

/-- The idle timer starts from the idle time in effect (R121). -/
def State.startIdle (s : State) : State := s.onPass fun x => { x with idle := .running s.passIdle }

/-! ### Coverage (R116, R117) -/

/-- Every sector of a bank of this size STALE. -/
def freshCoverage (size : Nat) : List Coverage := List.replicate (size / 4096) .stale

/-- The table of R117: the state of a sector after an entry that covers it leaves. -/
def Coverage.after (c : Coverage) (kind : WriteKind) (failed : Bool) : Coverage :=
  if failed then .failed
  else match kind, c with
    | .program, .stale => .stale
    | .program, .failed => .failed
    | .program, _ => .written
    | _, _ => .clean

/-- Move the sectors from index `i` on, `n` of them. -/
def coverFrom (i n : Nat) (f : Coverage → Coverage) (l : List Coverage) : List Coverage :=
  l.mapIdx fun k c => if i ≤ k ∧ k < i + n then f c else c

/-- A Q-UNI entry leaves: the sectors its range covers move by R117. -/
def State.coverage (s : State) (e : Entry) (failed : Bool) : State :=
  match s.uniformity with
  | none => s
  | some m =>
    let base := m.bankBase s.live.other
    let n := match e.kind with | .eraseBlock => 16 | _ => 1
    if base ≤ e.addr then
      s.onUni fun x => { x with coverage := coverFrom ((e.addr - base) / 4096) n (fun c => c.after e.kind failed) x.coverage }
    else s

end Sys2Proof.Machine
end

