-- ==== Sys2Proof/Machine/StatusPage.lean ====
section
/-! DEFINITION. The images a Port A read of the directive window returns: the status page and the slot records (R176, R190, R192). -/

namespace Sys2Proof.Machine

/-- Bytes filled up with `0x00` to a length (R192). -/
def padTo (n : Nat) (l : List Byte) : List Byte := l ++ List.replicate (n - l.length) 0

/-- Slot `n`, 1 to 15. -/
def State.slot (s : State) (n : Nat) : Slot := s.dir.slots.getD (n - 1) Slot.reset

/-- Replace slot `n`. -/
def State.setSlot (s : State) (n : Nat) (x : Slot) : State := s.onDir fun d => { d with slots := d.slots.set (n - 1) x }

/-- Change slot `n`. -/
def State.onSlot (s : State) (n : Nat) (f : Slot → Slot) : State := s.setSlot n (f (s.slot n))

/-- The slot that is RUNNING, 0 when none runs (R190). -/
def State.runningSlot (s : State) : Nat :=
  match s.dir.queue with
  | n :: _ => if (s.slot n).state = .running then n else 0
  | [] => 0

/-- A slot record as a read of its page returns it (R192). -/
def Slot.image256 (x : Slot) : List Byte :=
  padTo 256 ([byte x.state.num, x.code, x.tag, x.len, (match x.result with | some c => byte c.num | none => 0xFF),
    byte x.data.length] ++ x.data)

/-- The five bytes of a queue on the status page. -/
def State.queueBytes (s : State) (q : QueueId) : List Byte :=
  let x := s.queues.get q
  [byte x.entries.length, byte (s.pagesHeld q), byte x.level, byte x.high.toNat, byte x.failures]

/-- The first-failure record on the status page, offsets 56 to 75. -/
def firstFailureBytes : Option FirstFailure → List Byte
  | none => List.replicate 20 0
  | some f =>
    [1, byte f.queue.num, byte f.kind.num, byte f.origin.num] ++ leBytes 4 f.seq.toNat ++ leBytes 4 f.addr
      ++ leBytes 4 (f.upstream.getD 0xFFFFFFFF) ++ [byte f.reason.num, 0, 0, 0]

/-- The last-refused-write record on the status page, offsets 76 to 83. -/
def refusedBytes : Option RefusedWrite → List Byte
  | none => List.replicate 8 0
  | some r => [1, byte (portNum r.port), byte r.kind.num, byte r.reason.num] ++ leBytes 4 r.addr

/-- The number of sectors in a coverage state (R116). -/
def State.coverageCount (s : State) (c : Coverage) : Nat := s.uni.coverage.countP (fun x => decide (x = c))

/-- The status page (R190), laid out by R192. -/
def State.statusPage (s : State) : List Byte :=
  padTo 256 (
    leBytes 2 0x2608 ++
    [1, (match s.life.lifecycle with | some l => byte l.num | none => 0), byte s.life.fixture.toNat, byte s.life.fuse.toNat,
     byte s.live.num, byte s.key.window.num] ++
    (match s.life.fields.region with | some r => leBytes 2 r.code ++ [byte r.family.num] | none => [0, 0, 0]) ++
    [byte s.attempts] ++ leBytes 2 s.dir.events.toNat ++ leBytes 2 s.dir.mask.toNat ++
    s.queueBytes .sys ++ s.queueBytes .pass ++ s.queueBytes .set ++ s.queueBytes .uni ++
    [byte s.freePages, byte s.dir.queue.length, byte s.runningSlot, byte s.engine.lastSuspend, byte s.portA.ignoredCount,
     byte s.portT.ignoredCount, byte s.uni.pass.isOpen.toNat, byte s.uni.pass.bank.num] ++
    leBytes 2 s.uni.pass.count.toNat ++
    leBytes 2 (s.coverageCount .stale) ++ leBytes 2 (s.coverageCount .clean) ++ leBytes 2 (s.coverageCount .written) ++
    leBytes 2 (s.coverageCount .failed) ++ [0, 0] ++
    firstFailureBytes s.firstFailure ++ refusedBytes s.dir.refusedWrite ++ [byte s.dir.refusals])

/-- The image of a page of the directive window: the status page, or a slot record (R101, R175). -/
def State.windowPage (s : State) (n : Nat) : List Byte := if n = 0 then s.statusPage else (s.slot n).image256

end Sys2Proof.Machine
end

