-- ==== Sys2Proof/Machine/ReadPath.lean ====
section
/-! DEFINITION. The Read Path: segments and their sources, the overlay, pieces, and the delivery of bytes (02 R24, R25; 03 R52; 06). -/

namespace Sys2Proof.Machine

/-! ### The overlay (R103) -/

/-- What the overlay makes of a byte so far: whether it is fixed, and its value; an unfixed value is ANDed into the flash byte. -/
structure Overlaid where
  fixed : Bool
  value : Byte
  deriving DecidableEq, Repr

/-- The entry's range covers a physical address. -/
def Entry.touches (e : Entry) (a : Nat) : Bool := decide (e.addr ≤ a) && decide (a < e.addr + e.kind.range)

/-- The effect of one entry on a byte (the table of R103). -/
def Entry.over (e : Entry) (a : Nat) (x : Overlaid) : Overlaid :=
  if e.touches a = false then x
  else match e.kind with
    | .program =>
      match e.state with
      | .queued =>
        match coveredByte e.data (a - e.addr) with
        | some b => { x with value := x.value &&& b }
        | none => x
      | _ =>
        match e.image with
        | some img => { fixed := true, value := Mem.get img (a - e.addr) }
        | none => x
    | _ => { fixed := true, value := erasedByte }

/-- The overlay of a byte: the entries of the owning queue in order, head first. -/
def overlayByte (l : List Entry) (a : Nat) : Overlaid := l.foldl (fun x e => e.over a x) { fixed := false, value := erasedByte }

/-- The overlay of a range of one page. -/
def overlay (l : List Entry) (r : ReadRange) : List Overlaid :=
  (List.range (r.hi + 1 - r.lo)).map fun i => overlayByte l (r.page + r.lo + i)

/-- A byte under the overlay: its fixed value, or the flash byte ANDed with the queued data. -/
def Overlaid.over (x : Overlaid) (b : Byte) : Byte := if x.fixed then x.value else b &&& x.value

/-- The bytes of a range: the flash with the overlay laid over it (R104). -/
def combine (flash : Mem) (l : List Entry) (r : ReadRange) : List Byte :=
  (List.range (r.hi + 1 - r.lo)).map fun i =>
    (overlayByte l (r.page + r.lo + i)).over (Mem.get flash (r.page + r.lo + i))

/-- The head of the queue is a PROGRAM in PRE-READ for the page (R104 step 2). -/
def headPreReads (l : List Entry) (page : Nat) : Bool :=
  match l with
  | e :: _ => decide (e.kind = .program) && decide (e.state = .active .preRead) && decide (e.addr = page)
  | [] => false

/-- The range of the unfixed bytes, from the lowest to the highest (R104 step 4). -/
def unfixedRange (l : List Entry) (r : ReadRange) : ReadRange :=
  let open_ := (List.range (r.hi + 1 - r.lo)).filter fun i => !(overlayByte l (r.page + r.lo + i)).fixed
  { r with lo := r.lo + open_.headD 0, hi := r.lo + open_.getLastD 0 }

/-! ### Judging a piece (R104, R105, R112) -/

/-- Set the piece of a port's read. -/
def State.setPiece (s : State) (p : Port) (x : Piece) : State :=
  match s.reading p with
  | some r => s.setReading p { r with piece := x }
  | none => s

/-- The piece raises the port's read claim for its unfixed bytes (R104 step 4). -/
def State.claimPiece (s : State) (p : Port) (l : List Entry) (r : ReadRange) : State :=
  (s.setPiece p (.claim r)).raiseClaim (portClaimant p) (some (unfixedRange l r))

/-- Judge a piece: the overlay alone, the wait for an expected image, the read-ahead buffer, or a read claim (R104, R112). -/
def State.judgePiece (s : State) (p : Port) (seg : Segment) (r : ReadRange) : State :=
  let l := s.entriesOf seg.owner
  let ov := overlay l r
  if ov.all Overlaid.fixed then s.setPiece p (.ready (ov.map Overlaid.value))
  else if headPreReads l r.page then s.setPiece p (.image r)
  else match (if seg.inPass then s.aheadSlot r.page else none) with
    | some (.held _ bytes) => s.setPiece p (.ready ((bytes.drop r.lo).take (r.hi + 1 - r.lo)))
    | some (.filling _) =>
      if (s.claim .prefetch).isSome then s.dropFilling.claimPiece p l r else s.setPiece p (.slot r)
    | _ => s.claimPiece p l r

/-- R105: a standing claim's piece is judged again; where every byte is now fixed the claim is withdrawn. -/
def State.rejudgeClaim (s : State) (q : QueueId) (p : Port) : State :=
  match s.reading p with
  | none => s
  | some rd =>
    match rd.seg, rd.piece with
    | some seg, .claim r =>
      let c := portClaimant p
      let ov := overlay (s.entriesOf q) r
      if seg.owner = q ∧ ((s.claim c).isSome || (s.engine.deferred.get c).isSome) = true ∧ ov.all Overlaid.fixed = true then
        (s.withdraw c).setPiece p (.ready (ov.map Overlaid.value))
      else s
    | _, _ => s

/-- A piece that waits for an expected image is judged again once an image is formed (R104 step 2). -/
def State.rejudgeImage (s : State) (q : QueueId) (p : Port) : State :=
  match s.reading p with
  | none => s
  | some rd =>
    match rd.seg, rd.piece with
    | some seg, .image r => if seg.owner = q then s.judgePiece p seg r else s
    | _, _ => s

/-- An entry joins the queue: the pieces with standing claims are judged again (R105). -/
def State.rejudgeJoin (s : State) (q : QueueId) : State := (s.rejudgeClaim q .t).rejudgeClaim q .a

/-- The queue's head has formed its expected image: pieces with standing claims and pieces that wait for it are judged again
(R104, R105). -/
def State.rejudgeFormed (s : State) (q : QueueId) : State := ((s.rejudgeJoin q).rejudgeImage q .t).rejudgeImage q .a

/-- A Port T piece that waits for a read-ahead slot is judged again (R111). -/
def State.rejudgeSlot (s : State) : State :=
  match s.reading .t with
  | some rd =>
    match rd.seg, rd.piece with
    | some seg, .slot r => s.judgePiece .t seg r
    | _, _ => s
  | none => s

/-- The physical address of the read's next byte. -/
def Segment.physAt (seg : Segment) (a : Nat) : Nat := seg.phys + (a - seg.first)

/-- The byte may be barred: it lies in the key sector of the map in effect, a SEAL has carried a bundle there, and the segment is not one
of the KEY entry, but was formed before a SET-MAP made the sector the key sector. R37 lets such a read return the content of its physical
range, R160 lets it return no byte of key sector content, and the spec ranks neither above the other: which one holds is the free value
`Config.secrecyHolds` (log entry 28). -/
def State.keyBarred (s : State) (seg : Segment) (a : Nat) : Bool :=
  match entryOfClass s.life.fields.map .key with
  | some k =>
    decide (s.carried = some k.pbase) && decide (seg.cls ≠ some .key) && decide (k.pbase ≤ seg.physAt a) &&
      decide (seg.physAt a < k.pbase + k.size) && Config.secrecyHolds
  | none => false

/-- The page read of a port's claim has ended: the overlay is formed again and the piece is ready (R104), a key bundle's bytes but for
the KEY window barred (R160). No other source can hold one: an overlay is of the segment's own class (R60), and the read-ahead buffer is
emptied where the UNIFORMITY entry changes (R37). -/
def State.completePiece (s : State) (p : Port) : State :=
  match s.reading p with
  | some rd =>
    match rd.seg, rd.piece with
    | some seg, .claim r =>
      s.setPiece p (.ready ((combine s.flash (s.entriesOf seg.owner) r).mapIdx fun k b =>
        if s.keyBarred seg (rd.addr + k) then erasedByte else b))
    | _, _ => s
  | none => s

/-! ### Segments (R24, R25, R99) -/

/-- The last address of the segment that begins at an address in no entry: the byte before the next enabled entry. -/
def gapEnd (es : List (Nat × MapEntry)) (a : Nat) : Nat :=
  es.foldl (fun m x => if a < x.2.ubase ∧ x.2.ubase - 1 < m then x.2.ubase - 1 else m) (spaceSize - 1)

/-- A segment with no flash content. -/
def plainSegment (first last : Nat) (cls : Option RegionClass) (src : Source) (offset : Nat) : Segment :=
  { first := first, last := last, cls := cls, source := src, owner := .sys, phys := 0, offset := offset, inPass := false }

/-- The source, owning queue and physical address of a segment of entry `e` that begins at `a` (R25, R28 to R33, R99).
Port T's uniformity segments are left to `formSegment`. -/
def State.segmentOf (s : State) (p : Port) (l : Lifecycle) (e : MapEntry) (a : Nat) : Segment :=
  let last := e.ubase + e.size - 1
  let off := a - e.ubase
  let none_ := plainSegment a last (some e.cls) .erased off
  let flash := fun (q : QueueId) (phys : Nat) =>
    { none_ with source := .flash, owner := q, phys := phys + off }
  match e.cls with
  | .directive => if p = .a then plainSegment a last (some .directive) .window off else none_
  | .pass =>
    if l = .safe then none_
    else if (match p with | .a => e.aRight | .t => e.tRight) = .none then none_ else flash .pass e.pbase
  | .settings =>
    if l = .safe then none_ else if p = .t ∧ e.tRight = .none then none_ else flash .set e.pbase
  | .key =>
    if p = .t ∨ l = .safe then none_
    else if l = .opened then plainSegment a last (some .key) .staging off
    else if s.key.window = .released then flash .sys e.pbase
    else none_
  | .uniformity =>
    if l = .safe then none_
    else match p with
      | .a => flash .uni (e.bankBase (if l = .closed then s.live else s.live.other))
      | .t => flash .uni (e.bankBase s.uni.pass.bank)

/-- A FLIP is in its SWITCH phase (R134). -/
def State.switching (s : State) : Bool := decide (s.dir.running = some .flipSwitch)

/-- Form the segment that begins at the read's next address (R24). A Port T uniformity segment opens or continues a pass, or is held
by SWITCH (R119, R120, R134). -/
def State.formSegment (s : State) (p : Port) (rd : Reading) (l : Lifecycle) : State :=
  match findEntry s.entries rd.addr with
  | none =>
    s.setReading p { rd with seg := some (plainSegment rd.addr (gapEnd s.entries rd.addr) none .erased 0), piece := .fresh }
  | some e =>
    if p = .t ∧ e.cls = .uniformity ∧ l ≠ .safe then
      if s.switching then
        s.setReading p { rd with seg := some (plainSegment rd.addr (e.ubase + e.size - 1) (some .uniformity) .held (rd.addr - e.ubase)),
                                 piece := .fresh }
      else
        let again := s.uni.pass.isOpen && rd.inPass
        let s := s.takePass
        s.setReading p { rd with seg := some { s.segmentOf p l e rd.addr with inPass := true }, piece := .fresh, inPass := true,
                                 passLast := again && rd.passLast }
    else s.setReading p { rd with seg := some (s.segmentOf p l e rd.addr), piece := .fresh }

/-- The piece that begins at the read's next byte: to the end of its page, of its segment, or of the bytes clocked
(R102; log entry 10). -/
def pieceRange (rd : Reading) (seg : Segment) : ReadRange :=
  let x := seg.physAt rd.addr
  let n := min (min (256 - x % 256) (seg.last + 1 - rd.addr)) rd.want
  { page := pageOf x, lo := x % 256, hi := x % 256 + n - 1 }

/-- Make the piece of the read's next byte ready where that can be: a window page takes its image (R101; when, log entry 10), a flash-backed piece is
judged (R102), with the read-ahead position moved first and the PREFETCH demand judged after (R109). -/
def State.preparePiece (s : State) (p : Port) (rd : Reading) (seg : Segment) : State :=
  match seg.source with
  | .window =>
    let o := rd.addr - windowBase
    s.setPiece p (.ready ((s.windowPage (o / 256)).drop (o % 256)))
  | .flash =>
    let r := pieceRange rd seg
    if seg.inPass then
      let i := (r.page - s.passBase) / 256
      let s := if s.ahead.position = some i then s else s.movePosition i
      (s.judgePiece p seg r).judgePrefetch
    else s.judgePiece p seg r
  | _ => s

/-! ### Delivery (R52, R101, R122, R158) -/

/-- The byte now ready for the read's next address, with the rest of its piece. -/
def State.nextByte (s : State) (rd : Reading) (seg : Segment) : Option (Byte × Piece) :=
  match seg.source with
  | .erased => some (erasedByte, .fresh)
  | .staging => some (Mem.get s.key.staging (seg.offset + (rd.addr - seg.first)), .fresh)
  | .held => none
  | _ =>
    match rd.piece with
    | .ready (b :: l) => some (b, if l = [] then .fresh else .ready l)
    | _ => none

/-- The read after a byte has been delivered: the next address, and whether this was the pass's last byte (R122) or the last byte of
the sealed bundle (R158). -/
def State.afterByte (s : State) (rd : Reading) (seg : Segment) (pc : Piece) : Reading :=
  let off := seg.offset + (rd.addr - seg.first)
  { rd with
    addr := (rd.addr + 1) % spaceSize
    want := rd.want - 1
    seg := if rd.addr = seg.last then none else some seg
    piece := if rd.addr = seg.last then .fresh else pc
    passLast := rd.passLast || (seg.inPass && decide (off + 1 = s.uni.pass.length))
    keyLast := rd.keyLast || (decide (seg.cls = some .key) && decide (seg.source = .flash) && decide (off + 1 = s.key.sealedLen)) }

/-- Form the segment of the read's next byte where the read has reached a new one, or where SWITCH has let go of a held one. A segment
once formed keeps its classification and physical range through a SET-MAP and a SEAL (R24, R37); what R160 asks of its bytes is left to
`State.keyBarred` (log entry 28). -/
def State.reachSegment (s : State) (p : Port) (rd : Reading) (l : Lifecycle) : State :=
  match rd.seg with
  | none => s.formSegment p rd l
  | some seg => if seg.source = .held ∧ s.switching = false then s.formSegment p rd l else s

/-- Prepare the piece of the read's next byte where the read has reached a new one. -/
def State.reachPiece (s : State) (p : Port) : State :=
  match s.reading p with
  | some rd =>
    match rd.seg with
    | some seg => if rd.piece = .fresh then s.preparePiece p rd seg else s
    | none => s
  | none => s

/-- Hand the next byte to the master where it is ready. -/
def State.handByte (s : State) (p : Port) : State × Bool :=
  match s.reading p with
  | some rd =>
    match rd.seg with
    | some seg =>
      match s.nextByte rd seg with
      | some (b, pc) =>
        (s.onPort p fun x => { x with link := .reading (s.afterByte rd seg pc), returned := x.returned ++ [b] }, true)
      | none => (s, false)
    | none => (s, false)
  | none => (s, false)

/-- Deliver one byte. The flag says that a byte was delivered; otherwise the read is held, or asks for nothing (R52). The port reaches a
piece when its first byte is clocked: a window page's image too is taken then, and not when the last byte before it has been delivered
(R101; the model's choice, log entry 10). -/
def State.deliverByte (s : State) (p : Port) : State × Bool :=
  match s.reading p, s.life.lifecycle with
  | some rd, some l => if rd.want = 0 then (s, false) else ((s.reachSegment p rd l).reachPiece p).handByte p
  | _, _ => (s, false)

/-- Deliver bytes while they are ready, at most `n`. -/
def deliver : Nat → Port → State → State
  | 0, _, s => s
  | n + 1, p, s =>
    match s.deliverByte p with
    | (s', true) => deliver n p s'
    | (s', false) => s'

/-- Deliver what a port's read has asked for and is ready. -/
def State.runPort (s : State) (p : Port) : State :=
  match s.reading p with
  | some rd => deliver rd.want p s
  | none => s

/-- Deliver what both ports' reads have asked for and is ready. -/
def State.runReads (s : State) : State := (s.runPort .t).runPort .a

end Sys2Proof.Machine
end

