-- ==== Sys2Proof/Machine/WriteQueues.lean ====
section
/-! DEFINITION. The write queues and the page pool: making an entry, leaving, failure bookkeeping, room, DISCARD (04). -/

namespace Sys2Proof.Machine

/-- An entry is added to the tail of a queue with the next sequence number (R59). -/
def State.addEntry (s : State) (q : QueueId) (e : Entry) : State :=
  ({ s with nextSeq := s.nextSeq + 1 } : State).setEntries q (s.entriesOf q ++ [{ e with seq := s.nextSeq }])

/-- The queue raises its claim where the entry added found it empty (R61). -/
def State.claimFirst (s : State) (q : QueueId) (before : List Entry) : State := if before.isEmpty then s.claimHead q else s

/-- A new entry joins the tail of its queue with the next sequence number; where it becomes the head its queue raises a claim, and the
pieces of standing reads are judged again (R59, R61, R105). -/
def State.joinEntry (s : State) (q : QueueId) (e : Entry) : State :=
  (((s.addEntry q e).claimFirst q (s.entriesOf q)).rejudgeJoin q)

/-- Give a pool page to a PROGRAM about to be made into an entry (R62, R63; log entry 15). -/
def State.takePage (s : State) (kind : WriteKind) : State × Option Nat :=
  match kind with
  | .program => (s.setPool s.pool.tail, s.pool.head?)
  | _ => (s, none)

/-- The entry of a Port A write (R27, R57). -/
def QueuedWrite.entry (w : QueuedWrite) (seq : BitVec 32) (page : Option Nat) : Entry :=
  { seq := seq, kind := w.kind, addr := w.addr, data := w.data, page := page, origin := .portA, upstream := some w.upstream,
    posted := w.posted, state := .queued, retries := 0, image := none }

/-- A Port A write becomes a queue entry, and the port's busy cause is set: ROOM for a posted entry, ENTRY for a non-posted one
(R47). ROOM is judged at once (R48) by the settling of the event. -/
def State.postWrite (s : State) (w : QueuedWrite) : State :=
  ((s.takePage w.kind).1.joinEntry w.queue (w.entry s.nextSeq (s.takePage w.kind).2)).onPort .a fun x =>
    { x with cause := if w.posted then .room w.queue else .entry s.nextSeq }

/-- A write the Classifier has passed to a queue: an entry at once, or Port A's awaiting write where a PROGRAM finds no free page
(R47, R49). -/
def State.takeQueued (s : State) (w : QueuedWrite) : State :=
  if w.kind = .program ∧ s.pool = [] then s.onPort .a fun x => { x with awaiting := some w, cause := .page }
  else s.postWrite w

/-- A freed page is given to Port A's awaiting write, whose entry is made (R49, R63). -/
def State.awaitingStep (s : State) : Option State :=
  match s.portA.awaiting with
  | some w => if s.pool = [] then none else some ((s.onPort .a fun x => { x with awaiting := none }).postWrite w)
  | none => none

/-- A port whose busy cause is ROOM clears BUSY when its queue holds fewer than 32 entries and a page is free (R48). -/
def State.roomStep (s : State) : Option State :=
  match s.portA.cause with
  | .room q =>
    if (s.entriesOf q).length < 32 ∧ s.pool ≠ [] then some (s.onPort .a fun x => { x with cause := .none }) else none
  | _ => none

/-- A page returns to the pool (R62). -/
def State.freePage (s : State) (page : Option Nat) : State :=
  match page with
  | some p => s.setPool (s.pool ++ [p])
  | none => s

/-- Port A hears that one of its entries has left or been removed: a non-posted one named by the busy cause clears BUSY, and a failed
or removed one sets PROGRAM-ERR with it (R50, R51). -/
def State.tellPort (s : State) (seq : BitVec 32) (err : Bool) : State :=
  s.onPort .a fun x => { x with cause := if x.cause = .entry seq then .none else x.cause, programErr := x.programErr || err }

/-- The running directive hears that one of its Q-SYS entries has left (R8, R19, R153). -/
def State.tellDirective (s : State) (addr : Nat) (failed : Bool) : State :=
  s.setJob (s.job.map fun j =>
    { j with unleft := j.unleft - 1, firstFailed := j.firstFailed.or (if failed then some addr else none) })

/-- An entry of SEAL's key sector run has left: its erase, and every program after it. From here on the key sector holds the bundle page
by page, no longer the old content (R152; log entry 28). -/
def State.carryBundle (s : State) : State :=
  match s.job.map Job.work with
  | some (.keySector base _) => s.setCarried (some base)
  | _ => s

/-- Fill the first-failure record where it is empty (R66). -/
def State.recordFailure (s : State) (q : QueueId) (e : Entry) (r : FailReason) : State :=
  match s.firstFailure with
  | some _ => s
  | none => s.setFirstFailure (some { queue := q, seq := e.seq, kind := e.kind, addr := e.addr, origin := e.origin,
                                      upstream := e.upstream, reason := r })

/-- Tell the origin of an entry its outcome (R64 step 4). -/
def State.tellOrigin (s : State) (e : Entry) (failed : Bool) : State :=
  match e.origin with
  | .portA => s.tellPort e.seq failed
  | .slot _ => (s.tellDirective e.addr failed).carryBundle

/-- The failure bookkeeping of a failed leaving (R65, R66). -/
def State.bookFailure (s : State) (q : QueueId) (e : Entry) (out : Option FailReason) : State :=
  match out with
  | some r => (s.countFailure q).recordFailure q e r
  | none => s

/-- The Uniformity Bank Controller hears of a Q-UNI entry that leaves (R64 step 5). -/
def State.tellCoverage (s : State) (q : QueueId) (e : Entry) (failed : Bool) : State :=
  match q with
  | .uni => s.coverage e failed
  | _ => s

/-- The head of a queue leaves, DONE (`none`) or FAILED with a reason (R64). Pages are handed on, ROOM and fences judged, by the
settling of the event. -/
def State.leave (s : State) (q : QueueId) (out : Option FailReason) : State :=
  match s.entriesOf q with
  | [] => s
  | e :: rest =>
    (((((s.setEntries q rest).claimHead q).freePage e.page).tellOrigin e out.isSome).tellCoverage q e out.isSome).bookFailure q e out

/-- The entry is QUEUED. -/
def Entry.isQueued (e : Entry) : Bool := decide (e.state = .queued)

/-- Port A hears of an entry that DISCARD removed: only a non-posted one named by the busy cause matters to it (R50, R51). -/
def State.tellRemoved (s : State) (e : Entry) : State :=
  if s.portA.cause = .entry e.seq then s.tellPort e.seq true else s

/-- The queue's claim, where its head is QUEUED, is withdrawn (R61). -/
def State.withdrawHead (s : State) (q : QueueId) : State := if s.headState q = some .queued then s.withdraw q.claimant else s

/-- DISCARD removes every QUEUED entry of a queue (R71). -/
def State.discard (s : State) (q : QueueId) : State :=
  let gone := (s.entriesOf q).filter Entry.isQueued
  gone.foldl State.tellRemoved
    (((s.withdrawHead q).setEntries q ((s.entriesOf q).filter (fun e => !e.isQueued))).setPool (s.pool ++ gone.filterMap Entry.page))

/-- DISCARD's result data: entries removed, and pages they held (R71). -/
def State.discardData (s : State) (q : QueueId) : List Byte :=
  let gone := (s.entriesOf q).filter Entry.isQueued
  [byte gone.length, byte (gone.filter (fun e => e.page.isSome)).length]

/-- A queue is empty for a fence: no entry in any state and no awaiting write bound for it (R69). -/
def State.fenceEmpty (s : State) (q : QueueId) : Bool :=
  (s.entriesOf q).isEmpty && (match s.portA.awaiting with | some w => decide (w.queue ≠ q) | none => true)

/-- Every one of these queues is empty at the same moment (R69). -/
def State.fenceClear (s : State) (qs : List QueueId) : Bool := qs.all s.fenceEmpty

end Sys2Proof.Machine
end

