-- ==== Sys2Proof/Machine/ControlRecord.lean ====
section
/-! DEFINITION. The control record: its bytes (log entry 7), its validity (R7), the start-up choice (R12), and the runs of Q-SYS work:
control record tries (R8), SEAL's key sector (R152) and RECOVER's block erases (R19). -/

namespace Sys2Proof.Machine

/-! ### Bytes of the control record (R6; the layout is the model's, log entry 7) -/

/-- The marker, on each of the two pages. -/
def recordMarker : List Byte := [0x44, 0x54, 0x32, 0x36]

/-- A scope in three bytes. -/
def scopeBytes (x : Scope) : List Byte := leBytes 2 x.code ++ [x.families]

/-- Offsets 0 to 63: every field but the map. -/
def recordHead (r : ControlRecord) : List Byte :=
  recordMarker ++ leBytes 2 1 ++ [byte r.lifecycle.num, byte r.fields.live.num] ++ leBytes 2 r.fields.bundleLen ++
  [byte r.fields.scopes.length] ++ (r.fields.scopes.flatMap scopeBytes ++ List.replicate (24 - 3 * r.fields.scopes.length) 0) ++
  (match r.fields.region with | some g => leBytes 2 g.code ++ [byte g.family.num] | none => [0, 0, 0]) ++
  leBytes 2 r.fields.releaseTime ++
  (match r.fields.code with | some c => 1 :: c | none => 0 :: List.replicate 16 0) ++ List.replicate 7 0

/-- The parameter blocks of the map entries of a list, numbered from `n`. -/
def mapBytes : Nat → List (Option MapEntry) → List Byte
  | _, [] => []
  | n, e :: l => entryBytes n e ++ mapBytes (n + 1) l

/-- Offsets 0 to 507: what the CRC-32 covers, the reserved bytes at the end too, so that no byte of the two pages is without check. -/
def recordBody (r : ControlRecord) : List Byte :=
  recordHead r ++ mapBytes 0 (r.fields.map.take 8) ++ recordMarker ++ mapBytes 8 (r.fields.map.drop 8) ++ List.replicate 80 0

/-- The whole record, both pages. -/
def recordBytes (r : ControlRecord) : List Byte := recordBody r ++ leBytes 4 (crc32 (recordBody r)).toNat

/-- The lifecycle a record's number names; BLANK and SAFE are never recorded (R6). -/
def recordedLifecycle : Nat → Option Lifecycle
  | 1 => some .opened
  | 2 => some .sealed
  | 3 => some .closed
  | 4 => some .service
  | _ => none

/-- The bank a number names. -/
def bankOf : Nat → Option Bank
  | 0 => some .bank0
  | 1 => some .bank1
  | _ => none

/-- The offset of entry `i`'s parameter block. -/
def entryOffset (i : Nat) : Nat := if i < 8 then 64 + 24 * i else 260 + 24 * (i - 8)

/-- The parameter blocks of a record. -/
def rawMap (m : Mem) : List RawEntry := (List.range 15).map fun i => RawEntry.read m (entryOffset i)

/-- The scope list of a record. -/
def rawScopes (m : Mem) (n : Nat) : List Scope :=
  (List.range n).map fun i => { code := leNat (Mem.slice m (11 + 3 * i) 2), families := Mem.get m (13 + 3 * i) }

/-- The region field of a record: none, or a code 1 to 4095 with a family; any other value is not valid (R7). -/
def rawRegion (m : Mem) : Option (Option Region) :=
  let c := leNat (Mem.slice m 35 2)
  let f := (Mem.get m 37).toNat
  if c = 0 ∧ f = 0 then some none
  else if 1 ≤ c ∧ c ≤ 4095 then (familyOf f).map fun g => some { code := c, family := g } else none

/-- The map of a record, where its entries pass SET-MAP's checks (R7, R34, R35). -/
def rawMapOk (m : Mem) : Option (List (Option MapEntry)) :=
  let raws := rawMap m
  let map := raws.map RawEntry.entry
  if raws.all (fun r => r.badOffset.isNone) = true ∧ raws.map RawEntry.number = List.range 15 ∧ mapConsistent map = true then some map
  else none

/-- R7: the record a control sector holds, where it holds a valid one. -/
def readRecord (m : Mem) : Option ControlRecord :=
  if Mem.slice m 0 4 = recordMarker ∧ Mem.slice m 256 4 = recordMarker ∧ leNat (Mem.slice m 4 2) = 1
      ∧ (crc32 (Mem.slice m 0 508)).toNat = leNat (Mem.slice m 508 4) then
    match recordedLifecycle (Mem.get m 6).toNat, bankOf (Mem.get m 7).toNat, rawRegion m, rawMapOk m with
    | some l, some b, some g, some map =>
      let len := leNat (Mem.slice m 8 2)
      let n := (Mem.get m 10).toNat
      let t := leNat (Mem.slice m 38 2)
      if (len = 0 ∨ (64 ≤ len ∧ len ≤ 4096)) ∧ n ≤ 8 ∧ 100 ≤ t ∧ t ≤ 10000 then
        some
          { lifecycle := l
            fields :=
              { live := b, map := map, bundleLen := len, scopes := rawScopes m n, region := g, releaseTime := t
                code := if Mem.get m 40 = 1 then some (Mem.slice m 41 16) else none } }
      else none
    | _, _, _, _ => none
  else none

/-- R12: the lifecycle and the fields in effect, by the fuse value and the control sector. -/
def startupChoice (fuse : Bool) (sector : Mem) : Lifecycle × Fields :=
  match fuse, readRecord sector with
  | true, some r => (r.lifecycle, r.fields)
  | false, _ => (if sector = [] then .blank else .safe, Fields.default)
  | true, none => (.safe, Fields.default)

/-! ### Runs of Q-SYS work -/

/-- How many entries the work has: three for a record try (R8), the erase and ceil(T / 256) programs of SEAL (R152), 512 erases of
RECOVER (R19). -/
def Work.total : Work → Nat
  | .record _ _ => 3
  | .keySector _ len => 1 + (len + 255) / 256
  | .eraseAll => 512

/-- The work is a control record try. -/
def Work.isRecord : Work → Bool
  | .record _ _ => true
  | _ => false

/-- A page of the staged bundle of length T: staging bytes, and `0xFF` at or beyond T (R152). -/
def bundlePage (staging : Mem) (len i : Nat) : List Byte :=
  (List.range 256).map fun k => if 256 * i + k < len then Mem.get staging (256 * i + k) else erasedByte

/-- The work's entry number `i`: kind, physical address and data. -/
def Work.entry (w : Work) (staging : Mem) (i : Nat) : WriteKind × Nat × OffsetBytes :=
  match w with
  | .record r _ =>
    match i with
    | 0 => (.eraseSector, controlSector, [])
    | 1 => (.program, controlSector, wholePage ((recordBytes r).take 256))
    | _ => (.program, controlSector + 256, wholePage ((recordBytes r).drop 256))
  | .keySector base len =>
    match i with
    | 0 => (.eraseSector, base, [])
    | k + 1 => (.program, base + 256 * k, wholePage (bundlePage staging len k))
  | .eraseAll => (.eraseBlock, 65536 * i, [])

/-- The work may still add an entry: a record try goes on after a failure (R8), SEAL and RECOVER do not (R19, R153). -/
def Job.wants (j : Job) : Bool := decide (j.added < j.work.total) && (j.work.isRecord || j.firstFailed.isNone)

/-- Every entry of the run has left and none is still to be added. -/
def Job.ended (j : Job) : Bool := !j.wants && decide (j.unleft = 0)

/-- The running directive's slot. -/
def State.headSlot (s : State) : Nat := s.dir.queue.headD 0

/-- The run's next entry is added to the tail of Q-SYS, where Q-SYS has room and a PROGRAM finds a page (R59, R63). -/
def State.sysStep (s : State) : Option State :=
  match s.job with
  | none => none
  | some j =>
    let x := j.work.entry s.key.staging j.added
    if j.wants = true ∧ (s.entriesOf .sys).length < 32 ∧ j.unleft < 32 ∧ (x.1 = .program → s.pool ≠ []) then
      some (((s.takePage x.1).1.setJob (some { j with added := j.added + 1, unleft := j.unleft + 1 })).joinEntry .sys
        { seq := s.nextSeq, kind := x.1, addr := x.2.1, data := x.2.2, page := (s.takePage x.1).2, origin := .slot s.headSlot,
          upstream := none, posted := false, state := .queued, retries := 0, image := none })
    else none

/-- Begin a run. -/
def State.startJob (s : State) (w : Work) : State := s.setJob (some { work := w, added := 0, unleft := 0, firstFailed := none })

/-- Request a control record write: its first try begins (R8). -/
def State.requestRecord (s : State) (l : Lifecycle) (f : Fields) : State := s.startJob (.record { lifecycle := l, fields := f } 1)

end Sys2Proof.Machine
end

