-- ==== Sys2Proof/Machine/KeyStore.lean ====
section
/-! DEFINITION. The Key Store Controller: staging, the stage idle timer, the bundle check, release (08); and the region record's check
and scope (09). -/

namespace Sys2Proof.Machine

/-! ### Staging and its timer -/

/-- Judge the stage idle timer (R144): it starts afresh where the window is STAGING, no SEAL is PENDING or RUNNING and some staging byte
is not `0xFF`; otherwise it is STOPPED. -/
def State.judgeStage (s : State) : State :=
  s.onKey fun k => { k with
    stageTimer := if k.window = .staging ∧ k.sealCount = 0 ∧ k.staging ≠ [] then .running (1000000 * k.stageTime) else .stopped }

/-- A staging write ANDs its data into the staging buffer (R141). -/
def State.stageWrite (s : State) (off : Nat) (data : OffsetBytes) : State :=
  (s.onKey fun k => { k with staging := Mem.andAll k.staging off data }).judgeStage

/-- A staging erase sets the staging buffer to `0xFF` (R142). -/
def State.stageErase (s : State) : State := (s.onKey fun k => { k with staging := [] }).judgeStage

/-! ### Release -/

/-- A KEY segment being answered from the key sector turns to the erased pattern: its claim is withdrawn, a granted page read is
discarded (R100, R158). -/
def State.hideKeySegment (s : State) : State :=
  match s.reading .a with
  | some rd =>
    match rd.seg with
    | some seg =>
      if seg.cls = some .key ∧ seg.source = .flash then
        (s.dropRead .aRead).setReading .a { rd with seg := some { seg with source := .erased }, piece := .fresh }
      else s
    | none => s
  | none => s

/-- Release closes: the window becomes HIDDEN, the release timer STOPPED, KEY-HIDDEN is raised (R158). A window not RELEASED is
unchanged. -/
def State.closeRelease (s : State) : State :=
  if s.key.window = .released then
    ((s.onKey fun k => { k with window := .hidden, releaseTimer := .stopped }).raise .keyHidden).hideKeySegment
  else s

/-! ### Lifecycle changes (R2, R140) -/

/-- What the Key Store Controller does at a lifecycle change (the table of R140). -/
def KeyUnit.atChange (k : KeyUnit) : Lifecycle → KeyUnit
  | .opened => { k with window := .staging, staging := [], stageTimer := .stopped, releaseTimer := .stopped }
  | .sealed => { k with window := .hidden, staging := [], stageTimer := .stopped, releaseTimer := .stopped }
  | .safe => { k with window := .none, stageTimer := .stopped, releaseTimer := .stopped }
  | _ => k

/-- A lifecycle change takes effect (R2): LIFECYCLE-CHANGED is raised and the Key Store Controller is told. -/
def State.changeLifecycle (s : State) (l : Lifecycle) : State :=
  ((s.onLife fun x => { x with lifecycle := some l }).onKey fun k => k.atChange l).raise .lifecycleChanged

/-! ### The key bundle (R146, R147) -/

/-- The first of some offsets whose byte is not the wanted one. -/
def firstWrong (m : Mem) : List (Nat × Byte) → Option Nat
  | [] => none
  | (o, b) :: l => if Mem.get m o = b then firstWrong m l else some o

/-- Test 7: the scopes, `n` of them from `p` on; the offset of the first fault, or the walk position after them. -/
def walkScopes (m : Mem) (t : Nat) : Nat → Nat → Except Nat Nat
  | 0, p => .ok p
  | n + 1, p =>
    let c := leNat (Mem.slice m p 2)
    let f := (Mem.get m (p + 2)).toNat
    if t < p + 8 then .error p
    else if c < 1 ∨ 4095 < c then .error p
    else if f < 1 ∨ 7 < f then .error (p + 2)
    else if Mem.get m (p + 3) ≠ 0 then .error (p + 3)
    else walkScopes m t n (p + 4)

/-- Test 8: the key entries, `n` of them from `p` on. -/
def walkEntries (m : Mem) (t : Nat) : Nat → Nat → Except Nat Nat
  | 0, p => .ok p
  | n + 1, p =>
    let kind := (Mem.get m p).toNat
    let len := leNat (Mem.slice m (p + 2) 2)
    if t < p + 8 then .error p
    else if kind < 1 ∨ 4 < kind then .error p
    else if Mem.get m (p + 1) ≠ 0 then .error (p + 1)
    else if len < 1 ∨ 2048 < len ∨ t < p + 8 + len then .error (p + 2)
    else walkEntries m t n (p + 4 + len)

/-- R147: the offset of the first inconsistent byte of the staged bundle, or its length T. -/
def checkBundle (m : Mem) : Except Nat Nat :=
  let t := leNat (Mem.slice m 6 2)
  let ns := (Mem.get m 8).toNat
  let ne := (Mem.get m 9).toNat
  match firstWrong m [(0, 0x4B), (1, 0x59), (2, 0x42), (3, 0x31)] with
  | some o => .error o
  | none =>
    if leNat (Mem.slice m 4 2) ≠ 1 then .error 4
    else if t < 64 ∨ 4096 < t then .error 6
    else if ns < 1 ∨ 8 < ns then .error 8
    else if ne < 1 ∨ 32 < ne then .error 9
    else match firstWrong m [(10, 0), (11, 0)] with
      | some o => .error o
      | none =>
        match walkScopes m t ns 12 with
        | .error o => .error o
        | .ok p =>
          match walkEntries m t ne p with
          | .error o => .error o
          | .ok q =>
            if q ≠ t - 4 then .error q
            else if (crc32 (Mem.slice m 0 (t - 4))).toNat ≠ leNat (Mem.slice m (t - 4) 4) then .error (t - 4)
            else .ok t

/-- The scope list of the staged bundle, in order. -/
def bundleScopes (m : Mem) : List Scope :=
  (List.range (Mem.get m 8).toNat).map fun i =>
    { code := leNat (Mem.slice m (12 + 4 * i) 2), families := Mem.get m (14 + 4 * i) }

/-! ### The region record (R163 to R165) -/

/-- R164: the region code and refresh family of a region record that passes its check. -/
def checkRegion (l : List Byte) : Option Region :=
  let b := fun i => (l.getD i 0).toNat
  let n := fun i => b i + 256 * b (i + 1)
  if l.take 4 = [0x52, 0x45, 0x47, 0x31] ∧ n 4 = 1 ∧ (crc16 (l.take 30)).toNat = n 30 ∧ 1 ≤ n 6 ∧ n 6 ≤ 4095 ∧ b 9 ≤ 31 ∧ b 10 ≤ 7
      ∧ n 12 ≤ 1023 ∧ b 11 = 0 ∧ (l.drop 14).take 16 = List.replicate 16 0 then
    (familyOf (b 8)).map fun f => { code := n 6, family := f }
  else none

/-- R165: a checked region record is in scope of a scope list. -/
def inScope (r : Region) (l : List Scope) : Bool := l.any fun x => decide (x.code = r.code) && x.families.getLsbD r.family.bit

end Sys2Proof.Machine
end

