-- ==== Sys2Proof/Machine/DirectiveUnit.lean ====
section
/-! DEFINITION. The Directive Unit: ending a directive, the start of each queued directive with its own checks, and the moments at which
running directives go on (10, and the directives' own rules). -/

namespace Sys2Proof.Machine

/-! ### Ending (R182, R188) -/

/-- The directive a slot's code names. -/
def Slot.directive (x : Slot) : Option Directive := Directive.ofCode x.code

/-- Write a result into a slot and set it DONE or REFUSED (R176, R188). -/
def State.finishSlot (s : State) (n : Nat) (c : ResultCode) (data : List Byte) : State :=
  s.onSlot n fun x => { x with state := if c = .done then .done else .refused, result := some c, data := data }

/-- A FLIP leaves the Classifier's count, a SEAL the Key Store Controller's, which judges the stage idle timer (R30, R144). -/
def State.uncount (s : State) (n : Nat) : State :=
  match (s.slot n).directive with
  | some .flip => s.onDir fun x => { x with flipCount := x.flipCount - 1 }
  | some .seals => (s.onKey fun k => { k with sealCount := k.sealCount - 1 }).judgeStage
  | _ => s

/-- The slot at the head leaves the directive queue, and no directive runs (R182). -/
def State.leaveHead (s : State) : State := s.onDir fun x => { x with queue := x.queue.tail, running := none }

/-- The running directive ends (R182 steps 1 to 4; the next one starts by the settling of the event). -/
def State.endDirective (s : State) (c : ResultCode) (data : List Byte) : State :=
  ((s.finishSlot s.headSlot c data).leaveHead.raise (if c = .done then .directiveDone else .directiveRefused)).uncount s.headSlot

/-- The running directive enters a phase that waits. -/
def State.enter (s : State) (ph : Phase) : State := s.onDir fun x => { x with running := some ph }

/-- REFUSED with NOT-IN-STATE. -/
def State.notInState (s : State) : State := s.endDirective .notInState []

/-- REFUSED with BAD-PARAMETER and one byte of result data. -/
def State.badParam (s : State) (o : Nat) : State := s.endDirective .badParameter [byte o]

/-- The directive is allowed in the lifecycle in effect (R183). -/
def State.allows (s : State) (d : Directive) : Bool :=
  match s.life.lifecycle with
  | some l => d.allowed l
  | none => false

/-- The lifecycle to be carried by a record that does not change it. -/
def State.lifecycleNow (s : State) : Lifecycle := s.life.lifecycle.getD .safe

/-- The fields of a first record, of OPEN and of RECOVER: the defaults with the release time currently set (R15, R19). -/
def State.firstFields (s : State) : Fields := { Fields.default with releaseTime := s.key.releaseTime }

/-- One attempt to blow the fuse, and the fuse read back (R3). Whether the attempt takes is a free value (log entry 5). -/
def State.blowFuse (s : State) : State :=
  { s with fuseCell := s.fuseCell || Config.fuseTakes s.fuseTries
           fuseTries := s.fuseTries + 1
           life := { s.life with fuse := s.fuseCell || Config.fuseTakes s.fuseTries } }

/-- A region code and a family as result data (R192). -/
def regionData (r : Region) : List Byte := leBytes 2 r.code ++ [byte r.family.num]

/-! ### Starts (R181): each queued directive's own checks -/

/-- OPEN (R15): FUSE, then RECORD. -/
def State.startOpen (s : State) (len : Nat) : State :=
  if s.allows .opens = false then s.notInState
  else if len ≠ 0 then s.badParam 0
  else if s.blowFuse.life.fuse then (s.blowFuse.enter .openRecord).requestRecord .opened s.firstFields
    else s.blowFuse.endDirective .fuseFailed []

/-- CLOSE (R18). -/
def State.startClose (s : State) (len : Nat) : State :=
  if s.allows .closes = false then s.notInState
  else if len ≠ 0 then s.badParam 0
  else if s.life.fields.code = none then s.endDirective .noServiceCode []
  else s.enter .closeFence

/-- RECOVER (R19): FUSE where the fuse in effect is intact, then FENCE. -/
def State.startRecover (s : State) (len : Nat) : State :=
  if s.allows .recover = false then s.notInState
  else if len ≠ 0 then s.badParam 0
  else if s.life.fuse then s.enter .recoverFence
  else if s.blowFuse.life.fuse then s.blowFuse.enter .recoverFence else s.blowFuse.endDirective .fuseFailed []

/-- SET-MAP (R34, R35). -/
def State.startSetMap (s : State) (img : Mem) (len : Nat) : State :=
  if s.allows .setMap = false then s.notInState
  else if len ≠ 24 then s.badParam 0
  else
    let r := RawEntry.read img 5
    match r.badOffset with
    | some o => s.badParam o
    | none =>
      match r.entry with
      | none => s.enter (.setMapFence r.number none)
      | some e =>
        match conflict r.number e s.entries with
        | some o => s.endDirective .mapConflict [byte o]
        | none => s.enter (.setMapFence r.number (some e))

/-- The first of `n` parameters from an offset on that fails a test. -/
def firstBad (img : Mem) (bad : Nat → Bool) : Nat → Nat → Option Nat
  | 0, _ => none
  | n + 1, i => if bad (param img i).toNat then some i else firstBad img bad n (i + 1)

/-- SET-QUEUE-LEVELS sets a queue's level and judges its flag (R68). QUEUE-HIGH stands in the event set once, however often raised. -/
def State.setLevel (s : State) (q : QueueId) (n : Nat) : State := (s.setQueue q { s.queues.get q with level := n }).judgeHigh q

/-- SET-QUEUE-LEVELS (R68). -/
def State.startSetLevels (s : State) (img : Mem) (len : Nat) : State :=
  if s.allows .setQueueLevels = false then s.notInState
  else if len ≠ 4 then s.badParam 0
  else match firstBad img (fun v => decide (v < 1) || decide (32 < v)) 4 0 with
    | some o => s.badParam o
    | none =>
      ((((s.setLevel .sys (param img 0).toNat).setLevel .pass (param img 1).toNat).setLevel .set (param img 2).toNat).setLevel .uni
        (param img 3).toNat).endDirective .done []

/-- The queue DISCARD's parameter names (R70). -/
def discardQueue : Nat → Option QueueId
  | 1 => some .pass
  | 2 => some .set
  | 3 => some .uni
  | _ => none

/-- DISCARD (R70, R71). -/
def State.startDiscard (s : State) (img : Mem) (len : Nat) : State :=
  if s.allows .discard = false then s.notInState
  else if len ≠ 1 then s.badParam 0
  else match discardQueue (param img 0).toNat with
    | none => s.badParam 0
    | some q => (s.discard q).endDirective .done (s.discardData q)

/-- SYNC (R73): its wait is a fence over the queues named. -/
def State.startSync (s : State) (img : Mem) (len : Nat) : State :=
  if s.allows .sync = false then s.notInState
  else if len ≠ 4 then s.badParam 0
  else match firstBad img (fun v => decide (1 < v)) 4 0 with
    | some o => s.badParam o
    | none =>
      if paramNat img 0 4 = 0 then s.badParam 0
      else s.enter (.syncWait { sys := decide (param img 0 = 1), pass := decide (param img 1 = 1), set := decide (param img 2 = 1),
                                uni := decide (param img 3 = 1) })

/-- A standing claim whose next aged step is timed anew (R81). -/
def retimed (interval : Nat) (c : Option Claim) : Option Claim := c.map fun cl => { cl with due := interval }

/-- SET-ARBITER (R97, R98): the standing claims keep their aged steps, the next step timed from the change; preemption is judged. -/
def State.startSetArbiter (s : State) (img : Mem) (len : Nat) : State :=
  if s.allows .setArbiter = false then s.notInState
  else if len ≠ 14 then s.badParam 0
  else match firstBad img (fun v => decide (15 < v)) 8 0 with
    | some o => s.badParam o
    | none =>
      let bar := paramNat img 8 2
      let interval := paramNat img 10 2
      let limit := (param img 12).toNat
      if 1023 < bar then s.badParam 8
      else if interval < 5 ∨ 1000 < interval then s.badParam 10
      else if 32 < limit then s.badParam 12
      else if param img 13 ≠ 0 then s.badParam 13
      else
        let w := fun i => (param img i).toNat
        let weights := { tRead := w 0, aRead := w 1, sysRead := w 2, qSys := w 3, qPass := w 4, qSet := w 5, qUni := w 6, prefetch := w 7 }
        ((s.onEngine fun x => { x with weights := weights, bar := bar, interval := interval, limit := limit,
                                       claims := x.claims.map (retimed interval) }).judgePreempt).endDirective .done []

/-- A parameter that stands for none when it is 0 (R126). -/
def noneIf0 (n : Nat) : Option Nat := if n = 0 then none else some n

/-- SET-PASS (R125, R126). -/
def State.startSetPass (s : State) (img : Mem) (len : Nat) : State :=
  if s.allows .setPass = false then s.notInState
  else match s.uniformity with
    | none => s.notInState
    | some e =>
      let n := paramNat img 0 4
      if len ≠ 8 then s.badParam 0
      else if n % 4096 ≠ 0 ∨ e.size < n then s.badParam 0
      else if paramNat img 5 3 ≠ 0 then s.badParam 5
      else
        (s.onUni fun x => { x with lengthSetting := noneIf0 n, idleSetting := noneIf0 (param img 4).toNat }).endDirective .done []

/-- FLIP (R127). -/
def State.startFlip (s : State) (img : Mem) (len : Nat) : State :=
  if s.allows .flip = false then s.notInState
  else if s.uniformity = none then s.notInState
  else if len ≠ 2 then s.badParam 0
  else if 1 < (param img 0).toNat then s.badParam 0
  else if 1 < (param img 1).toNat then s.badParam 1
  else s.enter (.flipDrain (decide (param img 0 = 0)) (decide (param img 1 = 1)))

/-- SET-KEY-TIMERS (R161, R162). -/
def State.startSetKeyTimers (s : State) (img : Mem) (len : Nat) : State :=
  let release := paramNat img 0 2
  let stage := (param img 2).toNat
  if s.allows .setKeyTimers = false then s.notInState
  else if len ≠ 4 then s.badParam 0
  else if release < 100 ∨ 10000 < release then s.badParam 0
  else if stage < 1 ∨ 60 < stage then s.badParam 2
  else if param img 3 ≠ 0 then s.badParam 3
  else (s.onKey fun k => { k with releaseTime := release, stageTime := stage }).endDirective .done []

/-- SEAL (R148). -/
def State.startSeal (s : State) (len : Nat) : State :=
  if s.allows .seals = false then s.notInState
  else if entryOfClass s.life.fields.map .key = none ∨ entryOfClass s.life.fields.map .settings = none then s.notInState
  else if len ≠ 0 then s.badParam 0
  else s.enter .sealFence

/-- SET-SERVICE-CODE (R167, R168). -/
def State.startSetCode (s : State) (img : Mem) (len : Nat) : State :=
  let code := Mem.slice img 5 16
  if s.allows .setServiceCode = false then s.notInState
  else if len ≠ 16 then s.badParam 0
  else if code = List.replicate 16 0 ∨ code = List.replicate 16 0xFF then s.badParam 0
  else (s.enter .codeRecord).requestRecord s.lifecycleNow { s.life.fields with code := some code }

/-- SERVICE-OPEN (R170, R171). -/
def State.startServiceOpen (s : State) (img : Mem) (len : Nat) : State :=
  if s.allows .serviceOpen = false then s.notInState
  else if len ≠ 16 then s.badParam 0
  else if s.attempts = 0 then s.endDirective .attemptsExhausted []
  else if s.life.fields.code = some (Mem.slice img 5 16) then
    ((s.setAttempts 3).enter .serviceOpenRecord).requestRecord .service s.life.fields
  else
    ((s.setAttempts (s.attempts - 1)).raise .codeRejected).endDirective .codeMismatch [byte (s.attempts - 1)]

/-- SERVICE-CLOSE (R172). -/
def State.startServiceClose (s : State) (len : Nat) : State :=
  if s.allows .serviceClose = false then s.notInState
  else if entryOfClass s.life.fields.map .settings = none then s.notInState
  else if len ≠ 0 then s.badParam 0
  else s.enter .serviceCloseFence

/-- Start a queued directive. An immediate one, or none, is never in the queue. -/
def State.startOf (s : State) (d : Option Directive) (img : Mem) (len : Nat) : State :=
  match d with
  | some .opens => s.startOpen len
  | some .closes => s.startClose len
  | some .recover => s.startRecover len
  | some .setMap => s.startSetMap img len
  | some .setQueueLevels => s.startSetLevels img len
  | some .discard => s.startDiscard img len
  | some .sync => s.startSync img len
  | some .setArbiter => s.startSetArbiter img len
  | some .setPass => s.startSetPass img len
  | some .flip => s.startFlip img len
  | some .setKeyTimers => s.startSetKeyTimers img len
  | some .seals => s.startSeal len
  | some .setServiceCode => s.startSetCode img len
  | some .serviceOpen => s.startServiceOpen img len
  | some .serviceClose => s.startServiceClose len
  | some .ack | some .setEventMask | some .cancel | some .keyHide | none => s.endDirective .unknownCode []

/-- The slot at the head of the directive queue becomes RUNNING and its directive starts (R181). -/
def State.directiveStep (s : State) : Option State :=
  match s.dir.running, s.dir.queue with
  | none, n :: _ =>
    let x := s.slot n
    if x.state = .pending then
      some ((s.onSlot n fun y => { y with state := .running }).startOf x.directive (x.image.getD []) x.len.toNat)
    else none
  | _, _ => none

/-! ### Reading the region record (R150, R172) -/

/-- The 32 bytes of the region record, as a range of the settings window's first page. -/
def State.regionRange (s : State) : Option ReadRange :=
  (entryOfClass s.life.fields.map .settings).map fun e => { page := e.pbase, lo := 0, hi := 31 }

/-- SEAL judges the region record its read has formed (R151): REGION-INVALID, REGION-OUT-OF-SCOPE, or on to PROGRAM. -/
def State.sealJudge (s : State) (len : Nat) (bytes : List Byte) : State :=
  match checkRegion bytes with
  | none => s.endDirective .regionInvalid []
  | some r =>
    if inScope r (bundleScopes s.key.staging) then
      match entryOfClass s.life.fields.map .key with
      | some k => (s.enter (.sealProgram len r)).startJob (.keySector k.pbase len)
      | none => s.notInState
    else s.endDirective .regionOutOfScope (regionData r)

/-- SERVICE-CLOSE judges the region record (R172, R173): REGION-INVALID, REGION-OUT-OF-SCOPE, or on to RECORD. -/
def State.serviceJudge (s : State) (bytes : List Byte) : State :=
  match checkRegion bytes with
  | none => s.endDirective .regionInvalid []
  | some r =>
    if inScope r s.life.fields.scopes then
      (s.enter (.serviceCloseRecord r)).requestRecord .closed { s.life.fields with region := some r }
    else s.endDirective .regionOutOfScope (regionData r)

/-- The region record has been read: the directive that read it judges it. -/
def State.regionJudge (s : State) (bytes : List Byte) : State :=
  match s.dir.running with
  | some (.sealValidate len) => s.sealJudge len bytes
  | some .serviceCloseCheck => s.serviceJudge bytes
  | _ => s

/-- The region record is judged as one piece with Q-SET as the owning queue and a SYS-READ claim (R150). -/
def State.readRegion (s : State) : State :=
  match s.regionRange with
  | none => s
  | some r =>
    let l := s.entriesOf .set
    let ov := overlay l r
    if ov.all Overlaid.fixed then s.regionJudge (ov.map Overlaid.value)
    else if headPreReads l r.page then s
    else s.raiseClaim .sysRead (some r)

/-! ### Moments of running directives -/

/-- SET-MAP's write changes the UNIFORMITY entry (R37). -/
def changesUniformity (m : List (Option MapEntry)) (n : Nat) (e : Option MapEntry) : Bool :=
  (match m.getD n none with | some x => decide (x.cls = .uniformity) | none => false) ||
  (match e with | some x => decide (x.cls = .uniformity) | none => false)

/-- The fields with entry `n` replaced, and live bank 0 where the UNIFORMITY entry changes (R37). -/
def Fields.withEntry (f : Fields) (n : Nat) (e : Option MapEntry) : Fields :=
  { f with map := f.map.set n e, live := if changesUniformity f.map n e then .bank0 else f.live }

/-- SET-MAP's fence finds all four queues empty, takes the write lock and requests its record write (R36, R37). -/
def State.setMapFenceStep (s : State) : Option State :=
  match s.dir.running with
  | some (.setMapFence n e) =>
    if s.fenceClear [.sys, .pass, .set, .uni] then
      some ((s.enter (.setMapRecord n e)).requestRecord s.lifecycleNow (s.life.fields.withEntry n e))
    else none
  | _ => none

/-- CLOSE's fence finds all four queues empty and requests its record write (R18). -/
def State.closeFenceStep (s : State) : Option State :=
  match s.dir.running with
  | some .closeFence =>
    if s.fenceClear [.sys, .pass, .set, .uni] then some ((s.enter .closeRecord).requestRecord .closed s.life.fields) else none
  | _ => none

/-- RECOVER's fence finds Q-PASS, Q-SET and Q-UNI empty and begins its block erases (R19). -/
def State.recoverFenceStep (s : State) : Option State :=
  match s.dir.running with
  | some .recoverFence =>
    if s.fenceClear [.pass, .set, .uni] then some ((s.enter .recoverErase).startJob .eraseAll) else none
  | _ => none

/-- All of RECOVER's block erases have left (R19). -/
def State.recoverEraseStep (s : State) : Option State :=
  match s.dir.running, s.job with
  | some .recoverErase, some j =>
    if j.ended then
      match j.firstFailed with
      | some a => some ((s.setJob none).endDirective .flashFailed (leBytes 4 a))
      | none => some (((s.setJob none).enter .recoverRecord).requestRecord .opened s.firstFields)
    else none
  | _, _ => none

/-- SEAL's fence finds Q-SET empty: the seal lock begins and VALIDATE checks the bundle and reads the region record (R149, R150). -/
def State.sealFenceStep (s : State) : Option State :=
  match s.dir.running with
  | some .sealFence =>
    if s.fenceClear [.set] then
      match checkBundle s.key.staging with
      | .error o => some (s.endDirective .bundleInvalid (leBytes 2 o))
      | .ok t => some (s.enter (.sealValidate t)).readRegion
    else none
  | _ => none

/-- All of SEAL's key-sector entries have left DONE: RECORD begins (R152, R154). -/
def State.sealProgramStep (s : State) : Option State :=
  match s.dir.running, s.job with
  | some (.sealProgram len r), some j =>
    if j.ended = true ∧ j.firstFailed = none then
      some (((s.setJob none).enter (.sealRecord len r)).requestRecord .sealed
        { s.life.fields with bundleLen := len, scopes := bundleScopes s.key.staging, region := some r, releaseTime := s.key.releaseTime })
    else none
  | _, _ => none

/-- After a failed key-sector entry the others have left: FLASH-FAILED (R153). -/
def State.sealFailedStep (s : State) : Option State :=
  match s.dir.running, s.job with
  | some (.sealProgram _ _), some j =>
    match j.firstFailed with
    | some a => if j.ended then some ((s.setJob none).endDirective .flashFailed (leBytes 4 a)) else none
    | none => none
  | _, _ => none

/-- SERVICE-CLOSE's fence finds Q-SET and Q-UNI empty: the lock begins and the region record is read (R172). -/
def State.serviceCloseFenceStep (s : State) : Option State :=
  match s.dir.running with
  | some .serviceCloseFence => if s.fenceClear [.set, .uni] then some (s.enter .serviceCloseCheck).readRegion else none
  | _ => none

/-- The shadow bank's physical base (R114). -/
def State.shadowBase (s : State) : Nat :=
  match s.uniformity with
  | some e => e.bankBase s.live.other
  | none => 0

/-- The lowest sector index in a coverage state. -/
def State.lowestSector (s : State) (c : Coverage) : Nat := s.uni.coverage.findIdx (fun x => decide (x = c))

/-- The result data of a refusal in COVERAGE: the number of sectors and the lowest index (R130). -/
def State.coverageData (s : State) (c : Coverage) : List Byte := leBytes 2 (s.coverageCount c) ++ leBytes 2 (s.lowestSector c)

/-- COVERAGE (R130), in the event of DRAIN's end. -/
def State.judgeCoverage (s : State) (full check : Bool) : State :=
  if 0 < s.coverageCount .failed then s.endDirective .shadowFailed (s.coverageData .failed)
  else if full = true ∧ 0 < s.coverageCount .stale then s.endDirective .coverageIncomplete (s.coverageData .stale)
  else if check then
    (s.enter .flipHeader).raiseClaim .sysRead (some { page := s.shadowBase, lo := 0, hi := 15 })
  else s.enter .flipArm

/-- FLIP's DRAIN finds Q-UNI empty (R129). -/
def State.flipDrainStep (s : State) : Option State :=
  match s.dir.running with
  | some (.flipDrain full check) => if s.fenceClear [.uni] then some (s.judgeCoverage full check) else none
  | _ => none

/-- ARM finds no pass open: SWITCH begins and requests the record write with the new live bank (R133, R134). -/
def State.flipSwitchStep (s : State) : Option State :=
  match s.dir.running with
  | some .flipArm =>
    if s.uni.pass.isOpen then none
    else some ((s.enter .flipSwitch).requestRecord s.lifecycleNow { s.life.fields with live := s.live.other })
  | _ => none

/-- The queues a SYNC names. -/
def PerQueue.named (x : PerQueue Bool) : List QueueId := [QueueId.sys, .pass, .set, .uni].filter x.get

/-- SYNC's wait ends with the four failure counts (R74). -/
def State.syncStep (s : State) : Option State :=
  match s.dir.running with
  | some (.syncWait names) =>
    if s.fenceClear names.named then
      some (s.endDirective .done [byte s.queues.sys.failures, byte s.queues.pass.failures, byte s.queues.set.failures,
        byte s.queues.uni.failures])
    else none
  | _ => none

/-! ### The end of a control record write (R8, R9) -/

/-- The Uniformity Bank Controller after a SET-MAP has changed the UNIFORMITY entry to a bank of `n` bytes (R37, R118, R124). -/
def UniformityUnit.afresh (n : Nat) (x : UniformityUnit) : UniformityUnit :=
  { x with coverage := freshCoverage n, lengthSetting := none,
           pass := { x.pass with isOpen := false, bank := .bank0, length := n, idle := .stopped } }

/-- A read in progress keeps its range and takes part in no pass (R2, R122). -/
def PortState.outOfPass (x : PortState) : PortState :=
  match x.link with
  | .reading rd =>
    { x with link := .reading { rd with inPass := false, passLast := false, seg := rd.seg.map fun g => { g with inPass := false } } }
  | _ => x

/-- A SET-MAP has changed the UNIFORMITY entry (R37): coverage afresh, pass record CLOSED on bank 0 with its count kept, no pass length
setting, the read-ahead buffer cleared. A read of the closed pass keeps its physical range and counts for no pass (R2, R122). -/
def State.resetUniformity (s : State) : State :=
  ((s.onUni (UniformityUnit.afresh (bankSize s.life.fields.map))).clearAhead.onPort .t PortState.outOfPass).rejudgeSlot

/-- The new fields take effect (R8). -/
def State.takeFields (s : State) (f : Fields) : State := s.onLife fun x => { x with fields := f }

/-- The note of a carried bundle ends where the map in effect has its key sector elsewhere or has none: what the old sector holds is then
no key sector content (R160; log entry 28). -/
def State.dropCarried (s : State) : State :=
  if (entryOfClass s.life.fields.map .key).map MapEntry.pbase = s.carried then s else s.setCarried none

/-- SWITCH is over: a held Port T segment is released (R135, R136). -/
def State.release (s : State) : State := (s.onDir fun x => { x with running := none }).runPort .t

/-- The banks have been switched: coverage afresh, the read-ahead buffer cleared, the held segment released, FLIP-DONE (R135). -/
def State.switched (s : State) (n : Nat) : State :=
  ((s.onUni fun x => { x with coverage := freshCoverage n }).clearAhead.release).raise .flipDone

/-- The control record write has succeeded: the requesting directive goes on (R8, and its own rule). -/
def State.recordDone (s : State) (r : ControlRecord) : State :=
  match s.dir.running with
  | some .openRecord => ((s.takeFields r.fields).changeLifecycle .opened).endDirective .done []
  | some .closeRecord => ((s.takeFields r.fields).changeLifecycle .closed).endDirective .done []
  | some .recoverRecord => ((s.takeFields r.fields).changeLifecycle .opened).endDirective .done (leBytes 2 512)
  | some (.setMapRecord n e) =>
    if changesUniformity s.life.fields.map n e then ((s.takeFields r.fields).dropCarried.resetUniformity).endDirective .done [byte n]
    else (s.takeFields r.fields).dropCarried.endDirective .done [byte n]
  | some .flipSwitch =>
    ((s.takeFields r.fields).switched (bankSize r.fields.map)).endDirective .done
      ([byte r.fields.live.num] ++ leBytes 2 s.uni.pass.count.toNat)
  | some (.sealRecord len _) =>
    (((s.takeFields r.fields).changeLifecycle .sealed).onKey fun k => { k with sealedLen := len }).endDirective .done (leBytes 2 len)
  | some .codeRecord => (s.takeFields r.fields).endDirective .done []
  | some .serviceOpenRecord => ((s.takeFields r.fields).changeLifecycle .service).endDirective .done []
  | some (.serviceCloseRecord g) => ((s.takeFields r.fields).changeLifecycle .closed).endDirective .done (regionData g)
  | _ => s

/-- The control record write has ended CONTROL-FAILED after its third try (R9): OPEN falls into SAFE (R17), a FLIP's held segment is
released on the unchanged live bank (R136). -/
def State.recordFailed (s : State) : State :=
  match s.dir.running with
  | some .openRecord => (((s.raise .controlFailed).changeLifecycle .safe).clearAhead).endDirective .controlFailed []
  | some .flipSwitch => (s.raise .controlFailed).release.endDirective .controlFailed []
  | _ => (s.raise .controlFailed).endDirective .controlFailed []

/-- The last entry of a try has left: success, a further try, or CONTROL-FAILED (R8, R9). -/
def State.recordStep (s : State) : Option State :=
  match s.job with
  | some j =>
    match j.work with
    | .record r k =>
      if j.ended then
        match j.firstFailed with
        | none => some ((s.setJob none).recordDone r)
        | some _ => if k < 3 then some (s.startJob (.record r (k + 1))) else some (s.setJob none).recordFailed
      else none
    | _ => none
  | none => none

end Sys2Proof.Machine
end

