-- ==== Sys2Proof/Machine/Settle.lean ====
section
/-! DEFINITION. What follows in the same event: the moments that an event has made due are carried out one after another, and the bytes
now ready are delivered (R48, R49, R63, R64 step 5, R69, R181, R182 step 5; log entry 2). -/

namespace Sys2Proof.Machine

/-- The first of these that is due. -/
def firstDue (s : State) : List (State → Option State) → Option State
  | [] => none
  | f :: l =>
    match f s with
    | some s' => some s'
    | none => firstDue s l

/-- The moments, in the order in which they are looked for: a free page goes to Port A's awaiting write, then to the running directive's
program, and only then is ROOM judged (R48, R63); a directive that ends comes before the start of the next (R182). -/
def moments : List (State → Option State) :=
  [State.awaitingStep, State.sysStep, State.roomStep, State.recordStep, State.recoverEraseStep, State.sealProgramStep,
   State.sealFailedStep, State.setMapFenceStep, State.closeFenceStep, State.recoverFenceStep, State.sealFenceStep,
   State.serviceCloseFenceStep, State.flipDrainStep, State.syncStep, State.flipSwitchStep, State.directiveStep]

/-- The next moment that is due, carried out. -/
def State.due (s : State) : Option State := firstDue s moments

/-- Carry out due moments, at most `n`. -/
def settleUpTo : Nat → State → State
  | 0, s => s
  | n + 1, s =>
    match s.due with
    | some s' => settleUpTo n s'
    | none => s

/-- How many moments one event can bring about is bounded: 15 directives, 32 entries of a run, and what each of them gives rise to
stay well below this. -/
def settleBound : Nat := 512

/-- Carry out every moment the event has made due. -/
def State.settle (s : State) : State := settleUpTo settleBound s

/-- The rest of an event: what it has made due, then the bytes it has made ready. -/
def State.finish (s : State) : State := s.settle.runReads

end Sys2Proof.Machine
end

