-- ==== Sys2Proof/Machine/Taking.lean ====
section
/-! DEFINITION. Taking a program into the directive window: the refusals of R177, the tests of R178, the immediate directives (R184 to
R186, R159), a queued directive's joining of the queue (R179), and the window erase (R180). -/

namespace Sys2Proof.Machine

/-! ### Recognition (R178) -/

/-- The mask covers every offset below `n`. -/
def coversBelow (l : OffsetBytes) (n : Nat) : Bool := (List.range n).all (covers l)

/-- Test 1 of R178: a program that covers `mask`, starting at offset `off` of its page, left this image. -/
def malformed (off : Nat) (mask : OffsetBytes) (img : Mem) : Bool :=
  let len := (Mem.get img 4).toNat
  decide (off ≠ 0) || !coversBelow mask 7 || decide (Mem.get img 0 ≠ 0x5A) || decide (Mem.get img 1 ≠ 0xD7) || decide (240 < len) ||
    !coversBelow mask (7 + len) || decide ((crc16 (Mem.slice img 0 (5 + len))).toNat ≠ leNat (Mem.slice img (5 + len) 2))

/-- The directives that need FIXTURE high (R4). -/
def Directive.needsFixture : Directive → Bool
  | .opens | .recover => true
  | _ => false

/-- R178: the directive a program gives, or the result code of the first test that fails. -/
def State.recognize (s : State) (l : Lifecycle) (off : Nat) (mask : OffsetBytes) (img : Mem) : Except ResultCode Directive :=
  if malformed off mask img then .error .malformed
  else match Directive.ofCode (Mem.get img 2) with
    | none => .error .unknownCode
    | some d =>
      if d.allowed l = false then .error .notInState
      else if d.needsFixture && !s.life.fixture then .error .fixtureRequired
      else .ok d

/-! ### Immediate directives -/

/-- R184, step 3: CANCEL is honoured in this phase. -/
def Phase.cancellable : Phase → Bool
  | .closeFence | .setMapFence _ _ | .syncWait _ | .flipDrain _ _ | .flipHeader | .flipCrc _ _ _ _ | .flipArm | .sealFence
  | .sealValidate _ | .serviceCloseFence | .serviceCloseCheck => true
  | .openRecord | .closeRecord | .recoverFence | .recoverErase | .recoverRecord | .setMapRecord _ _ | .flipSwitch | .sealProgram _ _
  | .sealRecord _ _ | .codeRecord | .serviceOpenRecord | .serviceCloseRecord _ => false

/-- The running directive is cancelled: it reads no more, and ends REFUSED with CANCELLED (R96, R182, R184). -/
def State.cancelRunning (s : State) : State := (s.dropRead .sysRead).endDirective .cancelled []

/-- A PENDING slot is cancelled (R184, step 2). -/
def State.cancelPending (s : State) (k : Nat) : State :=
  (((s.onDir fun x => { x with queue := x.queue.filter (fun m => decide (m ≠ k)) }).finishSlot k .cancelled []).raise
    .directiveRefused).uncount k

/-- CANCEL (R184), given in slot `n`. -/
def State.takeCancel (s : State) (n : Nat) (img : Mem) (len : Nat) : State :=
  let k := (param img 0).toNat
  if len ≠ 1 ∨ k < 1 ∨ 15 < k then s.finishSlot n .badParameter [0]
  else match (s.slot k).state with
    | .pending => (s.cancelPending k).finishSlot n .done [byte k]
    | .running =>
      match s.dir.running with
      | some ph => if ph.cancellable then s.cancelRunning.finishSlot n .done [byte k] else s.finishSlot n .notCancellable [byte k]
      | none => s.finishSlot n .notCancellable [byte k]
    | _ => s.finishSlot n .badParameter [byte k]

/-- The failure counts of the four queues are set to 0 (R185). -/
def PerQueue.clearFailures (x : PerQueue Queue) : PerQueue Queue :=
  ⟨{ x.sys with failures := 0 }, { x.pass with failures := 0 }, { x.set with failures := 0 }, { x.uni with failures := 0 }⟩

/-- ACK's effects with an event set (R185). -/
def State.acknowledge (s : State) (named : BitVec 13) : State :=
  { s with
    dir := { s.dir with events := s.dir.events &&& ~~~named }
    queues := s.queues.clearFailures
    firstFailure := none
    portA := { s.portA with ignoredCount := 0 }
    portT := { s.portT with ignoredCount := 0 } }

/-- ACK (R185), given in slot `n`. -/
def State.takeAck (s : State) (n : Nat) (img : Mem) (len : Nat) : State :=
  let v := paramNat img 0 2
  if len ≠ 2 ∨ 8192 ≤ v then s.finishSlot n .badParameter [0]
  else (s.acknowledge (BitVec.ofNat 13 v)).finishSlot n .done []

/-- SET-EVENT-MASK (R186), given in slot `n`. -/
def State.takeSetMask (s : State) (n : Nat) (img : Mem) (len : Nat) : State :=
  let v := paramNat img 0 2
  if len ≠ 2 ∨ 8192 ≤ v then s.finishSlot n .badParameter [0]
  else (s.onDir fun x => { x with mask := BitVec.ofNat 13 v }).finishSlot n .done []

/-- KEY-HIDE (R159), given in slot `n`: result data 1 where it closed release, else 0. -/
def State.takeKeyHide (s : State) (n : Nat) (len : Nat) : State :=
  if len ≠ 0 then s.finishSlot n .badParameter [0]
  else if s.key.window = .released then s.closeRelease.finishSlot n .done [1]
  else s.finishSlot n .done [0]

/-! ### Queued directives (R179) -/

/-- A FLIP joins the Classifier's count, a SEAL the Key Store Controller's, which judges the stage idle timer (R30, R144). -/
def State.count (s : State) (d : Directive) : State :=
  match d with
  | .flip => s.onDir fun x => { x with flipCount := x.flipCount + 1 }
  | .seals => (s.onKey fun k => { k with sealCount := k.sealCount + 1 }).judgeStage
  | _ => s

/-- A queued directive's slot becomes PENDING and joins the tail of the queue (R179). -/
def State.enqueue (s : State) (n : Nat) (d : Directive) : State :=
  ((s.onSlot n fun x => { x with state := .pending }).onDir fun x => { x with queue := x.queue ++ [n] }).count d

/-- A directive that has been recognized is taken: an immediate one runs, a queued one joins the queue, and starts in the same event
where nothing stands before it (R179, R181). -/
def State.takeDirective (s : State) (n : Nat) (d : Directive) (img : Mem) (len : Nat) : State :=
  match d with
  | .ack => s.takeAck n img len
  | .setEventMask => s.takeSetMask n img len
  | .cancel => (s.takeCancel n img len).finish
  | .keyHide => s.takeKeyHide n len
  | _ => (s.enqueue n d).finish

/-- A slot's content after a program that left this image, before the directive is recognized (R176, R178). -/
def Slot.written (img : Mem) : Slot :=
  { state := .empty, code := Mem.get img 2, tag := Mem.get img 3, len := Mem.get img 4, result := none, data := [], image := some img }

/-- A program is taken into slot `n` and replaces its content (R178). -/
def State.takeSlot (s : State) (l : Lifecycle) (n off : Nat) (mask : OffsetBytes) : State :=
  let img := Mem.setAll [] 0 mask
  match s.recognize l off mask img with
  | .error c => ((s.setSlot n (Slot.written img)).finishSlot n c []).raise .directiveRefused
  | .ok d => (s.setSlot n (Slot.written img)).takeDirective n d img (Mem.get img 4).toNat

/-- A Port A program to the directive window (R177, R178). -/
def State.programWindow (s : State) (l : Lifecycle) (a : Nat) (mask : OffsetBytes) : State :=
  let n := (a - windowBase) / 256
  if n = 0 then s.refuse .a .program a .statusPage
  else if (s.slot n).state = .pending ∨ (s.slot n).state = .running then s.refuse .a .program a .slotBusy
  else s.takeSlot l n (a % 256) mask

/-- A slot after a window erase (R180). -/
def Slot.erased (x : Slot) : Slot :=
  match x.state with
  | .pending | .running => x
  | _ => Slot.reset

/-- A window erase empties every slot that is EMPTY, DONE or REFUSED (R180). -/
def State.eraseWindow (s : State) : State :=
  s.onDir fun x => { x with slots := x.slots.map Slot.erased }

end Sys2Proof.Machine
end

