-- ==== Sys2Proof/Machine/PortCommands.lean ====
section
/-! DEFINITION. The meanings of the link transactions (03): READ, its end, PROGRAM, the erases, WRITE-ENABLE, WRITE-DISABLE, STATUS-READ,
PORT-RESET and a command of none of these kinds. -/

namespace Sys2Proof.Machine

/-- What a command's meaning answers. -/
abbrev Result := Host.Outcome State Fault Refusal

/-- The port's link carries a transaction (R39, R40), so the master can begin no other there (R52; log entry 12). -/
def State.occupied (s : State) (p : Port) : Bool := decide ((s.port p).link ≠ .idle)

/-! ### READ (R24, R52) -/

/-- A read that has been opened at an address and asked for bytes. -/
def Reading.open (a : Addr) (n : Nat) : Reading :=
  { addr := a.toNat, want := n, seg := none, piece := .fresh, inPass := false, passLast := false, keyLast := false }

/-- A read opens on a free link, or goes on clocking on one that carries it. -/
def State.clockRead (s : State) (p : Port) (start : Option Addr) (n : Nat) : State :=
  match (s.port p).link, start with
  | .reading r, none => s.setReading p { r with want := r.want + n }
  | .idle, some a => s.onPort p fun x => { x with link := .reading (Reading.open a n), returned := [] }
  | _, _ => s

/-- READ (R52): the bytes ready are delivered in address order; the rest is held. -/
def execRead (p : Port) (start : Option Addr) (n : Nat) (s : State) : Result := .next (s.clockRead p start n).runReads

/-! ### The end of a read (R53, R121, R122, R158) -/

/-- What the port reports when a read of it ends: the pass closes by its last offset or its idle timer starts; release closes by its last
byte. -/
def State.reportRead (s : State) (p : Port) (r : Reading) : State :=
  match p with
  | .t => if r.inPass && s.uni.pass.isOpen then (if r.passLast then s.closePass else s.startIdle) else s
  | .a => if r.keyLast then s.closeRelease else s

/-- A read ends or is abandoned (R53): its claims that are not granted are withdrawn, a granted page read is discarded, the link is free,
and the delivered bytes are reported. -/
def State.endRead (s : State) (p : Port) : State :=
  match s.reading p with
  | some r =>
    ((s.dropRead (portClaimant p)).onPort p fun x => { x with link := .idle }).reportRead p r
  | none => s

/-- READ-END (R53). -/
def execReadEnd (p : Port) (s : State) : Result := .next (s.endRead p).finish

/-! ### Programs and erases (R43 to R47) -/

/-- What the Classifier's verdict does with a write, with all that it brings about (R46, R47). -/
def State.act (s : State) (p : Port) (l : Lifecycle) (kind : WriteKind) (a : Nat) (mask : OffsetBytes) : Verdict → State
  | .refuse r => s.refuse p kind a r
  | .stage =>
    match entryOfClass s.life.fields.map .key with
    | some e => s.stageWrite (pageOf a - e.ubase) mask
    | none => s
  | .stageErase => s.stageErase
  | .slot => s.programWindow l a mask
  | .windowErase => s.eraseWindow
  | .queue q phys posted =>
    (s.takeQueued { queue := q, kind := kind, addr := phys, data := mask, upstream := a, posted := posted }).finish

/-- The port clears WEL (R42, R43). -/
def State.clearWel (s : State) (p : Port) : State := s.onPort p fun x => { x with wel := false }

/-- A closed program or erase (R43): WEL, then BUSY, then the Classifier's decision. -/
def State.takeWrite (s : State) (p : Port) (kind : WriteKind) (a : Nat) (mask : OffsetBytes) : State :=
  if (s.port p).wel = false then s.refuse p kind a .noEnable
  else if (s.port p).busy then s.ignore p
  else
    match s.life.lifecycle with
    | some l => (s.clearWel p).act p l kind a mask (s.classify p l kind a)
    | none => s.clearWel p

/-- The address a program or erase was opened with and its data so far, with what arrives now (R39, R40); none where the link carries
another transaction. -/
def Link.collected (x : Link) (kind : WriteKind) (a : Addr) (data : List Byte) : Option (Addr × List Byte) :=
  match x with
  | .idle => some (a, data)
  | .collecting k b d => if k = kind then some (b, d ++ data) else none
  | .reading _ => none

/-- The link carries nothing. -/
def State.freeLink (s : State) (p : Port) : State := s.onPort p fun x => { x with link := .idle, returned := [] }

/-- A closed program or erase is taken. A PROGRAM that closes without a data byte is no transaction (R39). -/
def State.close (s : State) (p : Port) (kind : WriteKind) (a : Addr) (data : List Byte) : State :=
  if kind = .program ∧ data = [] then s.freeLink p else (s.freeLink p).takeWrite p kind a.toNat (covered a.toNat data)

/-- A program or erase arrives. Not closed, the link collects it (R39, R40; log entry 11); closed, it is taken. -/
def State.arrive (s : State) (p : Port) (kind : WriteKind) (a : Addr) (data : List Byte) (closed : Bool) : State :=
  match (s.port p).link.collected kind a data with
  | none => s
  | some (b, d) =>
    if closed then s.close p kind b d else s.onPort p fun x => { x with link := .collecting kind b d, returned := [] }

/-- PROGRAM (R43). -/
def execProgram (p : Port) (a : Addr) (data : List Byte) (closed : Bool) (s : State) : Result :=
  .next (s.arrive p .program a data closed)

/-- ERASE-SECTOR (R43). -/
def execEraseSector (p : Port) (a : Addr) (closed : Bool) (s : State) : Result :=
  .next (s.arrive p .eraseSector a [] closed)

/-- ERASE-BLOCK (R26, R43). -/
def execEraseBlock (p : Port) (a : Addr) (closed : Bool) (s : State) : Result :=
  .next (s.arrive p .eraseBlock a [] closed)

/-! ### The status commands (R39, R41, R42) -/

/-- WRITE-ENABLE (R42): WEL is set and the three error flags are cleared. -/
def execWriteEnable (p : Port) (s : State) : Result :=
  if s.occupied p then .next s
  else .next (s.onPort p fun x => { x.clearErrors with wel := true, returned := [] })

/-- WRITE-DISABLE (R42): WEL is cleared. -/
def execWriteDisable (p : Port) (s : State) : Result :=
  if s.occupied p then .next s
  else .next (s.onPort p fun x => { x with wel := false, returned := [] })

/-- STATUS-READ (R41): the emulated status byte is returned; nothing else changes. -/
def execStatusRead (p : Port) (s : State) : Result :=
  if s.occupied p then .next s
  else .next (s.onPort p fun x => { x with returned := [x.statusByte] })

/-- A command of none of the eight kinds (R39) returns `0xFF` for every byte clocked. -/
def execUnknownCommand (p : Port) (n : Nat) (s : State) : Result :=
  if s.occupied p then .next s
  else .next (s.onPort p fun x => { x with returned := List.replicate n erasedByte })

/-! ### PORT-RESET (R54) -/

/-- The port's own part of PORT-RESET: WEL and the error flags are cleared and a transaction in progress is broken off. -/
def State.clearPort (s : State) (p : Port) : State :=
  s.onPort p fun x => { x.clearErrors with wel := false, link := .idle, returned := [] }

/-- PORT-RESET (R54): the read is abandoned (R53), then the port is cleared. -/
def execPortReset (p : Port) (s : State) : Result := .next ((s.endRead p).clearPort p).finish

end Sys2Proof.Machine
end

