-- ==== Sys2Proof/Machine/MomentCommands.lean ====
section
/-! DEFINITION. The meanings of the moments of running directives, of the control record write, and of the page pool. Each is carried
out where it is due and is nothing where it is not (log entry 1). An event carries out the moments it makes due itself (log entry 2). -/

namespace Sys2Proof.Machine

/-- A moment that is due, with what follows in its event; one that is not due changes nothing. -/
def State.moment (s : State) (o : Option State) : Result :=
  match o with
  | some s' => .next s'.finish
  | none => .next s

/-- DIRECTIVE-START (R181). -/
def execDirectiveStart (s : State) : Result := s.moment s.directiveStep

/-- SET-MAP-FENCE-END (R36). -/
def execSetMapFenceEnd (s : State) : Result := s.moment s.setMapFenceStep

/-- CLOSE-FENCE-END (R18). -/
def execCloseFenceEnd (s : State) : Result := s.moment s.closeFenceStep

/-- RECOVER-FENCE-END (R19). -/
def execRecoverFenceEnd (s : State) : Result := s.moment s.recoverFenceStep

/-- RECOVER-ERASE-END (R19). -/
def execRecoverEraseEnd (s : State) : Result := s.moment s.recoverEraseStep

/-- SEAL-FENCE-END (R149). -/
def execSealFenceEnd (s : State) : Result := s.moment s.sealFenceStep

/-- SEAL-PROGRAM-END (R152). -/
def execSealProgramEnd (s : State) : Result := s.moment s.sealProgramStep

/-- SEAL-FLASH-FAILED (R153). -/
def execSealFlashFailed (s : State) : Result := s.moment s.sealFailedStep

/-- SERVICE-CLOSE-FENCE-END (R172). -/
def execServiceCloseFenceEnd (s : State) : Result := s.moment s.serviceCloseFenceStep

/-- FLIP-DRAIN-END (R129, R130). -/
def execFlipDrainEnd (s : State) : Result := s.moment s.flipDrainStep

/-- FLIP-SWITCH-BEGIN (R133, R134). -/
def execFlipSwitchBegin (s : State) : Result := s.moment s.flipSwitchStep

/-- SYNC-WAIT-END (R74). -/
def execSyncWaitEnd (s : State) : Result := s.moment s.syncStep

/-- CONTROL-RECORD-WRITE-END (R8, R9). -/
def execControlRecordWriteEnd (s : State) : Result := s.moment s.recordStep

/-- AWAITING-WRITE-ENTRY-MADE (R49). -/
def execAwaitingWriteEntryMade (s : State) : Result := s.moment s.awaitingStep

/-- SYS-PROGRAM-ENTRY-MADE (R63). -/
def execSysProgramEntryMade (s : State) : Result := s.moment s.sysStep

end Sys2Proof.Machine
end

