-- ==== Sys2Proof/Machine/Loading.lean ====
section
/-! DEFINITION. Device reset, LOADING and its end (R10 to R13, R140), and what each page read of the part's own leads to (R95, R131,
R132, R151, R172). -/

namespace Sys2Proof.Machine

/-! ### The end of LOADING -/

/-- What the Key Store Controller takes up at the end of LOADING (R13, R140, R157). -/
def KeyUnit.atLoading (k : KeyUnit) (l : Lifecycle) (f : Fields) : KeyUnit :=
  let k := { k with staging := [], stageTimer := .stopped, releaseTimer := .stopped, releaseTime := f.releaseTime, sealedLen := 0 }
  match l with
  | .opened => { k with window := .staging }
  | .sealed | .closed | .service =>
    { k with window := .released, releaseTimer := .running (1000 * f.releaseTime), sealedLen := f.bundleLen }
  | .blank | .safe => { k with window := .none }

/-- What the Uniformity Bank Controller takes up at the end of LOADING: a bank of `n` bytes and the live bank (R13, R116, R118). -/
def UniformityUnit.atLoading (n : Nat) (b : Bank) (x : UniformityUnit) : UniformityUnit :=
  { x with coverage := freshCoverage n, pass := { x.pass with isOpen := false, bank := b, length := n, idle := .stopped } }

/-- LOADING ends: the lifecycle is chosen, the blocks take it up, BUSY clears on both ports (R12, R13, R116, R118, R166, R169). The held
reads are released by the delivery that ends the event. -/
def State.endLoading (s : State) : State :=
  let (l, f) := startupChoice s.life.fuse s.life.loaded
  { s with
    life := { s.life with lifecycle := some l, fields := f }
    uni := s.uni.atLoading (bankSize f.map) f.live
    key := s.key.atLoading l f
    attempts := 3
    portA := { s.portA with cause := .none }
    portT := { s.portT with cause := .none } }

/-- A page of the control sector joins what has been loaded. -/
def State.takeLoaded (s : State) (r : PageRead) : State :=
  let got := (Mem.cut s.flash r.range.page 256).map fun c => (r.range.page - controlSector + c.1, c.2)
  s.onLife fun x => { x with loaded := x.loaded ++ got, loadPages := x.loadPages + 1 }

/-- A page of the control sector has been read: the next one is claimed, or LOADING ends (R11, R12). -/
def State.loadPage (s : State) (r : PageRead) : State :=
  if 16 ≤ s.life.loadPages + 1 then (s.takeLoaded r).endLoading
  else (s.takeLoaded r).raiseClaim .sysRead (some { page := controlSector + 256 * (s.life.loadPages + 1), lo := 0, hi := 255 })

/-! ### FLIP's CHECK (R131, R132) -/

/-- R131: the check code of the first header field that fails. -/
def headerFault (m : Mem) (base size : Nat) : Option Nat :=
  let len := leNat (Mem.slice m (base + 8) 4)
  if Mem.slice m base 4 ≠ [0x55, 0x43, 0x54, 0x31] then some 1
  else if leNat (Mem.slice m (base + 4) 2) ≠ 1 then some 2
  else if len < 1 ∨ size < len + 16 then some 3
  else none

/-- The claim for the CRC's next page, from shadow offset `next` on (R132). -/
def State.claimCrc (s : State) (len stored next : Nat) (crc : BitVec 32) : State :=
  (s.enter (.flipCrc len stored next crc)).raiseClaim .sysRead
    (some { page := s.shadowBase + pageOf next, lo := next % 256, hi := min 255 (15 + len - pageOf next) })

/-- The table header has been read (R131). -/
def State.headerRead (s : State) : State :=
  let base := s.shadowBase
  match headerFault s.flash base (bankSize s.life.fields.map) with
  | some c => s.endDirective .tableCheckFailed [byte c]
  | none => s.claimCrc (leNat (Mem.slice s.flash (base + 8) 4)) (leNat (Mem.slice s.flash (base + 12) 4)) 16 crc32Start

/-- A page of the table has been taken into the CRC (R132). -/
def State.crcRead (s : State) (r : ReadRange) (len stored next : Nat) (crc : BitVec 32) : State :=
  let crc := crc32Over crc (Mem.slice s.flash (r.page + r.lo) (r.hi + 1 - r.lo))
  let next := pageOf next + 256
  if next ≤ 15 + len then s.claimCrc len stored next crc
  else
    let computed := (~~~crc).toNat
    if computed = stored then s.enter .flipArm
    else s.endDirective .tableCheckFailed ([4] ++ leBytes 4 computed ++ leBytes 4 stored)

/-! ### Handing the bytes over (R83) -/

/-- A SYS-READ page read hands its bytes to its requester (R95). -/
def State.sysRead (s : State) (r : PageRead) : State :=
  if s.loading then s.loadPage r
  else match s.dir.running with
    | some .flipHeader => s.headerRead
    | some (.flipCrc len stored next crc) => s.crcRead r.range len stored next crc
    | some (.sealValidate _) | some .serviceCloseCheck => s.regionJudge (combine s.flash (s.entriesOf .set) r.range)
    | _ => s

/-- The FILLING slot of a page becomes HELD with its bytes (R111). -/
def fillHeld (page : Nat) (bytes : List Byte) : AheadSlot → AheadSlot
  | .filling p => if p = page then .held p bytes else .filling p
  | x => x

/-- A PREFETCH page read hands its bytes to the read-ahead buffer; the piece that waits for the slot and the PREFETCH demand are judged
(R111). -/
def State.fillAhead (s : State) (r : PageRead) : State :=
  ((s.mapSlots (fillHeld r.range.page (Mem.slice s.flash r.range.page 256))).rejudgeSlot).judgePrefetch

/-- A discarded PREFETCH page read leaves its slot EMPTY (R109, R113). A piece that came to wait for the slot although the read was
already to be discarded waits to this end and then raises its T-READ claim: R109 and R113 discard, R112 waits, and which holds is the
model's choice (log entry 29). -/
def State.emptyFilling (s : State) : State :=
  ((s.mapSlots fun x => match x with | .filling _ => .empty | y => y).rejudgeSlot).judgePrefetch

/-- The bytes of an ended page read go to the party that raised the claim; discarded bytes go nowhere (R53, R83). -/
def State.handOver (s : State) (r : PageRead) : State :=
  match r.claimant, r.discard with
  | .tRead, false => s.completePiece .t
  | .aRead, false => s.completePiece .a
  | .prefetch, false => s.fillAhead r
  | .prefetch, true => s.emptyFilling
  | .sysRead, false => s.sysRead r
  | _, _ => s

/-! ### Device reset -/

/-- Device reset, over a flash that the flash reset sequence has left so (R3, R4, R10, R11, R55, R75, R78, R113, R191): every block takes
its reset values, FIXTURE is sampled, the fuse is read, and the first SYS-READ is granted. The commands that wait, the flash and the
fuse outlive it (log entry 27). -/
def State.deviceReset (s : State) (fixture : Bool) (flash : Mem) : State :=
  { State.reset with
    pending := s.pending
    flash := flash
    fuseCell := s.fuseCell
    fuseTries := s.fuseTries
    breaks := s.breaks
    life := { State.reset.life with fixture := fixture, fuse := s.fuseCell } }

end Sys2Proof.Machine
end

