-- ==== Sys2Proof/Machine/EngineCommands.lean ====
section
/-! DEFINITION. The meanings of DEVICE-RESET and of the Flash Engine's events (05): the ends of its reads, the issue of a command, the
flash's answer, the wait limit, and the checks. An event that the operation in flight does not stand before changes nothing (log entry
1). What the flash holds afterwards is given by the command (log entry 4). -/

namespace Sys2Proof.Machine

/-- The operation in flight with its entry. -/
def State.operation (s : State) : Option (QueueId × Entry) :=
  match s.engine.write with
  | some q => (s.entriesOf q).head?.map fun e => (q, e)
  | none => none

/-- The operation in flight, where its entry stands in a phase. -/
def State.inPhase (s : State) (ph : WorkPhase) : Option (QueueId × Entry) :=
  match s.operation with
  | some (q, e) => if e.state = .active ph then some (q, e) else none
  | none => none

/-! ### What an operation makes of the flash (R76, R85, R87) -/

/-- The given bytes that lie in an operation's range. -/
def leftIn (n : Nat) (left : OffsetBytes) : OffsetBytes := left.filter (fun c => decide (c.1 < n))

/-- An erase of the control sector that leaves a byte of the record's two pages unerased leaves no marker there, whatever bytes are given:
the old record is gone, and the sector is partial and stays so under the programs that follow (R9, R10, R155; log entry 4). -/
def noRecord (m : Mem) (e : Entry) : Mem :=
  if e.touches controlSector && e.touches (controlSector + 511) && !Mem.erasedIn m controlSector 512 then Mem.set m controlSector 0 else m

/-- A program of a record page that fails leaves no marker on its page, whatever bytes are given: a failed try leaves a valid record only
where both programs left DONE (R9; log entry 4). -/
def noMarker (m : Mem) (e : Entry) : Mem :=
  if e.kind = .program ∧ (e.addr = controlSector ∨ e.addr = controlSector + 256) ∧ Mem.slice m e.addr 4 = recordMarker
  then Mem.set m e.addr 0 else m

/-- An operation that has ended: a program ANDs its data in, an erase sets its range to `0xFF`, but for the bytes given otherwise; a
program only clears bits whatever is given. -/
def State.flashDone (s : State) (e : Entry) (left : OffsetBytes) : Mem :=
  let given := leftIn e.kind.range left
  match e.kind with
  | .program => Mem.andAll s.flash e.addr (e.data.filter (fun c => !covers given c.1) ++ given)
  | _ => noRecord (Mem.setAll (Mem.erase s.flash e.addr e.kind.range) e.addr given) e

/-- An operation that has been broken off: the flash is as it was but for the bytes given, and but for a record that an erase had begun
to erase. -/
def State.flashBroken (s : State) (e : Entry) (left : OffsetBytes) : Mem :=
  let given := leftIn e.kind.range left
  match e.kind with
  | .program => Mem.andAll s.flash e.addr given
  | _ => noRecord (Mem.setAll s.flash e.addr given) e

/-! ### Device reset -/

/-- The flash after the flash reset sequence: an operation that runs on it or stands suspended ends there (R75, R78). -/
def State.flashAtReset (s : State) (left : OffsetBytes) : Mem :=
  match s.operation with
  | some (_, e) => if e.state = .active .wait ∨ e.state = .suspended then s.flashBroken e left else s.flash
  | none => s.flash

/-- DEVICE-RESET (R11). -/
def execDeviceReset (fixture : Bool) (left : OffsetBytes) (s : State) : Result :=
  .next (s.deviceReset fixture (s.flashAtReset left))

/-! ### Page reads -/

/-- The page read in flight is wanted no more once its bytes are handed over, so it discards nothing and puts no claim off. -/
def State.keepNoDiscard (s : State) : State :=
  s.onEngine fun x => { x with read := x.read.map fun r => { r with discard := false } }

/-- PAGE-READ-END (R83): the bytes are handed over with all that this brings about, and then Port F is free, or the suspension's next
grant is made (R82, R92; log entry 14). -/
def execPageReadEnd (s : State) : Result :=
  match s.engine.read with
  | some r => .next ((((s.keepNoDiscard).handOver r).raiseDeferred r.claimant).finish).endPageRead
  | none => .next s

/-! ### Phases of a program or erase -/

/-- The expected image of a program: the page as read, with the covered bytes ANDed in (R84). -/
def expectedImage (flash : Mem) (e : Entry) : Mem := Mem.andAll (Mem.cut flash e.addr 256) 0 e.data

/-- An entry whose expected image has been formed, in phase PROGRAM (R84). -/
def Entry.imaged (flash : Mem) (e : Entry) : Entry := { e with image := some (expectedImage flash e), state := .active .program }

/-- The running directive waits to read the region record: no SYS-READ claim of it stands or is granted (R150). -/
def State.regionWaits (s : State) : Bool :=
  (s.claim .sysRead).isNone && (s.engine.deferred.get .sysRead).isNone &&
    (match s.engine.read with | some r => decide (r.claimant ≠ .sysRead) || r.discard | none => true)

/-- An expected image has been formed in Q-SET: a region record read that waits for it is judged (R104, R150). -/
def State.rejudgeRegion (s : State) (q : QueueId) : State :=
  match s.dir.running with
  | some (.sealValidate _) | some .serviceCloseCheck => if q = .set ∧ s.regionWaits = true then s.readRegion else s
  | _ => s

/-- PRE-READ-END (R84): the expected image is formed, the entry enters PROGRAM, and the pieces of reads are judged again (R104, R105). -/
def execPreReadEnd (s : State) : Result :=
  match s.inPhase .preRead with
  | some (q, _) =>
    .next (((s.setHead q (Entry.imaged s.flash)).rejudgeFormed q).rejudgeRegion q).finish
  | none => .next s

/-- PROGRAM-COMMAND-ISSUED (R85, R87): the entry enters WAIT with its count at 0, and preemption is judged (R90). -/
def execProgramCommandIssued (s : State) : Result :=
  match s.inPhase .program with
  | some (q, _) =>
    .next ((s.setHead q fun e => { e with state := .active .wait }).onEngine fun x => { x with waited := 0 }).judgePreempt
  | none => .next s

/-- The operation ends: the entry leaves with all that this brings about, and then Port F is free (R64, R88). -/
def State.operationEnd (s : State) (q : QueueId) (out : Option FailReason) : State := ((s.leave q out).finish).endWrite

/-- FLASH-READY (R85, R87): without error the entry moves to VERIFY, with an error it fails. -/
def execFlashReady (error : Bool) (left : OffsetBytes) (s : State) : Result :=
  match s.inPhase .wait with
  | some (q, e) =>
    if error then .next ((s.setFlash (noMarker (s.flashDone e left) e)).operationEnd q (some .flashError))
    else .next ((s.setFlash (s.flashDone e left)).setHead q fun e => { e with state := .active .verify })
  | none => .next s

/-- The wait limit expires: the flash reset sequence ends the operation, and the entry fails (R85, R87). -/
def State.waitExpired (s : State) (left : OffsetBytes) : State :=
  match s.inPhase .wait with
  | some (q, e) => (s.setFlash (noMarker (s.flashBroken e left) e)).operationEnd q (some .flashError)
  | none => s

/-- WAIT-LIMIT-EXPIRY (R85). -/
def execWaitLimitExpiry (left : OffsetBytes) (s : State) : Result := .next (s.waitExpired left)

/-- The page read back equals the expected image (R86). -/
def State.verified (s : State) (e : Entry) : Bool := decide (e.image = some (Mem.cut s.flash e.addr 256))

/-- VERIFY-END of a program (R86): DONE, a retry, or VERIFY-MISMATCH. -/
def execVerifyEnd (s : State) : Result :=
  match s.inPhase .verify with
  | some (q, e) =>
    if e.kind ≠ .program then .next s
    else if s.verified e then .next (s.operationEnd q none)
    else if e.retries < 2 then .next (s.setHead q (fun e => { e with retries := e.retries + 1, state := .active .program }))
    else .next (s.operationEnd q (some .verifyMismatch))
  | none => .next s

/-- ERASE-CHECK-END (R87): DONE where every byte of the range is `0xFF`, else VERIFY-MISMATCH. -/
def execEraseCheckEnd (s : State) : Result :=
  match s.inPhase .verify with
  | some (q, e) =>
    if e.kind = .program then .next s
    else .next (s.operationEnd q (if Mem.erasedIn s.flash e.addr e.kind.range then none else some .verifyMismatch))
  | none => .next s

end Sys2Proof.Machine
end

