-- ==== Sys2Proof/Machine/TimerCommands.lean ====
section
/-! DEFINITION. The meanings of the aging step and of the timers' expiries, and the tick of one microsecond that an empty command queue
lets pass (log entries 8, 9 and 20). -/

namespace Sys2Proof.Machine

/-- AGING-STEP (R81). -/
def execAgingStep (c : Claimant) (s : State) : Result := .next (s.ageClaim c)

/-- The timer runs. -/
def Timer.isRunning : Timer → Bool
  | .running _ => true
  | .stopped => false

/-- The pass idle timer expires: the pass closes, PASS-EXPIRED is raised and a waiting ARM is judged (R121, R123). -/
def State.passExpired (s : State) : State :=
  if s.uni.pass.idle.isRunning then (s.closePass.raise .passExpired).finish else s

/-- PASS-IDLE-EXPIRY (R121). -/
def execPassIdleExpiry (s : State) : Result := .next s.passExpired

/-- The stage idle timer expires: the staging buffer is cleared, the timer is STOPPED and STAGE-EXPIRED is raised (R145). -/
def State.stageExpired (s : State) : State :=
  if s.key.stageTimer.isRunning then
    ((s.onKey fun k => { k with staging := [], stageTimer := .stopped }).raise .stageExpired).runReads
  else s

/-- STAGE-IDLE-EXPIRY (R145). -/
def execStageIdleExpiry (s : State) : Result := .next s.stageExpired

/-- The release timer expires and release closes (R158). -/
def State.releaseExpired (s : State) : State :=
  if s.key.releaseTimer.isRunning then s.closeRelease.runReads else s

/-- RELEASE-TIMER-EXPIRY (R158). -/
def execReleaseTimerExpiry (s : State) : Result := .next s.releaseExpired

/-! ### The tick -/

/-- A timer after one microsecond, and whether its time has run out. -/
def Timer.tick : Timer → Timer × Bool
  | .stopped => (.stopped, false)
  | .running n => (.running (n - 1), decide (n ≤ 1))

/-- One microsecond of the release timer. -/
def State.tickRelease (s : State) : State :=
  let s' := s.onKey fun k => { k with releaseTimer := k.releaseTimer.tick.1 }
  if s.key.releaseTimer.tick.2 then s'.releaseExpired else s'

/-- One microsecond of the stage idle timer. -/
def State.tickStage (s : State) : State :=
  let s' := s.onKey fun k => { k with stageTimer := k.stageTimer.tick.1 }
  if s.key.stageTimer.tick.2 then s'.stageExpired else s'

/-- One microsecond of the pass idle timer. -/
def State.tickPass (s : State) : State :=
  let s' := s.onPass fun x => { x with idle := x.idle.tick.1 }
  if s.uni.pass.idle.tick.2 then s'.passExpired else s'

/-- The wait limit in microseconds (R85). -/
def WriteKind.waitLimit : WriteKind → Nat
  | .program => 10000
  | .eraseSector => 1000000
  | .eraseBlock => 4000000

/-- One more free value of what a broken operation leaves has been used. -/
def State.countBreak (s : State) : State := { s with breaks := s.breaks + 1 }

/-- One microsecond of the wait limit's count, which a suspension pauses (R85). At the limit the flash is left with a free value. -/
def State.tickWait (s : State) : State :=
  match s.inPhase .wait with
  | some (_, e) =>
    let s' := s.onEngine fun x => { x with waited := x.waited + 1 }
    if e.kind.waitLimit ≤ s.engine.waited + 1 then s'.countBreak.waitExpired (Config.flashLeaves s.breaks) else s'
  | none => s

/-- One microsecond of a standing claim's aging interval (R81). -/
def State.countClaim (s : State) (c : Claimant) : State :=
  match s.claim c with
  | some cl => s.setClaim c (some { cl with due := cl.due - 1 })
  | none => s

/-- A standing claim whose aging interval is over gains its step (R81). -/
def State.stepClaim (s : State) (c : Claimant) : State :=
  match s.claim c with
  | some cl => if cl.due = 0 then s.ageClaim c else s
  | none => s

/-- A microsecond passes: the standing claims' intervals, the timers and the wait limit's count run on, and then the claims whose
intervals are over gain their steps (log entry 8). A claim raised by what the timers bring about starts its interval afresh. -/
def State.tick (s : State) : State :=
  claimants.foldl State.stepClaim (claimants.foldl State.countClaim s).tickRelease.tickStage.tickPass.tickWait

end Sys2Proof.Machine
end

