-- ==== Sys2Proof/Machine/Dispatch.lean ====
section
/-! DEFINITION. One arm for each command: the meaning it calls. -/

namespace Sys2Proof.Machine

def exec (i : Instr) (s : State) : Host.Outcome State Fault Refusal :=
  match i with
  | .deviceReset fixture left => Sys2Proof.Machine.execDeviceReset fixture left s
  | .read p start count => Sys2Proof.Machine.execRead p start count s
  | .readEnd p => Sys2Proof.Machine.execReadEnd p s
  | .program p addr data closed => Sys2Proof.Machine.execProgram p addr data closed s
  | .eraseSector p addr closed => Sys2Proof.Machine.execEraseSector p addr closed s
  | .eraseBlock p addr closed => Sys2Proof.Machine.execEraseBlock p addr closed s
  | .writeEnable p => Sys2Proof.Machine.execWriteEnable p s
  | .writeDisable p => Sys2Proof.Machine.execWriteDisable p s
  | .statusRead p => Sys2Proof.Machine.execStatusRead p s
  | .portReset p => Sys2Proof.Machine.execPortReset p s
  | .unknownCommand p count => Sys2Proof.Machine.execUnknownCommand p count s
  | .directiveStart => Sys2Proof.Machine.execDirectiveStart s
  | .setMapFenceEnd => Sys2Proof.Machine.execSetMapFenceEnd s
  | .closeFenceEnd => Sys2Proof.Machine.execCloseFenceEnd s
  | .recoverFenceEnd => Sys2Proof.Machine.execRecoverFenceEnd s
  | .recoverEraseEnd => Sys2Proof.Machine.execRecoverEraseEnd s
  | .sealFenceEnd => Sys2Proof.Machine.execSealFenceEnd s
  | .sealProgramEnd => Sys2Proof.Machine.execSealProgramEnd s
  | .sealFlashFailed => Sys2Proof.Machine.execSealFlashFailed s
  | .serviceCloseFenceEnd => Sys2Proof.Machine.execServiceCloseFenceEnd s
  | .flipDrainEnd => Sys2Proof.Machine.execFlipDrainEnd s
  | .flipSwitchBegin => Sys2Proof.Machine.execFlipSwitchBegin s
  | .syncWaitEnd => Sys2Proof.Machine.execSyncWaitEnd s
  | .controlRecordWriteEnd => Sys2Proof.Machine.execControlRecordWriteEnd s
  | .awaitingWriteEntryMade => Sys2Proof.Machine.execAwaitingWriteEntryMade s
  | .sysProgramEntryMade => Sys2Proof.Machine.execSysProgramEntryMade s
  | .pageReadEnd => Sys2Proof.Machine.execPageReadEnd s
  | .preReadEnd => Sys2Proof.Machine.execPreReadEnd s
  | .programCommandIssued => Sys2Proof.Machine.execProgramCommandIssued s
  | .flashReady error left => Sys2Proof.Machine.execFlashReady error left s
  | .waitLimitExpiry left => Sys2Proof.Machine.execWaitLimitExpiry left s
  | .verifyEnd => Sys2Proof.Machine.execVerifyEnd s
  | .eraseCheckEnd => Sys2Proof.Machine.execEraseCheckEnd s
  | .agingStep c => Sys2Proof.Machine.execAgingStep c s
  | .passIdleExpiry => Sys2Proof.Machine.execPassIdleExpiry s
  | .stageIdleExpiry => Sys2Proof.Machine.execStageIdleExpiry s
  | .releaseTimerExpiry => Sys2Proof.Machine.execReleaseTimerExpiry s

end Sys2Proof.Machine
end

