-- ==== Sys2Proof/Machine/Step.lean ====
section
/-! DEFINITION. A step: the command at the front of the queue is carried out; with none waiting, a microsecond passes. -/

namespace Sys2Proof.Machine

/-- One step. A command is carried out with the rest of the queue; on an empty queue the block idles for one tick (log entry 8). -/
def step (s : State) : Host.Outcome State Fault Refusal :=
  match s.pending with
  | c :: rest => exec c { s with pending := rest }
  | [] => .next s.tick

/-- The command that a word spells, put at the front of the queue; the state as it was where the word spells none (log entry 23). -/
def State.withFetchWord (s : State) (nbits w : Nat) : State :=
  match decodeTableWord nbits w with
  | some c => { s with pending := c :: s.pending }
  | none => s

end Sys2Proof.Machine
end

