-- ==== Sys2Proof/Safety.lean ====
section
/-! DEFINITION. What counts as a safe run, in the terms the claims use: every step answers a next state, and that state keeps the
properties below. -/

namespace Sys2Proof.Machine

/-- Every pool page is free or held by an entry: the free pages and the pages the four queues hold (R56, R62). -/
def State.pageCount (s : State) : Nat :=
  s.freePages + s.pagesHeld .sys + s.pagesHeld .pass + s.pagesHeld .set + s.pagesHeld .uni

/-- The flash and the staging buffer are in the canonical form, so that equal contents are equal data. -/
def State.memoryOk (s : State) : Prop := Mem.wf s.flash = true ∧ Mem.wf s.key.staging = true

/-- The slots and the directive queue are in step (R181): the queue lists the PENDING and RUNNING slots, each once; a slot is RUNNING
exactly where it is the head of the queue and a directive runs. -/
def State.directivesOk (s : State) : Prop :=
  s.dir.queue.Nodup ∧ (∀ n ∈ s.dir.queue, 1 ≤ n ∧ n ≤ s.dir.slots.length) ∧ (s.dir.running.isSome = true → s.dir.queue ≠ []) ∧
  ∀ n, 1 ≤ n → n ≤ s.dir.slots.length →
    (n ∈ s.dir.queue ↔ (s.slot n).state = .pending ∨ (s.slot n).state = .running) ∧
    ((s.slot n).state = .running ↔ s.dir.running.isSome = true ∧ s.dir.queue.head? = some n)

/-! ### Control records -/

/-- A map entry that passes SET-MAP's checks on its own parameters (R22, R34). -/
def MapEntry.ok (e : MapEntry) : Prop :=
  e.cls ≠ .directive ∧ (e.aRight ≠ .none → e.cls = .pass) ∧ e.tRight ≠ .readWrite ∧
  (e.tRight ≠ .none → e.cls = .pass ∨ e.cls = .settings) ∧ (e.posted = true → e.cls = .pass) ∧
  e.ubase % 4096 = 0 ∧ e.size % 4096 = 0 ∧ sizeOk e.cls e.size = true ∧ e.ubase + e.size ≤ spaceSize ∧
  baseOk e.ubase e.size e.pbase = true ∧
  (if e.cls = .uniformity then baseOk e.ubase e.size e.pbase2 = true else e.pbase2 = 0)

/-- A record whose every field has a value that a record may hold (R6, R7). -/
def ControlRecord.ok (r : ControlRecord) : Prop :=
  r.lifecycle ≠ .blank ∧ r.lifecycle ≠ .safe ∧ r.fields.map.length = 15 ∧ (∀ e, some e ∈ r.fields.map → e.ok) ∧
  mapConsistent r.fields.map = true ∧
  (r.fields.bundleLen = 0 ∨ 64 ≤ r.fields.bundleLen ∧ r.fields.bundleLen ≤ 4096) ∧
  r.fields.scopes.length ≤ 8 ∧ (∀ x ∈ r.fields.scopes, x.code < 65536) ∧
  (∀ g, r.fields.region = some g → 1 ≤ g.code ∧ g.code ≤ 4095) ∧
  100 ≤ r.fields.releaseTime ∧ r.fields.releaseTime ≤ 10000 ∧ (∀ c, r.fields.code = some c → c.length = 16)

/-! ### Numbers on the wire, and the image of a program -/

/-- The result codes in the order of their numbers, from 0 (the table of R188). -/
def resultCodes : List ResultCode :=
  [.done, .malformed, .unknownCode, .notInState, .fixtureRequired, .badParameter, .cancelled, .notCancellable, .mapConflict,
   .coverageIncomplete, .shadowFailed, .tableCheckFailed, .bundleInvalid, .regionInvalid, .regionOutOfScope, .flashFailed,
   .controlFailed, .fuseFailed, .codeMismatch, .attemptsExhausted, .noServiceCode]

/-- `img` is the expected image of a program: the page as read, with the covered bytes ANDed in (R84). -/
def Entry.Forms (e : Entry) (flash img : Mem) : Prop :=
  Mem.wf img = true ∧ ∀ o < 256, Mem.get img o = match coveredByte e.data o with
    | some b => Mem.get flash (e.addr + o) &&& b
    | none => Mem.get flash (e.addr + o)

/-- The head of a queue once its expected image has been formed (R84). -/
def Entry.formed (e : Entry) (img : Mem) : Entry := { e with image := some img, state := .active .program }

/-- The entry erases the whole control sector or programs a page of the control record (R6, R8). -/
def Entry.HitsRecord (e : Entry) : Prop :=
  (e.kind = .program → e.addr = 0x1FFF000 ∨ e.addr = 0x1FFF100) ∧
  (e.kind ≠ .program → e.addr ≤ 0x1FFF000 ∧ 0x2000000 ≤ e.addr + e.kind.range)

/-! ### What reads and the Arbiter leave alone -/

/-- An entry but for its state and its retries, which a grant, a suspension or a resumption sets. -/
def Entry.still (e : Entry) : Entry := { e with state := .queued, retries := 0 }

/-- A queue but for the states and retries of its entries. -/
def Queue.still (x : Queue) : Queue := { x with entries := x.entries.map Entry.still }

/-- A port but for what its link carries and has returned. -/
def PortState.still (x : PortState) : PortState := { x with link := .idle, returned := [] }

/-- The Arbiter's settings. -/
def Engine.settings (x : Engine) : PerClaimant Nat × Nat × Nat × Nat := (x.weights, x.bar, x.interval, x.limit)

/-- `t` differs from `s` at most in the links' reads and their bytes, the claims and the grants of Port F, the read-ahead buffer, and
the state, bank, length and idle timer of the pass, which may have opened and has not closed. -/
structure Apart (s t : State) : Prop where
  pending : t.pending = s.pending
  flash : t.flash = s.flash
  fuseCell : t.fuseCell = s.fuseCell
  life : t.life = s.life
  pool : t.pool = s.pool
  nextSeq : t.nextSeq = s.nextSeq
  firstFailure : t.firstFailure = s.firstFailure
  key : t.key = s.key
  attempts : t.attempts = s.attempts
  dir : t.dir = s.dir
  job : t.job = s.job
  settings : t.engine.settings = s.engine.settings
  queues : ∀ q, (t.queues.get q).still = (s.queues.get q).still
  portA : t.portA.still = s.portA.still
  portT : t.portT.still = s.portT.still
  coverage : t.uni.coverage = s.uni.coverage
  passCount : t.uni.pass.count = s.uni.pass.count
  passOpen : s.uni.pass.isOpen = true → t.uni.pass.isOpen = true
  carried : t.carried = s.carried

/-! ### States in which no moment waits, or only entries are made -/

/-- No directive waits or runs, no Q-SYS work runs, Port A has no awaiting write and does not wait for room: a command's own effect is
then all that its event brings about, but for the bytes it makes ready. -/
structure State.Calm (s : State) : Prop where
  queue : s.dir.queue = []
  running : s.dir.running = none
  job : s.job = none
  awaiting : s.portA.awaiting = none
  noRoom : ∀ q, s.portA.cause ≠ .room q

/-- No read is in progress on either port. -/
structure State.NoReads (s : State) : Prop where
  linkA : s.reading .a = none
  linkT : s.reading .t = none

/-- A phase that ends by a run of Q-SYS work or by a SYS-READ, not by a fence, a pass or a wait for queues. -/
def Phase.stays : Phase → Bool
  | .closeFence | .recoverFence | .setMapFence _ _ | .syncWait _ | .flipDrain _ _ | .flipArm | .sealFence | .serviceCloseFence => false
  | _ => true

/-- A directive runs in such a phase, with no work or with work that has not ended. -/
structure State.Steady (ph : Phase) (w : Option Work) (s : State) : Prop where
  running : s.dir.running = some ph
  stays : ph.stays = true
  work : s.job.map Job.work = w
  job : ∀ j, s.job = some j → j.ended = false

/-- One directive is in the queue and runs in a phase; Port A has no awaiting write and does not wait for room; no read is in
progress. -/
structure State.Alone (s : State) (n : Nat) (ph : Phase) : Prop extends s.NoReads where
  running : s.dir.running = some ph
  queue : s.dir.queue = [n]
  low : 1 ≤ n
  high : n ≤ s.dir.slots.length
  awaiting : s.portA.awaiting = none
  noRoom : ∀ q, s.portA.cause ≠ .room q

/-- One FLIP is in the queue and runs in SWITCH, with a Port T read held by it and no Port A read in progress (R134). -/
structure State.Holds (s : State) (n : Nat) (rd : Reading) (seg : Segment) : Prop where
  running : s.dir.running = some .flipSwitch
  queue : s.dir.queue = [n]
  low : 1 ≤ n
  high : n ≤ s.dir.slots.length
  awaiting : s.portA.awaiting = none
  noRoom : ∀ q, s.portA.cause ≠ .room q
  linkA : s.reading .a = none
  linkT : s.reading .t = some rd
  segment : rd.seg = some seg
  held : seg.source = .held
  wants : 0 < rd.want
  closed : s.uni.pass.isOpen = false

/-- One directive is in the queue and is about to start, with its written image and parameter length; no Q-SYS work runs, Port A has no
awaiting write and does not wait for room; no read is in progress. -/
structure State.Starts (s : State) (n : Nat) (d : Directive) (img : Mem) (len : Nat) : Prop extends s.NoReads where
  running : s.dir.running = none
  queue : s.dir.queue = [n]
  low : 1 ≤ n
  high : n ≤ s.dir.slots.length
  pending : (s.slot n).state = .pending
  code : (s.slot n).directive = some d
  image : (s.slot n).image = some img
  len : (s.slot n).len.toNat = len
  job : s.job = none
  awaiting : s.portA.awaiting = none
  noRoom : ∀ q, s.portA.cause ≠ .room q

/-- The Directive Unit after the directive of slot `n`, at the head of the queue, has ended (R182 steps 1 to 3). -/
def DirectiveUnit.ended (x : DirectiveUnit) (n : Nat) (c : ResultCode) (data : List Byte) : DirectiveUnit :=
  { x with
    slots := x.slots.set (n - 1)
      { x.slots.getD (n - 1) Slot.reset with state := if c = .done then .done else .refused, result := some c, data := data }
    queue := x.queue.tail
    running := none
    events := x.events ||| (if c = .done then 0x0001#13 else 0x0002#13) }

/-! ### Writes that are taken -/

/-- The closed transaction of a kind of write at an address; the data is a PROGRAM's. -/
def closedWrite (p : Port) (kind : WriteKind) (a : Addr) (data : List Byte) : Instr :=
  match kind with
  | .program => .program p a data true
  | .eraseSector => .eraseSector p a true
  | .eraseBlock => .eraseBlock p a true

/-- A closed write on a link that can carry it: it was opened at `b`, and `d` is its whole data (R39). -/
structure State.Closes (s : State) (p : Port) (kind : WriteKind) (a : Addr) (data : List Byte) (b : Addr) (d : List Byte) : Prop where
  collected : (s.port p).link.collected kind a data = some (b, d)
  erase : kind ≠ .program → data = []
  byte : kind = .program → d ≠ []

/-- A closed write of Port A that goes to the Classifier (R43 step 3). -/
structure State.Takes (s : State) (kind : WriteKind) (a : Addr) (data : List Byte) (b : Addr) (d : List Byte) (l : Lifecycle) : Prop
    extends s.Closes .a kind a data b d where
  wel : s.portA.wel = true
  free : s.portA.busy = false
  life : s.life.lifecycle = some l

/-- A closed PROGRAM of Port A that reaches slot `n` of the directive window, 1 to 15, PENDING and RUNNING excepted (R177, R178). -/
structure State.Reaches (s : State) (a : Addr) (data : List Byte) (b : Addr) (d : List Byte) (l : Lifecycle) (n : Nat) : Prop
    extends s.Takes .program a data b d l where
  verdict : s.classify .a l .program b.toNat = .slot
  page : n = (b.toNat - windowBase) / 256
  low : 1 ≤ n
  high : n ≤ s.dir.slots.length
  open_ : (s.slot n).state ≠ .pending ∧ (s.slot n).state ≠ .running

/-- The image that a program leaves in a slot (R178). -/
def slotImage (b : Addr) (d : List Byte) : Mem := Mem.setAll [] 0 (covered b.toNat d)

/-- A slot that a program has been taken into, with a result (R176, R178). -/
def Slot.taken (img : Mem) (st : SlotState) (c : Option ResultCode) (data : List Byte) : Slot :=
  { state := st, code := Mem.get img 2, tag := Mem.get img 3, len := Mem.get img 4, result := c, data := data, image := some img }

/-- A port after a write that went to the Classifier and left it not busy: WEL is cleared and the link is free (R43). -/
def PortState.taken (x : PortState) : PortState := { x with wel := false, link := .idle, returned := [] }

/-- The Directive Unit after a refusal (R189). -/
def DirectiveUnit.refusing (x : DirectiveUnit) (p : Port) (kind : WriteKind) (addr : Nat) (r : RefusalReason) : DirectiveUnit :=
  { x with
    refusedWrite := some { port := p, kind := kind, addr := addr, reason := r }
    refusals := min 255 (x.refusals + 1)
    events := x.events ||| 0x0004#13 }

/-- A program or erase that the master has not closed yet; the data is a PROGRAM's (R39). -/
def openWrite (p : Port) (kind : WriteKind) (a : Addr) (data : List Byte) : Instr :=
  match kind with
  | .program => .program p a data false
  | .eraseSector => .eraseSector p a false
  | .eraseBlock => .eraseBlock p a false

/-! ### Where a write lies (R26) -/

/-- The start of a block. -/
def blockStart (a : Nat) : Nat := a / 65536 * 65536

/-- All of a write lies in the window of an entry: the address of a PROGRAM or an ERASE-SECTOR, the whole block of an ERASE-BLOCK. -/
def MapEntry.Takes (e : MapEntry) (kind : WriteKind) (a : Nat) : Prop :=
  if kind = .eraseBlock then e.ubase ≤ blockStart a ∧ blockStart a + 65536 ≤ e.ubase + e.size else e.ubase ≤ a ∧ a < e.ubase + e.size

/-- `e` is the one enabled entry of the map in effect that a write lies wholly in. -/
structure State.LiesIn (s : State) (kind : WriteKind) (a : Nat) (e : MapEntry) : Prop where
  entry : ∃ n, (n, e) ∈ s.entries
  takes : e.Takes kind a
  only : ∀ x ∈ s.entries, x.2.Takes kind a → x.2 = e

/-! ### The directives (the table of R183) -/

/-- A directive's code, and the lifecycles in which it is allowed. -/
def directiveTable : List (Byte × Directive × List Lifecycle) :=
  [(0x01, .ack, [.blank, .opened, .sealed, .closed, .service, .safe]),
   (0x02, .setEventMask, [.blank, .opened, .sealed, .closed, .service, .safe]),
   (0x03, .cancel, [.blank, .opened, .sealed, .closed, .service, .safe]),
   (0x10, .opens, [.blank]),
   (0x11, .closes, [.sealed]),
   (0x12, .recover, [.safe]),
   (0x20, .setMap, [.opened]),
   (0x30, .setQueueLevels, [.blank, .opened, .sealed, .service]),
   (0x31, .discard, [.blank, .opened, .sealed, .service]),
   (0x32, .sync, [.blank, .opened, .sealed, .closed, .service]),
   (0x40, .setArbiter, [.blank, .opened, .sealed, .service]),
   (0x50, .setPass, [.opened, .sealed, .service]),
   (0x51, .flip, [.opened, .sealed, .service]),
   (0x60, .setKeyTimers, [.blank, .opened, .sealed, .service]),
   (0x61, .seals, [.opened]),
   (0x62, .keyHide, [.sealed, .closed, .service]),
   (0x70, .setServiceCode, [.opened, .sealed, .service]),
   (0x71, .serviceOpen, [.closed]),
   (0x72, .serviceClose, [.service])]

/-- The Directive Unit after the directive of slot `n` has started and waits in a phase (R181). -/
def DirectiveUnit.begun (x : DirectiveUnit) (n : Nat) (ph : Phase) : DirectiveUnit :=
  { x with slots := x.slots.set (n - 1) { x.slots.getD (n - 1) Slot.reset with state := .running }, running := some ph }

/-- The Key Store Controller after a SEAL has left its count: the stage idle timer is judged (R144). -/
def KeyUnit.unsealed (k : KeyUnit) : KeyUnit :=
  { k with
    sealCount := k.sealCount - 1
    stageTimer := if k.window = .staging ∧ k.sealCount - 1 = 0 ∧ k.staging ≠ [] then .running (1000000 * k.stageTime) else .stopped }

/-! ### The key bundle (R146, R147) -/

/-- The markers of bytes 0 to 3 (R146). -/
def bundleMarker : List Byte := [0x4B, 0x59, 0x42, 0x31]

/-- Test 7 of one scope at `p`, in a bundle of length `len`: the offset of its first fault. -/
def scopeFault (m : Mem) (len p : Nat) : Option Nat :=
  if len < p + 8 then some p
  else if leNat (Mem.slice m p 2) = 0 ∨ 4095 < leNat (Mem.slice m p 2) then some p
  else if Mem.get m (p + 2) = 0 ∨ 7 < (Mem.get m (p + 2)).toNat then some (p + 2)
  else if Mem.get m (p + 3) ≠ 0 then some (p + 3)
  else none

/-- Test 8 of one key entry at `p`: the offset of its first fault. -/
def entryFault (m : Mem) (len p : Nat) : Option Nat :=
  if len < p + 8 then some p
  else if Mem.get m p = 0 ∨ 4 < (Mem.get m p).toNat then some p
  else if Mem.get m (p + 1) ≠ 0 then some (p + 1)
  else if leNat (Mem.slice m (p + 2) 2) = 0 ∨ 2048 < leNat (Mem.slice m (p + 2) 2) ∨ len < p + 8 + leNat (Mem.slice m (p + 2) 2)
    then some (p + 2)
  else none

/-- Where key entry `k` begins, the first standing at `p`. -/
def bundleEntryAt (m : Mem) (p : Nat) : Nat → Nat
  | 0 => p
  | k + 1 => bundleEntryAt m p k + 4 + leNat (Mem.slice m (bundleEntryAt m p k + 2) 2)

/-! ### Time that passes (log entry 8) -/

/-- A timer a microsecond later, where that does not bring its end. -/
def Timer.later : Timer → Timer
  | .stopped => .stopped
  | .running n => .running (n - 1)

/-- A timer does not end within the next microsecond. -/
def Timer.goesOn : Timer → Prop
  | .stopped => True
  | .running n => 2 ≤ n

/-- The state a microsecond later, where nothing comes about: the timers, the wait limit's count and the aging intervals run on. -/
def State.later (s : State) : State :=
  { s with
    key := { s.key with stageTimer := s.key.stageTimer.later, releaseTimer := s.key.releaseTimer.later }
    uni := { s.uni with pass := { s.uni.pass with idle := s.uni.pass.idle.later } }
    engine := { s.engine with
      waited := if (s.inPhase .wait).isSome then s.engine.waited + 1 else s.engine.waited
      claims := s.engine.claims.map (Option.map fun c => { c with due := c.due - 1 }) } }

/-- No operation reaches its wait limit within the next microsecond: 10 ms for a program, 1 s for a sector erase, 4 s for a block erase
(R85). -/
def State.waitGoesOn (s : State) : Prop :=
  ∀ q e, s.inPhase .wait = some (q, e) →
    s.engine.waited + 1 < (match e.kind with | .program => 10000 | .eraseSector => 1000000 | .eraseBlock => 4000000)

/-- No claim's aging interval but that of `but` is over within the next microsecond (R81). -/
def State.claimsGoOn (s : State) (but : Option Claimant) : Prop := ∀ c cl, some c ≠ but → s.claim c = some cl → 2 ≤ cl.due

/-! ### Reads of flash content (R25, R99) -/

/-- A read of port `p` in entry `e` is answered from flash content: the owning queue, and the physical address of the window's first
byte. Port T's uniformity reads, which open and continue passes, are apart. -/
inductive State.ReadsFlash (s : State) (l : Lifecycle) (e : MapEntry) : Port → QueueId → Nat → Prop where
  | passA : l ≠ .safe → e.cls = .pass → e.aRight ≠ .none → s.ReadsFlash l e .a .pass e.pbase
  | passT : l ≠ .safe → e.cls = .pass → e.tRight ≠ .none → s.ReadsFlash l e .t .pass e.pbase
  | settingsA : l ≠ .safe → e.cls = .settings → s.ReadsFlash l e .a .set e.pbase
  | settingsT : l ≠ .safe → e.cls = .settings → e.tRight ≠ .none → s.ReadsFlash l e .t .set e.pbase
  | shadow : l ≠ .safe → l ≠ .closed → e.cls = .uniformity → s.ReadsFlash l e .a .uni (e.bankBase s.live.other)
  | live : l = .closed → e.cls = .uniformity → s.ReadsFlash l e .a .uni (e.bankBase s.live)
  | key : l ≠ .safe → l ≠ .opened → e.cls = .key → s.key.window = .released → s.ReadsFlash l e .a .sys e.pbase

/-- A read of port `p` in entry `e` is answered from the erased pattern (R14, R99 orders 2 and 3). -/
def State.ReadsErased (s : State) (p : Port) (l : Lifecycle) (e : MapEntry) : Prop :=
  (e.cls = .directive ∧ p = .t) ∨ (e.cls ≠ .directive ∧ l = .safe) ∨
  (e.cls = .pass ∧ (match p with | .a => e.aRight | .t => e.tRight) = .none) ∨ (e.cls = .settings ∧ p = .t ∧ e.tRight = .none) ∨
  (e.cls = .key ∧ p = .t) ∨ (e.cls = .key ∧ l ≠ .opened ∧ s.key.window ≠ .released)

/-! ### Entries that leave -/

/-- What the leaving of the head `e` of a queue, with `rest` behind it, leads to in a calm state without reads (R64 to R66, R88): `out`
is none for DONE. -/
structure Left (s t : State) (q : QueueId) (e : Entry) (rest : List Entry) (out : Option FailReason) : Prop where
  entries : (t.entriesOf q).map Entry.still = rest.map Entry.still
  others : ∀ r, r ≠ q → (t.entriesOf r).map Entry.still = (s.entriesOf r).map Entry.still
  pool : t.pool = s.pool ++ e.page.toList
  failures : ∀ r, (t.queues.get r).failures =
    if r = q ∧ out.isSome = true then min 255 ((s.queues.get r).failures + 1) else (s.queues.get r).failures
  events : out.isSome = true → t.dir.events.getLsbD 4 = true
  first : ∀ f, s.firstFailure = some f → t.firstFailure = some f
  filled : s.firstFailure = none → t.firstFailure = out.map fun r =>
    { queue := q, seq := e.seq, kind := e.kind, addr := e.addr, origin := e.origin, upstream := e.upstream, reason := r }
  portA : t.portA = if e.origin = .portA then
    { s.portA with cause := if s.portA.cause = .entry e.seq then .none else s.portA.cause
                   programErr := s.portA.programErr || out.isSome } else s.portA
  portT : t.portT = s.portT
  coverage : t.uni = (if q = .uni then s.coverage e out.isSome else s).uni
  suspends : t.engine.lastSuspend = s.engine.suspendCount
  life : t.life = s.life
  key : t.key = s.key
  slots : t.dir.slots = s.dir.slots
  seq : t.nextSeq = s.nextSeq

/-! ### Answers -/

/-- A step that goes on to a state with a property. -/
def Steps (s : State) (P : State → Prop) : Prop := ∃ t, step s = .next t ∧ P t

/-- A command that goes on to a state with a property. -/
def Completes (c : Instr) (s : State) (P : State → Prop) : Prop := ∃ t, exec c s = .next t ∧ P t

end Sys2Proof.Machine
end

