-- ==== Sys2Proof/WellFormed.lean ====
section
/-! DEFINITION. Which commands are well formed. Ports, addresses and bytes are so by their types; what is left is said here. -/

namespace Sys2Proof

/-- Offsets rise strictly and lie below `n`. -/
def OffsetBytes.ok (n : Nat) : OffsetBytes → Bool
  | [] => true
  | [c] => decide (c.1 < n)
  | c :: d :: l => decide (c.1 < d.1) && OffsetBytes.ok n (d :: l)

/-- A command is well formed when the bytes a flash operation leaves lie at rising offsets of a 64 KiB block, the largest
range of one operation, and a read that goes on clocks at least one byte. -/
def Instr.wf : Instr → Bool
  | .deviceReset _ left => OffsetBytes.ok 65536 left
  | .read _ start count => start.isSome || decide (0 < count)
  | .readEnd _ => true
  | .program _ _ _ _ => true
  | .eraseSector _ _ _ => true
  | .eraseBlock _ _ _ => true
  | .writeEnable _ => true
  | .writeDisable _ => true
  | .statusRead _ => true
  | .portReset _ => true
  | .unknownCommand _ _ => true
  | .directiveStart => true
  | .setMapFenceEnd => true
  | .closeFenceEnd => true
  | .recoverFenceEnd => true
  | .recoverEraseEnd => true
  | .sealFenceEnd => true
  | .sealProgramEnd => true
  | .sealFlashFailed => true
  | .serviceCloseFenceEnd => true
  | .flipDrainEnd => true
  | .flipSwitchBegin => true
  | .syncWaitEnd => true
  | .controlRecordWriteEnd => true
  | .awaitingWriteEntryMade => true
  | .sysProgramEntryMade => true
  | .pageReadEnd => true
  | .preReadEnd => true
  | .programCommandIssued => true
  | .flashReady _ left => OffsetBytes.ok 65536 left
  | .waitLimitExpiry left => OffsetBytes.ok 65536 left
  | .verifyEnd => true
  | .eraseCheckEnd => true
  | .agingStep _ => true
  | .passIdleExpiry => true
  | .stageIdleExpiry => true
  | .releaseTimerExpiry => true

end Sys2Proof
end

