-- ==== Sys2Proof/Certificates/Slice0/Obligations.lean ====
section
/-! DEFINITION. The statements for the provers. -/

open Sys2Proof Sys2Proof.Machine

/-! ### Steps -/

/-- A step with a command at the front of the queue is that command's meaning on the state with the queue's rest. -/
def Obligations.StepRunsFrontCommand : Prop :=
  ∀ (c : Instr) (rest : List Instr) (s : State), step { s with pending := c :: rest } = exec c { s with pending := rest }

/-- Every step answers a next state, never a fault or a refusal, and takes exactly the command at the front of the queue; so does every
command, which leaves the queue as it was. -/
def Obligations.EveryStepAnswers : Prop :=
  (∀ s : State, Steps s fun t => t.pending = s.pending.tail) ∧
  ∀ (c : Instr) (s : State), Completes c s fun t => t.pending = s.pending

/-! ### Invariants -/

/-- Every step keeps the flash and the staging buffer in the canonical form. -/
def Obligations.MemoryStaysCanonical : Prop :=
  ∀ s t : State, s.memoryOk → step s = .next t → t.memoryOk

/-- Every step keeps the free pages and the held pages at 64 together (R62). -/
def Obligations.PagesStaySixtyFour : Prop :=
  ∀ s t : State, s.pageCount = 64 → step s = .next t → t.pageCount = 64

/-- A fuse that reads blown reads blown after every step, device reset included (R3). -/
def Obligations.FuseStaysBlown : Prop :=
  ∀ s t : State, s.fuseCell = true → step s = .next t → t.fuseCell = true

/-- Port T's busy cause stays LOADING or NONE, it never has an awaiting write, and its PROGRAM-ERR stays 0 (R40). -/
def Obligations.PortTMakesNoEntries : Prop :=
  ∀ s t : State,
    (s.portT.cause = .loading ∨ s.portT.cause = .none) ∧ s.portT.awaiting = none ∧ s.portT.programErr = false →
    step s = .next t →
    (t.portT.cause = .loading ∨ t.portT.cause = .none) ∧ t.portT.awaiting = none ∧ t.portT.programErr = false

/-- Service attempts left stay between 0 and 3 (R169), and there are always 15 slots and 8 read-ahead slots (R175, R108). -/
def Obligations.CountsStayInRange : Prop :=
  ∀ s t : State,
    s.attempts ≤ 3 ∧ s.dir.slots.length = 15 ∧ s.ahead.slots.length = 8 → step s = .next t →
    t.attempts ≤ 3 ∧ t.dir.slots.length = 15 ∧ t.ahead.slots.length = 8

/-- The machine after reset has every one of these properties. -/
def Obligations.ResetHasInvariants : Prop :=
  State.reset.memoryOk ∧ State.reset.pageCount = 64 ∧ State.reset.directivesOk ∧
  (State.reset.portT.cause = .loading ∧ State.reset.portT.awaiting = none ∧ State.reset.portT.programErr = false) ∧
  State.reset.attempts = 3 ∧ State.reset.dir.slots.length = 15 ∧ State.reset.ahead.slots.length = 8 ∧ State.reset.due = none

/-- The slots and the directive queue stay in step (R181): the queue lists the PENDING and RUNNING slots, each once; only its head is
RUNNING, and it is so exactly while a directive runs. There are 15 slots (CountsStayInRange). And no moment stays due: an event carries
out every moment it makes due, so that none waits between two commands (R48, R49, R63, R69, R74, R181, R182; log entry 2). -/
def Obligations.DirectiveQueueStaysInStep : Prop :=
  (∀ s t : State, s.dir.slots.length = 15 → s.directivesOk → step s = .next t → t.directivesOk) ∧
  ∀ s t : State, s.dir.slots.length = 15 → s.directivesOk → s.due = none → step s = .next t → t.due = none

/-! ### Device reset -/

/-- DEVICE-RESET gives every block its reset values, samples FIXTURE, reads the fuse and grants the first SYS-READ of LOADING
(R4, R10, R11, R40, R55, R56, R75, R78, R108, R113, R118, R176, R187, R189, R191). The waiting commands, the fuse and, but for what an
interrupted operation leaves in its range, the flash outlive it, and the first SYS-READ stands granted (log entries 4, 18 and 27); what
LOADING has yet to set is not spoken of. An erase of the control sector that was broken off leaves no valid record there (R10, R155). -/
def Obligations.DeviceResetValues : Prop :=
  ∀ (fixture : Bool) (left : OffsetBytes) (s : State), Completes (.deviceReset fixture left) s fun t =>
    t.life.lifecycle = none ∧ t.life.fixture = fixture ∧ t.life.fuse = s.fuseCell ∧ t.fuseCell = s.fuseCell ∧
    t.pending = s.pending ∧
    (∀ p, t.port p = { wel := false, protectErr := false, programErr := false, ignored := false, ignoredCount := 0, cause := .loading,
                       awaiting := none, link := .idle, returned := [] }) ∧
    (∀ q, t.queues.get q = { entries := [], level := 24, high := false, failures := 0 }) ∧
    t.pool = List.range 64 ∧ t.nextSeq = 0 ∧ t.firstFailure = none ∧ t.job = none ∧ t.attempts = 3 ∧
    t.engine = { write := none, waited := 0, suspendCount := 0, lastSuspend := 0,
                 read := some { claimant := .sysRead, range := { page := 0x1FFF000, lo := 0, hi := 255 }, discard := false },
                 claims := PerClaimant.all none, deferred := PerClaimant.all none,
                 weights := { tRead := 15, aRead := 13, sysRead := 10, qSys := 10, qPass := 9, qSet := 6, qUni := 5, prefetch := 2 },
                 bar := 880, interval := 20, limit := 8 } ∧
    t.ahead = { slots := List.replicate 8 .empty, position := none } ∧
    t.uni.pass.isOpen = false ∧ t.uni.pass.count = 0 ∧ t.uni.pass.idle = .stopped ∧ t.uni.lengthSetting = none ∧
    t.uni.idleSetting = none ∧
    t.key.window = .none ∧ t.key.staging = [] ∧ t.key.stageTimer = .stopped ∧ t.key.releaseTimer = .stopped ∧
    t.key.stageTime = 10 ∧ t.key.sealCount = 0 ∧
    t.dir = { slots := List.replicate 15 { state := .empty, code := 0, tag := 0, len := 0, result := none, data := [], image := none },
              queue := [], running := none, events := 0, mask := BitVec.allOnes 13, refusedWrite := none, refusals := 0,
              flipCount := 0 } ∧
    (∀ q, s.engine.write = some q → (∀ e, (s.entriesOf q).head? = some e → e.state ≠ .active .wait ∧ e.state ≠ .suspended) →
      t.flash = s.flash) ∧
    (s.engine.write = none → t.flash = s.flash) ∧
    (∀ q e, s.memoryOk → s.engine.write = some q → (s.entriesOf q).head? = some e →
      (∀ a, a < e.addr ∨ e.addr + e.kind.range ≤ a → Mem.get t.flash a = Mem.get s.flash a) ∧
      (e.kind ≠ .program → e.state = .active .wait ∨ e.state = .suspended → e.addr ≤ 0x1FFF000 →
        0x2000000 ≤ e.addr + e.kind.range → readRecord (Mem.cut t.flash 0x1FFF000 4096) = none))

/-! ### The status commands (R39, R41, R42) -/

/-- On a free link, in every state, WRITE-ENABLE sets WEL and clears the error flags, WRITE-DISABLE clears WEL, STATUS-READ returns the
status byte, a command of none of the eight kinds returns `0xFF`, and nothing else changes (R39, R41, R42); on a link that carries a transaction none of them has an effect (log entry 12). The status byte
holds five flags from bit 0 up, and BUSY is 1 exactly while the busy cause is other than NONE (R40, R192). -/
def Obligations.StatusCommands : Prop :=
  (∀ x : PortState,
    x.statusByte.getLsbD 0 = decide (x.cause ≠ .none) ∧ x.statusByte.getLsbD 1 = x.wel ∧ x.statusByte.getLsbD 2 = x.protectErr ∧
    x.statusByte.getLsbD 3 = x.programErr ∧ x.statusByte.getLsbD 4 = x.ignored ∧
    ∀ i, 5 ≤ i → x.statusByte.getLsbD i = false) ∧
  ∀ (p : Port) (s : State),
    ((s.port p).link = .idle →
      exec (.writeEnable p) s = .next (s.setPort p
        { s.port p with wel := true, protectErr := false, programErr := false, ignored := false, returned := [] }) ∧
      exec (.writeDisable p) s = .next (s.setPort p { s.port p with wel := false, returned := [] }) ∧
      exec (.statusRead p) s = .next (s.setPort p { s.port p with returned := [(s.port p).statusByte] }) ∧
      ∀ n, exec (.unknownCommand p n) s = .next (s.setPort p { s.port p with returned := List.replicate n 0xFF#8 })) ∧
    ((s.port p).link ≠ .idle →
      exec (.writeEnable p) s = .next s ∧ exec (.writeDisable p) s = .next s ∧ exec (.statusRead p) s = .next s ∧
      ∀ n, exec (.unknownCommand p n) s = .next s)

/-! ### Writes the port or the Classifier turns away -/

/-- R44: a program or erase taken with WEL 0 is refused with NO-ENABLE, on either port, in every lifecycle and during LOADING; nothing
but the port's PROTECT-ERR, its link and the record of the refusal changes. The same write on Port T with WEL 1, not BUSY, is refused
with NO-RIGHT. -/
def Obligations.NoEnableRefused : Prop :=
  (∀ (p : Port) (kind : WriteKind) (a b : Addr) (data d : List Byte) (s : State),
    s.Closes p kind a data b d → (s.port p).wel = false →
    exec (closedWrite p kind a data) s = .next
      { s.setPort p { s.port p with protectErr := true, link := .idle, returned := [] } with
        dir := s.dir.refusing p kind b.toNat .noEnable }) ∧
  ∀ (kind : WriteKind) (a b : Addr) (data d : List Byte) (s : State) (l : Lifecycle),
    s.Closes .t kind a data b d → s.portT.wel = true → s.portT.busy = false → s.life.lifecycle = some l →
    exec (closedWrite .t kind a data) s = .next
      { s with portT := { s.portT.taken with protectErr := true }, dir := s.dir.refusing .t kind b.toNat .noRight }

/-- R45: a program or erase taken with WEL 1 while BUSY is 1 is ignored: IGNORED, the ignored count and IGNORED-BUSY, and nothing
else. -/
def Obligations.BusyWriteIgnored : Prop :=
  ∀ (p : Port) (kind : WriteKind) (a b : Addr) (data d : List Byte) (s : State),
    s.Closes p kind a data b d → (s.port p).wel = true → (s.port p).cause ≠ .none →
    exec (closedWrite p kind a data) s = .next
      { s.setPort p { s.port p with ignored := true, ignoredCount := min 255 ((s.port p).ignoredCount + 1), link := .idle,
                                    returned := [] } with
        dir := { s.dir with events := s.dir.events ||| 0x0008#13 } }

/-- The Classifier's decision, and what a refusal does (R25 to R33, R46): a write that the Classifier refuses sets PROTECT-ERR, is
recorded and changes no queue, buffer or slot; and the decision of R27 computed: Port T, SAFE, no entry or more than one, the locks of
SET-MAP, SEAL and SERVICE-CLOSE, and the rule of each class in each lifecycle. A write that goes to a queue is QueuedWriteJoins's. -/
def Obligations.ClassifierRefusal : Prop :=
  (∀ (kind : WriteKind) (a b : Addr) (data d : List Byte) (s : State) (l : Lifecycle) (r : RefusalReason),
    s.Takes kind a data b d l → s.classify .a l kind b.toNat = .refuse r →
    exec (closedWrite .a kind a data) s = .next
      { s with portA := { s.portA.taken with protectErr := true }, dir := s.dir.refusing .a kind b.toNat r }) ∧
  ∀ (s : State) (kind : WriteKind) (a : Nat),
    (∀ l, s.classify .t l kind a = .refuse .noRight) ∧
    (kind = .eraseBlock ∨ a < 0x1FFF000 → s.classify .a .safe kind a = .refuse .classLocked) ∧
    ∀ l, l ≠ .safe ∨ (kind ≠ .eraseBlock ∧ 0x1FFF000 ≤ a) →
      ((∀ x ∈ s.entries, ¬ x.2.Takes kind a) →
        (kind ≠ .eraseBlock → s.classify .a l kind a = .refuse .unmapped) ∧
        (kind = .eraseBlock →
          ((∃ x ∈ s.entries, x.2.ubase < blockStart a + 65536 ∧ blockStart a < x.2.ubase + x.2.size) →
            s.classify .a l kind a = .refuse .spansEntries) ∧
          ((∀ x ∈ s.entries, blockStart a + 65536 ≤ x.2.ubase ∨ x.2.ubase + x.2.size ≤ blockStart a) →
            s.classify .a l kind a = .refuse .unmapped))) ∧
      ∀ e, s.LiesIn kind a e →
        ((∃ n x, s.dir.running = some (.setMapRecord n x)) → e.cls = .pass ∨ e.cls = .uniformity ∨ e.cls = .settings →
          s.classify .a l kind a = .refuse .classLocked) ∧
        (s.dir.running = some .serviceCloseCheck ∨ (∃ g, s.dir.running = some (.serviceCloseRecord g)) →
          e.cls = .uniformity ∨ e.cls = .settings → s.classify .a l kind a = .refuse .classLocked) ∧
        ((∃ n, s.dir.running = some (.sealValidate n) ∨ ∃ g, s.dir.running = some (.sealProgram n g) ∨
            s.dir.running = some (.sealRecord n g)) → e.cls = .key → s.classify .a l kind a = .refuse .classLocked) ∧
        (e.cls = .uniformity → l ≠ .opened → l ≠ .sealed → l ≠ .service → s.classify .a l kind a = .refuse .classLocked) ∧
        (e.cls = .settings → l ≠ .opened → l ≠ .service → s.classify .a l kind a = .refuse .classLocked) ∧
        (e.cls = .key → l ≠ .opened → s.classify .a l kind a = .refuse .classLocked) ∧
        (e.cls = .pass → s.locked .pass = false → e.aRight ≠ .readWrite → s.classify .a l kind a = .refuse .noRight) ∧
        (e.cls = .uniformity → s.locked .uniformity = false → l = .opened ∨ l = .sealed ∨ l = .service → 0 < s.dir.flipCount →
          s.classify .a l kind a = .refuse .flipPending) ∧
        (e.cls = .key → s.locked .key = false → l = .opened →
          s.classify .a l kind a = if kind = .program then .stage else .stageErase) ∧
        (e = directiveEntry → s.classify .a l kind a = if kind = .program then .slot else .windowErase)

/-- A program to page 0 of the directive window is refused with STATUS-PAGE, one to a PENDING or RUNNING slot with SLOT-BUSY; no slot
and no queue changes (R177). -/
def Obligations.SlotProgramRefused : Prop :=
  ∀ (a b : Addr) (data d : List Byte) (s : State) (l : Lifecycle),
    s.Takes .program a data b d l → s.classify .a l .program b.toNat = .slot →
    ((b.toNat - windowBase) / 256 = 0 →
      exec (closedWrite .a .program a data) s = .next
        { s with portA := { s.portA.taken with protectErr := true }, dir := s.dir.refusing .a .program b.toNat .statusPage }) ∧
    ((b.toNat - windowBase) / 256 ≠ 0 →
      (s.slot ((b.toNat - windowBase) / 256)).state = .pending ∨ (s.slot ((b.toNat - windowBase) / 256)).state = .running →
      exec (closedWrite .a .program a data) s = .next
        { s with portA := { s.portA.taken with protectErr := true }, dir := s.dir.refusing .a .program b.toNat .slotBusy })

/-! ### Writes that are taken -/

/-- A write the Classifier passes to a queue, in a calm state without reads, becomes an entry at the queue's tail with the next sequence
number, a PROGRAM with a page; the queue's almost-full flag is judged and QUEUE-HIGH raised where it sets; Port A is busy with ROOM where
its posted entry leaves no room, with ENTRY for a non-posted one, and not busy otherwise; nothing else of the queues changes (R27, R47,
R48, R59, R62, R67). The queue, the physical address, the shadow bank's in the UNIFORMITY entry, and posted are computed (R25 to R27, R30,
R32); an ERASE-BLOCK, whose block lies in one entry (R26), joins its queue so. Which page is given, and that ENTRY names the entry by
its sequence number, are the model's choices (log entries 15 and 25). -/
def Obligations.QueuedWriteJoins : Prop :=
  (∀ (kind : WriteKind) (a b : Addr) (data d : List Byte) (s : State) (l : Lifecycle) (q : QueueId) (phys : Nat) (posted : Bool),
    s.Takes kind a data b d l → s.classify .a l kind b.toNat = .queue q phys posted → s.Calm → s.NoReads →
    (kind = .program → s.pool ≠ []) →
    let sets : Bool := decide ((s.queues.get q).level ≤ (s.entriesOf q).length + 1)
    Completes (closedWrite .a kind a data) s fun t =>
      (t.entriesOf q).map Entry.still = (s.entriesOf q).map Entry.still ++
        [{ seq := s.nextSeq, kind := kind, addr := phys, data := covered b.toNat d,
           page := if kind = .program then s.pool.head? else none, origin := .portA, upstream := some b.toNat, posted := posted,
           state := .queued, retries := 0, image := none }] ∧
      (∀ r, r ≠ q → (t.entriesOf r).map Entry.still = (s.entriesOf r).map Entry.still) ∧
      (∀ r, t.queues.get r = { s.queues.get r with
        entries := t.entriesOf r, high := if r = q then sets else (s.queues.get r).high }) ∧
      t.dir = { s.dir with
        events := if (sets && !(s.queues.get q).high) = true then s.dir.events ||| 0x0020#13 else s.dir.events } ∧
      t.nextSeq = s.nextSeq + 1 ∧ t.pool = (if kind = .program then s.pool.tail else s.pool) ∧
      t.portA = { s.portA.taken with
        cause := if posted then (if (s.entriesOf q).length + 1 < 32 ∧ t.pool ≠ [] then .none else .room q) else .entry s.nextSeq } ∧
      t.portT = s.portT ∧ t.life = s.life ∧ t.key = s.key ∧ t.uni = s.uni ∧ t.flash = s.flash ∧
      t.firstFailure = s.firstFailure ∧ t.engine.settings = s.engine.settings) ∧
  (∀ (s : State) (kind : WriteKind) (a : Nat) (l : Lifecycle) (e : MapEntry), l ≠ .safe → s.LiesIn kind a e →
    let start := a / kind.range * kind.range
    (e.cls = .pass → s.locked .pass = false → e.aRight = .readWrite →
      s.classify .a l kind a = .queue .pass (e.pbase + (start - e.ubase)) e.posted) ∧
    (e.cls = .uniformity → s.locked .uniformity = false → l = .opened ∨ l = .sealed ∨ l = .service → s.dir.flipCount = 0 →
      s.classify .a l kind a =
        .queue .uni ((match s.live with | .bank0 => e.pbase2 | .bank1 => e.pbase) + (start - e.ubase)) true) ∧
    (e.cls = .settings → s.locked .settings = false → l = .opened ∨ l = .service →
      s.classify .a l kind a = .queue .set (e.pbase + (start - e.ubase)) true)) ∧
  ∀ (a : Addr) (s : State) (l : Lifecycle) (e : MapEntry), s.portA.link = .idle → s.portA.wel = true → s.portA.cause = .none →
    s.life.lifecycle = some l → l ≠ .safe → s.LiesIn .eraseBlock a.toNat e → s.Calm → s.NoReads →
    let erases := fun (q : QueueId) (base : Nat) (posted : Bool) =>
      Completes (.eraseBlock .a a true) s fun t =>
        (t.entriesOf q).map Entry.still = (s.entriesOf q).map Entry.still ++
          [{ seq := s.nextSeq, kind := .eraseBlock, addr := base + (blockStart a.toNat - e.ubase), data := [], page := none,
             origin := .portA, upstream := some a.toNat, posted := posted, state := .queued, retries := 0, image := none }] ∧
        (∀ r, r ≠ q → (t.entriesOf r).map Entry.still = (s.entriesOf r).map Entry.still) ∧
        t.nextSeq = s.nextSeq + 1 ∧ t.pool = s.pool ∧ t.portT = s.portT ∧ t.flash = s.flash
    (e.cls = .pass → s.locked .pass = false → e.aRight = .readWrite → erases .pass e.pbase e.posted) ∧
    (e.cls = .uniformity → s.locked .uniformity = false → l = .opened ∨ l = .sealed ∨ l = .service → s.dir.flipCount = 0 →
      erases .uni (match s.live with | .bank0 => e.pbase2 | .bank1 => e.pbase) true) ∧
    (e.cls = .settings → s.locked .settings = false → l = .opened ∨ l = .service → erases .set e.pbase true)

/-- A PROGRAM passed to a queue that finds no free page becomes Port A's awaiting write, and Port A is busy with PAGE; nothing else
changes (R47, R49). -/
def Obligations.ProgramAwaitsPage : Prop :=
  ∀ (a b : Addr) (data d : List Byte) (s : State) (l : Lifecycle) (q : QueueId) (phys : Nat) (posted : Bool),
    s.Takes .program a data b d l → s.classify .a l .program b.toNat = .queue q phys posted → s.Calm → s.NoReads → s.pool = [] →
    exec (closedWrite .a .program a data) s = .next
      { s with portA := { s.portA.taken with
          awaiting := some { queue := q, kind := .program, addr := phys, data := covered b.toNat d, upstream := b.toNat,
                             posted := posted }
          cause := .page } }

/-- A staging write ANDs its covered bytes into the staging buffer, a staging erase sets it to `0xFF`; neither makes an entry, takes a
page or makes Port A busy, and the stage idle timer is judged (R141, R142, R144). -/
def Obligations.StagingWrites : Prop :=
  (∀ (a b : Addr) (data d : List Byte) (s : State) (l : Lifecycle) (e : MapEntry),
    s.Takes .program a data b d l → s.classify .a l .program b.toNat = .stage → entryOfClass s.life.fields.map .key = some e →
    s.memoryOk →
    Completes (closedWrite .a .program a data) s fun t =>
      (∀ o, Mem.get t.key.staging o =
        match (if pageOf b.toNat - e.ubase ≤ o then coveredByte (covered b.toNat d) (o - (pageOf b.toNat - e.ubase)) else none) with
        | some v => Mem.get s.key.staging o &&& v
        | none => Mem.get s.key.staging o) ∧
      t = { s with
        portA := s.portA.taken
        key := { s.key with
          staging := t.key.staging
          stageTimer := if s.key.window = .staging ∧ s.key.sealCount = 0 ∧ t.key.staging ≠ []
            then .running (1000000 * s.key.stageTime) else .stopped } }) ∧
  ∀ (a b : Addr) (data d : List Byte) (s : State) (l : Lifecycle),
    s.Takes .eraseSector a data b d l → s.classify .a l .eraseSector b.toNat = .stageErase →
    exec (closedWrite .a .eraseSector a data) s = .next
      { s with portA := s.portA.taken, key := { s.key with staging := [], stageTimer := .stopped } }

/-- A window erase empties every slot that is EMPTY, DONE or REFUSED and leaves the others and the directive queue as they were; it
raises no event and sets no flag (R180). -/
def Obligations.WindowErase : Prop :=
  ∀ (a b : Addr) (data d : List Byte) (s : State) (l : Lifecycle),
    s.Takes .eraseSector a data b d l → s.classify .a l .eraseSector b.toNat = .windowErase →
    exec (closedWrite .a .eraseSector a data) s = .next
      { s with
        portA := s.portA.taken
        dir := { s.dir with
          slots := s.dir.slots.map fun x => if x.state = .pending ∨ x.state = .running then x
            else { state := .empty, code := 0, tag := 0, len := 0, result := none, data := [], image := none } } }

/-! ### Programs to slots -/

/-- A program that fails a test of R178 replaces the slot's content and leaves it REFUSED with the test's result code and no result
data; DIRECTIVE-REFUSED is raised, and the directive queue is as it was. The tests computed, in their order: MALFORMED, UNKNOWN-CODE,
NOT-IN-STATE, FIXTURE-REQUIRED (R4, R178, R183). -/
def Obligations.UnrecognizedProgram : Prop :=
  (∀ (a b : Addr) (data d : List Byte) (s : State) (l : Lifecycle) (n : Nat) (c : ResultCode),
    s.Reaches a data b d l n → c ≠ .done →
    s.recognize l (b.toNat % 256) (covered b.toNat d) (slotImage b d) = .error c →
    exec (closedWrite .a .program a data) s = .next
      { s with
        portA := s.portA.taken
        dir := { s.dir with
          slots := s.dir.slots.set (n - 1) (Slot.taken (slotImage b d) .refused (some c) [])
          events := s.dir.events ||| 0x0002#13 } }) ∧
  ∀ (s : State) (l : Lifecycle) (off : Nat) (mask : OffsetBytes) (img : Mem),
    let len := (Mem.get img 4).toNat
    let bad : Prop := off ≠ 0 ∨ (∃ i < 7, covers mask i = false) ∨ Mem.get img 0 ≠ 0x5A ∨ Mem.get img 1 ≠ 0xD7 ∨ 240 < len ∨
      (∃ i < 7 + len, covers mask i = false) ∨ (crc16 (Mem.slice img 0 (5 + len))).toNat ≠ leNat (Mem.slice img (5 + len) 2)
    (bad → s.recognize l off mask img = .error .malformed) ∧
    (¬ bad →
      ((∀ x ∈ directiveTable, x.1 ≠ Mem.get img 2) → s.recognize l off mask img = .error .unknownCode) ∧
      ∀ x ∈ directiveTable, x.1 = Mem.get img 2 →
        (l ∉ x.2.2 → s.recognize l off mask img = .error .notInState) ∧
        (l ∈ x.2.2 → x.2.1 = .opens ∨ x.2.1 = .recover → s.life.fixture = false →
          s.recognize l off mask img = .error .fixtureRequired) ∧
        (l ∈ x.2.2 → (x.2.1 = .opens ∨ x.2.1 = .recover → s.life.fixture = true) → s.recognize l off mask img = .ok x.2.1))

/-- ACK (R185): it removes the events it names and clears the failure counts, the first-failure record and the ignored counts, or ends
BAD-PARAMETER and changes nothing but its slot. -/
def Obligations.AckClears : Prop :=
  ∀ (a b : Addr) (data d : List Byte) (s : State) (l : Lifecycle) (n : Nat),
    s.Reaches a data b d l n → s.recognize l (b.toNat % 256) (covered b.toNat d) (slotImage b d) = .ok .ack →
    exec (closedWrite .a .program a data) s = .next
      (if Mem.get (slotImage b d) 4 ≠ 2 ∨ 8192 ≤ paramNat (slotImage b d) 0 2 then
        { s with
          portA := s.portA.taken
          dir := { s.dir with slots := s.dir.slots.set (n - 1) (Slot.taken (slotImage b d) .refused (some .badParameter) [0]) } }
      else
        { s with
          portA := { s.portA.taken with ignoredCount := 0 }
          portT := { s.portT with ignoredCount := 0 }
          queues := ⟨{ s.queues.sys with failures := 0 }, { s.queues.pass with failures := 0 }, { s.queues.set with failures := 0 },
                     { s.queues.uni with failures := 0 }⟩
          firstFailure := none
          dir := { s.dir with
            slots := s.dir.slots.set (n - 1) (Slot.taken (slotImage b d) .done (some .done) [])
            events := s.dir.events &&& ~~~ (BitVec.ofNat 13 (paramNat (slotImage b d) 0 2)) } })

/-- SET-EVENT-MASK (R186): the mask becomes the set given, or it ends BAD-PARAMETER with the mask unchanged; EVENT is low exactly when
the event set and the mask share a member, so a mask of 0 keeps it high. -/
def Obligations.EventMaskSet : Prop :=
  (∀ (a b : Addr) (data d : List Byte) (s : State) (l : Lifecycle) (n : Nat),
    s.Reaches a data b d l n → s.recognize l (b.toNat % 256) (covered b.toNat d) (slotImage b d) = .ok .setEventMask →
    exec (closedWrite .a .program a data) s = .next
      (if Mem.get (slotImage b d) 4 ≠ 2 ∨ 8192 ≤ paramNat (slotImage b d) 0 2 then
        { s with
          portA := s.portA.taken
          dir := { s.dir with slots := s.dir.slots.set (n - 1) (Slot.taken (slotImage b d) .refused (some .badParameter) [0]) } }
      else
        { s with
          portA := s.portA.taken
          dir := { s.dir with
            slots := s.dir.slots.set (n - 1) (Slot.taken (slotImage b d) .done (some .done) [])
            mask := BitVec.ofNat 13 (paramNat (slotImage b d) 0 2) } })) ∧
  ∀ s : State, (s.eventLow = true ↔ ∃ i < 13, s.dir.events.getLsbD i = true ∧ s.dir.mask.getLsbD i = true) ∧
    (s.dir.mask = 0 → s.eventLow = false)

/-- KEY-HIDE (R159): release closes at once and KEY-HIDDEN is raised, result data 1; a window not RELEASED gives result data 0; a
parameter ends it BAD-PARAMETER. -/
def Obligations.KeyHideCloses : Prop :=
  ∀ (a b : Addr) (data d : List Byte) (s : State) (l : Lifecycle) (n : Nat),
    s.Reaches a data b d l n → s.recognize l (b.toNat % 256) (covered b.toNat d) (slotImage b d) = .ok .keyHide →
    exec (closedWrite .a .program a data) s = .next
      (if Mem.get (slotImage b d) 4 ≠ 0 then
        { s with
          portA := s.portA.taken
          dir := { s.dir with slots := s.dir.slots.set (n - 1) (Slot.taken (slotImage b d) .refused (some .badParameter) [0]) } }
      else if s.key.window = .released then
        { s with
          portA := s.portA.taken
          key := { s.key with window := .hidden, releaseTimer := .stopped }
          dir := { s.dir with
            slots := s.dir.slots.set (n - 1) (Slot.taken (slotImage b d) .done (some .done) [1])
            events := s.dir.events ||| 0x0200#13 } }
      else
        { s with
          portA := s.portA.taken
          dir := { s.dir with slots := s.dir.slots.set (n - 1) (Slot.taken (slotImage b d) .done (some .done) [0]) } })

/-- A queued directive taken behind a running one becomes PENDING at the tail of the directive queue; a FLIP and a SEAL are counted
(R179, R30, R144). CANCEL takes a PENDING one out of the queue and ends it CANCELLED, ends a running one in a phase that allows it, which
then reads no more, and is refused NOT-CANCELLABLE in any other phase and BAD-PARAMETER for any other slot or number (R96, R137, R182,
R184). A state in which no moment is due is every state of a run (DirectiveQueueStaysInStep). -/
def Obligations.DirectiveJoinsQueue : Prop :=
  (∀ (a b : Addr) (data d : List Byte) (s : State) (l : Lifecycle) (n : Nat) (x : Directive) (ph : Phase) (w : Option Work),
    s.Reaches a data b d l n → s.recognize l (b.toNat % 256) (covered b.toNat d) (slotImage b d) = .ok x → x.immediate = false →
    s.Steady ph w →
    Completes (closedWrite .a .program a data) s fun t =>
      t.dir.queue = s.dir.queue ++ [n] ∧
      t.dir.slots = s.dir.slots.set (n - 1) (Slot.taken (slotImage b d) .pending none []) ∧
      t.dir.running = some ph ∧ t.life = s.life ∧ t.flash = s.flash ∧
      t.dir.flipCount = (if x = .flip then s.dir.flipCount + 1 else s.dir.flipCount) ∧
      t.key.sealCount = (if x = .seals then s.key.sealCount + 1 else s.key.sealCount) ∧
      (x = .seals → t.key.stageTimer = .stopped)) ∧
  ∀ (a b : Addr) (data d : List Byte) (s : State) (l : Lifecycle) (n k : Nat) (ph : Phase),
    s.Reaches a data b d l n → s.recognize l (b.toNat % 256) (covered b.toNat d) (slotImage b d) = .ok .cancel →
    s.NoReads → s.due = none → s.dir.running = some ph → k = (param (slotImage b d) 0).toNat →
    let refused := fun (c : ResultCode) (r : List Byte) =>
      exec (closedWrite .a .program a data) s = .next
        { s with
          portA := s.portA.taken
          dir := { s.dir with slots := s.dir.slots.set (n - 1) (Slot.taken (slotImage b d) .refused (some c) r) } }
    (Mem.get (slotImage b d) 4 ≠ 1 ∨ k < 1 ∨ 15 < k → refused .badParameter [0]) ∧
    (Mem.get (slotImage b d) 4 = 1 → 1 ≤ k → k ≤ s.dir.slots.length → k ≤ 15 →
      ((s.slot k).state ≠ .pending → (s.slot k).state ≠ .running → refused .badParameter [byte k]) ∧
      ((s.slot k).state = .running → ph.cancellable = false → refused .notCancellable [byte k]) ∧
      ((s.slot k).state = .pending →
        exec (closedWrite .a .program a data) s = .next
          { s with
            portA := s.portA.taken
            key := if (s.slot k).directive = some .seals then s.key.unsealed else s.key
            dir := { s.dir with
              slots := (s.dir.slots.set (n - 1) (Slot.taken (slotImage b d) .done (some .done) [byte k])).set (k - 1)
                { s.slot k with state := .refused, result := some .cancelled, data := [] }
              queue := s.dir.queue.filter fun m => decide (m ≠ k)
              events := s.dir.events ||| 0x0002#13
              flipCount := if (s.slot k).directive = some .flip then s.dir.flipCount - 1 else s.dir.flipCount } }) ∧
      ((s.slot k).state = .running → ph.cancellable = true → s.dir.queue = [k] →
        Completes (closedWrite .a .program a data) s fun t =>
          t.dir = { s.dir with
            slots := (s.dir.slots.set (n - 1) (Slot.taken (slotImage b d) .done (some .done) [byte k])).set (k - 1)
              { s.slot k with state := .refused, result := some .cancelled, data := [] }
            queue := []
            running := none
            events := s.dir.events ||| 0x0002#13
            flipCount := if (s.slot k).directive = some .flip then s.dir.flipCount - 1 else s.dir.flipCount } ∧
          t.key = (if (s.slot k).directive = some .seals then s.key.unsealed else s.key) ∧
          t.engine.claims.get .sysRead = none ∧ (∀ x, t.engine.read = some x → x.claimant = .sysRead → x.discard = true) ∧
          t.portA = s.portA.taken ∧ t.portT = s.portT ∧ t.life = s.life ∧ t.queues = s.queues ∧ t.uni = s.uni ∧
          t.flash = s.flash ∧ t.job = s.job))

/-! ### Reads -/

/-- A Port A read of a page of the directive window is answered from one image of that page, and one of the KEY window in OPEN from the
staging buffer, both with no claim (R99, R101, R175). The 256 bytes of the status page, each field at its offset with its numbers, and
those of a slot record, every other byte `0x00` (R176, R188 to R190, R192; the owners R1, R3, R4, R40, R56, R62, R65 to R67, R78, R114,
R116, R118, R139, R166, R169, R181, R187). -/
def Obligations.WindowPageRead : Prop :=
  (∀ (a : Addr) (n : Nat) (s : State) (l : Lifecycle),
    s.portA.link = .idle → s.reading .t = none → s.life.lifecycle = some l → findEntry s.entries a.toNat = some directiveEntry →
    n ≤ 256 - a.toNat % 256 →
    Completes (.read .a (some a) n) s fun t =>
      t.portA.returned = ((s.windowPage ((a.toNat - windowBase) / 256)).drop (a.toNat % 256)).take n ∧
      t.engine = s.engine ∧ Apart s t) ∧
  (∀ (a : Addr) (n : Nat) (s : State) (e : MapEntry),
    s.portA.link = .idle → s.reading .t = none → s.life.lifecycle = some .opened → findEntry s.entries a.toNat = some e →
    e.cls = .key → a.toNat + n ≤ e.ubase + e.size → a.toNat + n ≤ 0x2000000 →
    Completes (.read .a (some a) n) s fun t =>
      t.portA.returned = (List.range n).map (fun i => Mem.get s.key.staging (a.toNat - e.ubase + i)) ∧
      t.engine = s.engine ∧ Apart s t) ∧
  (∀ s : State,
    let b := fun i => ((s.windowPage 0).getD i 0).toNat
    let w := fun i => b i + 256 * b (i + 1)
    let d := fun i => w i + 65536 * w (i + 2)
    (s.windowPage 0).length = 256 ∧ w 0 = 0x2608 ∧ b 2 = 1 ∧
    (∀ l, s.life.lifecycle = some l →
      b 3 = match l with | .blank => 0 | .opened => 1 | .sealed => 2 | .closed => 3 | .service => 4 | .safe => 5) ∧
    b 4 = (if s.life.fixture then 1 else 0) ∧ b 5 = (if s.life.fuse then 1 else 0) ∧
    b 6 = (match s.live with | .bank0 => 0 | .bank1 => 1) ∧
    b 7 = (match s.key.window with | .none => 0 | .staging => 1 | .released => 2 | .hidden => 3) ∧
    (s.life.fields.region = none → w 8 = 0 ∧ b 10 = 0) ∧
    (∀ r, s.life.fields.region = some r →
      w 8 = r.code % 65536 ∧ b 10 = match r.family with | .f50 => 1 | .f60 => 2 | .dual => 3) ∧
    b 11 = s.attempts % 256 ∧ w 12 = s.dir.events.toNat ∧ w 14 = s.dir.mask.toNat ∧
    (∀ q,
      let o := match q with | .sys => 16 | .pass => 21 | .set => 26 | .uni => 31
      b o = (s.entriesOf q).length % 256 ∧ b (o + 1) = ((s.entriesOf q).filter fun e => e.page.isSome).length % 256 ∧
      b (o + 2) = (s.queues.get q).level % 256 ∧ b (o + 3) = (if (s.queues.get q).high then 1 else 0) ∧
      b (o + 4) = (s.queues.get q).failures % 256) ∧
    b 36 = s.pool.length % 256 ∧ b 37 = s.dir.queue.length % 256 ∧
    (∀ n, s.dir.queue.head? = some n → (s.slot n).state = .running → b 38 = n % 256) ∧
    ((∀ n, s.dir.queue.head? = some n → (s.slot n).state ≠ .running) → b 38 = 0) ∧
    b 39 = s.engine.lastSuspend % 256 ∧ b 40 = s.portA.ignoredCount % 256 ∧ b 41 = s.portT.ignoredCount % 256 ∧
    b 42 = (if s.uni.pass.isOpen then 1 else 0) ∧ b 43 = (match s.uni.pass.bank with | .bank0 => 0 | .bank1 => 1) ∧
    w 44 = s.uni.pass.count.toNat ∧
    (∀ c : Coverage, w (match c with | .stale => 46 | .clean => 48 | .written => 50 | .failed => 52) =
      (s.uni.coverage.filter fun x => decide (x = c)).length % 65536) ∧
    (s.firstFailure = none → ∀ i, 56 ≤ i → i ≤ 75 → b i = 0) ∧
    (∀ f, s.firstFailure = some f →
      b 56 = 1 ∧ b 57 = (match f.queue with | .sys => 0 | .pass => 1 | .set => 2 | .uni => 3) ∧
      b 58 = (match f.kind with | .program => 1 | .eraseSector => 2 | .eraseBlock => 3) ∧
      b 59 = (match f.origin with | .portA => 0 | .slot n => n % 256) ∧ d 60 = f.seq.toNat ∧ d 64 = f.addr % 4294967296 ∧
      d 68 = f.upstream.getD 0xFFFFFFFF % 4294967296 ∧ b 72 = (match f.reason with | .verifyMismatch => 1 | .flashError => 2)) ∧
    (s.dir.refusedWrite = none → ∀ i, 76 ≤ i → i ≤ 83 → b i = 0) ∧
    (∀ r, s.dir.refusedWrite = some r →
      b 76 = 1 ∧ b 77 = (match r.port with | .a => 0 | .t => 1) ∧
      b 78 = (match r.kind with | .program => 1 | .eraseSector => 2 | .eraseBlock => 3) ∧
      b 79 = (match r.reason with
        | .unmapped => 1 | .noRight => 2 | .classLocked => 3 | .flipPending => 4 | .spansEntries => 5 | .noEnable => 6
        | .statusPage => 7 | .slotBusy => 8) ∧
      d 80 = r.addr % 4294967296) ∧
    b 84 = s.dir.refusals % 256 ∧ ∀ i, i = 54 ∨ i = 55 ∨ (73 ≤ i ∧ i ≤ 75) ∨ 85 ≤ i → b i = 0) ∧
  ∀ (s : State) (n : Nat), n ≠ 0 →
    let x := s.slot n
    let b := fun i => (s.windowPage n).getD i 0
    (x.data.length ≤ 250 → (s.windowPage n).length = 256) ∧
    (b 0).toNat = (match x.state with | .empty => 0 | .pending => 1 | .running => 2 | .done => 3 | .refused => 4) ∧
    b 1 = x.code ∧ b 2 = x.tag ∧ b 3 = x.len ∧
    (b 4).toNat = (match x.result with | some c => resultCodes.idxOf c | none => 0xFF) ∧ (b 5).toNat = x.data.length % 256 ∧
    ∀ i, b (6 + i) = x.data.getD i 0

/-- A read of addresses in no enabled entry returns `0xFF`, and so does one of an entry that the port may not read: any class but
DIRECTIVE in SAFE, a PASS or SETTINGS entry without the right, the directive window from Port T, the KEY window from Port T, or from Port A
outside OPEN and RELEASED; all with no claim (R14, R24, R99, R100). -/
def Obligations.UnmappedRead : Prop :=
  (∀ (p r : Port) (a : Addr) (n : Nat) (s : State) (l : Lifecycle),
    p ≠ r → (s.port p).link = .idle → s.reading r = none → s.life.lifecycle = some l → findEntry s.entries a.toNat = none →
    a.toNat + n ≤ gapEnd s.entries a.toNat + 1 →
    Completes (.read p (some a) n) s fun t =>
      (t.port p).returned = List.replicate n 0xFF#8 ∧ t.engine = s.engine ∧ Apart s t) ∧
  ∀ (p r : Port) (a : Addr) (n : Nat) (s : State) (l : Lifecycle) (e : MapEntry),
    p ≠ r → (s.port p).link = .idle → s.reading r = none → s.life.lifecycle = some l → findEntry s.entries a.toNat = some e →
    s.ReadsErased p l e → a.toNat + n ≤ e.ubase + e.size →
    Completes (.read p (some a) n) s fun t =>
      (t.port p).returned = List.replicate n 0xFF#8 ∧ t.engine = s.engine ∧ Apart s t

/-- A read of flash content, with an empty owning queue and Port F free, is granted Port F at once for the bytes of its first piece,
and is held with no byte delivered; raised while an operation is in WAIT below its suspend limit, its bid at least the preempt bar, the
claim suspends the operation and is granted; where Port F is occupied and it cannot preempt, it stands (R79, R90 to R92, R94). Where the
owning queue's overlay fixes every byte of the piece the bytes come from it and no claim is
raised (R25, R52, R79, R82, R99, R102 to R104). A Port T read of the uniformity window with no pass open opens one on the live bank with
the pass length in effect, sets the position, and the PREFETCH demand marks a slot and raises its claim; one that continues an open pass
stops its idle timer, moves the position, which frees the slots outside the new window, and is answered at once from a HELD slot; one
whose page is being filled under a granted PREFETCH read waits without a claim (R108 to R110, R112, R119 to R121, R124). The extent of
the piece is log entry 10's, the slot marked log entry 30's. -/
def Obligations.FlashReadHeld : Prop :=
  (∀ (p r : Port) (a : Addr) (n : Nat) (s : State) (l : Lifecycle) (e : MapEntry) (q : QueueId) (base : Nat),
    p ≠ r → (s.port p).link = .idle → s.reading r = none → s.life.lifecycle = some l → findEntry s.entries a.toNat = some e →
    s.ReadsFlash l e p q base → 0 < n →
    let x := base + (a.toNat - e.ubase)
    let range : ReadRange :=
      { page := pageOf x, lo := x % 256, hi := x % 256 + min (min (256 - x % 256) (e.ubase + e.size - a.toNat)) n - 1 }
    (s.entriesOf q = [] → s.engine.write = none → s.engine.read = none →
      Completes (.read p (some a) n) s fun t =>
        t.engine.read = some { claimant := portClaimant p, range := range, discard := false } ∧
        (t.port p).returned = [] ∧ Apart s t) ∧
    (∀ w, s.entriesOf q = [] → s.engine.write = some w → s.headState w = some (.active .wait) → s.engine.read = none →
      s.claim (portClaimant r) = none → s.engine.suspendCount < s.engine.limit →
      s.engine.bar ≤ 64 * s.engine.weights.get (portClaimant p) →
      Completes (.read p (some a) n) s fun t =>
        t.headState w = some .suspended ∧ t.engine.suspendCount = s.engine.suspendCount + 1 ∧ t.claim (portClaimant p) = none ∧
        t.engine.read = some { claimant := portClaimant p, range := range, discard := false } ∧ (t.port p).returned = [] ∧
        Apart s t) ∧
    (s.entriesOf q = [] → s.engine.write ≠ none ∨ s.engine.read ≠ none →
      (∀ y, s.engine.read = some y → y.claimant = portClaimant p → y.discard = false) → s.claim (portClaimant r) = none →
      (∀ w, s.engine.write = some w → s.headState w = some (.active .wait) → s.engine.suspendCount < s.engine.limit →
        64 * s.engine.weights.get (portClaimant p) < s.engine.bar) →
      Completes (.read p (some a) n) s fun t =>
        t.engine = { s.engine with
          claims := s.engine.claims.put (portClaimant p) (some { range := some range, aged := 0, due := s.engine.interval }) } ∧
        (t.port p).returned = [] ∧ Apart s t) ∧
    (n ≤ 256 - x % 256 → a.toNat + n ≤ e.ubase + e.size → a.toNat + n ≤ 0x2000000 →
      (∀ i < n, (overlayByte (s.entriesOf q) (x + i)).fixed = true) →
      Completes (.read p (some a) n) s fun t =>
        (t.port p).returned = (List.range n).map (fun i => (overlayByte (s.entriesOf q) (x + i)).value) ∧
        t.engine = s.engine ∧ Apart s t)) ∧
  ∀ (a : Addr) (n : Nat) (s : State) (l : Lifecycle) (e : MapEntry),
    s.portT.link = .idle → s.reading .a = none → s.life.lifecycle = some l → l ≠ .safe → findEntry s.entries a.toNat = some e →
    s.uniformity = some e → s.entriesOf .uni = [] → s.dir.running ≠ some .flipSwitch → 0 < n →
    let i := (a.toNat - e.ubase) / 256
    (s.uni.pass.isOpen = false → s.ahead.slots = List.replicate 8 .empty → s.engine.write = none → s.engine.read = none →
      s.engine.claims = PerClaimant.all none → e.bankBase s.live % 256 = 0 → e.ubase % 256 = 0 →
      let base := e.bankBase s.live
      let length := s.uni.lengthSetting.getD e.size
      let page := base + 256 * (i + 1)
      Completes (.read .t (some a) n) s fun t =>
        t.uni = { s.uni with pass := { s.uni.pass with isOpen := true, bank := s.live, length := length } } ∧
        t.ahead.position = some i ∧ t.portT.returned = [] ∧
        (∃ x, t.engine.read = some { claimant := .tRead, range := x, discard := false } ∧ x.page = base + 256 * i ∧
          x.lo = a.toNat % 256) ∧
        t.ahead.slots = (if 256 * (i + 1) < length then .filling page :: List.replicate 7 .empty else List.replicate 8 .empty) ∧
        t.claim .prefetch = (if 256 * (i + 1) < length
          then some { range := some { page := page, lo := 0, hi := 255 }, aged := 0, due := s.engine.interval } else none) ∧
        Apart s t) ∧
    (∀ bytes : List Byte, s.uni.pass.isOpen = true → e.bankBase s.uni.pass.bank % 256 = 0 → e.ubase % 256 = 0 →
      s.aheadSlot (e.bankBase s.uni.pass.bank + 256 * i) = some (.held (e.bankBase s.uni.pass.bank + 256 * i) bytes) →
      bytes.length = 256 → n ≤ 256 - a.toNat % 256 → a.toNat + n ≤ e.ubase + e.size →
      Completes (.read .t (some a) n) s fun t =>
        t.portT.returned = (bytes.drop (a.toNat % 256)).take n ∧
        t.uni = { s.uni with pass := { s.uni.pass with idle := .stopped } } ∧ t.ahead.position = some i ∧
        (∀ p b, .held p b ∈ t.ahead.slots → .held p b ∈ s.ahead.slots ∧
          (s.ahead.position ≠ some i →
            e.bankBase s.uni.pass.bank + 256 * i ≤ p ∧ p ≤ e.bankBase s.uni.pass.bank + 256 * (i + 8))) ∧
        (t.claim .tRead = s.claim .tRead) ∧ Apart s t) ∧
    (s.uni.pass.isOpen = true → e.bankBase s.uni.pass.bank % 256 = 0 → e.ubase % 256 = 0 → s.ahead.position = some i →
      s.aheadSlot (e.bankBase s.uni.pass.bank + 256 * i) = some (.filling (e.bankBase s.uni.pass.bank + 256 * i)) →
      s.claim .prefetch = none →
      Completes (.read .t (some a) n) s fun t =>
        t.portT.returned = [] ∧ t.engine = s.engine ∧ t.ahead = s.ahead ∧
        t.uni = { s.uni with pass := { s.uni.pass with idle := .stopped } } ∧ Apart s t)

/-- The end of a page read granted to a port's read delivers the bytes of its piece, the flash of its physical range with the owning
queue's entries laid over it, and none of them, but for a read of the KEY window, from a key sector to which a SEAL has carried a bundle
where R160 holds over R37 there, which is a free value; Port F goes to the highest bid of all standing claims; during a suspension to the higher of the port reads' bids, and where none stands the
operation is resumed in WAIT (R37, R52, R82, R83, R92, R93, R104, R160). The end of a PREFETCH page read makes its FILLING slot HELD with the page's bytes, and the Port T piece that waits for it is
answered from it (R111, R112). The order within the event is log entry 14's, whether the key sector is barred is log entry 28's free value. -/
def Obligations.PageReadAnswersPort : Prop :=
  (∀ (p r : Port) (s : State) (l : Lifecycle) (rd : Reading) (seg : Segment) (x y : ReadRange),
    p ≠ r → s.Calm → s.reading r = none → s.life.lifecycle = some l → s.reading p = some rd → rd.seg = some seg →
    rd.piece = .claim x → seg.source = .flash → rd.addr ≤ seg.last → seg.last < 0x2000000 → rd.want = x.hi + 1 - x.lo →
    rd.want ≤ seg.last + 1 - rd.addr →
    s.engine.read = some { claimant := portClaimant p, range := y, discard := false } →
    s.engine.deferred.get (portClaimant p) = none →
    Completes .pageReadEnd s fun t =>
      (t.port p).returned = (s.port p).returned ++ (combine s.flash (s.entriesOf seg.owner) x).mapIdx
        (fun k b => if s.keyBarred seg (rd.addr + k) then 0xFF#8 else b) ∧
      (s.carried = none → (t.port p).returned = (s.port p).returned ++ combine s.flash (s.entriesOf seg.owner) x) ∧
      Apart s t ∧
      (s.engine.write = none →
        (s.highest claimants = none → t.engine.read = none ∧ t.engine.write = none) ∧
        (∀ c cl, s.highest claimants = some c → s.claim c = some cl →
          t.claim c = none ∧
          (∀ z, claimQueue c = none → cl.range = some z →
            t.engine.read = some { claimant := c, range := z, discard := false } ∧ t.engine.write = none) ∧
          (∀ q, claimQueue c = some q → t.engine.read = none ∧ t.engine.write = some q ∧ t.engine.suspendCount = 0 ∧
            t.entriesOf q = onFirst Entry.activate (s.entriesOf q)))) ∧
      (∀ q e rest, s.engine.write = some q → s.entriesOf q = e :: rest → e.state = .suspended →
        (s.claim .tRead = none → s.claim .aRead = none →
          t.engine.read = none ∧ t.engine.write = some q ∧ t.entriesOf q = { e with state := .active .wait } :: rest) ∧
        (∀ c cl z, s.highest [.tRead, .aRead] = some c → s.claim c = some cl → cl.range = some z →
          t.engine.read = some { claimant := c, range := z, discard := false } ∧ t.engine.write = some q ∧
          t.headState q = some .suspended))) ∧
  ∀ (s : State) (l : Lifecycle) (page : Nat) (rd : Reading) (seg : Segment) (x : ReadRange),
    s.Calm → s.reading .a = none → s.life.lifecycle = some l → s.reading .t = some rd → rd.seg = some seg → rd.piece = .slot x →
    x.page = page → seg.source = .flash → seg.inPass = true → rd.addr ≤ seg.last → seg.last < 0x2000000 →
    rd.want = x.hi + 1 - x.lo → x.hi < 256 →
    rd.want ≤ seg.last + 1 - rd.addr → s.entriesOf seg.owner = [] →
    s.aheadSlot page = some (.filling page) →
    s.engine.read = some { claimant := .prefetch, range := { page := page, lo := 0, hi := 255 }, discard := false } →
    s.engine.deferred.get .prefetch = none →
    Completes .pageReadEnd s fun t =>
      t.portT.returned = s.portT.returned ++ (List.range (x.hi + 1 - x.lo)).map (fun k => Mem.get s.flash (page + x.lo + k)) ∧
      t.aheadSlot page = some (.held page (Mem.slice s.flash page 256)) ∧ Apart s t

/-- READ-END frees the link, withdraws the read's claim and discards its granted page read. A Port A read that delivered the last
bundle byte closes release; a Port T read of the open pass closes it where it delivered its last offset and starts the idle timer
otherwise (R53, R121 to R123, R158). -/
def Obligations.ReadEndReports : Prop :=
  ∀ (p r : Port) (s : State) (rd : Reading), p ≠ r → s.Calm → s.reading r = none → s.reading p = some rd →
    Completes (.readEnd p) s fun t =>
      t.portA = (if p = .a then { s.portA with link := .idle } else s.portA) ∧
      t.portT = (if p = .t then { s.portT with link := .idle } else s.portT) ∧
      t.engine.claims.get (portClaimant p) = none ∧
      (∀ x, t.engine.read = some x → x.claimant = portClaimant p → x.discard = true) ∧
      t.key = (if p = .a ∧ rd.keyLast = true ∧ s.key.window = .released
        then { s.key with window := .hidden, releaseTimer := .stopped } else s.key) ∧
      t.dir = (if p = .a ∧ rd.keyLast = true ∧ s.key.window = .released
        then { s.dir with events := s.dir.events ||| 0x0200#13 } else s.dir) ∧
      t.uni.pass = (if p = .t ∧ rd.inPass = true ∧ s.uni.pass.isOpen = true then
          (if rd.passLast then { s.uni.pass with isOpen := false, idle := .stopped, count := s.uni.pass.count + 1 }
           else { s.uni.pass with idle := .running s.passIdle })
        else s.uni.pass) ∧
      (p = .t → rd.inPass = true → s.uni.pass.isOpen = true → rd.passLast = true →
        t.ahead.position = none ∧ ∀ x y, AheadSlot.held x y ∉ t.ahead.slots) ∧
      t.flash = s.flash ∧ t.life = s.life ∧ t.queues = s.queues ∧ t.pool = s.pool

/-- PORT-RESET clears WEL and the error flags and breaks off what the link carries, and leaves BUSY, the awaiting write, the ignored
count, the queues, the pages, the slots and the other port as they were, whatever Port A is busy with (R54). A program or erase that is
not closed is collected and has no effect but on its link, and a PROGRAM that closes without a data byte only frees the link (R39, R40).
The form of an open transaction is log entry 11's. -/
def Obligations.PortResetClears : Prop :=
  (∀ (p r : Port) (s : State), p ≠ r → s.due = none → s.dir.running ≠ some .flipArm → s.reading r = none →
    Completes (.portReset p) s fun t =>
      t.port p = { s.port p with wel := false, protectErr := false, programErr := false, ignored := false, link := .idle,
                                 returned := [] } ∧
      t.port r = s.port r ∧ t.queues = s.queues ∧ t.pool = s.pool ∧ t.dir.slots = s.dir.slots ∧ t.dir.queue = s.dir.queue ∧
      t.dir.running = s.dir.running ∧ t.life = s.life ∧ t.flash = s.flash) ∧
  ∀ (p : Port) (s : State),
    (∀ (kind : WriteKind) (a b : Addr) (data d : List Byte), (s.port p).link.collected kind a data = some (b, d) →
      (kind ≠ .program → data = []) →
      exec (openWrite p kind a data) s = .next (s.setPort p { s.port p with link := .collecting kind b d, returned := [] })) ∧
    (∀ (a : Addr), (s.port p).link = .idle ∨ (∃ b, (s.port p).link = .collecting .program b []) →
      exec (.program p a [] true) s = .next (s.setPort p { s.port p with link := .idle, returned := [] }))

/-! ### Directives that end in the event in which they start -/

/-- SET-ARBITER (R97, R98): the first failing check refuses it with no setting changed; otherwise all settings take effect, the standing
claims keep their aged steps, the next one timed from the change, and nothing else of the engine changes, but where a port's read now
stands at or over the bar while the operation in flight is in WAIT below the new limit: that operation is suspended and the read
granted (R90 to R92). -/
def Obligations.SetArbiterTakesEffect : Prop :=
  ∀ (n : Nat) (img : Mem) (len : Nat) (s : State) (l : Lifecycle),
    s.Starts n .setArbiter img len → s.life.lifecycle = some l →
    let weights : PerClaimant Nat :=
      { tRead := (param img 0).toNat, aRead := (param img 1).toNat, sysRead := (param img 2).toNat, qSys := (param img 3).toNat,
        qPass := (param img 4).toNat, qSet := (param img 5).toNat, qUni := (param img 6).toNat, prefetch := (param img 7).toNat }
    let bar := paramNat img 8 2
    let interval := paramNat img 10 2
    let limit := (param img 12).toNat
    let engine : Engine :=
      { s.engine with
        weights := weights, bar := bar, interval := interval, limit := limit
        claims := s.engine.claims.map (Option.map fun c => { c with due := interval }) }
    let refused := fun (o : Nat) => exec .directiveStart s = .next { s with dir := s.dir.ended n .badParameter [byte o] }
    (l = .closed ∨ l = .safe → exec .directiveStart s = .next { s with dir := s.dir.ended n .notInState [] }) ∧
    (l ≠ .closed → l ≠ .safe → len ≠ 14 → refused 0) ∧
    (∀ i < 8, l ≠ .closed → l ≠ .safe → len = 14 → 15 < (param img i).toNat → (∀ j < i, (param img j).toNat ≤ 15) → refused i) ∧
    (l ≠ .closed → l ≠ .safe → len = 14 → (∀ i < 8, (param img i).toNat ≤ 15) →
      (1023 < bar → refused 8) ∧
      (bar ≤ 1023 → interval < 5 ∨ 1000 < interval → refused 10) ∧
      (bar ≤ 1023 → 5 ≤ interval → interval ≤ 1000 → 32 < limit → refused 12) ∧
      (bar ≤ 1023 → 5 ≤ interval → interval ≤ 1000 → limit ≤ 32 → param img 13 ≠ 0 → refused 13) ∧
      (bar ≤ 1023 → 5 ≤ interval → interval ≤ 1000 → limit ≤ 32 → param img 13 = 0 →
        ((∀ q, s.engine.write = some q → s.headState q ≠ some (.active .wait) ∨ limit ≤ s.engine.suspendCount ∨
            ∀ c cl, c = .tRead ∨ c = .aRead → s.claim c = some cl → 64 * weights.get c + min 63 cl.aged < bar) →
          exec .directiveStart s = .next { s with engine := engine, dir := s.dir.ended n .done [] }) ∧
        (∀ q c cl x, s.engine.write = some q → s.engine.read = none → s.headState q = some (.active .wait) →
          s.engine.suspendCount < limit → c = .tRead ∨ c = .aRead → s.claim c = some cl → cl.range = some x →
          (∀ d, d ≠ c → d = .tRead ∨ d = .aRead → s.claim d = none) → bar ≤ 64 * weights.get c + min 63 cl.aged →
          exec .directiveStart s = .next
            { s.setHead q (fun e => { e with state := .suspended }) with
              engine := { engine with
                claims := engine.claims.put c none
                read := some { claimant := c, range := x, discard := false }
                suspendCount := s.engine.suspendCount + 1 }
              dir := s.dir.ended n .done [] })))

/-- SET-KEY-TIMERS (R161, R162): the first failing check refuses it with no time changed; otherwise both times take the parameters, and
running timers keep their remaining times. -/
def Obligations.SetKeyTimersTakesEffect : Prop :=
  ∀ (n : Nat) (img : Mem) (len : Nat) (s : State) (l : Lifecycle),
    s.Starts n .setKeyTimers img len → s.life.lifecycle = some l →
    exec .directiveStart s = .next
      (if l = .closed ∨ l = .safe then { s with dir := s.dir.ended n .notInState [] }
       else if len ≠ 4 then { s with dir := s.dir.ended n .badParameter [0] }
       else if paramNat img 0 2 < 100 ∨ 10000 < paramNat img 0 2 then { s with dir := s.dir.ended n .badParameter [0] }
       else if (param img 2).toNat < 1 ∨ 60 < (param img 2).toNat then { s with dir := s.dir.ended n .badParameter [2] }
       else if param img 3 ≠ 0 then { s with dir := s.dir.ended n .badParameter [3] }
       else { s with
          dir := s.dir.ended n .done []
          key := { s.key with releaseTime := paramNat img 0 2, stageTime := (param img 2).toNat } })

/-- SET-PASS (R125): the first failing check refuses it with no setting changed; otherwise both settings are replaced, 0 standing
for none, and the open pass and its timer are as they were. -/
def Obligations.SetPassTakesEffect : Prop :=
  ∀ (n : Nat) (img : Mem) (len : Nat) (s : State) (l : Lifecycle),
    s.Starts n .setPass img len → s.life.lifecycle = some l →
    exec .directiveStart s = .next
      (if l ≠ .opened ∧ l ≠ .sealed ∧ l ≠ .service then { s with dir := s.dir.ended n .notInState [] }
       else match entryOfClass s.life.fields.map .uniformity with
        | none => { s with dir := s.dir.ended n .notInState [] }
        | some e =>
          if len ≠ 8 then { s with dir := s.dir.ended n .badParameter [0] }
          else if paramNat img 0 4 % 4096 ≠ 0 ∨ e.size < paramNat img 0 4 then { s with dir := s.dir.ended n .badParameter [0] }
          else if param img 5 ≠ 0 ∨ param img 6 ≠ 0 ∨ param img 7 ≠ 0 then { s with dir := s.dir.ended n .badParameter [5] }
          else { s with
            dir := s.dir.ended n .done []
            uni := { s.uni with
              lengthSetting := if paramNat img 0 4 = 0 then none else some (paramNat img 0 4)
              idleSetting := if param img 4 = 0 then none else some (param img 4).toNat } })

/-- SET-QUEUE-LEVELS (R67, R68): the first failing check refuses it with no level changed; with every level from 1 to 32 all four levels
and flags take their new values, and QUEUE-HIGH is raised where a flag passes from clear to set. -/
def Obligations.SetQueueLevelsTakesEffect : Prop :=
  ∀ (n : Nat) (img : Mem) (len : Nat) (s : State) (l : Lifecycle),
    s.Starts n .setQueueLevels img len → s.life.lifecycle = some l →
    let level : QueueId → Nat := fun q => (param img q.num).toNat
    let high : QueueId → Bool := fun q => decide (level q ≤ (s.entriesOf q).length)
    (l = .closed ∨ l = .safe → exec .directiveStart s = .next { s with dir := s.dir.ended n .notInState [] }) ∧
    (l ≠ .closed → l ≠ .safe → len ≠ 4 → exec .directiveStart s = .next { s with dir := s.dir.ended n .badParameter [0] }) ∧
    (∀ i < 4, l ≠ .closed → l ≠ .safe → len = 4 → (param img i).toNat < 1 ∨ 32 < (param img i).toNat →
      (∀ j < i, 1 ≤ (param img j).toNat ∧ (param img j).toNat ≤ 32) →
      exec .directiveStart s = .next { s with dir := s.dir.ended n .badParameter [byte i] }) ∧
    (l ≠ .closed → l ≠ .safe → len = 4 → (∀ i < 4, 1 ≤ (param img i).toNat ∧ (param img i).toNat ≤ 32) →
      Completes .directiveStart s fun t =>
        (∀ q, t.queues.get q = { s.queues.get q with level := level q, high := high q }) ∧
        t = { s with
          queues := t.queues
          dir := { s.dir.ended n .done [] with
            events := s.dir.events ||| 0x0001#13 |||
              (if (high .sys && !s.queues.sys.high || high .pass && !s.queues.pass.high || high .set && !s.queues.set.high ||
                  high .uni && !s.queues.uni.high) = true then 0x0020#13 else 0) } })

/-! ### Moments of running directives -/

/-- CLOSE and RECOVER start: the first failing check ends them REFUSED, RECOVER blows a fuse that is intact and ends FUSE-FAILED where it
stays so, and each enters its FENCE and waits there while a queue it names holds an entry; with those queues empty CLOSE goes on at once to
RECORD, and RECOVER, its fuse in effect then blown, to ERASE (R3, R18, R19). The fences of SET-MAP, CLOSE and
RECOVER, and the end of ARM: at its moment the directive goes on and requests its control record write, or its block erases; before it
the event has no effect (R18, R19, R36, R37, R133, R134; log entry 1). Whether the fuse takes is a free value (log entry 5). -/
def Obligations.FencesRequestWork : Prop :=
  (∀ (n : Nat) (img : Mem) (len : Nat) (s : State) (l : Lifecycle), s.life.lifecycle = some l →
    let ends := fun (c : ResultCode) (r : List Byte) => exec .directiveStart s = .next { s with dir := s.dir.ended n c r }
    (s.Starts n .closes img len →
      (l ≠ .sealed → ends .notInState []) ∧
      (l = .sealed → len ≠ 0 → ends .badParameter [0]) ∧
      (l = .sealed → len = 0 → s.life.fields.code = none → ends .noServiceCode []) ∧
      (l = .sealed → len = 0 → s.life.fields.code ≠ none → (∃ q, s.entriesOf q ≠ []) →
        exec .directiveStart s = .next { s with dir := s.dir.begun n .closeFence }) ∧
      (l = .sealed → len = 0 → s.life.fields.code ≠ none → (∀ q, s.entriesOf q = []) →
        Completes .directiveStart s fun t =>
          t.dir.running = some .closeRecord ∧ t.life = s.life ∧
          t.job.map Job.work = some (.record { lifecycle := .closed, fields := s.life.fields } 1))) ∧
    (s.Starts n .recover img len →
      (l ≠ .safe → ends .notInState []) ∧
      (l = .safe → len ≠ 0 → ends .badParameter [0]) ∧
      (l = .safe → len = 0 → s.life.fuse = true → (∃ q, q ≠ .sys ∧ s.entriesOf q ≠ []) →
        exec .directiveStart s = .next { s with dir := s.dir.begun n .recoverFence }) ∧
      (l = .safe → len = 0 → s.life.fuse = false → (∃ q, q ≠ .sys ∧ s.entriesOf q ≠ []) →
        Completes .directiveStart s fun t =>
          (s.fuseCell = true → t.fuseCell = true) ∧
          t = { s with
            fuseCell := t.fuseCell
            fuseTries := t.fuseTries
            life := { s.life with fuse := t.fuseCell }
            dir := if t.fuseCell then s.dir.begun n .recoverFence else s.dir.ended n .fuseFailed [] }) ∧
      (l = .safe → len = 0 → s.life.fuse = true → (∀ q, q ≠ .sys → s.entriesOf q = []) →
        Completes .directiveStart s fun t =>
          t.dir.running = some .recoverErase ∧ t.life = s.life ∧ t.job.map Job.work = some .eraseAll) ∧
      (l = .safe → len = 0 → s.life.fuse = false → (∀ q, q ≠ .sys → s.entriesOf q = []) →
        Completes .directiveStart s fun t =>
          (s.fuseCell = true → t.fuseCell = true) ∧ t.life = { s.life with fuse := t.fuseCell } ∧
          (t.fuseCell = false → t.dir = s.dir.ended n .fuseFailed [] ∧ t.job = none) ∧
          (t.fuseCell = true → t.dir.running = some .recoverErase ∧ t.job.map Job.work = some .eraseAll)))) ∧
  ∀ s : State,
    (∀ n e, s.dir.running = some (.setMapFence n e) → (∀ q, s.entriesOf q = []) → s.portA.awaiting = none →
      Completes .setMapFenceEnd s fun t =>
        t.dir.running = some (.setMapRecord n e) ∧ t.life = s.life ∧ t.writeLock = true ∧
        t.job.map Job.work = some (.record { lifecycle := s.lifecycleNow, fields := s.life.fields.withEntry n e } 1)) ∧
    (s.dir.running = some .closeFence → (∀ q, s.entriesOf q = []) → s.portA.awaiting = none →
      Completes .closeFenceEnd s fun t =>
        t.dir.running = some .closeRecord ∧ t.life = s.life ∧
        t.job.map Job.work = some (.record { lifecycle := .closed, fields := s.life.fields } 1)) ∧
    (s.dir.running = some .recoverFence → (∀ q, q ≠ .sys → s.entriesOf q = []) → s.portA.awaiting = none →
      Completes .recoverFenceEnd s fun t =>
        t.dir.running = some .recoverErase ∧ t.life = s.life ∧ t.job.map Job.work = some .eraseAll) ∧
    (s.dir.running = some .flipArm → s.uni.pass.isOpen = false →
      Completes .flipSwitchBegin s fun t =>
        t.dir.running = some .flipSwitch ∧ t.life = s.life ∧
        t.job.map Job.work = some (.record { lifecycle := s.lifecycleNow, fields := { s.life.fields with live := s.live.other } } 1)) ∧
    ((∃ q, s.entriesOf q ≠ []) → exec .setMapFenceEnd s = .next s ∧ exec .closeFenceEnd s = .next s) ∧
    ((∃ q, q ≠ .sys ∧ s.entriesOf q ≠ []) → exec .recoverFenceEnd s = .next s) ∧
    (s.uni.pass.isOpen = true → exec .flipSwitchBegin s = .next s)

/-- When all entries of RECOVER's erases or of SEAL's key sector have left DONE, the directive enters RECORD and requests its control
record write (R19, R152, R154). -/
def Obligations.RunsEndInRecord : Prop :=
  ∀ (s : State) (j : Job), s.job = some j → j.ended = true → j.firstFailed = none →
    (s.dir.running = some .recoverErase →
      Completes .recoverEraseEnd s fun t =>
        t.dir.running = some .recoverRecord ∧ t.life = s.life ∧
        t.job.map Job.work = some (.record
          { lifecycle := .opened
            fields := { live := .bank0, map := some MapEntry.default0 :: List.replicate 14 none, bundleLen := 0, scopes := [],
                        region := none, releaseTime := s.key.releaseTime, code := none } } 1)) ∧
    (∀ len r, s.dir.running = some (.sealProgram len r) →
      Completes .sealProgramEnd s fun t =>
        t.dir.running = some (.sealRecord len r) ∧ t.life = s.life ∧ t.sealLock = true ∧
        t.job.map Job.work = some (.record
          { lifecycle := .sealed
            fields := { s.life.fields with bundleLen := len, scopes := bundleScopes s.key.staging, region := some r,
                                           releaseTime := s.key.releaseTime } } 1))

/-- After a failed entry, and once the others have left, RECOVER and SEAL end REFUSED with FLASH-FAILED and the address of the first
that failed; the lifecycle and the fields are as they were (R19, R153). -/
def Obligations.FailedRunsEndRefused : Prop :=
  ∀ (s : State) (n : Nat) (ph : Phase) (j : Job) (a : Nat), s.Alone n ph → s.job = some j → j.ended = true → j.firstFailed = some a →
    (ph = .recoverErase → (s.slot n).directive = some .recover →
      exec .recoverEraseEnd s = .next { s with job := none, dir := s.dir.ended n .flashFailed (leBytes 4 a) }) ∧
    (∀ len r, ph = .sealProgram len r → (s.slot n).directive = some .seals →
      exec .sealFlashFailed s = .next
        { s with
          job := none
          dir := s.dir.ended n .flashFailed (leBytes 4 a)
          key := { s.key with
            sealCount := s.key.sealCount - 1
            stageTimer := if s.key.window = .staging ∧ s.key.sealCount - 1 = 0 ∧ s.key.staging ≠ []
              then .running (1000000 * s.key.stageTime) else .stopped } })

/-- SEAL starts: the first failing check ends it REFUSED, and it enters FENCE and waits while Q-SET holds an entry (R148). SEAL's fence
ends with Q-SET empty: a bundle that fails its check ends SEAL with BUNDLE-INVALID and the offset; one that passes leads to VALIDATE, the
seal lock and the SYS-READ claim for the region record (R95, R143, R149, R150). The bundle's ten tests in their order, with the offset
each gives (R147). The region record read in VALIDATE ends SEAL with REGION-INVALID or REGION-OUT-OF-SCOPE, or leads to PROGRAM (R151,
R152). -/
def Obligations.SealFenceJudgesBundle : Prop :=
  (∀ (n : Nat) (img : Mem) (len : Nat) (s : State) (l : Lifecycle), s.Starts n .seals img len → s.life.lifecycle = some l →
    let ends := fun (c : ResultCode) (r : List Byte) =>
      exec .directiveStart s = .next { s with dir := s.dir.ended n c r, key := s.key.unsealed }
    let present := entryOfClass s.life.fields.map .key ≠ none ∧ entryOfClass s.life.fields.map .settings ≠ none
    (l ≠ .opened ∨ ¬ present → ends .notInState []) ∧
    (l = .opened → present → len ≠ 0 → ends .badParameter [0]) ∧
    (l = .opened → present → len = 0 → s.entriesOf .set ≠ [] →
      exec .directiveStart s = .next { s with dir := s.dir.begun n .sealFence })) ∧
  (∀ (s : State) (n : Nat), s.Alone n .sealFence → s.entriesOf .set = [] → s.job = none → (s.slot n).directive = some .seals →
    (∀ o, checkBundle s.key.staging = .error o →
      Completes .sealFenceEnd s fun t =>
        t.dir = s.dir.ended n .bundleInvalid (leBytes 2 o) ∧ t.life = s.life ∧ t.key.staging = s.key.staging ∧
        t.key.sealCount = s.key.sealCount - 1) ∧
    (∀ len e, checkBundle s.key.staging = .ok len → entryOfClass s.life.fields.map .settings = some e → s.portFree = true →
      Completes .sealFenceEnd s fun t =>
        t.dir = { s.dir with running := some (.sealValidate len) } ∧ t.sealLock = true ∧
        t.engine.read = some { claimant := .sysRead, range := { page := e.pbase, lo := 0, hi := 31 }, discard := false } ∧
        t.life = s.life ∧ t.key = s.key)) ∧
  (∀ m : Mem,
    let len := leNat (Mem.slice m 6 2)
    let scopes := (Mem.get m 8).toNat
    let entries := (Mem.get m 9).toNat
    let first := 12 + 4 * scopes
    let marked := ∀ i < 4, Mem.get m i = bundleMarker.getD i 0
    let head := marked ∧ leNat (Mem.slice m 4 2) = 1 ∧ 64 ≤ len ∧ len ≤ 4096 ∧ 1 ≤ scopes ∧ scopes ≤ 8 ∧ 1 ≤ entries ∧ entries ≤ 32 ∧
      Mem.get m 10 = 0 ∧ Mem.get m 11 = 0
    let scopesOk := ∀ i < scopes, scopeFault m len (12 + 4 * i) = none
    let entriesOk := ∀ k < entries, entryFault m len (bundleEntryAt m first k) = none
    (∀ i < 4, (∀ j < i, Mem.get m j = bundleMarker.getD j 0) → Mem.get m i ≠ bundleMarker.getD i 0 → checkBundle m = .error i) ∧
    (marked → leNat (Mem.slice m 4 2) ≠ 1 → checkBundle m = .error 4) ∧
    (marked → leNat (Mem.slice m 4 2) = 1 → len < 64 ∨ 4096 < len → checkBundle m = .error 6) ∧
    (marked → leNat (Mem.slice m 4 2) = 1 → 64 ≤ len → len ≤ 4096 → scopes < 1 ∨ 8 < scopes → checkBundle m = .error 8) ∧
    (marked → leNat (Mem.slice m 4 2) = 1 → 64 ≤ len → len ≤ 4096 → 1 ≤ scopes → scopes ≤ 8 → entries < 1 ∨ 32 < entries →
      checkBundle m = .error 9) ∧
    (marked → leNat (Mem.slice m 4 2) = 1 → 64 ≤ len → len ≤ 4096 → 1 ≤ scopes → scopes ≤ 8 → 1 ≤ entries → entries ≤ 32 →
      (Mem.get m 10 ≠ 0 → checkBundle m = .error 10) ∧ (Mem.get m 10 = 0 → Mem.get m 11 ≠ 0 → checkBundle m = .error 11)) ∧
    (head → ∀ i < scopes, ∀ o, (∀ j < i, scopeFault m len (12 + 4 * j) = none) → scopeFault m len (12 + 4 * i) = some o →
      checkBundle m = .error o) ∧
    (head → scopesOk → ∀ k < entries, ∀ o, (∀ j < k, entryFault m len (bundleEntryAt m first j) = none) →
      entryFault m len (bundleEntryAt m first k) = some o → checkBundle m = .error o) ∧
    (head → scopesOk → entriesOk →
      (bundleEntryAt m first entries ≠ len - 4 → checkBundle m = .error (bundleEntryAt m first entries)) ∧
      (bundleEntryAt m first entries = len - 4 →
        checkBundle m = if (crc32 (Mem.slice m 0 (len - 4))).toNat = leNat (Mem.slice m (len - 4) 4) then .ok len
          else .error (len - 4)))) ∧
  ∀ (s : State) (n len : Nat) (l : Lifecycle) (x : ReadRange), s.Alone n (.sealValidate len) → s.job = none →
    (s.slot n).directive = some .seals → s.life.lifecycle = some l →
    s.engine.read = some { claimant := .sysRead, range := x, discard := false } → s.engine.deferred.get .sysRead = none →
    let record := checkRegion (combine s.flash (s.entriesOf .set) x)
    (record = none →
      Completes .pageReadEnd s fun t => t.dir = s.dir.ended n .regionInvalid [] ∧ t.key = s.key.unsealed ∧ t.life = s.life) ∧
    (∀ r, record = some r → inScope r (bundleScopes s.key.staging) = false →
      Completes .pageReadEnd s fun t =>
        t.dir = s.dir.ended n .regionOutOfScope (leBytes 2 r.code ++ [byte r.family.num]) ∧ t.key = s.key.unsealed ∧
        t.life = s.life) ∧
    (∀ r k, record = some r → inScope r (bundleScopes s.key.staging) = true → entryOfClass s.life.fields.map .key = some k →
      Completes .pageReadEnd s fun t =>
        t.dir.running = some (.sealProgram len r) ∧ t.job.map Job.work = some (.keySector k.pbase len) ∧ t.life = s.life ∧
        t.key = s.key)

/-- SERVICE-CLOSE starts: the first failing check ends it REFUSED, and it enters FENCE and waits while Q-SET or Q-UNI holds an entry; its
fence ends with both empty: the service-close lock begins and the region record is read; the record read ends it with REGION-INVALID or
REGION-OUT-OF-SCOPE, or leads to its control record write with lifecycle CLOSED (R172, R173). What makes a region record valid and in
scope (R164, R165). -/
def Obligations.ServiceCloseFenceReadsRegion : Prop :=
  (∀ (n : Nat) (img : Mem) (len : Nat) (s : State) (l : Lifecycle), s.Starts n .serviceClose img len → s.life.lifecycle = some l →
    let ends := fun (c : ResultCode) (r : List Byte) => exec .directiveStart s = .next { s with dir := s.dir.ended n c r }
    (l ≠ .service ∨ entryOfClass s.life.fields.map .settings = none → ends .notInState []) ∧
    (l = .service → entryOfClass s.life.fields.map .settings ≠ none → len ≠ 0 → ends .badParameter [0]) ∧
    (l = .service → entryOfClass s.life.fields.map .settings ≠ none → len = 0 → s.entriesOf .set ≠ [] ∨ s.entriesOf .uni ≠ [] →
      exec .directiveStart s = .next { s with dir := s.dir.begun n .serviceCloseFence })) ∧
  (∀ (s : State) (n : Nat) (e : MapEntry), s.Alone n .serviceCloseFence → s.entriesOf .set = [] → s.entriesOf .uni = [] → s.job = none →
    entryOfClass s.life.fields.map .settings = some e → s.portFree = true →
    Completes .serviceCloseFenceEnd s fun t =>
      t.dir = { s.dir with running := some .serviceCloseCheck } ∧ t.serviceCloseLock = true ∧
      t.engine.read = some { claimant := .sysRead, range := { page := e.pbase, lo := 0, hi := 31 }, discard := false } ∧
      t.life = s.life ∧ t.key = s.key) ∧
  (∀ (s : State) (n : Nat) (l : Lifecycle) (x : ReadRange), s.Alone n .serviceCloseCheck → s.job = none →
    (s.slot n).directive = some .serviceClose → s.life.lifecycle = some l →
    s.engine.read = some { claimant := .sysRead, range := x, discard := false } → s.engine.deferred.get .sysRead = none →
    let record := checkRegion (combine s.flash (s.entriesOf .set) x)
    (record = none → Completes .pageReadEnd s fun t => t.dir = s.dir.ended n .regionInvalid [] ∧ t.life = s.life) ∧
    (∀ r, record = some r → inScope r s.life.fields.scopes = false →
      Completes .pageReadEnd s fun t =>
        t.dir = s.dir.ended n .regionOutOfScope (leBytes 2 r.code ++ [byte r.family.num]) ∧ t.life = s.life) ∧
    (∀ r, record = some r → inScope r s.life.fields.scopes = true →
      Completes .pageReadEnd s fun t =>
        t.dir.running = some (.serviceCloseRecord r) ∧ t.life = s.life ∧
        t.job.map Job.work = some (.record { lifecycle := .closed, fields := { s.life.fields with region := some r } } 1))) ∧
  (∀ (b : List Byte) (r : Region),
    let n := fun i => (b.getD i 0).toNat + 256 * (b.getD (i + 1) 0).toNat
    checkRegion b = some r ↔
      b.take 4 = [0x52, 0x45, 0x47, 0x31] ∧ n 4 = 1 ∧ (crc16 (b.take 30)).toNat = n 30 ∧ 1 ≤ r.code ∧ r.code ≤ 4095 ∧ r.code = n 6 ∧
      (b.getD 8 0).toNat = r.family.num ∧ (b.getD 9 0).toNat ≤ 31 ∧ (b.getD 10 0).toNat ≤ 7 ∧ n 12 ≤ 1023 ∧ b.getD 11 0 = 0 ∧
      (b.drop 14).take 16 = List.replicate 16 0) ∧
  ∀ (r : Region) (l : List Scope),
    inScope r l = true ↔ ∃ x ∈ l, x.code = r.code ∧ x.families.getLsbD (match r.family with | .f50 => 0 | .f60 => 1 | .dual => 2) = true

/-- FLIP starts: the first failing check ends it REFUSED, and it enters DRAIN and waits while Q-UNI holds an entry (R127). FLIP's DRAIN
ends with Q-UNI empty, and COVERAGE judges: SHADOW-FAILED, COVERAGE-INCOMPLETE in mode FULL, else CHECK, with the claim for the table
header, or ARM, which waits while a pass is open (R129, R130, R133). CHECK's header read ends it TABLE-CHECK-FAILED with the check code, or
leads to the CRC from offset 16 on; each further page joins the CRC, and after the last the FLIP enters ARM where the CRC agrees and ends
TABLE-CHECK-FAILED where it does not (R131, R132). -/
def Obligations.FlipDrainJudgesCoverage : Prop :=
  (∀ (n : Nat) (img : Mem) (len : Nat) (s : State) (l : Lifecycle), s.Starts n .flip img len → s.life.lifecycle = some l →
    let ends := fun (c : ResultCode) (r : List Byte) =>
      exec .directiveStart s = .next { s with dir := { s.dir.ended n c r with flipCount := s.dir.flipCount - 1 } }
    let allowed := (l = .opened ∨ l = .sealed ∨ l = .service) ∧ s.uniformity ≠ none
    (¬ allowed → ends .notInState []) ∧
    (allowed → len ≠ 2 → ends .badParameter [0]) ∧
    (allowed → len = 2 → 1 < (param img 0).toNat → ends .badParameter [0]) ∧
    (allowed → len = 2 → (param img 0).toNat ≤ 1 → 1 < (param img 1).toNat → ends .badParameter [1]) ∧
    (allowed → len = 2 → (param img 0).toNat ≤ 1 → (param img 1).toNat ≤ 1 → s.entriesOf .uni ≠ [] →
      exec .directiveStart s = .next
        { s with dir := s.dir.begun n (.flipDrain (decide (param img 0 = 0)) (decide (param img 1 = 1))) })) ∧
  (∀ (s : State) (n : Nat) (full check : Bool), s.Alone n (.flipDrain full check) → s.entriesOf .uni = [] → s.job = none →
    (s.slot n).directive = some .flip →
    (.failed ∈ s.uni.coverage →
      exec .flipDrainEnd s = .next { s with
        dir := { s.dir.ended n .shadowFailed (leBytes 2 (s.uni.coverage.countP fun x => decide (x = .failed)) ++
          leBytes 2 (s.uni.coverage.findIdx fun x => decide (x = .failed))) with flipCount := s.dir.flipCount - 1 } }) ∧
    (.failed ∉ s.uni.coverage → full = true → .stale ∈ s.uni.coverage →
      exec .flipDrainEnd s = .next { s with
        dir := { s.dir.ended n .coverageIncomplete (leBytes 2 (s.uni.coverage.countP fun x => decide (x = .stale)) ++
          leBytes 2 (s.uni.coverage.findIdx fun x => decide (x = .stale))) with flipCount := s.dir.flipCount - 1 } }) ∧
    (.failed ∉ s.uni.coverage → (full = false ∨ .stale ∉ s.uni.coverage) → check = true → s.portFree = true →
      Completes .flipDrainEnd s fun t =>
        t.dir = { s.dir with running := some .flipHeader } ∧ t.uni = s.uni ∧
        t.engine.read = some { claimant := .sysRead, range := { page := s.shadowBase, lo := 0, hi := 15 }, discard := false }) ∧
    (.failed ∉ s.uni.coverage → (full = false ∨ .stale ∉ s.uni.coverage) → check = false → s.uni.pass.isOpen = true →
      exec .flipDrainEnd s = .next { s with dir := { s.dir with running := some .flipArm } })) ∧
  ∀ (s : State) (n : Nat) (l : Lifecycle) (x : ReadRange) (ph : Phase), s.Alone n ph → s.job = none →
    (s.slot n).directive = some .flip → s.life.lifecycle = some l → s.engine.write = none → s.engine.claims = PerClaimant.all none →
    s.engine.read = some { claimant := .sysRead, range := x, discard := false } → s.engine.deferred.get .sysRead = none →
    let base := s.shadowBase
    let word := fun (o k : Nat) => leNat (Mem.slice s.flash (base + o) k)
    let fails := fun (r : List Byte) =>
      Completes .pageReadEnd s fun t =>
        t.dir = { s.dir.ended n .tableCheckFailed r with flipCount := s.dir.flipCount - 1 } ∧ t.life = s.life ∧ t.uni = s.uni
    let reads := fun (len stored next : Nat) (crc : BitVec 32) =>
      Completes .pageReadEnd s fun t =>
        t.dir = { s.dir with running := some (.flipCrc len stored next crc) } ∧ t.life = s.life ∧
        t.engine.read = some
          { claimant := .sysRead
            range := { page := base + pageOf next, lo := next % 256, hi := min 255 (15 + len - pageOf next) }
            discard := false }
    let marked := Mem.slice s.flash base 4 = [0x55, 0x43, 0x54, 0x31]
    (ph = .flipHeader →
      (¬ marked → fails [1]) ∧
      (marked → word 4 2 ≠ 1 → fails [2]) ∧
      (marked → word 4 2 = 1 → word 8 4 < 1 ∨ bankSize s.life.fields.map < word 8 4 + 16 → fails [3]) ∧
      (marked → word 4 2 = 1 → 1 ≤ word 8 4 → word 8 4 + 16 ≤ bankSize s.life.fields.map →
        reads (word 8 4) (word 12 4) 16 0xFFFFFFFF#32)) ∧
    ∀ len stored next crc, ph = .flipCrc len stored next crc →
      let crc' := crc32Over crc (Mem.slice s.flash (x.page + x.lo) (x.hi + 1 - x.lo))
      (pageOf next + 256 ≤ 15 + len → reads len stored (pageOf next + 256) crc') ∧
      (15 + len < pageOf next + 256 → (~~~ crc').toNat ≠ stored →
        fails (4 :: leBytes 4 (~~~ crc').toNat ++ leBytes 4 stored)) ∧
      (15 + len < pageOf next + 256 → (~~~ crc').toNat = stored → s.uni.pass.isOpen = true →
        Completes .pageReadEnd s fun t => t.dir = { s.dir with running := some .flipArm } ∧ t.life = s.life ∧ t.uni = s.uni)

/-- SYNC starts: the first failing check ends it REFUSED; it waits while a queue it names holds an entry (R73), and ends when every queue
it names is empty, DONE with the failure counts of all four queues (R69, R74); before that SYNC-WAIT-END has no effect, which is the
model's choice (log entry 1). DISCARD: the first failing check ends it REFUSED; else every QUEUED entry of the queue it names is removed,
its page freed, and it ends DONE with their number and the number of their pages (R70, R71). Where a freed page stands in the pool, and
that ENTRY names the entry by its sequence number, are the model's choices (log entries 15 and 25). -/
def Obligations.SyncEndsWithCounts : Prop :=
  (∀ (s : State) (n : Nat) (names : PerQueue Bool), s.Alone n (.syncWait names) → s.job = none → (s.slot n).directive = some .sync →
    ((∀ q, names.get q = true → s.entriesOf q = []) →
      exec .syncWaitEnd s = .next { s with
        dir := s.dir.ended n .done [byte s.queues.sys.failures, byte s.queues.pass.failures, byte s.queues.set.failures,
          byte s.queues.uni.failures] }) ∧
    ((∃ q, names.get q = true ∧ s.entriesOf q ≠ []) → exec .syncWaitEnd s = .next s)) ∧
  ∀ (n : Nat) (img : Mem) (len : Nat) (s : State) (l : Lifecycle), s.life.lifecycle = some l →
    let ends := fun (c : ResultCode) (r : List Byte) => exec .directiveStart s = .next { s with dir := s.dir.ended n c r }
    (s.Starts n .sync img len →
      (l = .safe → ends .notInState []) ∧
      (l ≠ .safe → len ≠ 4 → ends .badParameter [0]) ∧
      (∀ i < 4, l ≠ .safe → len = 4 → 1 < (param img i).toNat → (∀ j < i, (param img j).toNat ≤ 1) → ends .badParameter [byte i]) ∧
      (l ≠ .safe → len = 4 → (∀ i < 4, param img i = 0) → ends .badParameter [0]) ∧
      (l ≠ .safe → len = 4 → (∀ i < 4, (param img i).toNat ≤ 1) → (∃ q, param img q.num = 1 ∧ s.entriesOf q ≠ []) →
        exec .directiveStart s = .next
          { s with dir := s.dir.begun n (.syncWait ⟨decide (param img 0 = 1), decide (param img 1 = 1), decide (param img 2 = 1),
                                                    decide (param img 3 = 1)⟩) })) ∧
    (s.Starts n .discard img len →
      (l = .closed ∨ l = .safe → ends .notInState []) ∧
      (l ≠ .closed → l ≠ .safe → len ≠ 1 → ends .badParameter [0]) ∧
      (l ≠ .closed → l ≠ .safe → len = 1 → param img 0 ≠ 1 → param img 0 ≠ 2 → param img 0 ≠ 3 → ends .badParameter [0]) ∧
      (∀ q, l ≠ .closed → l ≠ .safe → len = 1 → q ≠ .sys → (param img 0).toNat = q.num →
        let gone := (s.entriesOf q).filter fun e => decide (e.state = .queued)
        Completes .directiveStart s fun t =>
          t.entriesOf q = (s.entriesOf q).filter (fun e => decide (e.state ≠ .queued)) ∧
          (∀ r, r ≠ q → t.queues.get r = s.queues.get r) ∧
          t.pool = s.pool ++ gone.filterMap Entry.page ∧
          t.dir.slots = (s.dir.ended n .done [byte gone.length, byte (gone.filterMap Entry.page).length]).slots ∧
          t.dir.queue = [] ∧ t.dir.running = none ∧
          (s.headState q = some .queued → t.claim q.claimant = none) ∧
          t.portA.cause = (if (∃ e ∈ gone, s.portA.cause = .entry e.seq) then .none else s.portA.cause) ∧
          t.portA.programErr = (s.portA.programErr || decide (∃ e ∈ gone, s.portA.cause = .entry e.seq)) ∧
          t.life = s.life ∧ t.key = s.key ∧ t.uni = s.uni ∧ t.flash = s.flash ∧ t.portT = s.portT))

/-! ### The end of a control record write -/

/-- OPEN, SET-SERVICE-CODE and SERVICE-OPEN start: the first failing check ends them REFUSED; OPEN makes one attempt at the fuse and ends
FUSE-FAILED where it stays intact; a wrong code costs SERVICE-OPEN an attempt and raises CODE-REJECTED, a right one restores the three
attempts; each then requests its control record write (R3, R15, R167, R168, R170, R171). A control record write of OPEN, RECOVER, CLOSE,
SERVICE-OPEN, SERVICE-CLOSE or SET-SERVICE-CODE that succeeds puts its fields, and the lifecycle where it changes, in effect, and the
directive ends DONE (R8, R15, R18, R19, R140, R168, R171, R173). Whether the fuse takes is a free value (log entry 5). -/
def Obligations.RecordWriteTakesEffect : Prop :=
  (∀ (n : Nat) (img : Mem) (len : Nat) (s : State) (l : Lifecycle), s.life.lifecycle = some l →
    let ends := fun (c : ResultCode) (r : List Byte) => exec .directiveStart s = .next { s with dir := s.dir.ended n c r }
    (s.Starts n .opens img len →
      (l ≠ .blank → ends .notInState []) ∧
      (l = .blank → len ≠ 0 → ends .badParameter [0]) ∧
      (l = .blank → len = 0 →
        Completes .directiveStart s fun t =>
          (s.fuseCell = true → t.fuseCell = true) ∧ t.life = { s.life with fuse := t.fuseCell } ∧
          (t.fuseCell = false → t.dir = s.dir.ended n .fuseFailed [] ∧ t.job = none) ∧
          (t.fuseCell = true → t.dir.running = some .openRecord ∧
            t.job.map Job.work = some (.record
              { lifecycle := .opened
                fields := { live := .bank0, map := some MapEntry.default0 :: List.replicate 14 none, bundleLen := 0, scopes := [],
                            region := none, releaseTime := s.key.releaseTime, code := none } } 1)))) ∧
    (s.Starts n .setServiceCode img len →
      let code := Mem.slice img 5 16
      let allowed := l = .opened ∨ l = .sealed ∨ l = .service
      (¬ allowed → ends .notInState []) ∧
      (allowed → len ≠ 16 → ends .badParameter [0]) ∧
      (allowed → len = 16 → code = List.replicate 16 0 ∨ code = List.replicate 16 0xFF → ends .badParameter [0]) ∧
      (allowed → len = 16 → code ≠ List.replicate 16 0 → code ≠ List.replicate 16 0xFF →
        Completes .directiveStart s fun t =>
          t.dir.running = some .codeRecord ∧ t.life = s.life ∧
          t.job.map Job.work = some (.record { lifecycle := l, fields := { s.life.fields with code := some code } } 1))) ∧
    (s.Starts n .serviceOpen img len →
      (l ≠ .closed → ends .notInState []) ∧
      (l = .closed → len ≠ 16 → ends .badParameter [0]) ∧
      (l = .closed → len = 16 → s.attempts = 0 → ends .attemptsExhausted []) ∧
      (l = .closed → len = 16 → 0 < s.attempts → s.life.fields.code ≠ some (Mem.slice img 5 16) →
        exec .directiveStart s = .next
          { s with
            attempts := s.attempts - 1
            dir := { s.dir.ended n .codeMismatch [byte (s.attempts - 1)] with events := s.dir.events ||| 0x0800#13 ||| 0x0002#13 } }) ∧
      (l = .closed → len = 16 → 0 < s.attempts → s.life.fields.code = some (Mem.slice img 5 16) →
        Completes .directiveStart s fun t =>
          t.attempts = 3 ∧ t.dir.running = some .serviceOpenRecord ∧ t.life = s.life ∧
          t.job.map Job.work = some (.record { lifecycle := .service, fields := s.life.fields } 1)))) ∧
  ∀ (s : State) (n : Nat) (ph : Phase) (j : Job) (r : ControlRecord) (k : Nat), s.Alone n ph → s.job = some j → j.ended = true →
    j.firstFailed = none → j.work = .record r k → (s.slot n).directive ≠ some .flip → (s.slot n).directive ≠ some .seals →
    let done := fun (l : Lifecycle) (key : KeyUnit) (data : List Byte) =>
      { s with
        job := none
        life := { s.life with lifecycle := some l, fields := r.fields }
        key := key
        dir := { s.dir.ended n .done data with events := s.dir.events ||| 0x0400#13 ||| 0x0001#13 } }
    let opened := { s.key with window := .staging, staging := [], stageTimer := .stopped, releaseTimer := .stopped }
    (ph = .openRecord → exec .controlRecordWriteEnd s = .next (done .opened opened [])) ∧
    (ph = .recoverRecord → exec .controlRecordWriteEnd s = .next (done .opened opened (leBytes 2 512))) ∧
    (ph = .closeRecord → exec .controlRecordWriteEnd s = .next (done .closed s.key [])) ∧
    (ph = .serviceOpenRecord → exec .controlRecordWriteEnd s = .next (done .service s.key [])) ∧
    (∀ g, ph = .serviceCloseRecord g →
      exec .controlRecordWriteEnd s = .next (done .closed s.key (leBytes 2 g.code ++ [byte g.family.num]))) ∧
    (ph = .codeRecord →
      exec .controlRecordWriteEnd s = .next { s with
        job := none, life := { s.life with fields := r.fields }, dir := s.dir.ended n .done [] })

/-- SEAL's control record write succeeds: SEALED, the window HIDDEN, staging `0xFF`, its timer STOPPED, the sealed bundle length, DONE
with it (R154). -/
def Obligations.SealTakesEffect : Prop :=
  ∀ (s : State) (n len : Nat) (g : Region) (j : Job) (r : ControlRecord) (k : Nat), s.Alone n (.sealRecord len g) → s.job = some j →
    j.ended = true → j.firstFailed = none → j.work = .record r k → (s.slot n).directive = some .seals →
    exec .controlRecordWriteEnd s = .next
      { s with
        job := none
        life := { s.life with lifecycle := some .sealed, fields := r.fields }
        key := { s.key with window := .hidden, staging := [], stageTimer := .stopped, releaseTimer := .stopped, sealedLen := len,
                            sealCount := s.key.sealCount - 1 }
        dir := { s.dir.ended n .done (leBytes 2 len) with events := s.dir.events ||| 0x0400#13 ||| 0x0001#13 } }

/-- FLIP's control record write succeeds: the live bank becomes the other one, every sector is STALE, the read-ahead buffer is empty,
FLIP-DONE is raised and the result data is the new live bank and the pass count (R135). A Port T segment that SWITCH held is released and
opens a pass on the new live bank (R119, R135). -/
def Obligations.FlipSwitchesBanks : Prop :=
  (∀ (s : State) (n : Nat) (j : Job) (r : ControlRecord) (k : Nat), s.Alone n .flipSwitch → s.job = some j → j.ended = true →
    j.firstFailed = none → j.work = .record r k → r.fields = { s.life.fields with live := s.live.other } →
    (s.slot n).directive = some .flip →
    Completes .controlRecordWriteEnd s fun t =>
      t.life = { s.life with fields := { s.life.fields with live := s.live.other } } ∧ t.live = s.live.other ∧
      t.uni = { s.uni with coverage := List.replicate (bankSize s.life.fields.map / 4096) .stale } ∧
      t.dir = { s.dir.ended n .done (byte s.live.other.num :: leBytes 2 s.uni.pass.count.toNat) with
        events := s.dir.events ||| 0x0040#13 ||| 0x0001#13, flipCount := s.dir.flipCount - 1 } ∧
      t.job = none ∧ t.ahead.position = none ∧ (∀ p b, .held p b ∉ t.ahead.slots) ∧ t.key = s.key ∧ t.portA = s.portA ∧
      t.portT = s.portT ∧ t.queues = s.queues) ∧
  ∀ (s : State) (n : Nat) (rd : Reading) (seg : Segment) (j : Job) (r : ControlRecord) (k : Nat) (l : Lifecycle) (e : MapEntry),
    s.Holds n rd seg → s.job = some j → j.ended = true → j.firstFailed = none → j.work = .record r k →
    r.fields = { s.life.fields with live := s.live.other } → (s.slot n).directive = some .flip → s.life.lifecycle = some l → l ≠ .safe →
    findEntry s.entries rd.addr = some e → e.cls = .uniformity →
    Completes .controlRecordWriteEnd s fun t =>
      t.live = s.live.other ∧ t.uni.pass.isOpen = true ∧ t.uni.pass.bank = s.live.other ∧ t.dir.running = none ∧
      ∀ x y, t.reading .t = some x → x.seg = some y → y.source ≠ .held

/-- SET-MAP starts: the first failing check of its own parameters ends it BAD-PARAMETER with the offset, the first conflict with the rest
of the map MAP-CONFLICT, and it enters FENCE and waits while a queue holds an entry (R34, R35). SET-MAP's control record write succeeds:
the new map is in effect, DONE with the entry number; where the UNIFORMITY entry changed, coverage starts afresh, the pass record is CLOSED
on bank 0 with its count kept, the pass length setting is none and the read-ahead buffer is empty (R37, R113, R118, R124). The note of a bundle carried to the key sector ends where the
new map has its key sector elsewhere (log entry 28). When a conflict is found (R35). -/
def Obligations.SetMapTakesEffect : Prop :=
  (∀ (n : Nat) (img : Mem) (len : Nat) (s : State) (l : Lifecycle), s.Starts n .setMap img len → s.life.lifecycle = some l →
    let ends := fun (c : ResultCode) (r : List Byte) => exec .directiveStart s = .next { s with dir := s.dir.ended n c r }
    let v := fun i => (param img i).toNat
    let w := fun i => paramNat img i 4
    let size := fun (lo hi : Nat) => lo ≤ w 12 ∧ w 12 ≤ hi
    let fits := fun (base : Nat) => base % 4096 = 0 ∧ base + w 12 ≤ 0x2000000 ∧ base % 65536 = w 8 % 65536
    let bad : Option Nat :=
      if 14 < v 0 then some 0
      else if 1 < v 1 then some 1
      else if v 1 = 0 then none
      else if v 2 < 1 ∨ 4 < v 2 then some 2
      else if 2 < v 3 ∨ (v 3 ≠ 0 ∧ v 2 ≠ 1) then some 3
      else if 1 < v 4 ∨ (v 4 ≠ 0 ∧ (v 2 = 2 ∨ v 2 = 3)) then some 4
      else if 1 < v 5 ∨ (v 5 ≠ 0 ∧ v 2 ≠ 1) then some 5
      else if v 6 ≠ 0 ∨ v 7 ≠ 0 then some 6
      else if w 8 % 4096 ≠ 0 then some 8
      else if w 12 % 4096 ≠ 0 ∨ ¬ ((v 2 = 1 ∧ size 4096 0x1FFF000) ∨ (v 2 = 2 ∧ size 4096 0x800000) ∨ (v 2 = 3 ∧ w 12 = 4096) ∨
          (v 2 = 4 ∧ size 4096 65536)) ∨ 0x2000000 < w 8 + w 12 then some 12
      else if ¬ fits (w 16) then some 16
      else if (v 2 = 2 ∧ ¬ fits (w 20)) ∨ (v 2 ≠ 2 ∧ w 20 ≠ 0) then some 20
      else none
    let entry := (RawEntry.read img 5).entry
    (l ≠ .opened → ends .notInState []) ∧
    (l = .opened → len ≠ 24 → ends .badParameter [0]) ∧
    (∀ o, l = .opened → len = 24 → bad = some o → ends .badParameter [byte o]) ∧
    (∀ e o, l = .opened → len = 24 → bad = none → entry = some e → conflict (v 0) e s.entries = some o → ends .mapConflict [byte o]) ∧
    (l = .opened → len = 24 → bad = none → (∀ e, entry = some e → conflict (v 0) e s.entries = none) → (∃ q, s.entriesOf q ≠ []) →
      exec .directiveStart s = .next { s with dir := s.dir.begun n (.setMapFence (v 0) entry) })) ∧
  (∀ (s : State) (n i : Nat) (e : Option MapEntry) (j : Job) (r : ControlRecord) (k : Nat), s.Alone n (.setMapRecord i e) →
    s.job = some j → j.ended = true → j.firstFailed = none → j.work = .record r k → (s.slot n).directive = some .setMap →
    Completes .controlRecordWriteEnd s fun t =>
      t.life = { s.life with fields := r.fields } ∧ t.job = none ∧ t.dir = s.dir.ended n .done [byte i] ∧ t.writeLock = false ∧
      t.uni = (if changesUniformity s.life.fields.map i e then
        { s.uni with
          coverage := List.replicate (bankSize r.fields.map / 4096) .stale
          lengthSetting := none
          pass := { s.uni.pass with isOpen := false, bank := .bank0, length := bankSize r.fields.map, idle := .stopped } }
        else s.uni) ∧
      (changesUniformity s.life.fields.map i e = true → t.ahead.position = none ∧ ∀ p b, .held p b ∉ t.ahead.slots) ∧
      (changesUniformity s.life.fields.map i e = false → t.ahead = s.ahead) ∧
      t.carried = (if (entryOfClass r.fields.map .key).map MapEntry.pbase = s.carried then s.carried else none) ∧
      t.key = s.key ∧ t.queues = s.queues) ∧
  ∀ (n : Nat) (e : MapEntry) (es : List (Nat × MapEntry)),
    conflict n e es = none ↔
      (∀ x ∈ es, x.1 ≠ n → (e.ubase + e.size ≤ x.2.ubase ∨ x.2.ubase + x.2.size ≤ e.ubase) ∧
        (∀ a ∈ e.bases, ∀ b ∈ x.2.bases, a + e.size ≤ b ∨ b + x.2.size ≤ a) ∧
        (e.cls = .uniformity ∨ e.cls = .key ∨ e.cls = .settings → x.2.cls ≠ e.cls)) ∧
      (e.cls = .uniformity → e.pbase + e.size ≤ e.pbase2 ∨ e.pbase2 + e.size ≤ e.pbase) ∧
      (∀ a ∈ e.bases, a + e.size ≤ 0x1FFF000 ∨ 0x2000000 ≤ a)

/-- A failed try of a control record write is followed by another, up to three; after the third the write ends CONTROL-FAILED, with the
fields as before, and OPEN falls into SAFE; a SEAL keeps its staging buffer and its timer is judged; a FLIP keeps its banks, and a Port T
segment that SWITCH held is released and opens a pass on the unchanged live bank (R8, R9, R17, R119, R136, R144, R154). -/
def Obligations.RecordWriteRetriesThenFails : Prop :=
  (∀ (s : State) (n : Nat) (ph : Phase) (j : Job) (r : ControlRecord) (k a : Nat), s.Alone n ph → s.job = some j → j.ended = true →
    j.firstFailed = some a → j.work = .record r k →
    (k < 3 → ph.stays = true →
      Completes .controlRecordWriteEnd s fun t =>
        t.dir.running = some ph ∧ t.job.map Job.work = some (.record r (k + 1)) ∧ t.life = s.life) ∧
    (3 ≤ k → ph ≠ .openRecord → ph ≠ .flipSwitch → (s.slot n).directive ≠ some .flip → (s.slot n).directive ≠ some .seals →
      exec .controlRecordWriteEnd s = .next
        { s with
          job := none
          dir := { s.dir.ended n .controlFailed [] with events := s.dir.events ||| 0x1000#13 ||| 0x0002#13 } }) ∧
    (∀ len g, 3 ≤ k → ph = .sealRecord len g → (s.slot n).directive = some .seals →
      exec .controlRecordWriteEnd s = .next
        { s with
          job := none
          key := s.key.unsealed
          dir := { s.dir.ended n .controlFailed [] with events := s.dir.events ||| 0x1000#13 ||| 0x0002#13 } }) ∧
    (3 ≤ k → ph = .flipSwitch → (s.slot n).directive = some .flip →
      exec .controlRecordWriteEnd s = .next
        { s with
          job := none
          dir := { s.dir.ended n .controlFailed [] with
            events := s.dir.events ||| 0x1000#13 ||| 0x0002#13, flipCount := s.dir.flipCount - 1 } }) ∧
    (3 ≤ k → ph = .openRecord → (s.slot n).directive = some .opens →
      Completes .controlRecordWriteEnd s fun t =>
        t.life = { s.life with lifecycle := some .safe } ∧ t.job = none ∧
        t.dir = { s.dir.ended n .controlFailed [] with events := s.dir.events ||| 0x1000#13 ||| 0x0400#13 ||| 0x0002#13 } ∧
        t.key = { s.key with window := .none, stageTimer := .stopped, releaseTimer := .stopped })) ∧
  ∀ (s : State) (n : Nat) (rd : Reading) (seg : Segment) (j : Job) (r : ControlRecord) (k a : Nat) (l : Lifecycle) (e : MapEntry),
    s.Holds n rd seg → s.job = some j → j.ended = true → j.firstFailed = some a → j.work = .record r k → 3 ≤ k →
    (s.slot n).directive = some .flip → s.life.lifecycle = some l → l ≠ .safe → findEntry s.entries rd.addr = some e →
    e.cls = .uniformity →
    Completes .controlRecordWriteEnd s fun t =>
      t.life = s.life ∧ t.uni.coverage = s.uni.coverage ∧ t.uni.pass.isOpen = true ∧ t.uni.pass.bank = s.live ∧
      t.dir.running = none ∧ ∀ x y, t.reading .t = some x → x.seg = some y → y.source ≠ .held

/-! ### Pages given to waiting writes -/

/-- A freed page is given to Port A's awaiting write: its entry joins the tail of its queue, and the busy cause is ROOM where no page is
left or the queue is full, ENTRY for a non-posted one (R47 to R49, R59). The page and the name in ENTRY are the model's choices (log
entries 15 and 25). -/
def Obligations.AwaitingWriteBecomesEntry : Prop :=
  ∀ (s : State) (w : QueuedWrite), s.dir.queue = [] → s.dir.running = none → s.job = none → s.NoReads → s.portA.awaiting = some w →
    w.kind = .program → s.pool ≠ [] →
    Completes .awaitingWriteEntryMade s fun t =>
      (t.entriesOf w.queue).map Entry.still = (s.entriesOf w.queue).map Entry.still ++
        [{ seq := s.nextSeq, kind := .program, addr := w.addr, data := w.data, page := s.pool.head?, origin := .portA,
           upstream := some w.upstream, posted := w.posted, state := .queued, retries := 0, image := none }] ∧
      t.pool = s.pool.tail ∧ t.nextSeq = s.nextSeq + 1 ∧
      t.portA = { s.portA with
        awaiting := none
        cause := if w.posted then (if (s.entriesOf w.queue).length + 1 < 32 ∧ s.pool.tail ≠ [] then .none else .room w.queue)
          else .entry s.nextSeq } ∧
      t.portT = s.portT ∧ t.life = s.life ∧ t.flash = s.flash

/-- The last entry of a run of Q-SYS work is made where Q-SYS has room and, for a PROGRAM, a page is free (R8, R19, R59, R63, R152).
Where more are to follow they are made in order, as many as Q-SYS and the pool allow: until the run is whole, 32 entries stand in Q-SYS or
32 of the run have not left, or a PROGRAM finds no page. The entries of each work: a control record's erase and its two whole pages, SEAL's
erase of the key sector and its ceil(T / 256) pages of staging with `0xFF` from T on, RECOVER's 512 blocks. Which page is given is the
model's choice (log entry 15). -/
def Obligations.SysEntryMade : Prop :=
  (∀ (r : ControlRecord) (k : Nat) (staging : Mem),
    let page := fun lo => (List.range 256).map fun o => (o, (recordBytes r).getD (lo + o) 0xFF#8)
    (Work.record r k).total = 3 ∧ (Work.record r k).entry staging 0 = (.eraseSector, 0x1FFF000, []) ∧
    (Work.record r k).entry staging 1 = (.program, 0x1FFF000, page 0) ∧
    (Work.record r k).entry staging 2 = (.program, 0x1FFF100, page 256)) ∧
  (∀ (base len : Nat) (staging : Mem),
    (Work.keySector base len).total = 1 + (len + 255) / 256 ∧
    (Work.keySector base len).entry staging 0 = (.eraseSector, base, []) ∧
    ∀ k, (Work.keySector base len).entry staging (k + 1) =
      (.program, base + 256 * k,
        (List.range 256).map fun o => (o, if 256 * k + o < len then Mem.get staging (256 * k + o) else 0xFF#8))) ∧
  (∀ staging : Mem, Work.eraseAll.total = 512 ∧ ∀ k, Work.eraseAll.entry staging k = (.eraseBlock, 65536 * k, [])) ∧
  (∀ (s : State) (n : Nat) (ph : Phase) (j : Job), s.Alone n ph → ph.stays = true → s.job = some j → j.wants = true →
    j.added + 1 = j.work.total → (s.entriesOf .sys).length < 32 → j.unleft < 32 →
    ((j.work.entry s.key.staging j.added).1 = .program → s.pool ≠ []) →
    Completes .sysProgramEntryMade s fun t =>
      (t.entriesOf .sys).map Entry.still = (s.entriesOf .sys).map Entry.still ++
        [{ seq := s.nextSeq, kind := (j.work.entry s.key.staging j.added).1, addr := (j.work.entry s.key.staging j.added).2.1,
           data := (j.work.entry s.key.staging j.added).2.2,
           page := if (j.work.entry s.key.staging j.added).1 = .program then s.pool.head? else none, origin := .slot n,
           upstream := none, posted := false, state := .queued, retries := 0, image := none }] ∧
      t.pool = (if (j.work.entry s.key.staging j.added).1 = .program then s.pool.tail else s.pool) ∧ t.nextSeq = s.nextSeq + 1 ∧
      t.job = some { j with added := j.added + 1, unleft := j.unleft + 1 } ∧ t.dir.running = some ph ∧ t.portA = s.portA ∧
      t.life = s.life ∧ t.flash = s.flash) ∧
  ∀ (s : State) (n : Nat) (ph : Phase) (j : Job), s.Alone n ph → ph.stays = true → s.job = some j → j.wants = true →
    (s.entriesOf .sys).length < 32 → j.unleft < 32 →
    ((j.work.entry s.key.staging j.added).1 = .program → s.pool ≠ []) →
    let x := fun i => j.work.entry s.key.staging (j.added + i)
    let programs := fun i => ((List.range i).filter fun k => decide ((x k).1 = .program)).length
    Completes .sysProgramEntryMade s fun t =>
      ∃ m, 1 ≤ m ∧ j.added + m ≤ j.work.total ∧ (s.entriesOf .sys).length + m ≤ 32 ∧ j.unleft + m ≤ 32 ∧
        (j.added + m = j.work.total ∨ (s.entriesOf .sys).length + m = 32 ∨ j.unleft + m = 32 ∨ ((x m).1 = .program ∧ t.pool = [])) ∧
        (t.entriesOf .sys).map Entry.still = (s.entriesOf .sys).map Entry.still ++ (List.range m).map (fun i =>
          { seq := s.nextSeq + BitVec.ofNat 32 i, kind := (x i).1, addr := (x i).2.1, data := (x i).2.2,
            page := if (x i).1 = .program then s.pool[programs i]? else none, origin := .slot n, upstream := none, posted := false,
            state := .queued, retries := 0, image := none }) ∧
        t.pool = s.pool.drop (programs m) ∧ t.nextSeq = s.nextSeq + BitVec.ofNat 32 m ∧
        t.job = some { j with added := j.added + m, unleft := j.unleft + m } ∧ t.dir.running = some ph ∧ t.portA = s.portA ∧
        t.life = s.life ∧ t.flash = s.flash

/-! ### LOADING -/

/-- LOADING reads the control sector by 16 page reads. Each of the first 15 ends with the next granted; the last ends LOADING: the
lifecycle and the fields in effect are chosen, BUSY clears on both ports, and the blocks take up the choice (R11 to R13, R83, R140). -/
def Obligations.LoadingReadsControlSector : Prop :=
  ∀ (s : State) (x : ReadRange), s.Calm → s.NoReads → s.life.lifecycle = none → s.engine.write = none →
    s.engine.claims = PerClaimant.all none → s.engine.deferred = PerClaimant.all none →
    s.engine.read = some { claimant := .sysRead, range := x, discard := false } →
    (s.life.loadPages < 15 →
      Completes .pageReadEnd s fun t =>
        t.engine.read = some
          { claimant := .sysRead
            range := { page := 0x1FFF000 + 256 * (s.life.loadPages + 1), lo := 0, hi := 255 }
            discard := false } ∧
        t.life.lifecycle = none ∧ t.life.loadPages = s.life.loadPages + 1 ∧ t.portA = s.portA ∧ t.portT = s.portT) ∧
    (15 ≤ s.life.loadPages →
      Completes .pageReadEnd s fun t =>
        let c := startupChoice s.life.fuse t.life.loaded
        t.life.loaded = s.life.loaded ++ (Mem.cut s.flash x.page 256).map (fun b => (x.page - 0x1FFF000 + b.1, b.2)) ∧
        t.life.lifecycle = some c.1 ∧ t.life.fields = c.2 ∧ t.portA = { s.portA with cause := .none } ∧
        t.portT = { s.portT with cause := .none } ∧ t.attempts = 3 ∧
        t.uni.coverage = List.replicate (bankSize c.2.map / 4096) .stale ∧ t.uni.pass.isOpen = false ∧
        t.key.window = (match c.1 with | .opened => .staging | .blank | .safe => .none | _ => .released) ∧
        t.key.releaseTimer = (match c.1 with
          | .sealed | .closed | .service => .running (1000 * c.2.releaseTime)
          | _ => .stopped) ∧
        t.key.staging = [] ∧ t.key.releaseTime = c.2.releaseTime)

/-- The table of R12, for a control sector in the canonical form. A sector that fails a condition of R7 holds no valid record: the marker
of either page, the layout version, the CRC-32, the lifecycle, the live bank, the bundle length, the scope count, the region code, the
release time, SET-MAP's checks on an entry and on the entries together; and a record that is read has every field in its range (R6, R7).
The offsets are the model's (log entry 7). -/
def Obligations.StartupTable : Prop :=
  (∀ m : Mem,
    let v := fun i => (Mem.get m i).toNat
    let w := fun i => v i + 256 * v (i + 1)
    let at_ := fun i => if i < 8 then 64 + 24 * i else 260 + 24 * (i - 8)
    let map := (List.range 15).map fun i => (RawEntry.read m (at_ i)).entry
    (Mem.slice m 0 4 ≠ [0x44, 0x54, 0x32, 0x36] → readRecord m = none) ∧
    (Mem.slice m 256 4 ≠ [0x44, 0x54, 0x32, 0x36] → readRecord m = none) ∧
    (w 4 ≠ 1 → readRecord m = none) ∧
    ((crc32 (Mem.slice m 0 508)).toNat ≠ w 508 + 65536 * w 510 → readRecord m = none) ∧
    (v 6 = 0 ∨ 4 < v 6 → readRecord m = none) ∧
    (1 < v 7 → readRecord m = none) ∧
    ((0 < w 8 ∧ w 8 < 64) ∨ 4096 < w 8 → readRecord m = none) ∧
    (8 < v 10 → readRecord m = none) ∧
    (4095 < w 35 ∨ (0 < w 35 ∧ (v 37 = 0 ∨ 3 < v 37)) ∨ (w 35 = 0 ∧ v 37 ≠ 0) → readRecord m = none) ∧
    (w 38 < 100 ∨ 10000 < w 38 → readRecord m = none) ∧
    (∀ i < 15, (RawEntry.read m (at_ i)).badOffset ≠ none ∨ v (at_ i) ≠ i → readRecord m = none) ∧
    (∀ i e, map[i]? = some (some e) → conflict i e (mapEntries map) ≠ none → readRecord m = none) ∧
    ∀ r, readRecord m = some r → r.ok ∧ r.fields.map = map) ∧
  ∀ m : Mem,
    (startupChoice false [] = (.blank, Fields.default)) ∧
    (∀ r, readRecord m = some r → startupChoice true m = (r.lifecycle, r.fields)) ∧
    (m ≠ [] → startupChoice false m = (.safe, Fields.default)) ∧
    (readRecord m = none → startupChoice true m = (.safe, Fields.default)) ∧
    Fields.default =
      { live := .bank0
        map := some { cls := .pass, ubase := 0, size := 0x1FFF000, pbase := 0, pbase2 := 0, aRight := .readWrite, tRight := .read,
                      posted := false } :: List.replicate 14 none
        bundleLen := 0
        scopes := []
        region := none
        releaseTime := 3000
        code := none }

/-! ### The Flash Engine -/

/-- The end of a pre-read forms the expected image, the page as read with the covered bytes ANDed in, and the entry enters PROGRAM
(R84). A piece of the page that is judged while its owning queue's head pre-reads it waits without a claim; when the image is formed it is
answered from the overlay, which the image fixes, with what stands behind the head laid over it (R52, R103 to R106). A region record read
of SEAL or SERVICE-CLOSE that waits so is judged from the image (R150, R151, R164, R172). -/
def Obligations.PreReadFormsImage : Prop :=
  (∀ (s : State) (q : QueueId) (e : Entry), s.Calm → s.NoReads → s.memoryOk → s.inPhase .preRead = some (q, e) →
    OffsetBytes.ok 256 e.data = true →
    ∃ img : Mem,
      exec .preReadEnd s = .next (s.setHead q fun x => { x with image := some img, state := .active .program }) ∧
      Mem.wf img = true ∧
      ∀ o < 256, Mem.get img o = match coveredByte e.data o with
        | some b => Mem.get s.flash (e.addr + o) &&& b
        | none => Mem.get s.flash (e.addr + o)) ∧
  (∀ (p r : Port) (a : Addr) (n : Nat) (s : State) (l : Lifecycle) (e : MapEntry) (q : QueueId) (base : Nat) (h : Entry)
      (rest : List Entry),
    p ≠ r → (s.port p).link = .idle → s.reading r = none → s.life.lifecycle = some l → findEntry s.entries a.toNat = some e →
    s.ReadsFlash l e p q base → 0 < n → s.entriesOf q = h :: rest → h.kind = .program → h.state = .active .preRead →
    let x := base + (a.toNat - e.ubase)
    let k := min (min (256 - x % 256) (e.ubase + e.size - a.toNat)) n
    h.addr = pageOf x → (∃ i < k, (overlayByte (s.entriesOf q) (x + i)).fixed = false) →
    Completes (.read p (some a) n) s fun t =>
      (t.port p).returned = [] ∧ t.engine = s.engine ∧ Apart s t ∧
      (t.reading p).map Reading.piece = some (.image { page := pageOf x, lo := x % 256, hi := x % 256 + k - 1 })) ∧
  (∀ (e : Entry) (img : Mem) (o : Nat), e.kind = .program → o < 256 →
    overlayByte [e.formed img] (e.addr + o) = { fixed := true, value := Mem.get img o }) ∧
  (∀ (p r : Port) (s : State) (l : Lifecycle) (q : QueueId) (e : Entry) (rest : List Entry) (rd : Reading) (seg : Segment)
      (x : ReadRange),
    p ≠ r → s.Calm → s.memoryOk → s.inPhase .preRead = some (q, e) → s.entriesOf q = e :: rest → e.kind = .program →
    OffsetBytes.ok 256 e.data = true → s.life.lifecycle = some l → s.reading r = none → s.reading p = some rd → rd.seg = some seg →
    seg.source = .flash → seg.owner = q → rd.piece = .image x → x.page = e.addr → x.lo ≤ x.hi → x.hi < 256 → rd.addr ≤ seg.last →
    seg.last < 0x2000000 → rd.want = x.hi + 1 - x.lo → rd.want ≤ seg.last + 1 - rd.addr →
    ∃ img : Mem, e.Forms s.flash img ∧
      Completes .preReadEnd s fun t =>
        (t.port p).returned = (s.port p).returned ++
          (List.range (x.hi + 1 - x.lo)).map (fun i => (overlayByte (e.formed img :: rest) (e.addr + x.lo + i)).value) ∧
        t.engine = s.engine ∧ Apart (s.setHead q fun y => y.formed img) t) ∧
  ∀ (s : State) (n : Nat) (ph : Phase) (e : Entry) (rest : List Entry) (se : MapEntry), s.Alone n ph → s.memoryOk → s.job = none →
    s.inPhase .preRead = some (.set, e) → s.entriesOf .set = e :: rest → e.kind = .program → OffsetBytes.ok 256 e.data = true →
    s.claim .sysRead = none → s.engine.deferred.get .sysRead = none → s.engine.read = none →
    entryOfClass s.life.fields.map .settings = some se → se.pbase = e.addr →
    ∃ img : Mem, e.Forms s.flash img ∧
      let record := checkRegion ((List.range 32).map fun o => (overlayByte (e.formed img :: rest) (e.addr + o)).value)
      (∀ len, ph = .sealValidate len → (s.slot n).directive = some .seals →
        (record = none → Completes .preReadEnd s fun t =>
          t.dir = s.dir.ended n .regionInvalid [] ∧ t.life = s.life ∧ t.key = s.key.unsealed) ∧
        (∀ g, record = some g → inScope g (bundleScopes s.key.staging) = false → Completes .preReadEnd s fun t =>
          t.dir = s.dir.ended n .regionOutOfScope (leBytes 2 g.code ++ [byte g.family.num]) ∧ t.life = s.life ∧
          t.key = s.key.unsealed) ∧
        (∀ g k, record = some g → inScope g (bundleScopes s.key.staging) = true → entryOfClass s.life.fields.map .key = some k →
          Completes .preReadEnd s fun t =>
            t.dir.running = some (.sealProgram len g) ∧ t.job.map Job.work = some (.keySector k.pbase len) ∧ t.life = s.life ∧
            t.key = s.key)) ∧
      (ph = .serviceCloseCheck → (s.slot n).directive = some .serviceClose →
        (record = none → Completes .preReadEnd s fun t => t.dir = s.dir.ended n .regionInvalid [] ∧ t.life = s.life) ∧
        (∀ g, record = some g → inScope g s.life.fields.scopes = false → Completes .preReadEnd s fun t =>
          t.dir = s.dir.ended n .regionOutOfScope (leBytes 2 g.code ++ [byte g.family.num]) ∧ t.life = s.life) ∧
        (∀ g, record = some g → inScope g s.life.fields.scopes = true → Completes .preReadEnd s fun t =>
          t.dir.running = some (.serviceCloseRecord g) ∧ t.life = s.life ∧
          t.job.map Job.work = some (.record { lifecycle := .closed, fields := { s.life.fields with region := some g } } 1)))

/-- Once its command has been issued an entry enters WAIT with the wait limit's count at 0 (R85, R87). With no T-READ or A-READ claim
standing at or over the preempt bar, or at the suspend limit, nothing preempts it; below the limit such a claim suspends it at once, and
Port F goes to the higher bid of the port reads (R90 to R92, R94). -/
def Obligations.CommandIssuedEntersWait : Prop :=
  ∀ (s : State) (q : QueueId) (e : Entry), s.inPhase .program = some (q, e) →
    (s.claim .tRead = none → s.claim .aRead = none →
      exec .programCommandIssued s = .next
        { s.setHead q (fun x => { x with state := .active .wait }) with engine := { s.engine with waited := 0 } }) ∧
    (s.engine.limit ≤ s.engine.suspendCount ∨
        (∀ c cl, c = .tRead ∨ c = .aRead → s.claim c = some cl → 64 * s.engine.weights.get c + min 63 cl.aged < s.engine.bar) →
      exec .programCommandIssued s = .next
        { s.setHead q (fun x => { x with state := .active .wait }) with engine := { s.engine with waited := 0 } }) ∧
    (∀ c cl d dl x, c = .tRead ∨ c = .aRead → s.claim c = some cl → s.engine.bar ≤ 64 * s.engine.weights.get c + min 63 cl.aged →
      s.engine.suspendCount < s.engine.limit → s.engine.read = none → s.highest [.tRead, .aRead] = some d → s.claim d = some dl →
      dl.range = some x →
      Completes .programCommandIssued s fun t =>
        t.headState q = some .suspended ∧ t.engine.write = some q ∧ t.engine.waited = 0 ∧
        t.engine.suspendCount = s.engine.suspendCount + 1 ∧
        t.engine.read = some { claimant := d, range := x, discard := false } ∧ t.claim d = none ∧
        (∀ o, o ≠ d → t.claim o = s.claim o) ∧ Apart s t)

/-- The flash reports ready without error: the entry moves to VERIFY, and no byte outside the operation's range has changed. Where the
command gives no byte otherwise, a program has ANDed its covered bytes into the flash and an erase has set its range to `0xFF` (R76,
R85, R87; log entry 4). -/
def Obligations.FlashReadyChangesRange : Prop :=
  ∀ (s : State) (q : QueueId) (e : Entry), s.memoryOk → s.inPhase .wait = some (q, e) → OffsetBytes.ok 256 e.data = true →
    (∀ left : OffsetBytes, Completes (.flashReady false left) s fun t =>
      t = { s.setHead q (fun x => { x with state := .active .verify }) with flash := t.flash } ∧
      ∀ a, a < e.addr ∨ e.addr + e.kind.range ≤ a → Mem.get t.flash a = Mem.get s.flash a) ∧
    Completes (.flashReady false []) s fun t => ∀ o < e.kind.range,
      Mem.get t.flash (e.addr + o) = match e.kind with
        | .program => (match coveredByte e.data o with
          | some b => Mem.get s.flash (e.addr + o) &&& b
          | none => Mem.get s.flash (e.addr + o))
        | _ => 0xFF#8

/-- An operation that ends lets its entry leave: with an error of the flash or at the wait limit FAILED with FLASH-ERROR, after a check
DONE or, where retries are used up, FAILED with VERIFY-MISMATCH; in each case the leaving has the effects that `Left` lists (R64 to R66,
R88), and no byte outside the operation's range changes. Where the flash's error or the limit ends an erase of the control sector, or a
program of a page of the record, no valid record stands there (R9). The leaving carries out what it makes due: ROOM clears where the queue has room
and a page is free (R48), the page freed goes to Port A's awaiting write (R49, R63), a run of Q-SYS work counts its entry off (R8) and,
where it is a SEAL's, notes the key sector to which the bundle is now carried (R152), and a SYNC whose last queue has become empty ends
DONE (R69, R74). Where a freed page stands in the pool, the name in ENTRY, what a broken operation leaves in its range, and the note of the
carried bundle, are the model's choices (log entries 4, 15, 25 and 28). -/
def Obligations.OperationEndLeaves : Prop :=
  (∀ (s : State) (q : QueueId) (e : Entry) (rest : List Entry), s.Calm → s.NoReads → s.entriesOf q = e :: rest →
    (s.inPhase .wait = some (q, e) → ∀ left,
      (Completes (.flashReady true left) s fun t => Left s t q e rest (some .flashError) ∧
        (s.memoryOk → OffsetBytes.ok 256 e.data = true →
          (∀ a, a < e.addr ∨ e.addr + e.kind.range ≤ a → Mem.get t.flash a = Mem.get s.flash a) ∧
          (e.HitsRecord → readRecord (Mem.cut t.flash 0x1FFF000 4096) = none))) ∧
      Completes (.waitLimitExpiry left) s fun t => Left s t q e rest (some .flashError) ∧
        (s.memoryOk →
          (∀ a, a < e.addr ∨ e.addr + e.kind.range ≤ a → Mem.get t.flash a = Mem.get s.flash a) ∧
          (e.HitsRecord → readRecord (Mem.cut t.flash 0x1FFF000 4096) = none))) ∧
    (s.inPhase .verify = some (q, e) → e.kind = .program →
      (e.image = some (Mem.cut s.flash e.addr 256) → Completes .verifyEnd s fun t => Left s t q e rest none ∧ t.flash = s.flash) ∧
      (e.image ≠ some (Mem.cut s.flash e.addr 256) → 2 ≤ e.retries →
        Completes .verifyEnd s fun t => Left s t q e rest (some .verifyMismatch) ∧ t.flash = s.flash)) ∧
    (s.inPhase .verify = some (q, e) → e.kind ≠ .program → s.memoryOk →
      ((∀ o < e.kind.range, Mem.get s.flash (e.addr + o) = 0xFF#8) →
        Completes .eraseCheckEnd s fun t => Left s t q e rest none ∧ t.flash = s.flash) ∧
      ((∃ o < e.kind.range, Mem.get s.flash (e.addr + o) ≠ 0xFF#8) →
        Completes .eraseCheckEnd s fun t => Left s t q e rest (some .verifyMismatch) ∧ t.flash = s.flash))) ∧
  ∀ (s : State) (q : QueueId) (e : Entry) (rest : List Entry), s.NoReads → s.entriesOf q = e :: rest →
    s.inPhase .verify = some (q, e) → e.kind = .program → e.image = some (Mem.cut s.flash e.addr 256) →
    (∀ r, s.dir.queue = [] → s.dir.running = none → s.job = none → s.portA.awaiting = none → s.portA.cause = .room r →
      Completes .verifyEnd s fun t =>
        (t.entriesOf q).map Entry.still = rest.map Entry.still ∧ t.pool = s.pool ++ e.page.toList ∧
        t.portA.cause = (if (if r = q then rest else s.entriesOf r).length < 32 ∧ s.pool ++ e.page.toList ≠ [] then .none
          else .room r)) ∧
    (∀ w page, s.dir.queue = [] → s.dir.running = none → s.job = none → s.portA.awaiting = some w → w.kind = .program →
      s.portA.cause = .page → s.pool = [] → e.page = some page →
      Completes .verifyEnd s fun t =>
        (t.entriesOf w.queue).map Entry.still = (if w.queue = q then rest else s.entriesOf w.queue).map Entry.still ++
          [{ seq := s.nextSeq, kind := .program, addr := w.addr, data := w.data, page := some page, origin := .portA,
             upstream := some w.upstream, posted := w.posted, state := .queued, retries := 0, image := none }] ∧
        t.pool = [] ∧ t.portA.awaiting = none ∧ t.portA.cause = (if w.posted then .room w.queue else .entry s.nextSeq)) ∧
    (∀ n ph j m, s.Alone n ph → ph.stays = true → s.job = some j → j.wants = false → 1 < j.unleft → e.origin = .slot m →
      Completes .verifyEnd s fun t =>
        (t.entriesOf q).map Entry.still = rest.map Entry.still ∧ t.job = some { j with unleft := j.unleft - 1 } ∧
        t.dir.running = some ph ∧ t.life = s.life ∧
        t.carried = (match j.work with | .keySector base _ => some base | _ => s.carried)) ∧
    (∀ n names, s.Alone n (.syncWait names) → s.job = none → (s.slot n).directive = some .sync → rest = [] → names.get q = true →
      (∀ r, r ≠ q → names.get r = true → s.entriesOf r = []) → (s.queues.get q).level ≠ 0 →
      Completes .verifyEnd s fun t =>
        t.entriesOf q = [] ∧
        t.dir = s.dir.ended n .done [byte s.queues.sys.failures, byte s.queues.pass.failures, byte s.queues.set.failures,
          byte s.queues.uni.failures])

/-- A program whose verify finds a difference is programmed again while its retries used are 0 or 1 (R86). -/
def Obligations.VerifyRetries : Prop :=
  ∀ (s : State) (q : QueueId) (e : Entry), s.inPhase .verify = some (q, e) → e.kind = .program →
    e.image ≠ some (Mem.cut s.flash e.addr 256) → e.retries < 2 →
    exec .verifyEnd s = .next (s.setHead q fun x => { x with retries := x.retries + 1, state := .active .program })

/-! ### The Arbiter -/

/-- R80: a bid is 64 times the weight plus a level of at most 63, and the claimant that wins among all bids at least as high as every
other and higher than every one that stands before it in the order T-READ, A-READ, SYS-READ, Q-SYS, Q-PASS, Q-SET, Q-UNI, PREFETCH. -/
def Obligations.HighestBidWins : Prop :=
  ∀ s : State,
    (∀ c cl, s.claim c = some cl → s.bid c = some (64 * s.engine.weights.get c + min 63 (match c with
      | .qSys => (s.entriesOf .sys).length + cl.aged
      | .qPass => (s.entriesOf .pass).length + cl.aged
      | .qSet => (s.entriesOf .set).length + cl.aged
      | .qUni => (s.entriesOf .uni).length + cl.aged
      | _ => cl.aged))) ∧
    (∀ c n, s.bid c = some n → s.engine.weights.get c ≤ 15 → n ≤ 1023) ∧
    (∀ c, s.highest [.tRead, .aRead, .sysRead, .qSys, .qPass, .qSet, .qUni, .prefetch] = some c →
      ∃ n, s.bid c = some n ∧ ∀ d m, s.bid d = some m → m ≤ n ∧
        (claimants.findIdx (fun x => decide (x = d)) < claimants.findIdx (fun x => decide (x = c)) → m < n)) ∧
    (s.highest [.tRead, .aRead, .sysRead, .qSys, .qPass, .qSet, .qUni, .prefetch] = none ↔ ∀ c, s.claim c = none)

/-- An aging step adds 1 to a standing claim and times its next; where that lifts a port's read to the preempt bar while an operation
is in WAIT below its suspend limit, the operation is suspended and the read granted (R81, R90 to R92). That the command has no effect
where no claim stands, and that it comes at any remaining time, are the model's choices (log entries 1 and 9). -/
def Obligations.AgingStepRaisesBid : Prop :=
  ∀ (s : State) (c : Claimant),
    (s.claim c = none → exec (.agingStep c) s = .next s) ∧
    (∀ cl, s.claim c = some cl → ((c ≠ .tRead ∧ c ≠ .aRead) ∨ s.engine.write = none) →
      exec (.agingStep c) s = .next { s with
        engine := { s.engine with
          claims := s.engine.claims.put c (some { cl with aged := cl.aged + 1, due := s.engine.interval }) } }) ∧
    (∀ cl q x, s.claim c = some cl → c = .tRead ∨ c = .aRead → s.engine.write = some q → s.headState q = some (.active .wait) →
      s.engine.read = none → s.engine.suspendCount < s.engine.limit → cl.range = some x →
      (∀ d, d ≠ c → d = .tRead ∨ d = .aRead → s.claim d = none) →
      s.engine.bar ≤ 64 * s.engine.weights.get c + min 63 (cl.aged + 1) →
      Completes (.agingStep c) s fun t =>
        t.headState q = some .suspended ∧ t.engine.suspendCount = s.engine.suspendCount + 1 ∧ t.claim c = none ∧
        t.engine.read = some { claimant := c, range := x, discard := false } ∧ Apart s t)

/-! ### Coverage and the timers -/

/-- R117: A Q-UNI entry that leaves moves the sectors its range covers by the table, one for a program or a sector erase, 16 for a block
erase, and no other. -/
def Obligations.CoverageTable : Prop :=
  (∀ c : Coverage, ∀ k : WriteKind,
    (k ≠ .program → c.after k false = .clean) ∧ c.after k true = .failed) ∧
  Coverage.stale.after .program false = .stale ∧ Coverage.clean.after .program false = .written ∧
  Coverage.written.after .program false = .written ∧ Coverage.failed.after .program false = .failed ∧
  ∀ (s : State) (m : MapEntry) (e : Entry) (failed : Bool) (i : Nat),
    entryOfClass s.life.fields.map .uniformity = some m → m.bankBase s.live.other ≤ e.addr →
    let first := (e.addr - m.bankBase s.live.other) / 4096
    (s.coverage e failed).uni.coverage[i]? =
      (s.uni.coverage[i]?).map fun c =>
        if first ≤ i ∧ i < first + (if e.kind = .eraseBlock then 16 else 1) then c.after e.kind failed else c

/-- The expiry of the stage idle timer clears the staging buffer, that of the release timer closes release, that of the pass idle timer
closes the pass; each raises its event; a timer that is STOPPED does not expire (R121, R123, R145, R158). The event comes at any
remaining time (log entry 9). And the clock: with no command waiting a step is one microsecond (log entries 8 and 20); where nothing ends
in it the timers, the wait limit's count and the aging intervals run on and nothing else changes; a timer whose time is over expires, an
operation at its wait limit of 10 ms, 1 s or 4 s leaves FAILED with FLASH-ERROR, and a claim whose interval is over gains its aged step
and its next interval (R81, R85, R87). -/
def Obligations.TimersExpire : Prop :=
  (∀ s : State, s.NoReads →
    (∀ n, s.key.stageTimer = .running n →
      exec .stageIdleExpiry s = .next { s with
        key := { s.key with staging := [], stageTimer := .stopped }
        dir := { s.dir with events := s.dir.events ||| 0x0100#13 } }) ∧
    (∀ n, s.key.releaseTimer = .running n → s.key.window = .released →
      exec .releaseTimerExpiry s = .next { s with
        key := { s.key with window := .hidden, releaseTimer := .stopped }
        dir := { s.dir with events := s.dir.events ||| 0x0200#13 } }) ∧
    (∀ n, s.uni.pass.idle = .running n → s.Calm →
      Completes .passIdleExpiry s fun t =>
        t.uni = { s.uni with pass := { s.uni.pass with isOpen := false, idle := .stopped, count := s.uni.pass.count + 1 } } ∧
        t.dir = { s.dir with events := s.dir.events ||| 0x0080#13 } ∧ t.ahead.position = none ∧ t.key = s.key ∧ t.life = s.life ∧
        t.portA = s.portA ∧ t.portT = s.portT ∧ t.queues = s.queues) ∧
    (s.key.stageTimer = .stopped → exec .stageIdleExpiry s = .next s) ∧
    (s.key.releaseTimer = .stopped → exec .releaseTimerExpiry s = .next s) ∧
    (s.uni.pass.idle = .stopped → exec .passIdleExpiry s = .next s)) ∧
  ∀ s : State, s.pending = [] →
    (s.key.stageTimer.goesOn → s.key.releaseTimer.goesOn → s.uni.pass.idle.goesOn → s.waitGoesOn → s.claimsGoOn none →
      step s = .next s.later) ∧
    (∀ n, s.NoReads → s.key.stageTimer = .running n → n ≤ 1 → s.key.releaseTimer.goesOn → s.uni.pass.idle.goesOn → s.waitGoesOn →
      s.claimsGoOn none →
      step s = .next { s.later with
        key := { s.later.key with staging := [], stageTimer := .stopped }
        dir := { s.dir with events := s.dir.events ||| 0x0100#13 } }) ∧
    (∀ n, s.NoReads → s.key.releaseTimer = .running n → n ≤ 1 → s.key.window = .released → s.key.stageTimer.goesOn →
      s.uni.pass.idle.goesOn → s.waitGoesOn → s.claimsGoOn none →
      step s = .next { s.later with
        key := { s.later.key with window := .hidden, releaseTimer := .stopped }
        dir := { s.dir with events := s.dir.events ||| 0x0200#13 } }) ∧
    (∀ n, s.NoReads → s.Calm → s.uni.pass.idle = .running n → n ≤ 1 → s.key.stageTimer.goesOn → s.key.releaseTimer.goesOn →
      s.waitGoesOn → s.claimsGoOn none →
      Steps s fun t =>
        t.uni = { s.uni with pass := { s.uni.pass with isOpen := false, idle := .stopped, count := s.uni.pass.count + 1 } } ∧
        t.dir = { s.dir with events := s.dir.events ||| 0x0080#13 } ∧ t.ahead.position = none ∧ t.key = s.later.key ∧
        t.life = s.life ∧ t.portA = s.portA ∧ t.portT = s.portT ∧ t.queues = s.queues) ∧
    (∀ q e rest, s.Calm → s.NoReads → s.memoryOk → s.entriesOf q = e :: rest → s.inPhase .wait = some (q, e) → ¬ s.waitGoesOn →
      s.key.stageTimer = .stopped → s.key.releaseTimer = .stopped → s.uni.pass.idle = .stopped → s.claimsGoOn none →
      Steps s fun t => Left s t q e rest (some .flashError) ∧
        ∀ a, a < e.addr ∨ e.addr + e.kind.range ≤ a → Mem.get t.flash a = Mem.get s.flash a) ∧
    (∀ c cl, s.claim c = some cl → cl.due ≤ 1 → (c ≠ .tRead ∧ c ≠ .aRead) ∨ s.engine.write = none → s.key.stageTimer.goesOn →
      s.key.releaseTimer.goesOn → s.uni.pass.idle.goesOn → s.waitGoesOn → s.claimsGoOn (some c) →
      step s = .next { s.later with
        engine := { s.later.engine with
          claims := s.later.engine.claims.put c (some { cl with aged := cl.aged + 1, due := s.engine.interval }) } })

/-! ### The control record -/

/-- What the part writes as a control record it reads back as that record, with every field at every value a record may hold (R6, R7).
The byte layout is the model's (log entry 7). -/
def Obligations.ControlRecordRoundTrip : Prop :=
  ∀ (r : ControlRecord) (m : Mem), r.ok → (∀ i < 512, Mem.get m i = (recordBytes r).getD i 0xFF#8) → readRecord m = some r
end

