-- ==== Sys2Proof/Laws/State.lean ====
section
/-! SUPPORT. What each named update of State leaves as it was, and what it writes: one lemma for each field, by definition. -/

namespace Sys2Proof.Machine

-- One theorem after another: proofs checked side by side each hold a thread and its stack.
set_option Elab.async false

/-! ### `setPort` -/

@[simp] theorem State.setPort_pending (s : State) (p : Port) (x : PortState) : (s.setPort p x).pending = s.pending := by cases p <;> rfl
@[simp] theorem State.setPort_flash (s : State) (p : Port) (x : PortState) : (s.setPort p x).flash = s.flash := by cases p <;> rfl
@[simp] theorem State.setPort_fuseCell (s : State) (p : Port) (x : PortState) : (s.setPort p x).fuseCell = s.fuseCell := by cases p <;> rfl
@[simp] theorem State.setPort_fuseTries (s : State) (p : Port) (x : PortState) : (s.setPort p x).fuseTries = s.fuseTries := by cases p <;> rfl
@[simp] theorem State.setPort_breaks (s : State) (p : Port) (x : PortState) : (s.setPort p x).breaks = s.breaks := by cases p <;> rfl
@[simp] theorem State.setPort_life (s : State) (p : Port) (x : PortState) : (s.setPort p x).life = s.life := by cases p <;> rfl
@[simp] theorem State.setPort_queues (s : State) (p : Port) (x : PortState) : (s.setPort p x).queues = s.queues := by cases p <;> rfl
@[simp] theorem State.setPort_pool (s : State) (p : Port) (x : PortState) : (s.setPort p x).pool = s.pool := by cases p <;> rfl
@[simp] theorem State.setPort_nextSeq (s : State) (p : Port) (x : PortState) : (s.setPort p x).nextSeq = s.nextSeq := by cases p <;> rfl
@[simp] theorem State.setPort_firstFailure (s : State) (p : Port) (x : PortState) : (s.setPort p x).firstFailure = s.firstFailure := by cases p <;> rfl
@[simp] theorem State.setPort_engine (s : State) (p : Port) (x : PortState) : (s.setPort p x).engine = s.engine := by cases p <;> rfl
@[simp] theorem State.setPort_ahead (s : State) (p : Port) (x : PortState) : (s.setPort p x).ahead = s.ahead := by cases p <;> rfl
@[simp] theorem State.setPort_uni (s : State) (p : Port) (x : PortState) : (s.setPort p x).uni = s.uni := by cases p <;> rfl
@[simp] theorem State.setPort_key (s : State) (p : Port) (x : PortState) : (s.setPort p x).key = s.key := by cases p <;> rfl
@[simp] theorem State.setPort_attempts (s : State) (p : Port) (x : PortState) : (s.setPort p x).attempts = s.attempts := by cases p <;> rfl
@[simp] theorem State.setPort_carried (s : State) (p : Port) (x : PortState) : (s.setPort p x).carried = s.carried := by cases p <;> rfl
@[simp] theorem State.setPort_dir (s : State) (p : Port) (x : PortState) : (s.setPort p x).dir = s.dir := by cases p <;> rfl
@[simp] theorem State.setPort_job (s : State) (p : Port) (x : PortState) : (s.setPort p x).job = s.job := by cases p <;> rfl

/-! ### `onPort` -/

@[simp] theorem State.onPort_pending (s : State) (p : Port) (f : PortState → PortState) : (s.onPort p f).pending = s.pending := by cases p <;> rfl
@[simp] theorem State.onPort_flash (s : State) (p : Port) (f : PortState → PortState) : (s.onPort p f).flash = s.flash := by cases p <;> rfl
@[simp] theorem State.onPort_fuseCell (s : State) (p : Port) (f : PortState → PortState) : (s.onPort p f).fuseCell = s.fuseCell := by cases p <;> rfl
@[simp] theorem State.onPort_fuseTries (s : State) (p : Port) (f : PortState → PortState) : (s.onPort p f).fuseTries = s.fuseTries := by cases p <;> rfl
@[simp] theorem State.onPort_breaks (s : State) (p : Port) (f : PortState → PortState) : (s.onPort p f).breaks = s.breaks := by cases p <;> rfl
@[simp] theorem State.onPort_life (s : State) (p : Port) (f : PortState → PortState) : (s.onPort p f).life = s.life := by cases p <;> rfl
@[simp] theorem State.onPort_queues (s : State) (p : Port) (f : PortState → PortState) : (s.onPort p f).queues = s.queues := by cases p <;> rfl
@[simp] theorem State.onPort_pool (s : State) (p : Port) (f : PortState → PortState) : (s.onPort p f).pool = s.pool := by cases p <;> rfl
@[simp] theorem State.onPort_nextSeq (s : State) (p : Port) (f : PortState → PortState) : (s.onPort p f).nextSeq = s.nextSeq := by cases p <;> rfl
@[simp] theorem State.onPort_firstFailure (s : State) (p : Port) (f : PortState → PortState) : (s.onPort p f).firstFailure = s.firstFailure := by cases p <;> rfl
@[simp] theorem State.onPort_engine (s : State) (p : Port) (f : PortState → PortState) : (s.onPort p f).engine = s.engine := by cases p <;> rfl
@[simp] theorem State.onPort_ahead (s : State) (p : Port) (f : PortState → PortState) : (s.onPort p f).ahead = s.ahead := by cases p <;> rfl
@[simp] theorem State.onPort_uni (s : State) (p : Port) (f : PortState → PortState) : (s.onPort p f).uni = s.uni := by cases p <;> rfl
@[simp] theorem State.onPort_key (s : State) (p : Port) (f : PortState → PortState) : (s.onPort p f).key = s.key := by cases p <;> rfl
@[simp] theorem State.onPort_attempts (s : State) (p : Port) (f : PortState → PortState) : (s.onPort p f).attempts = s.attempts := by cases p <;> rfl
@[simp] theorem State.onPort_carried (s : State) (p : Port) (f : PortState → PortState) : (s.onPort p f).carried = s.carried := by cases p <;> rfl
@[simp] theorem State.onPort_dir (s : State) (p : Port) (f : PortState → PortState) : (s.onPort p f).dir = s.dir := by cases p <;> rfl
@[simp] theorem State.onPort_job (s : State) (p : Port) (f : PortState → PortState) : (s.onPort p f).job = s.job := by cases p <;> rfl

/-! ### `setQueue` -/

@[simp] theorem State.setQueue_pending (s : State) (q : QueueId) (x : Queue) : (s.setQueue q x).pending = s.pending := rfl
@[simp] theorem State.setQueue_flash (s : State) (q : QueueId) (x : Queue) : (s.setQueue q x).flash = s.flash := rfl
@[simp] theorem State.setQueue_fuseCell (s : State) (q : QueueId) (x : Queue) : (s.setQueue q x).fuseCell = s.fuseCell := rfl
@[simp] theorem State.setQueue_fuseTries (s : State) (q : QueueId) (x : Queue) : (s.setQueue q x).fuseTries = s.fuseTries := rfl
@[simp] theorem State.setQueue_breaks (s : State) (q : QueueId) (x : Queue) : (s.setQueue q x).breaks = s.breaks := rfl
@[simp] theorem State.setQueue_portA (s : State) (q : QueueId) (x : Queue) : (s.setQueue q x).portA = s.portA := rfl
@[simp] theorem State.setQueue_portT (s : State) (q : QueueId) (x : Queue) : (s.setQueue q x).portT = s.portT := rfl
@[simp] theorem State.setQueue_life (s : State) (q : QueueId) (x : Queue) : (s.setQueue q x).life = s.life := rfl
@[simp] theorem State.setQueue_pool (s : State) (q : QueueId) (x : Queue) : (s.setQueue q x).pool = s.pool := rfl
@[simp] theorem State.setQueue_nextSeq (s : State) (q : QueueId) (x : Queue) : (s.setQueue q x).nextSeq = s.nextSeq := rfl
@[simp] theorem State.setQueue_firstFailure (s : State) (q : QueueId) (x : Queue) : (s.setQueue q x).firstFailure = s.firstFailure := rfl
@[simp] theorem State.setQueue_engine (s : State) (q : QueueId) (x : Queue) : (s.setQueue q x).engine = s.engine := rfl
@[simp] theorem State.setQueue_ahead (s : State) (q : QueueId) (x : Queue) : (s.setQueue q x).ahead = s.ahead := rfl
@[simp] theorem State.setQueue_uni (s : State) (q : QueueId) (x : Queue) : (s.setQueue q x).uni = s.uni := rfl
@[simp] theorem State.setQueue_key (s : State) (q : QueueId) (x : Queue) : (s.setQueue q x).key = s.key := rfl
@[simp] theorem State.setQueue_attempts (s : State) (q : QueueId) (x : Queue) : (s.setQueue q x).attempts = s.attempts := rfl
@[simp] theorem State.setQueue_carried (s : State) (q : QueueId) (x : Queue) : (s.setQueue q x).carried = s.carried := rfl
@[simp] theorem State.setQueue_dir (s : State) (q : QueueId) (x : Queue) : (s.setQueue q x).dir = s.dir := rfl
@[simp] theorem State.setQueue_job (s : State) (q : QueueId) (x : Queue) : (s.setQueue q x).job = s.job := rfl

/-! ### `onQueue` -/

@[simp] theorem State.onQueue_pending (s : State) (q : QueueId) (f : Queue → Queue) : (s.onQueue q f).pending = s.pending := rfl
@[simp] theorem State.onQueue_flash (s : State) (q : QueueId) (f : Queue → Queue) : (s.onQueue q f).flash = s.flash := rfl
@[simp] theorem State.onQueue_fuseCell (s : State) (q : QueueId) (f : Queue → Queue) : (s.onQueue q f).fuseCell = s.fuseCell := rfl
@[simp] theorem State.onQueue_fuseTries (s : State) (q : QueueId) (f : Queue → Queue) : (s.onQueue q f).fuseTries = s.fuseTries := rfl
@[simp] theorem State.onQueue_breaks (s : State) (q : QueueId) (f : Queue → Queue) : (s.onQueue q f).breaks = s.breaks := rfl
@[simp] theorem State.onQueue_portA (s : State) (q : QueueId) (f : Queue → Queue) : (s.onQueue q f).portA = s.portA := rfl
@[simp] theorem State.onQueue_portT (s : State) (q : QueueId) (f : Queue → Queue) : (s.onQueue q f).portT = s.portT := rfl
@[simp] theorem State.onQueue_life (s : State) (q : QueueId) (f : Queue → Queue) : (s.onQueue q f).life = s.life := rfl
@[simp] theorem State.onQueue_pool (s : State) (q : QueueId) (f : Queue → Queue) : (s.onQueue q f).pool = s.pool := rfl
@[simp] theorem State.onQueue_nextSeq (s : State) (q : QueueId) (f : Queue → Queue) : (s.onQueue q f).nextSeq = s.nextSeq := rfl
@[simp] theorem State.onQueue_firstFailure (s : State) (q : QueueId) (f : Queue → Queue) : (s.onQueue q f).firstFailure = s.firstFailure := rfl
@[simp] theorem State.onQueue_engine (s : State) (q : QueueId) (f : Queue → Queue) : (s.onQueue q f).engine = s.engine := rfl
@[simp] theorem State.onQueue_ahead (s : State) (q : QueueId) (f : Queue → Queue) : (s.onQueue q f).ahead = s.ahead := rfl
@[simp] theorem State.onQueue_uni (s : State) (q : QueueId) (f : Queue → Queue) : (s.onQueue q f).uni = s.uni := rfl
@[simp] theorem State.onQueue_key (s : State) (q : QueueId) (f : Queue → Queue) : (s.onQueue q f).key = s.key := rfl
@[simp] theorem State.onQueue_attempts (s : State) (q : QueueId) (f : Queue → Queue) : (s.onQueue q f).attempts = s.attempts := rfl
@[simp] theorem State.onQueue_carried (s : State) (q : QueueId) (f : Queue → Queue) : (s.onQueue q f).carried = s.carried := rfl
@[simp] theorem State.onQueue_dir (s : State) (q : QueueId) (f : Queue → Queue) : (s.onQueue q f).dir = s.dir := rfl
@[simp] theorem State.onQueue_job (s : State) (q : QueueId) (f : Queue → Queue) : (s.onQueue q f).job = s.job := rfl

/-! ### `setHead` -/

@[simp] theorem State.setHead_pending (s : State) (q : QueueId) (f : Entry → Entry) : (s.setHead q f).pending = s.pending := rfl
@[simp] theorem State.setHead_flash (s : State) (q : QueueId) (f : Entry → Entry) : (s.setHead q f).flash = s.flash := rfl
@[simp] theorem State.setHead_fuseCell (s : State) (q : QueueId) (f : Entry → Entry) : (s.setHead q f).fuseCell = s.fuseCell := rfl
@[simp] theorem State.setHead_fuseTries (s : State) (q : QueueId) (f : Entry → Entry) : (s.setHead q f).fuseTries = s.fuseTries := rfl
@[simp] theorem State.setHead_breaks (s : State) (q : QueueId) (f : Entry → Entry) : (s.setHead q f).breaks = s.breaks := rfl
@[simp] theorem State.setHead_portA (s : State) (q : QueueId) (f : Entry → Entry) : (s.setHead q f).portA = s.portA := rfl
@[simp] theorem State.setHead_portT (s : State) (q : QueueId) (f : Entry → Entry) : (s.setHead q f).portT = s.portT := rfl
@[simp] theorem State.setHead_life (s : State) (q : QueueId) (f : Entry → Entry) : (s.setHead q f).life = s.life := rfl
@[simp] theorem State.setHead_pool (s : State) (q : QueueId) (f : Entry → Entry) : (s.setHead q f).pool = s.pool := rfl
@[simp] theorem State.setHead_nextSeq (s : State) (q : QueueId) (f : Entry → Entry) : (s.setHead q f).nextSeq = s.nextSeq := rfl
@[simp] theorem State.setHead_firstFailure (s : State) (q : QueueId) (f : Entry → Entry) : (s.setHead q f).firstFailure = s.firstFailure := rfl
@[simp] theorem State.setHead_engine (s : State) (q : QueueId) (f : Entry → Entry) : (s.setHead q f).engine = s.engine := rfl
@[simp] theorem State.setHead_ahead (s : State) (q : QueueId) (f : Entry → Entry) : (s.setHead q f).ahead = s.ahead := rfl
@[simp] theorem State.setHead_uni (s : State) (q : QueueId) (f : Entry → Entry) : (s.setHead q f).uni = s.uni := rfl
@[simp] theorem State.setHead_key (s : State) (q : QueueId) (f : Entry → Entry) : (s.setHead q f).key = s.key := rfl
@[simp] theorem State.setHead_attempts (s : State) (q : QueueId) (f : Entry → Entry) : (s.setHead q f).attempts = s.attempts := rfl
@[simp] theorem State.setHead_carried (s : State) (q : QueueId) (f : Entry → Entry) : (s.setHead q f).carried = s.carried := rfl
@[simp] theorem State.setHead_dir (s : State) (q : QueueId) (f : Entry → Entry) : (s.setHead q f).dir = s.dir := rfl
@[simp] theorem State.setHead_job (s : State) (q : QueueId) (f : Entry → Entry) : (s.setHead q f).job = s.job := rfl

/-! ### `onEngine` -/

@[simp] theorem State.onEngine_pending (s : State) (f : Engine → Engine) : (s.onEngine f).pending = s.pending := rfl
@[simp] theorem State.onEngine_flash (s : State) (f : Engine → Engine) : (s.onEngine f).flash = s.flash := rfl
@[simp] theorem State.onEngine_fuseCell (s : State) (f : Engine → Engine) : (s.onEngine f).fuseCell = s.fuseCell := rfl
@[simp] theorem State.onEngine_fuseTries (s : State) (f : Engine → Engine) : (s.onEngine f).fuseTries = s.fuseTries := rfl
@[simp] theorem State.onEngine_breaks (s : State) (f : Engine → Engine) : (s.onEngine f).breaks = s.breaks := rfl
@[simp] theorem State.onEngine_portA (s : State) (f : Engine → Engine) : (s.onEngine f).portA = s.portA := rfl
@[simp] theorem State.onEngine_portT (s : State) (f : Engine → Engine) : (s.onEngine f).portT = s.portT := rfl
@[simp] theorem State.onEngine_life (s : State) (f : Engine → Engine) : (s.onEngine f).life = s.life := rfl
@[simp] theorem State.onEngine_queues (s : State) (f : Engine → Engine) : (s.onEngine f).queues = s.queues := rfl
@[simp] theorem State.onEngine_pool (s : State) (f : Engine → Engine) : (s.onEngine f).pool = s.pool := rfl
@[simp] theorem State.onEngine_nextSeq (s : State) (f : Engine → Engine) : (s.onEngine f).nextSeq = s.nextSeq := rfl
@[simp] theorem State.onEngine_firstFailure (s : State) (f : Engine → Engine) : (s.onEngine f).firstFailure = s.firstFailure := rfl
@[simp] theorem State.onEngine_ahead (s : State) (f : Engine → Engine) : (s.onEngine f).ahead = s.ahead := rfl
@[simp] theorem State.onEngine_uni (s : State) (f : Engine → Engine) : (s.onEngine f).uni = s.uni := rfl
@[simp] theorem State.onEngine_key (s : State) (f : Engine → Engine) : (s.onEngine f).key = s.key := rfl
@[simp] theorem State.onEngine_attempts (s : State) (f : Engine → Engine) : (s.onEngine f).attempts = s.attempts := rfl
@[simp] theorem State.onEngine_carried (s : State) (f : Engine → Engine) : (s.onEngine f).carried = s.carried := rfl
@[simp] theorem State.onEngine_dir (s : State) (f : Engine → Engine) : (s.onEngine f).dir = s.dir := rfl
@[simp] theorem State.onEngine_job (s : State) (f : Engine → Engine) : (s.onEngine f).job = s.job := rfl

/-! ### `onAhead` -/

@[simp] theorem State.onAhead_pending (s : State) (f : ReadAhead → ReadAhead) : (s.onAhead f).pending = s.pending := rfl
@[simp] theorem State.onAhead_flash (s : State) (f : ReadAhead → ReadAhead) : (s.onAhead f).flash = s.flash := rfl
@[simp] theorem State.onAhead_fuseCell (s : State) (f : ReadAhead → ReadAhead) : (s.onAhead f).fuseCell = s.fuseCell := rfl
@[simp] theorem State.onAhead_fuseTries (s : State) (f : ReadAhead → ReadAhead) : (s.onAhead f).fuseTries = s.fuseTries := rfl
@[simp] theorem State.onAhead_breaks (s : State) (f : ReadAhead → ReadAhead) : (s.onAhead f).breaks = s.breaks := rfl
@[simp] theorem State.onAhead_portA (s : State) (f : ReadAhead → ReadAhead) : (s.onAhead f).portA = s.portA := rfl
@[simp] theorem State.onAhead_portT (s : State) (f : ReadAhead → ReadAhead) : (s.onAhead f).portT = s.portT := rfl
@[simp] theorem State.onAhead_life (s : State) (f : ReadAhead → ReadAhead) : (s.onAhead f).life = s.life := rfl
@[simp] theorem State.onAhead_queues (s : State) (f : ReadAhead → ReadAhead) : (s.onAhead f).queues = s.queues := rfl
@[simp] theorem State.onAhead_pool (s : State) (f : ReadAhead → ReadAhead) : (s.onAhead f).pool = s.pool := rfl
@[simp] theorem State.onAhead_nextSeq (s : State) (f : ReadAhead → ReadAhead) : (s.onAhead f).nextSeq = s.nextSeq := rfl
@[simp] theorem State.onAhead_firstFailure (s : State) (f : ReadAhead → ReadAhead) : (s.onAhead f).firstFailure = s.firstFailure := rfl
@[simp] theorem State.onAhead_engine (s : State) (f : ReadAhead → ReadAhead) : (s.onAhead f).engine = s.engine := rfl
@[simp] theorem State.onAhead_uni (s : State) (f : ReadAhead → ReadAhead) : (s.onAhead f).uni = s.uni := rfl
@[simp] theorem State.onAhead_key (s : State) (f : ReadAhead → ReadAhead) : (s.onAhead f).key = s.key := rfl
@[simp] theorem State.onAhead_attempts (s : State) (f : ReadAhead → ReadAhead) : (s.onAhead f).attempts = s.attempts := rfl
@[simp] theorem State.onAhead_carried (s : State) (f : ReadAhead → ReadAhead) : (s.onAhead f).carried = s.carried := rfl
@[simp] theorem State.onAhead_dir (s : State) (f : ReadAhead → ReadAhead) : (s.onAhead f).dir = s.dir := rfl
@[simp] theorem State.onAhead_job (s : State) (f : ReadAhead → ReadAhead) : (s.onAhead f).job = s.job := rfl

/-! ### `onUni` -/

@[simp] theorem State.onUni_pending (s : State) (f : UniformityUnit → UniformityUnit) : (s.onUni f).pending = s.pending := rfl
@[simp] theorem State.onUni_flash (s : State) (f : UniformityUnit → UniformityUnit) : (s.onUni f).flash = s.flash := rfl
@[simp] theorem State.onUni_fuseCell (s : State) (f : UniformityUnit → UniformityUnit) : (s.onUni f).fuseCell = s.fuseCell := rfl
@[simp] theorem State.onUni_fuseTries (s : State) (f : UniformityUnit → UniformityUnit) : (s.onUni f).fuseTries = s.fuseTries := rfl
@[simp] theorem State.onUni_breaks (s : State) (f : UniformityUnit → UniformityUnit) : (s.onUni f).breaks = s.breaks := rfl
@[simp] theorem State.onUni_portA (s : State) (f : UniformityUnit → UniformityUnit) : (s.onUni f).portA = s.portA := rfl
@[simp] theorem State.onUni_portT (s : State) (f : UniformityUnit → UniformityUnit) : (s.onUni f).portT = s.portT := rfl
@[simp] theorem State.onUni_life (s : State) (f : UniformityUnit → UniformityUnit) : (s.onUni f).life = s.life := rfl
@[simp] theorem State.onUni_queues (s : State) (f : UniformityUnit → UniformityUnit) : (s.onUni f).queues = s.queues := rfl
@[simp] theorem State.onUni_pool (s : State) (f : UniformityUnit → UniformityUnit) : (s.onUni f).pool = s.pool := rfl
@[simp] theorem State.onUni_nextSeq (s : State) (f : UniformityUnit → UniformityUnit) : (s.onUni f).nextSeq = s.nextSeq := rfl
@[simp] theorem State.onUni_firstFailure (s : State) (f : UniformityUnit → UniformityUnit) : (s.onUni f).firstFailure = s.firstFailure := rfl
@[simp] theorem State.onUni_engine (s : State) (f : UniformityUnit → UniformityUnit) : (s.onUni f).engine = s.engine := rfl
@[simp] theorem State.onUni_ahead (s : State) (f : UniformityUnit → UniformityUnit) : (s.onUni f).ahead = s.ahead := rfl
@[simp] theorem State.onUni_key (s : State) (f : UniformityUnit → UniformityUnit) : (s.onUni f).key = s.key := rfl
@[simp] theorem State.onUni_attempts (s : State) (f : UniformityUnit → UniformityUnit) : (s.onUni f).attempts = s.attempts := rfl
@[simp] theorem State.onUni_carried (s : State) (f : UniformityUnit → UniformityUnit) : (s.onUni f).carried = s.carried := rfl
@[simp] theorem State.onUni_dir (s : State) (f : UniformityUnit → UniformityUnit) : (s.onUni f).dir = s.dir := rfl
@[simp] theorem State.onUni_job (s : State) (f : UniformityUnit → UniformityUnit) : (s.onUni f).job = s.job := rfl

/-! ### `onKey` -/

@[simp] theorem State.onKey_pending (s : State) (f : KeyUnit → KeyUnit) : (s.onKey f).pending = s.pending := rfl
@[simp] theorem State.onKey_flash (s : State) (f : KeyUnit → KeyUnit) : (s.onKey f).flash = s.flash := rfl
@[simp] theorem State.onKey_fuseCell (s : State) (f : KeyUnit → KeyUnit) : (s.onKey f).fuseCell = s.fuseCell := rfl
@[simp] theorem State.onKey_fuseTries (s : State) (f : KeyUnit → KeyUnit) : (s.onKey f).fuseTries = s.fuseTries := rfl
@[simp] theorem State.onKey_breaks (s : State) (f : KeyUnit → KeyUnit) : (s.onKey f).breaks = s.breaks := rfl
@[simp] theorem State.onKey_portA (s : State) (f : KeyUnit → KeyUnit) : (s.onKey f).portA = s.portA := rfl
@[simp] theorem State.onKey_portT (s : State) (f : KeyUnit → KeyUnit) : (s.onKey f).portT = s.portT := rfl
@[simp] theorem State.onKey_life (s : State) (f : KeyUnit → KeyUnit) : (s.onKey f).life = s.life := rfl
@[simp] theorem State.onKey_queues (s : State) (f : KeyUnit → KeyUnit) : (s.onKey f).queues = s.queues := rfl
@[simp] theorem State.onKey_pool (s : State) (f : KeyUnit → KeyUnit) : (s.onKey f).pool = s.pool := rfl
@[simp] theorem State.onKey_nextSeq (s : State) (f : KeyUnit → KeyUnit) : (s.onKey f).nextSeq = s.nextSeq := rfl
@[simp] theorem State.onKey_firstFailure (s : State) (f : KeyUnit → KeyUnit) : (s.onKey f).firstFailure = s.firstFailure := rfl
@[simp] theorem State.onKey_engine (s : State) (f : KeyUnit → KeyUnit) : (s.onKey f).engine = s.engine := rfl
@[simp] theorem State.onKey_ahead (s : State) (f : KeyUnit → KeyUnit) : (s.onKey f).ahead = s.ahead := rfl
@[simp] theorem State.onKey_uni (s : State) (f : KeyUnit → KeyUnit) : (s.onKey f).uni = s.uni := rfl
@[simp] theorem State.onKey_attempts (s : State) (f : KeyUnit → KeyUnit) : (s.onKey f).attempts = s.attempts := rfl
@[simp] theorem State.onKey_carried (s : State) (f : KeyUnit → KeyUnit) : (s.onKey f).carried = s.carried := rfl
@[simp] theorem State.onKey_dir (s : State) (f : KeyUnit → KeyUnit) : (s.onKey f).dir = s.dir := rfl
@[simp] theorem State.onKey_job (s : State) (f : KeyUnit → KeyUnit) : (s.onKey f).job = s.job := rfl

/-! ### `onLife` -/

@[simp] theorem State.onLife_pending (s : State) (f : LifecycleUnit → LifecycleUnit) : (s.onLife f).pending = s.pending := rfl
@[simp] theorem State.onLife_flash (s : State) (f : LifecycleUnit → LifecycleUnit) : (s.onLife f).flash = s.flash := rfl
@[simp] theorem State.onLife_fuseCell (s : State) (f : LifecycleUnit → LifecycleUnit) : (s.onLife f).fuseCell = s.fuseCell := rfl
@[simp] theorem State.onLife_fuseTries (s : State) (f : LifecycleUnit → LifecycleUnit) : (s.onLife f).fuseTries = s.fuseTries := rfl
@[simp] theorem State.onLife_breaks (s : State) (f : LifecycleUnit → LifecycleUnit) : (s.onLife f).breaks = s.breaks := rfl
@[simp] theorem State.onLife_portA (s : State) (f : LifecycleUnit → LifecycleUnit) : (s.onLife f).portA = s.portA := rfl
@[simp] theorem State.onLife_portT (s : State) (f : LifecycleUnit → LifecycleUnit) : (s.onLife f).portT = s.portT := rfl
@[simp] theorem State.onLife_queues (s : State) (f : LifecycleUnit → LifecycleUnit) : (s.onLife f).queues = s.queues := rfl
@[simp] theorem State.onLife_pool (s : State) (f : LifecycleUnit → LifecycleUnit) : (s.onLife f).pool = s.pool := rfl
@[simp] theorem State.onLife_nextSeq (s : State) (f : LifecycleUnit → LifecycleUnit) : (s.onLife f).nextSeq = s.nextSeq := rfl
@[simp] theorem State.onLife_firstFailure (s : State) (f : LifecycleUnit → LifecycleUnit) : (s.onLife f).firstFailure = s.firstFailure := rfl
@[simp] theorem State.onLife_engine (s : State) (f : LifecycleUnit → LifecycleUnit) : (s.onLife f).engine = s.engine := rfl
@[simp] theorem State.onLife_ahead (s : State) (f : LifecycleUnit → LifecycleUnit) : (s.onLife f).ahead = s.ahead := rfl
@[simp] theorem State.onLife_uni (s : State) (f : LifecycleUnit → LifecycleUnit) : (s.onLife f).uni = s.uni := rfl
@[simp] theorem State.onLife_key (s : State) (f : LifecycleUnit → LifecycleUnit) : (s.onLife f).key = s.key := rfl
@[simp] theorem State.onLife_attempts (s : State) (f : LifecycleUnit → LifecycleUnit) : (s.onLife f).attempts = s.attempts := rfl
@[simp] theorem State.onLife_carried (s : State) (f : LifecycleUnit → LifecycleUnit) : (s.onLife f).carried = s.carried := rfl
@[simp] theorem State.onLife_dir (s : State) (f : LifecycleUnit → LifecycleUnit) : (s.onLife f).dir = s.dir := rfl
@[simp] theorem State.onLife_job (s : State) (f : LifecycleUnit → LifecycleUnit) : (s.onLife f).job = s.job := rfl

/-! ### `onDir` -/

@[simp] theorem State.onDir_pending (s : State) (f : DirectiveUnit → DirectiveUnit) : (s.onDir f).pending = s.pending := rfl
@[simp] theorem State.onDir_flash (s : State) (f : DirectiveUnit → DirectiveUnit) : (s.onDir f).flash = s.flash := rfl
@[simp] theorem State.onDir_fuseCell (s : State) (f : DirectiveUnit → DirectiveUnit) : (s.onDir f).fuseCell = s.fuseCell := rfl
@[simp] theorem State.onDir_fuseTries (s : State) (f : DirectiveUnit → DirectiveUnit) : (s.onDir f).fuseTries = s.fuseTries := rfl
@[simp] theorem State.onDir_breaks (s : State) (f : DirectiveUnit → DirectiveUnit) : (s.onDir f).breaks = s.breaks := rfl
@[simp] theorem State.onDir_portA (s : State) (f : DirectiveUnit → DirectiveUnit) : (s.onDir f).portA = s.portA := rfl
@[simp] theorem State.onDir_portT (s : State) (f : DirectiveUnit → DirectiveUnit) : (s.onDir f).portT = s.portT := rfl
@[simp] theorem State.onDir_life (s : State) (f : DirectiveUnit → DirectiveUnit) : (s.onDir f).life = s.life := rfl
@[simp] theorem State.onDir_queues (s : State) (f : DirectiveUnit → DirectiveUnit) : (s.onDir f).queues = s.queues := rfl
@[simp] theorem State.onDir_pool (s : State) (f : DirectiveUnit → DirectiveUnit) : (s.onDir f).pool = s.pool := rfl
@[simp] theorem State.onDir_nextSeq (s : State) (f : DirectiveUnit → DirectiveUnit) : (s.onDir f).nextSeq = s.nextSeq := rfl
@[simp] theorem State.onDir_firstFailure (s : State) (f : DirectiveUnit → DirectiveUnit) : (s.onDir f).firstFailure = s.firstFailure := rfl
@[simp] theorem State.onDir_engine (s : State) (f : DirectiveUnit → DirectiveUnit) : (s.onDir f).engine = s.engine := rfl
@[simp] theorem State.onDir_ahead (s : State) (f : DirectiveUnit → DirectiveUnit) : (s.onDir f).ahead = s.ahead := rfl
@[simp] theorem State.onDir_uni (s : State) (f : DirectiveUnit → DirectiveUnit) : (s.onDir f).uni = s.uni := rfl
@[simp] theorem State.onDir_key (s : State) (f : DirectiveUnit → DirectiveUnit) : (s.onDir f).key = s.key := rfl
@[simp] theorem State.onDir_attempts (s : State) (f : DirectiveUnit → DirectiveUnit) : (s.onDir f).attempts = s.attempts := rfl
@[simp] theorem State.onDir_carried (s : State) (f : DirectiveUnit → DirectiveUnit) : (s.onDir f).carried = s.carried := rfl
@[simp] theorem State.onDir_job (s : State) (f : DirectiveUnit → DirectiveUnit) : (s.onDir f).job = s.job := rfl

/-! ### `setJob` -/

@[simp] theorem State.setJob_pending (s : State) (x : Option Job) : (s.setJob x).pending = s.pending := rfl
@[simp] theorem State.setJob_flash (s : State) (x : Option Job) : (s.setJob x).flash = s.flash := rfl
@[simp] theorem State.setJob_fuseCell (s : State) (x : Option Job) : (s.setJob x).fuseCell = s.fuseCell := rfl
@[simp] theorem State.setJob_fuseTries (s : State) (x : Option Job) : (s.setJob x).fuseTries = s.fuseTries := rfl
@[simp] theorem State.setJob_breaks (s : State) (x : Option Job) : (s.setJob x).breaks = s.breaks := rfl
@[simp] theorem State.setJob_portA (s : State) (x : Option Job) : (s.setJob x).portA = s.portA := rfl
@[simp] theorem State.setJob_portT (s : State) (x : Option Job) : (s.setJob x).portT = s.portT := rfl
@[simp] theorem State.setJob_life (s : State) (x : Option Job) : (s.setJob x).life = s.life := rfl
@[simp] theorem State.setJob_queues (s : State) (x : Option Job) : (s.setJob x).queues = s.queues := rfl
@[simp] theorem State.setJob_pool (s : State) (x : Option Job) : (s.setJob x).pool = s.pool := rfl
@[simp] theorem State.setJob_nextSeq (s : State) (x : Option Job) : (s.setJob x).nextSeq = s.nextSeq := rfl
@[simp] theorem State.setJob_firstFailure (s : State) (x : Option Job) : (s.setJob x).firstFailure = s.firstFailure := rfl
@[simp] theorem State.setJob_engine (s : State) (x : Option Job) : (s.setJob x).engine = s.engine := rfl
@[simp] theorem State.setJob_ahead (s : State) (x : Option Job) : (s.setJob x).ahead = s.ahead := rfl
@[simp] theorem State.setJob_uni (s : State) (x : Option Job) : (s.setJob x).uni = s.uni := rfl
@[simp] theorem State.setJob_key (s : State) (x : Option Job) : (s.setJob x).key = s.key := rfl
@[simp] theorem State.setJob_attempts (s : State) (x : Option Job) : (s.setJob x).attempts = s.attempts := rfl
@[simp] theorem State.setJob_carried (s : State) (x : Option Job) : (s.setJob x).carried = s.carried := rfl
@[simp] theorem State.setJob_dir (s : State) (x : Option Job) : (s.setJob x).dir = s.dir := rfl

/-! ### `setPool` -/

@[simp] theorem State.setPool_pending (s : State) (x : List Nat) : (s.setPool x).pending = s.pending := rfl
@[simp] theorem State.setPool_flash (s : State) (x : List Nat) : (s.setPool x).flash = s.flash := rfl
@[simp] theorem State.setPool_fuseCell (s : State) (x : List Nat) : (s.setPool x).fuseCell = s.fuseCell := rfl
@[simp] theorem State.setPool_fuseTries (s : State) (x : List Nat) : (s.setPool x).fuseTries = s.fuseTries := rfl
@[simp] theorem State.setPool_breaks (s : State) (x : List Nat) : (s.setPool x).breaks = s.breaks := rfl
@[simp] theorem State.setPool_portA (s : State) (x : List Nat) : (s.setPool x).portA = s.portA := rfl
@[simp] theorem State.setPool_portT (s : State) (x : List Nat) : (s.setPool x).portT = s.portT := rfl
@[simp] theorem State.setPool_life (s : State) (x : List Nat) : (s.setPool x).life = s.life := rfl
@[simp] theorem State.setPool_queues (s : State) (x : List Nat) : (s.setPool x).queues = s.queues := rfl
@[simp] theorem State.setPool_nextSeq (s : State) (x : List Nat) : (s.setPool x).nextSeq = s.nextSeq := rfl
@[simp] theorem State.setPool_firstFailure (s : State) (x : List Nat) : (s.setPool x).firstFailure = s.firstFailure := rfl
@[simp] theorem State.setPool_engine (s : State) (x : List Nat) : (s.setPool x).engine = s.engine := rfl
@[simp] theorem State.setPool_ahead (s : State) (x : List Nat) : (s.setPool x).ahead = s.ahead := rfl
@[simp] theorem State.setPool_uni (s : State) (x : List Nat) : (s.setPool x).uni = s.uni := rfl
@[simp] theorem State.setPool_key (s : State) (x : List Nat) : (s.setPool x).key = s.key := rfl
@[simp] theorem State.setPool_attempts (s : State) (x : List Nat) : (s.setPool x).attempts = s.attempts := rfl
@[simp] theorem State.setPool_carried (s : State) (x : List Nat) : (s.setPool x).carried = s.carried := rfl
@[simp] theorem State.setPool_dir (s : State) (x : List Nat) : (s.setPool x).dir = s.dir := rfl
@[simp] theorem State.setPool_job (s : State) (x : List Nat) : (s.setPool x).job = s.job := rfl

/-! ### `setAttempts` -/

@[simp] theorem State.setAttempts_pending (s : State) (x : Nat) : (s.setAttempts x).pending = s.pending := rfl
@[simp] theorem State.setAttempts_flash (s : State) (x : Nat) : (s.setAttempts x).flash = s.flash := rfl
@[simp] theorem State.setAttempts_fuseCell (s : State) (x : Nat) : (s.setAttempts x).fuseCell = s.fuseCell := rfl
@[simp] theorem State.setAttempts_fuseTries (s : State) (x : Nat) : (s.setAttempts x).fuseTries = s.fuseTries := rfl
@[simp] theorem State.setAttempts_breaks (s : State) (x : Nat) : (s.setAttempts x).breaks = s.breaks := rfl
@[simp] theorem State.setAttempts_portA (s : State) (x : Nat) : (s.setAttempts x).portA = s.portA := rfl
@[simp] theorem State.setAttempts_portT (s : State) (x : Nat) : (s.setAttempts x).portT = s.portT := rfl
@[simp] theorem State.setAttempts_life (s : State) (x : Nat) : (s.setAttempts x).life = s.life := rfl
@[simp] theorem State.setAttempts_queues (s : State) (x : Nat) : (s.setAttempts x).queues = s.queues := rfl
@[simp] theorem State.setAttempts_pool (s : State) (x : Nat) : (s.setAttempts x).pool = s.pool := rfl
@[simp] theorem State.setAttempts_nextSeq (s : State) (x : Nat) : (s.setAttempts x).nextSeq = s.nextSeq := rfl
@[simp] theorem State.setAttempts_firstFailure (s : State) (x : Nat) : (s.setAttempts x).firstFailure = s.firstFailure := rfl
@[simp] theorem State.setAttempts_engine (s : State) (x : Nat) : (s.setAttempts x).engine = s.engine := rfl
@[simp] theorem State.setAttempts_ahead (s : State) (x : Nat) : (s.setAttempts x).ahead = s.ahead := rfl
@[simp] theorem State.setAttempts_uni (s : State) (x : Nat) : (s.setAttempts x).uni = s.uni := rfl
@[simp] theorem State.setAttempts_key (s : State) (x : Nat) : (s.setAttempts x).key = s.key := rfl
@[simp] theorem State.setAttempts_dir (s : State) (x : Nat) : (s.setAttempts x).dir = s.dir := rfl
@[simp] theorem State.setAttempts_job (s : State) (x : Nat) : (s.setAttempts x).job = s.job := rfl
@[simp] theorem State.setAttempts_carried (s : State) (x : Nat) : (s.setAttempts x).carried = s.carried := rfl

/-! ### `setCarried` -/

@[simp] theorem State.setCarried_pending (s : State) (x : Option Nat) : (s.setCarried x).pending = s.pending := rfl
@[simp] theorem State.setCarried_flash (s : State) (x : Option Nat) : (s.setCarried x).flash = s.flash := rfl
@[simp] theorem State.setCarried_fuseCell (s : State) (x : Option Nat) : (s.setCarried x).fuseCell = s.fuseCell := rfl
@[simp] theorem State.setCarried_fuseTries (s : State) (x : Option Nat) : (s.setCarried x).fuseTries = s.fuseTries := rfl
@[simp] theorem State.setCarried_breaks (s : State) (x : Option Nat) : (s.setCarried x).breaks = s.breaks := rfl
@[simp] theorem State.setCarried_portA (s : State) (x : Option Nat) : (s.setCarried x).portA = s.portA := rfl
@[simp] theorem State.setCarried_portT (s : State) (x : Option Nat) : (s.setCarried x).portT = s.portT := rfl
@[simp] theorem State.setCarried_life (s : State) (x : Option Nat) : (s.setCarried x).life = s.life := rfl
@[simp] theorem State.setCarried_queues (s : State) (x : Option Nat) : (s.setCarried x).queues = s.queues := rfl
@[simp] theorem State.setCarried_pool (s : State) (x : Option Nat) : (s.setCarried x).pool = s.pool := rfl
@[simp] theorem State.setCarried_nextSeq (s : State) (x : Option Nat) : (s.setCarried x).nextSeq = s.nextSeq := rfl
@[simp] theorem State.setCarried_firstFailure (s : State) (x : Option Nat) : (s.setCarried x).firstFailure = s.firstFailure := rfl
@[simp] theorem State.setCarried_engine (s : State) (x : Option Nat) : (s.setCarried x).engine = s.engine := rfl
@[simp] theorem State.setCarried_ahead (s : State) (x : Option Nat) : (s.setCarried x).ahead = s.ahead := rfl
@[simp] theorem State.setCarried_uni (s : State) (x : Option Nat) : (s.setCarried x).uni = s.uni := rfl
@[simp] theorem State.setCarried_key (s : State) (x : Option Nat) : (s.setCarried x).key = s.key := rfl
@[simp] theorem State.setCarried_attempts (s : State) (x : Option Nat) : (s.setCarried x).attempts = s.attempts := rfl
@[simp] theorem State.setCarried_dir (s : State) (x : Option Nat) : (s.setCarried x).dir = s.dir := rfl
@[simp] theorem State.setCarried_job (s : State) (x : Option Nat) : (s.setCarried x).job = s.job := rfl

/-! ### `setFirstFailure` -/

@[simp] theorem State.setFirstFailure_pending (s : State) (x : Option FirstFailure) : (s.setFirstFailure x).pending = s.pending := rfl
@[simp] theorem State.setFirstFailure_flash (s : State) (x : Option FirstFailure) : (s.setFirstFailure x).flash = s.flash := rfl
@[simp] theorem State.setFirstFailure_fuseCell (s : State) (x : Option FirstFailure) : (s.setFirstFailure x).fuseCell = s.fuseCell := rfl
@[simp] theorem State.setFirstFailure_fuseTries (s : State) (x : Option FirstFailure) : (s.setFirstFailure x).fuseTries = s.fuseTries := rfl
@[simp] theorem State.setFirstFailure_breaks (s : State) (x : Option FirstFailure) : (s.setFirstFailure x).breaks = s.breaks := rfl
@[simp] theorem State.setFirstFailure_portA (s : State) (x : Option FirstFailure) : (s.setFirstFailure x).portA = s.portA := rfl
@[simp] theorem State.setFirstFailure_portT (s : State) (x : Option FirstFailure) : (s.setFirstFailure x).portT = s.portT := rfl
@[simp] theorem State.setFirstFailure_life (s : State) (x : Option FirstFailure) : (s.setFirstFailure x).life = s.life := rfl
@[simp] theorem State.setFirstFailure_queues (s : State) (x : Option FirstFailure) : (s.setFirstFailure x).queues = s.queues := rfl
@[simp] theorem State.setFirstFailure_pool (s : State) (x : Option FirstFailure) : (s.setFirstFailure x).pool = s.pool := rfl
@[simp] theorem State.setFirstFailure_nextSeq (s : State) (x : Option FirstFailure) : (s.setFirstFailure x).nextSeq = s.nextSeq := rfl
@[simp] theorem State.setFirstFailure_engine (s : State) (x : Option FirstFailure) : (s.setFirstFailure x).engine = s.engine := rfl
@[simp] theorem State.setFirstFailure_ahead (s : State) (x : Option FirstFailure) : (s.setFirstFailure x).ahead = s.ahead := rfl
@[simp] theorem State.setFirstFailure_uni (s : State) (x : Option FirstFailure) : (s.setFirstFailure x).uni = s.uni := rfl
@[simp] theorem State.setFirstFailure_key (s : State) (x : Option FirstFailure) : (s.setFirstFailure x).key = s.key := rfl
@[simp] theorem State.setFirstFailure_attempts (s : State) (x : Option FirstFailure) : (s.setFirstFailure x).attempts = s.attempts := rfl
@[simp] theorem State.setFirstFailure_carried (s : State) (x : Option FirstFailure) : (s.setFirstFailure x).carried = s.carried := rfl
@[simp] theorem State.setFirstFailure_dir (s : State) (x : Option FirstFailure) : (s.setFirstFailure x).dir = s.dir := rfl
@[simp] theorem State.setFirstFailure_job (s : State) (x : Option FirstFailure) : (s.setFirstFailure x).job = s.job := rfl

/-! ### `setFlash` -/

@[simp] theorem State.setFlash_pending (s : State) (x : Mem) : (s.setFlash x).pending = s.pending := rfl
@[simp] theorem State.setFlash_fuseCell (s : State) (x : Mem) : (s.setFlash x).fuseCell = s.fuseCell := rfl
@[simp] theorem State.setFlash_fuseTries (s : State) (x : Mem) : (s.setFlash x).fuseTries = s.fuseTries := rfl
@[simp] theorem State.setFlash_breaks (s : State) (x : Mem) : (s.setFlash x).breaks = s.breaks := rfl
@[simp] theorem State.setFlash_portA (s : State) (x : Mem) : (s.setFlash x).portA = s.portA := rfl
@[simp] theorem State.setFlash_portT (s : State) (x : Mem) : (s.setFlash x).portT = s.portT := rfl
@[simp] theorem State.setFlash_life (s : State) (x : Mem) : (s.setFlash x).life = s.life := rfl
@[simp] theorem State.setFlash_queues (s : State) (x : Mem) : (s.setFlash x).queues = s.queues := rfl
@[simp] theorem State.setFlash_pool (s : State) (x : Mem) : (s.setFlash x).pool = s.pool := rfl
@[simp] theorem State.setFlash_nextSeq (s : State) (x : Mem) : (s.setFlash x).nextSeq = s.nextSeq := rfl
@[simp] theorem State.setFlash_firstFailure (s : State) (x : Mem) : (s.setFlash x).firstFailure = s.firstFailure := rfl
@[simp] theorem State.setFlash_engine (s : State) (x : Mem) : (s.setFlash x).engine = s.engine := rfl
@[simp] theorem State.setFlash_ahead (s : State) (x : Mem) : (s.setFlash x).ahead = s.ahead := rfl
@[simp] theorem State.setFlash_uni (s : State) (x : Mem) : (s.setFlash x).uni = s.uni := rfl
@[simp] theorem State.setFlash_key (s : State) (x : Mem) : (s.setFlash x).key = s.key := rfl
@[simp] theorem State.setFlash_attempts (s : State) (x : Mem) : (s.setFlash x).attempts = s.attempts := rfl
@[simp] theorem State.setFlash_carried (s : State) (x : Mem) : (s.setFlash x).carried = s.carried := rfl
@[simp] theorem State.setFlash_dir (s : State) (x : Mem) : (s.setFlash x).dir = s.dir := rfl
@[simp] theorem State.setFlash_job (s : State) (x : Mem) : (s.setFlash x).job = s.job := rfl

/-! ### `setClaim` -/

@[simp] theorem State.setClaim_pending (s : State) (c : Claimant) (v : Option Claim) : (s.setClaim c v).pending = s.pending := rfl
@[simp] theorem State.setClaim_flash (s : State) (c : Claimant) (v : Option Claim) : (s.setClaim c v).flash = s.flash := rfl
@[simp] theorem State.setClaim_fuseCell (s : State) (c : Claimant) (v : Option Claim) : (s.setClaim c v).fuseCell = s.fuseCell := rfl
@[simp] theorem State.setClaim_fuseTries (s : State) (c : Claimant) (v : Option Claim) : (s.setClaim c v).fuseTries = s.fuseTries := rfl
@[simp] theorem State.setClaim_breaks (s : State) (c : Claimant) (v : Option Claim) : (s.setClaim c v).breaks = s.breaks := rfl
@[simp] theorem State.setClaim_portA (s : State) (c : Claimant) (v : Option Claim) : (s.setClaim c v).portA = s.portA := rfl
@[simp] theorem State.setClaim_portT (s : State) (c : Claimant) (v : Option Claim) : (s.setClaim c v).portT = s.portT := rfl
@[simp] theorem State.setClaim_life (s : State) (c : Claimant) (v : Option Claim) : (s.setClaim c v).life = s.life := rfl
@[simp] theorem State.setClaim_queues (s : State) (c : Claimant) (v : Option Claim) : (s.setClaim c v).queues = s.queues := rfl
@[simp] theorem State.setClaim_pool (s : State) (c : Claimant) (v : Option Claim) : (s.setClaim c v).pool = s.pool := rfl
@[simp] theorem State.setClaim_nextSeq (s : State) (c : Claimant) (v : Option Claim) : (s.setClaim c v).nextSeq = s.nextSeq := rfl
@[simp] theorem State.setClaim_firstFailure (s : State) (c : Claimant) (v : Option Claim) : (s.setClaim c v).firstFailure = s.firstFailure := rfl
@[simp] theorem State.setClaim_ahead (s : State) (c : Claimant) (v : Option Claim) : (s.setClaim c v).ahead = s.ahead := rfl
@[simp] theorem State.setClaim_uni (s : State) (c : Claimant) (v : Option Claim) : (s.setClaim c v).uni = s.uni := rfl
@[simp] theorem State.setClaim_key (s : State) (c : Claimant) (v : Option Claim) : (s.setClaim c v).key = s.key := rfl
@[simp] theorem State.setClaim_attempts (s : State) (c : Claimant) (v : Option Claim) : (s.setClaim c v).attempts = s.attempts := rfl
@[simp] theorem State.setClaim_carried (s : State) (c : Claimant) (v : Option Claim) : (s.setClaim c v).carried = s.carried := rfl
@[simp] theorem State.setClaim_dir (s : State) (c : Claimant) (v : Option Claim) : (s.setClaim c v).dir = s.dir := rfl
@[simp] theorem State.setClaim_job (s : State) (c : Claimant) (v : Option Claim) : (s.setClaim c v).job = s.job := rfl

/-! ### `setDeferred` -/

@[simp] theorem State.setDeferred_pending (s : State) (c : Claimant) (v : Option Claim) : (s.setDeferred c v).pending = s.pending := rfl
@[simp] theorem State.setDeferred_flash (s : State) (c : Claimant) (v : Option Claim) : (s.setDeferred c v).flash = s.flash := rfl
@[simp] theorem State.setDeferred_fuseCell (s : State) (c : Claimant) (v : Option Claim) : (s.setDeferred c v).fuseCell = s.fuseCell := rfl
@[simp] theorem State.setDeferred_fuseTries (s : State) (c : Claimant) (v : Option Claim) : (s.setDeferred c v).fuseTries = s.fuseTries := rfl
@[simp] theorem State.setDeferred_breaks (s : State) (c : Claimant) (v : Option Claim) : (s.setDeferred c v).breaks = s.breaks := rfl
@[simp] theorem State.setDeferred_portA (s : State) (c : Claimant) (v : Option Claim) : (s.setDeferred c v).portA = s.portA := rfl
@[simp] theorem State.setDeferred_portT (s : State) (c : Claimant) (v : Option Claim) : (s.setDeferred c v).portT = s.portT := rfl
@[simp] theorem State.setDeferred_life (s : State) (c : Claimant) (v : Option Claim) : (s.setDeferred c v).life = s.life := rfl
@[simp] theorem State.setDeferred_queues (s : State) (c : Claimant) (v : Option Claim) : (s.setDeferred c v).queues = s.queues := rfl
@[simp] theorem State.setDeferred_pool (s : State) (c : Claimant) (v : Option Claim) : (s.setDeferred c v).pool = s.pool := rfl
@[simp] theorem State.setDeferred_nextSeq (s : State) (c : Claimant) (v : Option Claim) : (s.setDeferred c v).nextSeq = s.nextSeq := rfl
@[simp] theorem State.setDeferred_firstFailure (s : State) (c : Claimant) (v : Option Claim) : (s.setDeferred c v).firstFailure = s.firstFailure := rfl
@[simp] theorem State.setDeferred_ahead (s : State) (c : Claimant) (v : Option Claim) : (s.setDeferred c v).ahead = s.ahead := rfl
@[simp] theorem State.setDeferred_uni (s : State) (c : Claimant) (v : Option Claim) : (s.setDeferred c v).uni = s.uni := rfl
@[simp] theorem State.setDeferred_key (s : State) (c : Claimant) (v : Option Claim) : (s.setDeferred c v).key = s.key := rfl
@[simp] theorem State.setDeferred_attempts (s : State) (c : Claimant) (v : Option Claim) : (s.setDeferred c v).attempts = s.attempts := rfl
@[simp] theorem State.setDeferred_carried (s : State) (c : Claimant) (v : Option Claim) : (s.setDeferred c v).carried = s.carried := rfl
@[simp] theorem State.setDeferred_dir (s : State) (c : Claimant) (v : Option Claim) : (s.setDeferred c v).dir = s.dir := rfl
@[simp] theorem State.setDeferred_job (s : State) (c : Claimant) (v : Option Claim) : (s.setDeferred c v).job = s.job := rfl

/-! ### `setReading` -/

@[simp] theorem State.setReading_pending (s : State) (p : Port) (r : Reading) : (s.setReading p r).pending = s.pending := by cases p <;> rfl
@[simp] theorem State.setReading_flash (s : State) (p : Port) (r : Reading) : (s.setReading p r).flash = s.flash := by cases p <;> rfl
@[simp] theorem State.setReading_fuseCell (s : State) (p : Port) (r : Reading) : (s.setReading p r).fuseCell = s.fuseCell := by cases p <;> rfl
@[simp] theorem State.setReading_fuseTries (s : State) (p : Port) (r : Reading) : (s.setReading p r).fuseTries = s.fuseTries := by cases p <;> rfl
@[simp] theorem State.setReading_breaks (s : State) (p : Port) (r : Reading) : (s.setReading p r).breaks = s.breaks := by cases p <;> rfl
@[simp] theorem State.setReading_life (s : State) (p : Port) (r : Reading) : (s.setReading p r).life = s.life := by cases p <;> rfl
@[simp] theorem State.setReading_queues (s : State) (p : Port) (r : Reading) : (s.setReading p r).queues = s.queues := by cases p <;> rfl
@[simp] theorem State.setReading_pool (s : State) (p : Port) (r : Reading) : (s.setReading p r).pool = s.pool := by cases p <;> rfl
@[simp] theorem State.setReading_nextSeq (s : State) (p : Port) (r : Reading) : (s.setReading p r).nextSeq = s.nextSeq := by cases p <;> rfl
@[simp] theorem State.setReading_firstFailure (s : State) (p : Port) (r : Reading) : (s.setReading p r).firstFailure = s.firstFailure := by cases p <;> rfl
@[simp] theorem State.setReading_engine (s : State) (p : Port) (r : Reading) : (s.setReading p r).engine = s.engine := by cases p <;> rfl
@[simp] theorem State.setReading_ahead (s : State) (p : Port) (r : Reading) : (s.setReading p r).ahead = s.ahead := by cases p <;> rfl
@[simp] theorem State.setReading_uni (s : State) (p : Port) (r : Reading) : (s.setReading p r).uni = s.uni := by cases p <;> rfl
@[simp] theorem State.setReading_key (s : State) (p : Port) (r : Reading) : (s.setReading p r).key = s.key := by cases p <;> rfl
@[simp] theorem State.setReading_attempts (s : State) (p : Port) (r : Reading) : (s.setReading p r).attempts = s.attempts := by cases p <;> rfl
@[simp] theorem State.setReading_carried (s : State) (p : Port) (r : Reading) : (s.setReading p r).carried = s.carried := by cases p <;> rfl
@[simp] theorem State.setReading_dir (s : State) (p : Port) (r : Reading) : (s.setReading p r).dir = s.dir := by cases p <;> rfl
@[simp] theorem State.setReading_job (s : State) (p : Port) (r : Reading) : (s.setReading p r).job = s.job := by cases p <;> rfl

/-! ### `onPass` -/

@[simp] theorem State.onPass_pending (s : State) (f : PassRecord → PassRecord) : (s.onPass f).pending = s.pending := rfl
@[simp] theorem State.onPass_flash (s : State) (f : PassRecord → PassRecord) : (s.onPass f).flash = s.flash := rfl
@[simp] theorem State.onPass_fuseCell (s : State) (f : PassRecord → PassRecord) : (s.onPass f).fuseCell = s.fuseCell := rfl
@[simp] theorem State.onPass_fuseTries (s : State) (f : PassRecord → PassRecord) : (s.onPass f).fuseTries = s.fuseTries := rfl
@[simp] theorem State.onPass_breaks (s : State) (f : PassRecord → PassRecord) : (s.onPass f).breaks = s.breaks := rfl
@[simp] theorem State.onPass_portA (s : State) (f : PassRecord → PassRecord) : (s.onPass f).portA = s.portA := rfl
@[simp] theorem State.onPass_portT (s : State) (f : PassRecord → PassRecord) : (s.onPass f).portT = s.portT := rfl
@[simp] theorem State.onPass_life (s : State) (f : PassRecord → PassRecord) : (s.onPass f).life = s.life := rfl
@[simp] theorem State.onPass_queues (s : State) (f : PassRecord → PassRecord) : (s.onPass f).queues = s.queues := rfl
@[simp] theorem State.onPass_pool (s : State) (f : PassRecord → PassRecord) : (s.onPass f).pool = s.pool := rfl
@[simp] theorem State.onPass_nextSeq (s : State) (f : PassRecord → PassRecord) : (s.onPass f).nextSeq = s.nextSeq := rfl
@[simp] theorem State.onPass_firstFailure (s : State) (f : PassRecord → PassRecord) : (s.onPass f).firstFailure = s.firstFailure := rfl
@[simp] theorem State.onPass_engine (s : State) (f : PassRecord → PassRecord) : (s.onPass f).engine = s.engine := rfl
@[simp] theorem State.onPass_ahead (s : State) (f : PassRecord → PassRecord) : (s.onPass f).ahead = s.ahead := rfl
@[simp] theorem State.onPass_key (s : State) (f : PassRecord → PassRecord) : (s.onPass f).key = s.key := rfl
@[simp] theorem State.onPass_attempts (s : State) (f : PassRecord → PassRecord) : (s.onPass f).attempts = s.attempts := rfl
@[simp] theorem State.onPass_carried (s : State) (f : PassRecord → PassRecord) : (s.onPass f).carried = s.carried := rfl
@[simp] theorem State.onPass_dir (s : State) (f : PassRecord → PassRecord) : (s.onPass f).dir = s.dir := rfl
@[simp] theorem State.onPass_job (s : State) (f : PassRecord → PassRecord) : (s.onPass f).job = s.job := rfl

/-! ### `mapSlots` -/

@[simp] theorem State.mapSlots_pending (s : State) (f : AheadSlot → AheadSlot) : (s.mapSlots f).pending = s.pending := rfl
@[simp] theorem State.mapSlots_flash (s : State) (f : AheadSlot → AheadSlot) : (s.mapSlots f).flash = s.flash := rfl
@[simp] theorem State.mapSlots_fuseCell (s : State) (f : AheadSlot → AheadSlot) : (s.mapSlots f).fuseCell = s.fuseCell := rfl
@[simp] theorem State.mapSlots_fuseTries (s : State) (f : AheadSlot → AheadSlot) : (s.mapSlots f).fuseTries = s.fuseTries := rfl
@[simp] theorem State.mapSlots_breaks (s : State) (f : AheadSlot → AheadSlot) : (s.mapSlots f).breaks = s.breaks := rfl
@[simp] theorem State.mapSlots_portA (s : State) (f : AheadSlot → AheadSlot) : (s.mapSlots f).portA = s.portA := rfl
@[simp] theorem State.mapSlots_portT (s : State) (f : AheadSlot → AheadSlot) : (s.mapSlots f).portT = s.portT := rfl
@[simp] theorem State.mapSlots_life (s : State) (f : AheadSlot → AheadSlot) : (s.mapSlots f).life = s.life := rfl
@[simp] theorem State.mapSlots_queues (s : State) (f : AheadSlot → AheadSlot) : (s.mapSlots f).queues = s.queues := rfl
@[simp] theorem State.mapSlots_pool (s : State) (f : AheadSlot → AheadSlot) : (s.mapSlots f).pool = s.pool := rfl
@[simp] theorem State.mapSlots_nextSeq (s : State) (f : AheadSlot → AheadSlot) : (s.mapSlots f).nextSeq = s.nextSeq := rfl
@[simp] theorem State.mapSlots_firstFailure (s : State) (f : AheadSlot → AheadSlot) : (s.mapSlots f).firstFailure = s.firstFailure := rfl
@[simp] theorem State.mapSlots_engine (s : State) (f : AheadSlot → AheadSlot) : (s.mapSlots f).engine = s.engine := rfl
@[simp] theorem State.mapSlots_uni (s : State) (f : AheadSlot → AheadSlot) : (s.mapSlots f).uni = s.uni := rfl
@[simp] theorem State.mapSlots_key (s : State) (f : AheadSlot → AheadSlot) : (s.mapSlots f).key = s.key := rfl
@[simp] theorem State.mapSlots_attempts (s : State) (f : AheadSlot → AheadSlot) : (s.mapSlots f).attempts = s.attempts := rfl
@[simp] theorem State.mapSlots_carried (s : State) (f : AheadSlot → AheadSlot) : (s.mapSlots f).carried = s.carried := rfl
@[simp] theorem State.mapSlots_dir (s : State) (f : AheadSlot → AheadSlot) : (s.mapSlots f).dir = s.dir := rfl
@[simp] theorem State.mapSlots_job (s : State) (f : AheadSlot → AheadSlot) : (s.mapSlots f).job = s.job := rfl

/-! ### `setSlot` -/

@[simp] theorem State.setSlot_pending (s : State) (n : Nat) (x : Slot) : (s.setSlot n x).pending = s.pending := rfl
@[simp] theorem State.setSlot_flash (s : State) (n : Nat) (x : Slot) : (s.setSlot n x).flash = s.flash := rfl
@[simp] theorem State.setSlot_fuseCell (s : State) (n : Nat) (x : Slot) : (s.setSlot n x).fuseCell = s.fuseCell := rfl
@[simp] theorem State.setSlot_fuseTries (s : State) (n : Nat) (x : Slot) : (s.setSlot n x).fuseTries = s.fuseTries := rfl
@[simp] theorem State.setSlot_breaks (s : State) (n : Nat) (x : Slot) : (s.setSlot n x).breaks = s.breaks := rfl
@[simp] theorem State.setSlot_portA (s : State) (n : Nat) (x : Slot) : (s.setSlot n x).portA = s.portA := rfl
@[simp] theorem State.setSlot_portT (s : State) (n : Nat) (x : Slot) : (s.setSlot n x).portT = s.portT := rfl
@[simp] theorem State.setSlot_life (s : State) (n : Nat) (x : Slot) : (s.setSlot n x).life = s.life := rfl
@[simp] theorem State.setSlot_queues (s : State) (n : Nat) (x : Slot) : (s.setSlot n x).queues = s.queues := rfl
@[simp] theorem State.setSlot_pool (s : State) (n : Nat) (x : Slot) : (s.setSlot n x).pool = s.pool := rfl
@[simp] theorem State.setSlot_nextSeq (s : State) (n : Nat) (x : Slot) : (s.setSlot n x).nextSeq = s.nextSeq := rfl
@[simp] theorem State.setSlot_firstFailure (s : State) (n : Nat) (x : Slot) : (s.setSlot n x).firstFailure = s.firstFailure := rfl
@[simp] theorem State.setSlot_engine (s : State) (n : Nat) (x : Slot) : (s.setSlot n x).engine = s.engine := rfl
@[simp] theorem State.setSlot_ahead (s : State) (n : Nat) (x : Slot) : (s.setSlot n x).ahead = s.ahead := rfl
@[simp] theorem State.setSlot_uni (s : State) (n : Nat) (x : Slot) : (s.setSlot n x).uni = s.uni := rfl
@[simp] theorem State.setSlot_key (s : State) (n : Nat) (x : Slot) : (s.setSlot n x).key = s.key := rfl
@[simp] theorem State.setSlot_attempts (s : State) (n : Nat) (x : Slot) : (s.setSlot n x).attempts = s.attempts := rfl
@[simp] theorem State.setSlot_carried (s : State) (n : Nat) (x : Slot) : (s.setSlot n x).carried = s.carried := rfl
@[simp] theorem State.setSlot_job (s : State) (n : Nat) (x : Slot) : (s.setSlot n x).job = s.job := rfl

/-! ### `onSlot` -/

@[simp] theorem State.onSlot_pending (s : State) (n : Nat) (f : Slot → Slot) : (s.onSlot n f).pending = s.pending := rfl
@[simp] theorem State.onSlot_flash (s : State) (n : Nat) (f : Slot → Slot) : (s.onSlot n f).flash = s.flash := rfl
@[simp] theorem State.onSlot_fuseCell (s : State) (n : Nat) (f : Slot → Slot) : (s.onSlot n f).fuseCell = s.fuseCell := rfl
@[simp] theorem State.onSlot_fuseTries (s : State) (n : Nat) (f : Slot → Slot) : (s.onSlot n f).fuseTries = s.fuseTries := rfl
@[simp] theorem State.onSlot_breaks (s : State) (n : Nat) (f : Slot → Slot) : (s.onSlot n f).breaks = s.breaks := rfl
@[simp] theorem State.onSlot_portA (s : State) (n : Nat) (f : Slot → Slot) : (s.onSlot n f).portA = s.portA := rfl
@[simp] theorem State.onSlot_portT (s : State) (n : Nat) (f : Slot → Slot) : (s.onSlot n f).portT = s.portT := rfl
@[simp] theorem State.onSlot_life (s : State) (n : Nat) (f : Slot → Slot) : (s.onSlot n f).life = s.life := rfl
@[simp] theorem State.onSlot_queues (s : State) (n : Nat) (f : Slot → Slot) : (s.onSlot n f).queues = s.queues := rfl
@[simp] theorem State.onSlot_pool (s : State) (n : Nat) (f : Slot → Slot) : (s.onSlot n f).pool = s.pool := rfl
@[simp] theorem State.onSlot_nextSeq (s : State) (n : Nat) (f : Slot → Slot) : (s.onSlot n f).nextSeq = s.nextSeq := rfl
@[simp] theorem State.onSlot_firstFailure (s : State) (n : Nat) (f : Slot → Slot) : (s.onSlot n f).firstFailure = s.firstFailure := rfl
@[simp] theorem State.onSlot_engine (s : State) (n : Nat) (f : Slot → Slot) : (s.onSlot n f).engine = s.engine := rfl
@[simp] theorem State.onSlot_ahead (s : State) (n : Nat) (f : Slot → Slot) : (s.onSlot n f).ahead = s.ahead := rfl
@[simp] theorem State.onSlot_uni (s : State) (n : Nat) (f : Slot → Slot) : (s.onSlot n f).uni = s.uni := rfl
@[simp] theorem State.onSlot_key (s : State) (n : Nat) (f : Slot → Slot) : (s.onSlot n f).key = s.key := rfl
@[simp] theorem State.onSlot_attempts (s : State) (n : Nat) (f : Slot → Slot) : (s.onSlot n f).attempts = s.attempts := rfl
@[simp] theorem State.onSlot_carried (s : State) (n : Nat) (f : Slot → Slot) : (s.onSlot n f).carried = s.carried := rfl
@[simp] theorem State.onSlot_job (s : State) (n : Nat) (f : Slot → Slot) : (s.onSlot n f).job = s.job := rfl

/-! ### `enter` -/

@[simp] theorem State.enter_pending (s : State) (ph : Phase) : (s.enter ph).pending = s.pending := rfl
@[simp] theorem State.enter_flash (s : State) (ph : Phase) : (s.enter ph).flash = s.flash := rfl
@[simp] theorem State.enter_fuseCell (s : State) (ph : Phase) : (s.enter ph).fuseCell = s.fuseCell := rfl
@[simp] theorem State.enter_fuseTries (s : State) (ph : Phase) : (s.enter ph).fuseTries = s.fuseTries := rfl
@[simp] theorem State.enter_breaks (s : State) (ph : Phase) : (s.enter ph).breaks = s.breaks := rfl
@[simp] theorem State.enter_portA (s : State) (ph : Phase) : (s.enter ph).portA = s.portA := rfl
@[simp] theorem State.enter_portT (s : State) (ph : Phase) : (s.enter ph).portT = s.portT := rfl
@[simp] theorem State.enter_life (s : State) (ph : Phase) : (s.enter ph).life = s.life := rfl
@[simp] theorem State.enter_queues (s : State) (ph : Phase) : (s.enter ph).queues = s.queues := rfl
@[simp] theorem State.enter_pool (s : State) (ph : Phase) : (s.enter ph).pool = s.pool := rfl
@[simp] theorem State.enter_nextSeq (s : State) (ph : Phase) : (s.enter ph).nextSeq = s.nextSeq := rfl
@[simp] theorem State.enter_firstFailure (s : State) (ph : Phase) : (s.enter ph).firstFailure = s.firstFailure := rfl
@[simp] theorem State.enter_engine (s : State) (ph : Phase) : (s.enter ph).engine = s.engine := rfl
@[simp] theorem State.enter_ahead (s : State) (ph : Phase) : (s.enter ph).ahead = s.ahead := rfl
@[simp] theorem State.enter_uni (s : State) (ph : Phase) : (s.enter ph).uni = s.uni := rfl
@[simp] theorem State.enter_key (s : State) (ph : Phase) : (s.enter ph).key = s.key := rfl
@[simp] theorem State.enter_attempts (s : State) (ph : Phase) : (s.enter ph).attempts = s.attempts := rfl
@[simp] theorem State.enter_carried (s : State) (ph : Phase) : (s.enter ph).carried = s.carried := rfl
@[simp] theorem State.enter_job (s : State) (ph : Phase) : (s.enter ph).job = s.job := rfl

/-! ### `raise` -/

@[simp] theorem State.raise_pending (s : State) (e : Event) : (s.raise e).pending = s.pending := rfl
@[simp] theorem State.raise_flash (s : State) (e : Event) : (s.raise e).flash = s.flash := rfl
@[simp] theorem State.raise_fuseCell (s : State) (e : Event) : (s.raise e).fuseCell = s.fuseCell := rfl
@[simp] theorem State.raise_fuseTries (s : State) (e : Event) : (s.raise e).fuseTries = s.fuseTries := rfl
@[simp] theorem State.raise_breaks (s : State) (e : Event) : (s.raise e).breaks = s.breaks := rfl
@[simp] theorem State.raise_portA (s : State) (e : Event) : (s.raise e).portA = s.portA := rfl
@[simp] theorem State.raise_portT (s : State) (e : Event) : (s.raise e).portT = s.portT := rfl
@[simp] theorem State.raise_life (s : State) (e : Event) : (s.raise e).life = s.life := rfl
@[simp] theorem State.raise_queues (s : State) (e : Event) : (s.raise e).queues = s.queues := rfl
@[simp] theorem State.raise_pool (s : State) (e : Event) : (s.raise e).pool = s.pool := rfl
@[simp] theorem State.raise_nextSeq (s : State) (e : Event) : (s.raise e).nextSeq = s.nextSeq := rfl
@[simp] theorem State.raise_firstFailure (s : State) (e : Event) : (s.raise e).firstFailure = s.firstFailure := rfl
@[simp] theorem State.raise_engine (s : State) (e : Event) : (s.raise e).engine = s.engine := rfl
@[simp] theorem State.raise_ahead (s : State) (e : Event) : (s.raise e).ahead = s.ahead := rfl
@[simp] theorem State.raise_uni (s : State) (e : Event) : (s.raise e).uni = s.uni := rfl
@[simp] theorem State.raise_key (s : State) (e : Event) : (s.raise e).key = s.key := rfl
@[simp] theorem State.raise_attempts (s : State) (e : Event) : (s.raise e).attempts = s.attempts := rfl
@[simp] theorem State.raise_carried (s : State) (e : Event) : (s.raise e).carried = s.carried := rfl
@[simp] theorem State.raise_job (s : State) (e : Event) : (s.raise e).job = s.job := rfl

/-! ### What the updates write -/

@[simp] theorem State.onEngine_self (s : State) (f : Engine → Engine) : (s.onEngine f).engine = f s.engine := rfl
@[simp] theorem State.onAhead_self (s : State) (f : ReadAhead → ReadAhead) : (s.onAhead f).ahead = f s.ahead := rfl
@[simp] theorem State.onUni_self (s : State) (f : UniformityUnit → UniformityUnit) : (s.onUni f).uni = f s.uni := rfl
@[simp] theorem State.onKey_self (s : State) (f : KeyUnit → KeyUnit) : (s.onKey f).key = f s.key := rfl
@[simp] theorem State.onLife_self (s : State) (f : LifecycleUnit → LifecycleUnit) : (s.onLife f).life = f s.life := rfl
@[simp] theorem State.onDir_self (s : State) (f : DirectiveUnit → DirectiveUnit) : (s.onDir f).dir = f s.dir := rfl
@[simp] theorem State.setJob_self (s : State) (x : Option Job) : (s.setJob x).job = x := rfl
@[simp] theorem State.setPool_self (s : State) (x : List Nat) : (s.setPool x).pool = x := rfl
@[simp] theorem State.setAttempts_self (s : State) (x : Nat) : (s.setAttempts x).attempts = x := rfl
@[simp] theorem State.setCarried_self (s : State) (x : Option Nat) : (s.setCarried x).carried = x := rfl
@[simp] theorem State.setFirstFailure_self (s : State) (x : Option FirstFailure) : (s.setFirstFailure x).firstFailure = x := rfl
@[simp] theorem State.setFlash_self (s : State) (x : Mem) : (s.setFlash x).flash = x := rfl

@[simp] theorem State.port_setPort (s : State) (p : Port) (x : PortState) : (s.setPort p x).port p = x := by cases p <;> rfl
@[simp] theorem State.port_onPort (s : State) (p : Port) (f : PortState → PortState) : (s.onPort p f).port p = f (s.port p) := by
  cases p <;> rfl

@[simp] theorem State.setPort_a_portA (s : State) (x : PortState) : (s.setPort .a x).portA = x := rfl
@[simp] theorem State.setPort_a_portT (s : State) (x : PortState) : (s.setPort .a x).portT = s.portT := rfl
@[simp] theorem State.setPort_t_portT (s : State) (x : PortState) : (s.setPort .t x).portT = x := rfl
@[simp] theorem State.setPort_t_portA (s : State) (x : PortState) : (s.setPort .t x).portA = s.portA := rfl
@[simp] theorem State.onPort_a_portA (s : State) (f : PortState → PortState) : (s.onPort .a f).portA = f s.portA := rfl
@[simp] theorem State.onPort_a_portT (s : State) (f : PortState → PortState) : (s.onPort .a f).portT = s.portT := rfl
@[simp] theorem State.onPort_t_portT (s : State) (f : PortState → PortState) : (s.onPort .t f).portT = f s.portT := rfl
@[simp] theorem State.onPort_t_portA (s : State) (f : PortState → PortState) : (s.onPort .t f).portA = s.portA := rfl

theorem State.port_onPort_ne (s : State) {p r : Port} (f : PortState → PortState) (h : r ≠ p) : (s.onPort p f).port r = s.port r := by
  cases p <;> cases r <;> first | rfl | exact absurd rfl h

@[simp] theorem PerQueue.get_put {α : Type} (x : PerQueue α) (q : QueueId) (v : α) : (x.put q v).get q = v := by cases q <;> rfl

theorem PerQueue.get_put_ne {α : Type} (x : PerQueue α) {q r : QueueId} (v : α) (h : r ≠ q) : (x.put q v).get r = x.get r := by
  cases q <;> cases r <;> first | rfl | exact absurd rfl h

@[simp] theorem PerClaimant.get_put {α : Type} (x : PerClaimant α) (c : Claimant) (v : α) : (x.put c v).get c = v := by cases c <;> rfl

theorem PerClaimant.get_put_ne {α : Type} (x : PerClaimant α) {c d : Claimant} (v : α) (h : d ≠ c) : (x.put c v).get d = x.get d := by
  cases c <;> cases d <;> first | rfl | exact absurd rfl h

@[simp] theorem State.claim_setClaim (s : State) (c : Claimant) (v : Option Claim) : (s.setClaim c v).claim c = v :=
  PerClaimant.get_put ..

@[simp] theorem State.onQueue_get (s : State) (q : QueueId) (f : Queue → Queue) : (s.onQueue q f).queues.get q = f (s.queues.get q) :=
  PerQueue.get_put ..

theorem State.onQueue_get_ne (s : State) {q r : QueueId} (f : Queue → Queue) (h : r ≠ q) :
    (s.onQueue q f).queues.get r = s.queues.get r := PerQueue.get_put_ne _ _ h

@[simp] theorem State.enter_running (s : State) (ph : Phase) : (s.enter ph).dir.running = some ph := rfl
@[simp] theorem State.enter_queue (s : State) (ph : Phase) : (s.enter ph).dir.queue = s.dir.queue := rfl
@[simp] theorem State.enter_slots (s : State) (ph : Phase) : (s.enter ph).dir.slots = s.dir.slots := rfl
@[simp] theorem State.raise_running (s : State) (e : Event) : (s.raise e).dir.running = s.dir.running := rfl
@[simp] theorem State.raise_queue (s : State) (e : Event) : (s.raise e).dir.queue = s.dir.queue := rfl
@[simp] theorem State.raise_slots (s : State) (e : Event) : (s.raise e).dir.slots = s.dir.slots := rfl
@[simp] theorem State.onSlot_running (s : State) (n : Nat) (f : Slot → Slot) : (s.onSlot n f).dir.running = s.dir.running := rfl
@[simp] theorem State.onSlot_queue (s : State) (n : Nat) (f : Slot → Slot) : (s.onSlot n f).dir.queue = s.dir.queue := rfl

end Sys2Proof.Machine
end

