-- ==== Sys2Proof/Laws/Apart.lean ====
section
/-! SUPPORT. `Apart` for the Arbiter's operations and for the delivery of reads: what they never change, said once for each. -/

namespace Sys2Proof.Machine

-- One theorem after another: proofs checked side by side each hold a thread and its stack.
set_option Elab.async false

theorem Apart.refl (s : State) : Apart s s := ⟨rfl, rfl, rfl, rfl, rfl, rfl, rfl, rfl, rfl, rfl, rfl, rfl, fun _ => rfl, rfl, rfl, rfl, rfl, id, rfl⟩

theorem Apart.trans {s t u : State} (h : Apart s t) (k : Apart t u) : Apart s u :=
  ⟨k.1.trans h.1, k.2.trans h.2, k.3.trans h.3, k.4.trans h.4, k.5.trans h.5, k.6.trans h.6, k.7.trans h.7, k.8.trans h.8,
   k.9.trans h.9, k.10.trans h.10, k.11.trans h.11, k.12.trans h.12, fun q => (k.13 q).trans (h.13 q), k.14.trans h.14, k.15.trans h.15,
   k.16.trans h.16, k.17.trans h.17, fun o => k.18 (h.18 o),
   k.19.trans h.19⟩

theorem Apart.onEngine (s : State) (f : Engine → Engine) (h : (f s.engine).settings = s.engine.settings) : Apart s (s.onEngine f) :=
  { Apart.refl s with settings := h }

theorem Apart.onAhead (s : State) (f : ReadAhead → ReadAhead) : Apart s (s.onAhead f) := { Apart.refl s with }

theorem Apart.onPort (s : State) (p : Port) (f : PortState → PortState) (h : ∀ x, (f x).still = x.still) : Apart s (s.onPort p f) := by
  cases p
  · exact { Apart.refl s with portA := h _ }
  · exact { Apart.refl s with portT := h _ }

/-! ### The arbiter -/

theorem Apart.setClaim (s : State) (c : Claimant) (v : Option Claim) : Apart s (s.setClaim c v) := Apart.onEngine _ _ rfl

theorem Apart.setDeferred (s : State) (c : Claimant) (v : Option Claim) : Apart s (s.setDeferred c v) := Apart.onEngine _ _ rfl

theorem onFirst_still (f : Entry → Entry) (h : ∀ e, (f e).still = e.still) (l : List Entry) :
    (onFirst f l).map Entry.still = l.map Entry.still := by
  cases l with
  | nil => rfl
  | cons e l => simp [onFirst, h]

/-- The head changed in its state and its retries only. -/
theorem Apart.setHead (s : State) (q : QueueId) (f : Entry → Entry) (h : ∀ e, (f e).still = e.still) : Apart s (s.setHead q f) :=
  { Apart.refl s with
    queues := fun r => by
      unfold State.setHead State.onQueue State.setQueue
      cases q <;> cases r <;> simp only [PerQueue.put, PerQueue.get, Queue.still, onFirst_still f h] }

theorem Apart.grant (s : State) (c : Claimant) : Apart s (s.grant c) := by
  unfold State.grant
  split
  · exact Apart.refl s
  · split
    · refine Apart.trans (Apart.trans (Apart.setClaim s c none) ?_) (Apart.onEngine _ _ rfl)
      exact Apart.setHead _ _ _ fun _ => rfl
    · exact (Apart.setClaim s c none).trans (Apart.onEngine _ _ rfl)

theorem Apart.resume (s : State) (q : QueueId) : Apart s (s.resume q) := Apart.setHead s q _ fun _ => rfl

theorem Apart.grantPoint (s : State) : Apart s s.grantPoint := by
  unfold State.grantPoint
  split
  · exact Apart.refl s
  · split
    · split
      · exact Apart.grant ..
      · exact Apart.refl s
    · split
      · split
        · exact Apart.grant ..
        · exact Apart.resume ..
      · exact Apart.refl s

theorem Apart.suspend (s : State) (q : QueueId) : Apart s (s.suspend q) := by
  refine Apart.trans (Apart.trans ?_ (Apart.onEngine _ _ rfl)) (Apart.grantPoint _)
  exact Apart.setHead s q _ fun _ => rfl

theorem Apart.judgePreempt (s : State) : Apart s s.judgePreempt := by
  unfold State.judgePreempt
  split
  · split
    · exact Apart.suspend ..
    · exact Apart.refl s
  · exact Apart.refl s

theorem Apart.raiseClaim (s : State) (c : Claimant) (r : Option ReadRange) : Apart s (s.raiseClaim c r) := by
  unfold State.raiseClaim
  split
  · exact Apart.setDeferred ..
  · split
    · exact (Apart.setClaim s c _).trans (Apart.grant _ _)
    · split
      · exact (Apart.setClaim s c _).trans (Apart.judgePreempt _)
      · exact Apart.setClaim s c _

theorem Apart.withdraw (s : State) (c : Claimant) : Apart s (s.withdraw c) := (Apart.setClaim s c _).trans (Apart.setDeferred _ c _)

theorem Apart.discardGranted (s : State) (c : Claimant) : Apart s (s.discardGranted c) := Apart.onEngine _ _ rfl

theorem Apart.dropRead (s : State) (c : Claimant) : Apart s (s.dropRead c) := (Apart.withdraw s c).trans (Apart.discardGranted _ c)

theorem Apart.raiseDeferred (s : State) (c : Claimant) : Apart s (s.raiseDeferred c) := by
  unfold State.raiseDeferred
  split
  · exact (Apart.setDeferred s c none).trans (Apart.raiseClaim ..)
  · exact Apart.refl s

theorem Apart.ageClaim (s : State) (c : Claimant) : Apart s (s.ageClaim c) := by
  unfold State.ageClaim
  split
  · exact Apart.refl s
  · dsimp only
    split
    · exact (Apart.setClaim s c _).trans (Apart.judgePreempt _)
    · exact Apart.setClaim s c _

theorem Apart.claimHead (s : State) (q : QueueId) : Apart s (s.claimHead q) := by
  unfold State.claimHead
  split
  · exact Apart.raiseClaim ..
  · exact Apart.refl s

theorem Apart.endPageRead (s : State) : Apart s s.endPageRead := (Apart.onEngine s _ rfl).trans (Apart.grantPoint _)

/-! ### Read-ahead, passes, coverage -/

theorem Apart.mapSlots (s : State) (f : AheadSlot → AheadSlot) : Apart s (s.mapSlots f) := Apart.onAhead _ _

theorem Apart.dropFilling (s : State) : Apart s s.dropFilling := by
  unfold State.dropFilling
  split
  · exact (Apart.withdraw s _).trans (Apart.mapSlots ..)
  · exact Apart.discardGranted ..

theorem Apart.clearAhead (s : State) : Apart s s.clearAhead :=
  ((Apart.dropFilling s).trans (Apart.mapSlots _ _)).trans (Apart.onAhead _ _)

theorem Apart.dropOutside (s : State) (base i : Nat) : Apart s (s.dropOutside base i) := by
  unfold State.dropOutside
  split
  · exact Apart.dropFilling _
  · exact Apart.refl _

theorem Apart.movePosition (s : State) (i : Nat) : Apart s (s.movePosition i) := by
  unfold State.movePosition
  exact ((Apart.mapSlots s _).trans (Apart.dropOutside _ _ _)).trans (Apart.onAhead _ _)

theorem Apart.judgePrefetch (s : State) : Apart s s.judgePrefetch := by
  unfold State.judgePrefetch
  split
  · exact (Apart.onAhead s _).trans (Apart.raiseClaim _ _ _)
  · exact Apart.refl s

/-! ### The read path -/

theorem Apart.setReading (s : State) (p : Port) (r : Reading) : Apart s (s.setReading p r) :=
  Apart.onPort s p _ fun _ => rfl

theorem Apart.setPiece (s : State) (p : Port) (x : Piece) : Apart s (s.setPiece p x) := by
  unfold State.setPiece
  split
  · exact Apart.setReading ..
  · exact Apart.refl s

theorem Apart.claimPiece (s : State) (p : Port) (l : List Entry) (r : ReadRange) : Apart s (s.claimPiece p l r) :=
  (Apart.setPiece s p _).trans (Apart.raiseClaim _ _ _)

theorem Apart.judgePiece (s : State) (p : Port) (seg : Segment) (r : ReadRange) : Apart s (s.judgePiece p seg r) := by
  unfold State.judgePiece
  dsimp only
  split
  · exact Apart.setPiece ..
  · split
    · exact Apart.setPiece ..
    · split
      · exact Apart.setPiece ..
      · split
        · exact (Apart.dropFilling s).trans (Apart.claimPiece _ _ _ _)
        · exact Apart.setPiece ..
      · exact Apart.claimPiece ..

theorem Apart.rejudgeClaim (s : State) (q : QueueId) (p : Port) : Apart s (s.rejudgeClaim q p) := by
  unfold State.rejudgeClaim
  split
  · exact Apart.refl s
  · split
    · dsimp only
      split
      · exact (Apart.withdraw s _).trans (Apart.setPiece _ _ _)
      · exact Apart.refl s
    · exact Apart.refl s

theorem Apart.rejudgeImage (s : State) (q : QueueId) (p : Port) : Apart s (s.rejudgeImage q p) := by
  unfold State.rejudgeImage
  split
  · exact Apart.refl s
  · split
    · split
      · exact Apart.judgePiece ..
      · exact Apart.refl s
    · exact Apart.refl s

theorem Apart.rejudgeJoin (s : State) (q : QueueId) : Apart s (s.rejudgeJoin q) :=
  (Apart.rejudgeClaim s q .t).trans (Apart.rejudgeClaim _ q .a)

theorem Apart.rejudgeFormed (s : State) (q : QueueId) : Apart s (s.rejudgeFormed q) :=
  ((Apart.rejudgeJoin s q).trans (Apart.rejudgeImage _ q .t)).trans (Apart.rejudgeImage _ q .a)

theorem Apart.rejudgeSlot (s : State) : Apart s s.rejudgeSlot := by
  unfold State.rejudgeSlot
  split
  · split
    · exact Apart.judgePiece ..
    · exact Apart.refl s
  · exact Apart.refl s

theorem Apart.completePiece (s : State) (p : Port) : Apart s (s.completePiece p) := by
  unfold State.completePiece
  split
  · split
    · exact Apart.setPiece ..
    · exact Apart.refl s
  · exact Apart.refl s

theorem Apart.takePass (s : State) : Apart s s.takePass := by
  unfold State.takePass State.onPass
  split
  · exact { Apart.refl s with }
  · exact { Apart.refl s with passOpen := fun _ => rfl }

theorem Apart.formSegment (s : State) (p : Port) (rd : Reading) (l : Lifecycle) : Apart s (s.formSegment p rd l) := by
  unfold State.formSegment
  split
  · exact Apart.setReading ..
  · split
    · split
      · exact Apart.setReading ..
      · exact (Apart.takePass s).trans (Apart.setReading _ _ _)
    · exact Apart.setReading ..

theorem Apart.preparePiece (s : State) (p : Port) (rd : Reading) (seg : Segment) : Apart s (s.preparePiece p rd seg) := by
  unfold State.preparePiece
  split
  · exact Apart.setPiece ..
  · dsimp only
    split
    · refine Apart.trans ?_ ((Apart.judgePiece _ p seg _).trans (Apart.judgePrefetch _))
      split
      · exact Apart.refl s
      · exact Apart.movePosition ..
    · exact Apart.judgePiece ..
  · exact Apart.refl s

theorem Apart.reachSegment (s : State) (p : Port) (rd : Reading) (l : Lifecycle) : Apart s (s.reachSegment p rd l) := by
  unfold State.reachSegment
  split
  · exact Apart.formSegment ..
  · split
    · exact Apart.formSegment ..
    · exact Apart.refl s

theorem Apart.reachPiece (s : State) (p : Port) : Apart s (s.reachPiece p) := by
  unfold State.reachPiece
  split
  · split
    · split
      · exact Apart.preparePiece ..
      · exact Apart.refl s
    · exact Apart.refl s
  · exact Apart.refl s

theorem Apart.handByte (s : State) (p : Port) : Apart s (s.handByte p).1 := by
  unfold State.handByte
  split
  · split
    · split
      · dsimp only
        exact Apart.onPort s p _ fun _ => rfl
      · exact Apart.refl s
    · exact Apart.refl s
  · exact Apart.refl s

theorem Apart.deliverByte (s : State) (p : Port) : Apart s (s.deliverByte p).1 := by
  unfold State.deliverByte
  split
  · split
    · exact Apart.refl s
    · exact ((Apart.reachSegment s p _ _).trans (Apart.reachPiece _ p)).trans (Apart.handByte _ p)
  · exact Apart.refl s

theorem Apart.deliver (n : Nat) (p : Port) (s : State) : Apart s (deliver n p s) := by
  induction n generalizing s with
  | zero => exact Apart.refl s
  | succ n ih =>
    have h := Apart.deliverByte s p
    unfold Machine.deliver
    split
    · next s' heq => rw [heq] at h; exact h.trans (ih s')
    · next s' heq => rw [heq] at h; exact h

theorem Apart.runPort (s : State) (p : Port) : Apart s (s.runPort p) := by
  unfold State.runPort
  split
  · exact Apart.deliver ..
  · exact Apart.refl s

theorem Apart.runReads (s : State) : Apart s s.runReads := (Apart.runPort s .t).trans (Apart.runPort _ .a)


end Sys2Proof.Machine
end

