-- ==== Sys2Proof/Laws/Arbiter.lean ====
section
/-! SUPPORT. The Arbiter's operations change the engine and the states of queue heads, and nothing else: said once for each. -/

namespace Sys2Proof.Machine

-- One theorem after another: proofs checked side by side each hold a thread and its stack.
set_option Elab.async false

/-- `t` is `s` but for the engine and the queues. -/
def ArbiterOnly (s t : State) : Prop := t = { s with engine := t.engine, queues := t.queues }

theorem ArbiterOnly.refl (s : State) : ArbiterOnly s s := rfl

theorem ArbiterOnly.trans {s t u : State} (h : ArbiterOnly s t) (k : ArbiterOnly t u) : ArbiterOnly s u := by
  unfold ArbiterOnly at *
  rw [h] at k
  exact k

theorem ArbiterOnly.onEngine (s : State) (f : Engine → Engine) : ArbiterOnly s (s.onEngine f) := rfl

theorem ArbiterOnly.setClaim (s : State) (c : Claimant) (v : Option Claim) : ArbiterOnly s (s.setClaim c v) := ArbiterOnly.onEngine _ _

theorem ArbiterOnly.setDeferred (s : State) (c : Claimant) (v : Option Claim) : ArbiterOnly s (s.setDeferred c v) := ArbiterOnly.onEngine _ _

theorem ArbiterOnly.setHead (s : State) (q : QueueId) (f : Entry → Entry) : ArbiterOnly s (s.setHead q f) := rfl

theorem ArbiterOnly.grant (s : State) (c : Claimant) : ArbiterOnly s (s.grant c) := by
  unfold State.grant
  split
  · exact ArbiterOnly.refl s
  · split
    · refine ArbiterOnly.trans (ArbiterOnly.trans (ArbiterOnly.setClaim s c none) ?_) (ArbiterOnly.onEngine _ _)
      exact ArbiterOnly.setHead _ _ _
    · exact (ArbiterOnly.setClaim s c none).trans (ArbiterOnly.onEngine _ _)

theorem ArbiterOnly.resume (s : State) (q : QueueId) : ArbiterOnly s (s.resume q) := ArbiterOnly.setHead s q _

theorem ArbiterOnly.grantPoint (s : State) : ArbiterOnly s s.grantPoint := by
  unfold State.grantPoint
  split
  · exact ArbiterOnly.refl s
  · split
    · split
      · exact ArbiterOnly.grant ..
      · exact ArbiterOnly.refl s
    · split
      · split
        · exact ArbiterOnly.grant ..
        · exact ArbiterOnly.resume ..
      · exact ArbiterOnly.refl s

theorem ArbiterOnly.suspend (s : State) (q : QueueId) : ArbiterOnly s (s.suspend q) := by
  refine ArbiterOnly.trans (ArbiterOnly.trans ?_ (ArbiterOnly.onEngine _ _)) (ArbiterOnly.grantPoint _)
  exact ArbiterOnly.setHead s q _

theorem ArbiterOnly.judgePreempt (s : State) : ArbiterOnly s s.judgePreempt := by
  unfold State.judgePreempt
  split
  · split
    · exact ArbiterOnly.suspend ..
    · exact ArbiterOnly.refl s
  · exact ArbiterOnly.refl s

theorem ArbiterOnly.raiseClaim (s : State) (c : Claimant) (r : Option ReadRange) : ArbiterOnly s (s.raiseClaim c r) := by
  unfold State.raiseClaim
  split
  · exact ArbiterOnly.setDeferred ..
  · split
    · exact (ArbiterOnly.setClaim s c _).trans (ArbiterOnly.grant _ _)
    · split
      · exact (ArbiterOnly.setClaim s c _).trans (ArbiterOnly.judgePreempt _)
      · exact ArbiterOnly.setClaim s c _

theorem ArbiterOnly.withdraw (s : State) (c : Claimant) : ArbiterOnly s (s.withdraw c) := (ArbiterOnly.setClaim s c _).trans (ArbiterOnly.setDeferred _ c _)

theorem ArbiterOnly.discardGranted (s : State) (c : Claimant) : ArbiterOnly s (s.discardGranted c) := ArbiterOnly.onEngine _ _

theorem ArbiterOnly.dropRead (s : State) (c : Claimant) : ArbiterOnly s (s.dropRead c) := (ArbiterOnly.withdraw s c).trans (ArbiterOnly.discardGranted _ c)

theorem ArbiterOnly.raiseDeferred (s : State) (c : Claimant) : ArbiterOnly s (s.raiseDeferred c) := by
  unfold State.raiseDeferred
  split
  · exact (ArbiterOnly.setDeferred s c none).trans (ArbiterOnly.raiseClaim ..)
  · exact ArbiterOnly.refl s

theorem ArbiterOnly.ageClaim (s : State) (c : Claimant) : ArbiterOnly s (s.ageClaim c) := by
  unfold State.ageClaim
  split
  · exact ArbiterOnly.refl s
  · dsimp only
    split
    · exact (ArbiterOnly.setClaim s c _).trans (ArbiterOnly.judgePreempt _)
    · exact ArbiterOnly.setClaim s c _

theorem ArbiterOnly.claimHead (s : State) (q : QueueId) : ArbiterOnly s (s.claimHead q) := by
  unfold State.claimHead
  split
  · exact ArbiterOnly.raiseClaim ..
  · exact ArbiterOnly.refl s

theorem ArbiterOnly.endPageRead (s : State) : ArbiterOnly s s.endPageRead := (ArbiterOnly.onEngine s _).trans (ArbiterOnly.grantPoint _)

theorem ArbiterOnly.endWrite (s : State) : ArbiterOnly s s.endWrite := (ArbiterOnly.onEngine s _).trans (ArbiterOnly.grantPoint _)

theorem ArbiterOnly.portA {s t : State} (h : ArbiterOnly s t) : t.portA = s.portA := by rw [h]

theorem ArbiterOnly.portT {s t : State} (h : ArbiterOnly s t) : t.portT = s.portT := by rw [h]

theorem ArbiterOnly.uni {s t : State} (h : ArbiterOnly s t) : t.uni = s.uni := by rw [h]

theorem ArbiterOnly.ahead {s t : State} (h : ArbiterOnly s t) : t.ahead = s.ahead := by rw [h]

theorem ArbiterOnly.dir {s t : State} (h : ArbiterOnly s t) : t.dir = s.dir := by rw [h]

theorem ArbiterOnly.job {s t : State} (h : ArbiterOnly s t) : t.job = s.job := by rw [h]

theorem ArbiterOnly.carried {s t : State} (h : ArbiterOnly s t) : t.carried = s.carried := by rw [h]

theorem ArbiterOnly.life {s t : State} (h : ArbiterOnly s t) : t.life = s.life := by rw [h]

theorem ArbiterOnly.key {s t : State} (h : ArbiterOnly s t) : t.key = s.key := by rw [h]

theorem ArbiterOnly.pool {s t : State} (h : ArbiterOnly s t) : t.pool = s.pool := by rw [h]

theorem ArbiterOnly.flash {s t : State} (h : ArbiterOnly s t) : t.flash = s.flash := by rw [h]

theorem ArbiterOnly.nextSeq {s t : State} (h : ArbiterOnly s t) : t.nextSeq = s.nextSeq := by rw [h]

theorem ArbiterOnly.firstFailure {s t : State} (h : ArbiterOnly s t) : t.firstFailure = s.firstFailure := by rw [h]

theorem ArbiterOnly.attempts {s t : State} (h : ArbiterOnly s t) : t.attempts = s.attempts := by rw [h]

end Sys2Proof.Machine
end

