-- ==== Sys2Proof/Laws/Mem.lean ====
section
/-! SUPPORT. The canonical form of a memory, what keeps it, and what its operations read as. -/

namespace Sys2Proof.Machine

-- One theorem after another: proofs checked side by side each hold a thread and its stack.
set_option Elab.async false

/-- The canonical form, said of the list: addresses rise and no byte is `0xFF`. -/
theorem Mem.wf_iff (m : Mem) : Mem.wf m = true ↔ m.Pairwise (fun c d => c.1 < d.1) ∧ ∀ c ∈ m, c.2 ≠ erasedByte := by
  induction m with
  | nil => simp [Mem.wf]
  | cons c m ih =>
    cases m with
    | nil => simp [Mem.wf]
    | cons d m =>
      simp only [Mem.wf, Bool.and_eq_true, decide_eq_true_eq]
      rw [ih]
      constructor
      · rintro ⟨⟨hc, hlt⟩, hp, hne⟩
        refine ⟨List.pairwise_cons.2 ⟨?_, hp⟩, ?_⟩
        · intro x hx
          rcases List.mem_cons.1 hx with rfl | hx
          · exact hlt
          · exact lt_trans hlt ((List.pairwise_cons.1 hp).1 x hx)
        · intro x hx
          rcases List.mem_cons.1 hx with rfl | hx
          · exact hc
          · exact hne x hx
      · rintro ⟨hp, hne⟩
        have h := List.pairwise_cons.1 hp
        exact ⟨⟨hne c (by simp), h.1 d (by simp)⟩, h.2, fun x hx => hne x (List.mem_cons_of_mem _ hx)⟩

theorem Mem.wf_nil : Mem.wf [] = true := rfl

/-- An address below every listed one reads `0xFF`. -/
theorem Mem.get_of_below {m : Mem} {a : Nat} (h : ∀ c ∈ m, a < c.1) : Mem.get m a = erasedByte := by
  induction m with
  | nil => rfl
  | cons c m ih =>
    have hc := h c (by simp)
    simp only [Mem.get]
    rw [if_neg (by omega)]
    exact ih fun d hd => h d (List.mem_cons_of_mem _ hd)

theorem Mem.mem_set {m : Mem} {a : Nat} {b : Byte} {c : Host.Cell} (h : c ∈ Mem.set m a b) :
    c ∈ m ∨ (c = (a, b) ∧ b ≠ erasedByte) := by
  induction m with
  | nil =>
    simp only [Mem.set] at h
    split at h
    · cases h
    · simp only [List.mem_singleton] at h
      exact .inr ⟨h, by assumption⟩
  | cons d m ih =>
    simp only [Mem.set] at h
    split at h
    · split at h
      · exact .inl h
      · rcases List.mem_cons.1 h with h | h
        · exact .inr ⟨h, by assumption⟩
        · exact .inl h
    · split at h
      · split at h
        · exact .inl (List.mem_cons_of_mem _ h)
        · rcases List.mem_cons.1 h with h | h
          · exact .inr ⟨h, by assumption⟩
          · exact .inl (List.mem_cons_of_mem _ h)
      · rcases List.mem_cons.1 h with h | h
        · exact .inl (h ▸ List.mem_cons_self ..)
        · rcases ih h with h | h
          · exact .inl (List.mem_cons_of_mem _ h)
          · exact .inr h

/-- A write keeps the canonical form. -/
theorem Mem.wf_set {m : Mem} (h : Mem.wf m = true) (a : Nat) (b : Byte) : Mem.wf (Mem.set m a b) = true := by
  rw [Mem.wf_iff] at h ⊢
  obtain ⟨hp, hne⟩ := h
  refine ⟨?_, fun c hc => ?_⟩
  · clear hne
    induction m with
    | nil => simp only [Mem.set]; split <;> simp
    | cons d m ih =>
      have hd := List.pairwise_cons.1 hp
      simp only [Mem.set]
      split
      · next hlt =>
        split
        · exact hp
        · refine List.pairwise_cons.2 ⟨fun x hx => ?_, hp⟩
          rcases List.mem_cons.1 hx with rfl | hx
          · exact hlt
          · exact lt_trans hlt (hd.1 x hx)
      · split
        · next heq =>
          split
          · exact hd.2
          · exact List.pairwise_cons.2 ⟨fun x hx => by simpa [heq] using hd.1 x hx, hd.2⟩
        · next h1 h2 =>
          refine List.pairwise_cons.2 ⟨fun x hx => ?_, ih hd.2⟩
          rcases Mem.mem_set hx with hx | ⟨rfl, _⟩
          · exact hd.1 x hx
          · show d.1 < a
            omega
  · rcases Mem.mem_set hc with hc | ⟨rfl, hb⟩
    · exact hne c hc
    · exact hb

/-- What a memory reads as after a write. -/
theorem Mem.get_set {m : Mem} (h : Mem.wf m = true) (a x : Nat) (b : Byte) :
    Mem.get (Mem.set m a b) x = if x = a then b else Mem.get m x := by
  rw [Mem.wf_iff] at h
  have hp := h.1
  clear h
  induction m with
  | nil =>
    simp only [Mem.set]
    split
    · next hb => split <;> simp_all [Mem.get]
    · simp only [Mem.get]; split <;> split <;> simp_all
  | cons d m ih =>
    have hd := List.pairwise_cons.1 hp
    obtain ⟨k, c⟩ := d
    simp only [Mem.set]
    split
    · next hlt =>
      have hbelow : ∀ e ∈ ((k, c) :: m : Mem), a < e.1 := by
        intro e he
        rcases List.mem_cons.1 he with rfl | he
        · exact hlt
        · exact lt_trans hlt (hd.1 e he)
      split
      · next hb =>
        split
        · next hx => rw [hx, Mem.get_of_below hbelow, hb]
        · rfl
      · simp only [Mem.get]
        by_cases hx : x = a
        · simp [hx]
        · rw [if_neg (Ne.symm hx), if_neg hx]
    · split
      · next heq =>
        subst heq
        split
        · next hb =>
          by_cases hx : x = a
          · rw [if_pos hx, hx, Mem.get_of_below hd.1, hb]
          · simp [Mem.get, hx, Ne.symm hx]
        · by_cases hx : x = a
          · simp [Mem.get, hx]
          · simp [Mem.get, hx, Ne.symm hx]
      · next h1 h2 =>
        simp only [Mem.get]
        by_cases hk : k = x
        · rw [if_pos hk, if_pos hk, if_neg (by omega)]
        · rw [if_neg hk, if_neg hk]
          exact ih hd.2

theorem Mem.wf_setAll {m : Mem} (h : Mem.wf m = true) (base : Nat) (l : OffsetBytes) : Mem.wf (Mem.setAll m base l) = true := by
  unfold Mem.setAll
  induction l generalizing m with
  | nil => exact h
  | cons c l ih => exact ih (Mem.wf_set h _ _)

theorem Mem.wf_andAll {m : Mem} (h : Mem.wf m = true) (base : Nat) (l : OffsetBytes) : Mem.wf (Mem.andAll m base l) = true := by
  unfold Mem.andAll
  induction l generalizing m with
  | nil => exact h
  | cons c l ih => exact ih (Mem.wf_set h _ _)

theorem Mem.wf_erase {m : Mem} (h : Mem.wf m = true) (lo n : Nat) : Mem.wf (Mem.erase m lo n) = true := by
  rw [Mem.wf_iff] at h ⊢
  exact ⟨h.1.filter _, fun c hc => h.2 c (List.mem_of_mem_filter hc)⟩

theorem Mem.wf_cut {m : Mem} (h : Mem.wf m = true) (lo n : Nat) : Mem.wf (Mem.cut m lo n) = true := by
  rw [Mem.wf_iff] at h ⊢
  unfold Mem.cut
  refine ⟨?_, fun c hc => ?_⟩
  · rw [List.pairwise_map]
    refine List.Pairwise.imp_of_mem ?_ (h.1.filter _)
    intro c d hc hd hlt
    have h1 := (List.mem_filter.1 hc).2
    have h2 := (List.mem_filter.1 hd).2
    simp only [Bool.and_eq_true, decide_eq_true_eq] at h1 h2
    show c.1 - lo < d.1 - lo
    omega
  · obtain ⟨d, hd, rfl⟩ := List.mem_map.1 hc
    exact h.2 d (List.mem_of_mem_filter hd)

/-- ANDing bytes in reads as before at every address that is none of theirs. -/
theorem Mem.get_andAll_of_not_mem {m : Mem} (h : Mem.wf m = true) (base x : Nat) (l : OffsetBytes) (hx : ∀ c ∈ l, base + c.1 ≠ x) :
    Mem.get (Mem.andAll m base l) x = Mem.get m x := by
  unfold Mem.andAll
  induction l generalizing m with
  | nil => rfl
  | cons c l ih =>
    rw [List.foldl_cons, ih (Mem.wf_set h _ _) fun d hd => hx d (List.mem_cons_of_mem _ hd), Mem.get_set h]
    rw [if_neg (Ne.symm (hx c (by simp)))]

/-- Setting bytes reads as before at every address that is none of theirs. -/
theorem Mem.get_setAll_of_not_mem {m : Mem} (h : Mem.wf m = true) (base x : Nat) (l : OffsetBytes) (hx : ∀ c ∈ l, base + c.1 ≠ x) :
    Mem.get (Mem.setAll m base l) x = Mem.get m x := by
  unfold Mem.setAll
  induction l generalizing m with
  | nil => rfl
  | cons c l ih =>
    rw [List.foldl_cons, ih (Mem.wf_set h _ _) fun d hd => hx d (List.mem_cons_of_mem _ hd), Mem.get_set h]
    rw [if_neg (Ne.symm (hx c (by simp)))]

/-- An erased range reads `0xFF`; every other address reads as before. -/
theorem Mem.get_erase (m : Mem) (lo n x : Nat) :
    Mem.get (Mem.erase m lo n) x = if lo ≤ x ∧ x < lo + n then erasedByte else Mem.get m x := by
  unfold Mem.erase
  induction m with
  | nil => simp [Mem.get]
  | cons c m ih =>
    obtain ⟨k, b⟩ := c
    simp only [List.filter_cons]
    by_cases hk : lo ≤ k ∧ k < lo + n
    · have : (decide (k < lo) || decide (lo + n ≤ k)) = false := by simp; omega
      simp only [this, Bool.false_eq_true, if_false, Mem.get]
      rw [ih]
      by_cases hx : k = x
      · subst hx; simp [hk]
      · simp [hx]
    · have : (decide (k < lo) || decide (lo + n ≤ k)) = true := by simp; omega
      simp only [this, if_true, Mem.get]
      by_cases hx : k = x
      · subst hx; simp only [if_true]; rw [if_neg hk]
      · simp only [hx, if_false]; exact ih

/-- The byte at an address where one byte is ANDed in, the offsets being distinct. -/
theorem Mem.get_andAll_of_mem {m : Mem} (h : Mem.wf m = true) (base : Nat) (l : OffsetBytes) (hl : l.Pairwise (fun c d => c.1 ≠ d.1))
    {c : Nat × Byte} (hc : c ∈ l) : Mem.get (Mem.andAll m base l) (base + c.1) = Mem.get m (base + c.1) &&& c.2 := by
  unfold Mem.andAll
  induction l generalizing m with
  | nil => cases hc
  | cons d l ih =>
    have hd := List.pairwise_cons.1 hl
    rw [List.foldl_cons]
    rcases List.mem_cons.1 hc with rfl | hc
    · have := Mem.get_andAll_of_not_mem (Mem.wf_set h (base + c.1) (Mem.get m (base + c.1) &&& c.2)) base (base + c.1) l
        (fun e he heq => hd.1 e he (by omega))
      unfold Mem.andAll at this
      rw [this, Mem.get_set h, if_pos rfl]
    · rw [ih (Mem.wf_set h _ _) hd.2 hc, Mem.get_set h, if_neg]
      intro heq
      exact hd.1 c hc (by omega)

/-- Two canonical memories that read alike are equal. -/
theorem Mem.ext_get {m n : Mem} (hm : Mem.wf m = true) (hn : Mem.wf n = true) (h : ∀ a, Mem.get m a = Mem.get n a) : m = n := by
  rw [Mem.wf_iff] at hm hn
  induction m generalizing n with
  | nil =>
    cases n with
    | nil => rfl
    | cons d n =>
      have := h d.1
      simp only [Mem.get, if_true] at this
      exact absurd this.symm (hn.2 d (by simp))
  | cons c m ih =>
    cases n with
    | nil =>
      have := h c.1
      simp only [Mem.get, if_true] at this
      exact absurd this (hm.2 c (by simp))
    | cons d n =>
      have hc := List.pairwise_cons.1 hm.1
      have hd := List.pairwise_cons.1 hn.1
      have hk : c.1 = d.1 := by
        rcases lt_trichotomy c.1 d.1 with hlt | heq | hlt
        · have := h c.1
          rw [Mem.get_of_below (m := d :: n) (by
            intro e he
            rcases List.mem_cons.1 he with rfl | he
            · exact hlt
            · exact lt_trans hlt (hd.1 e he))] at this
          simp only [Mem.get, if_true] at this
          exact absurd this (hm.2 c (by simp))
        · exact heq
        · have := h d.1
          rw [Mem.get_of_below (m := c :: m) (by
            intro e he
            rcases List.mem_cons.1 he with rfl | he
            · exact hlt
            · exact lt_trans hlt (hc.1 e he))] at this
          simp only [Mem.get, if_true] at this
          exact absurd this.symm (hn.2 d (by simp))
      have hb : c.2 = d.2 := by
        have := h c.1
        simp only [Mem.get, if_true, hk] at this
        exact this
      have hcd : c = d := Prod.ext hk hb
      subst hcd
      congr 1
      refine ih ⟨hc.2, fun e he => hm.2 e (List.mem_cons_of_mem _ he)⟩ ⟨hd.2, fun e he => hn.2 e (List.mem_cons_of_mem _ he)⟩ ?_
      intro a
      by_cases ha : c.1 = a
      · subst ha
        rw [Mem.get_of_below hc.1, Mem.get_of_below hd.1]
      · have := h a
        simp only [Mem.get, ha, if_false] at this
        exact this

end Sys2Proof.Machine
end

