-- ==== Sys2Proof/Laws/Keeps.lean ====
section
/-! SUPPORT. What no operation but a flash operation and a device reset changes, said once for each operation: the relation `Keeps`. -/

namespace Sys2Proof.Machine

-- One theorem after another: proofs checked side by side each hold a thread and its stack.
set_option Elab.async false

/-- A port that carries no write of its own: never busy for a queue, with no awaiting write and no PROGRAM-ERR (R40: Port T). -/
structure PortState.Orderly (x : PortState) : Prop where
  cause : x.cause = .loading ∨ x.cause = .none
  awaiting : x.awaiting = none
  programErr : x.programErr = false

/-- What every operation short of a flash operation keeps, but for the count of pages. -/
structure KeepsRest (s t : State) : Prop where
  pending : t.pending = s.pending
  flash : t.flash = s.flash
  fuse : s.fuseCell = true → t.fuseCell = true
  slots : t.dir.slots.length = s.dir.slots.length
  ahead : t.ahead.slots.length = s.ahead.slots.length
  attempts : s.attempts ≤ 3 → t.attempts ≤ 3
  staging : Mem.wf s.key.staging = true → Mem.wf t.key.staging = true
  portT : s.portT.Orderly → t.portT.Orderly

/-- What every operation short of a flash operation keeps. -/
structure Keeps (s t : State) : Prop extends KeepsRest s t where
  pages : t.pageCount = s.pageCount

theorem KeepsRest.trans {s t u : State} (h : KeepsRest s t) (k : KeepsRest t u) : KeepsRest s u :=
  ⟨k.1.trans h.1, k.2.trans h.2, fun x => k.3 (h.3 x), k.4.trans h.4, k.5.trans h.5, fun x => k.6 (h.6 x), fun x => k.7 (h.7 x),
   fun x => k.8 (h.8 x)⟩

theorem Keeps.refl (s : State) : Keeps s s := ⟨⟨rfl, rfl, id, rfl, rfl, id, id, id⟩, rfl⟩

theorem Keeps.trans {s t u : State} (h : Keeps s t) (k : Keeps t u) : Keeps s u :=
  ⟨h.toKeepsRest.trans k.toKeepsRest, k.pages.trans h.pages⟩

/-- The entries of a list that hold a page. -/
def heldIn (l : List Entry) : Nat := (l.filter (fun e => e.page.isSome)).length

theorem State.pagesHeld_eq (s : State) (q : QueueId) : s.pagesHeld q = heldIn (s.entriesOf q) := rfl

theorem heldIn_append (l m : List Entry) : heldIn (l ++ m) = heldIn l + heldIn m := by simp [heldIn]

theorem heldIn_cons (e : Entry) (l : List Entry) : heldIn (e :: l) = e.page.isSome.toNat + heldIn l := by
  unfold heldIn
  cases h : e.page <;> simp [h, Nat.add_comm]

/-- Queues that hold as many pages each, with the pool as it was, give the same count of pages. -/
theorem State.pageCount_congr {s t : State} (hp : t.pool = s.pool) (hq : ∀ q, t.pagesHeld q = s.pagesHeld q) :
    t.pageCount = s.pageCount := by
  simp only [State.pageCount, State.freePages, hp, hq]

/-- A queue replaced by one that holds `n` pages. -/
theorem State.pageCount_setQueue (s : State) (q : QueueId) (x : Queue) :
    (s.setQueue q x).pageCount + s.pagesHeld q = s.pageCount + heldIn x.entries := by
  cases q <;> simp [State.pageCount, State.freePages, State.pagesHeld_eq, State.entriesOf, State.setQueue, PerQueue.put, PerQueue.get] <;>
    omega

theorem State.pageCount_setQueue_same (s : State) (q : QueueId) (x : Queue) (h : heldIn x.entries = s.pagesHeld q) :
    (s.setQueue q x).pageCount = s.pageCount := by
  have := s.pageCount_setQueue q x
  omega

/-- An operation that leaves all of this as it was, but for the count of pages. -/
theorem KeepsRest.of_same {s t : State} (pending : t.pending = s.pending := by rfl) (flash : t.flash = s.flash := by rfl)
    (fuse : t.fuseCell = s.fuseCell := by rfl) (slots : t.dir.slots.length = s.dir.slots.length := by rfl)
    (ahead : t.ahead.slots.length = s.ahead.slots.length := by rfl) (attempts : t.attempts = s.attempts := by rfl)
    (staging : t.key.staging = s.key.staging := by rfl)
    (portT : s.portT.Orderly → t.portT.Orderly := by exact fun h => ⟨h.1, h.2, h.3⟩) : KeepsRest s t :=
  ⟨pending, flash, fun h => fuse ▸ h, slots, ahead, fun h => attempts ▸ h, fun h => staging ▸ h, portT⟩

/-- An operation that leaves all of this as it was. -/
theorem Keeps.of_same {s t : State} (pending : t.pending = s.pending := by rfl) (flash : t.flash = s.flash := by rfl)
    (fuse : t.fuseCell = s.fuseCell := by rfl) (slots : t.dir.slots.length = s.dir.slots.length := by rfl)
    (ahead : t.ahead.slots.length = s.ahead.slots.length := by rfl) (attempts : t.attempts = s.attempts := by rfl)
    (staging : t.key.staging = s.key.staging := by rfl) (pages : t.pageCount = s.pageCount := by rfl)
    (portT : s.portT.Orderly → t.portT.Orderly := by exact fun h => ⟨h.1, h.2, h.3⟩) : Keeps s t :=
  ⟨KeepsRest.of_same pending flash fuse slots ahead attempts staging portT, pages⟩

/-! ### The updates of one block -/

theorem Keeps.onEngine (s : State) (f : Engine → Engine) : Keeps s (s.onEngine f) := Keeps.of_same

theorem Keeps.onUni (s : State) (f : UniformityUnit → UniformityUnit) : Keeps s (s.onUni f) := Keeps.of_same

theorem Keeps.onLife (s : State) (f : LifecycleUnit → LifecycleUnit) : Keeps s (s.onLife f) := Keeps.of_same

theorem Keeps.onAhead (s : State) (f : ReadAhead → ReadAhead) (h : (f s.ahead).slots.length = s.ahead.slots.length) :
    Keeps s (s.onAhead f) := Keeps.of_same (ahead := h)

theorem Keeps.onDir (s : State) (f : DirectiveUnit → DirectiveUnit) (h : (f s.dir).slots.length = s.dir.slots.length) :
    Keeps s (s.onDir f) := Keeps.of_same (slots := h)

theorem Keeps.onKey (s : State) (f : KeyUnit → KeyUnit) (h : Mem.wf s.key.staging = true → Mem.wf (f s.key).staging = true) :
    Keeps s (s.onKey f) := { Keeps.refl s with staging := h }

theorem Keeps.setJob (s : State) (j : Option Job) : Keeps s (s.setJob j) := Keeps.of_same

theorem Keeps.setFirstFailure (s : State) (x : Option FirstFailure) : Keeps s (s.setFirstFailure x) := Keeps.of_same

theorem Keeps.setAttempts (s : State) (n : Nat) (h : s.attempts ≤ 3 → n ≤ 3) : Keeps s (s.setAttempts n) :=
  { Keeps.refl s with attempts := h }

/-- A port changed to one no less orderly. -/
theorem Keeps.onPort (s : State) (p : Port) (f : PortState → PortState) (h : p = .t → s.portT.Orderly → (f s.portT).Orderly) :
    Keeps s (s.onPort p f) := by
  cases p
  · exact Keeps.of_same
  · exact Keeps.of_same (portT := h rfl)

/-- A queue changed with its pages kept. -/
theorem Keeps.onQueue (s : State) (q : QueueId) (f : Queue → Queue) (h : heldIn (f (s.queues.get q)).entries = s.pagesHeld q) :
    Keeps s (s.onQueue q f) := Keeps.of_same (pages := State.pageCount_setQueue_same s q _ h)

/-! ### Ports and flags -/

theorem Keeps.raise (s : State) (e : Event) : Keeps s (s.raise e) := Keeps.onDir _ _ rfl

theorem Keeps.refuse (s : State) (p : Port) (k : WriteKind) (a : Nat) (r : RefusalReason) : Keeps s (s.refuse p k a r) :=
  ((Keeps.onPort s p _ fun _ h => ⟨h.1, h.2, h.3⟩).trans (Keeps.onDir _ _ rfl)).trans (Keeps.raise _ _)

theorem Keeps.ignore (s : State) (p : Port) : Keeps s (s.ignore p) :=
  (Keeps.onPort s p _ fun _ h => ⟨h.1, h.2, h.3⟩).trans (Keeps.raise _ _)

theorem Keeps.judged (s : State) (q : QueueId) : Keeps s (s.onQueue q Queue.judged) := Keeps.onQueue s q _ rfl

theorem Keeps.judgeHigh (s : State) (q : QueueId) : Keeps s (s.judgeHigh q) := by
  unfold State.judgeHigh
  split
  · exact (Keeps.judged s q).trans (Keeps.raise _ _)
  · exact Keeps.judged s q

theorem Keeps.countFailure (s : State) (q : QueueId) : Keeps s (s.countFailure q) :=
  (Keeps.onQueue s q _ rfl).trans (Keeps.raise _ _)

theorem State.pageCount_setEntries (s : State) (q : QueueId) (l : List Entry) :
    (s.setEntries q l).pageCount + s.pagesHeld q = s.pageCount + heldIn l := by
  unfold State.setEntries
  rw [(Keeps.judgeHigh _ q).pages]
  exact s.pageCount_setQueue q _

/-- A queue's entries replaced by as many pages' worth. -/
theorem Keeps.setEntries (s : State) (q : QueueId) (l : List Entry) (h : heldIn l = s.pagesHeld q) : Keeps s (s.setEntries q l) :=
  (Keeps.onQueue s q _ h).trans (Keeps.judgeHigh _ q)

/-! ### The arbiter -/

theorem Keeps.setClaim (s : State) (c : Claimant) (v : Option Claim) : Keeps s (s.setClaim c v) := Keeps.onEngine _ _

theorem Keeps.setDeferred (s : State) (c : Claimant) (v : Option Claim) : Keeps s (s.setDeferred c v) := Keeps.onEngine _ _

theorem heldIn_onFirst (f : Entry → Entry) (h : ∀ e, (f e).page = e.page) (l : List Entry) : heldIn (onFirst f l) = heldIn l := by
  cases l with
  | nil => rfl
  | cons e l => simp [onFirst, heldIn_cons, h]

/-- The head changed with its page kept. -/
theorem Keeps.setHead (s : State) (q : QueueId) (f : Entry → Entry) (h : ∀ e, (f e).page = e.page) : Keeps s (s.setHead q f) :=
  Keeps.onQueue s q _ (heldIn_onFirst f h _)

theorem Keeps.grant (s : State) (c : Claimant) : Keeps s (s.grant c) := by
  unfold State.grant
  split
  · exact Keeps.refl s
  · split
    · refine Keeps.trans (Keeps.trans (Keeps.setClaim s c none) ?_) (Keeps.onEngine _ _)
      exact Keeps.setHead _ _ _ fun _ => rfl
    · exact (Keeps.setClaim s c none).trans (Keeps.onEngine _ _)

theorem Keeps.resume (s : State) (q : QueueId) : Keeps s (s.resume q) := Keeps.setHead s q _ fun _ => rfl

theorem Keeps.grantPoint (s : State) : Keeps s s.grantPoint := by
  unfold State.grantPoint
  split
  · exact Keeps.refl s
  · split
    · split
      · exact Keeps.grant ..
      · exact Keeps.refl s
    · split
      · split
        · exact Keeps.grant ..
        · exact Keeps.resume ..
      · exact Keeps.refl s

theorem Keeps.suspend (s : State) (q : QueueId) : Keeps s (s.suspend q) := by
  refine Keeps.trans (Keeps.trans ?_ (Keeps.onEngine _ _)) (Keeps.grantPoint _)
  exact Keeps.setHead s q _ fun _ => rfl

theorem Keeps.judgePreempt (s : State) : Keeps s s.judgePreempt := by
  unfold State.judgePreempt
  split
  · split
    · exact Keeps.suspend ..
    · exact Keeps.refl s
  · exact Keeps.refl s

theorem Keeps.raiseClaim (s : State) (c : Claimant) (r : Option ReadRange) : Keeps s (s.raiseClaim c r) := by
  unfold State.raiseClaim
  split
  · exact Keeps.setDeferred ..
  · split
    · exact (Keeps.setClaim s c _).trans (Keeps.grant _ _)
    · split
      · exact (Keeps.setClaim s c _).trans (Keeps.judgePreempt _)
      · exact Keeps.setClaim s c _

theorem Keeps.withdraw (s : State) (c : Claimant) : Keeps s (s.withdraw c) := (Keeps.setClaim s c _).trans (Keeps.setDeferred _ c _)

theorem Keeps.discardGranted (s : State) (c : Claimant) : Keeps s (s.discardGranted c) := Keeps.onEngine _ _

theorem Keeps.dropRead (s : State) (c : Claimant) : Keeps s (s.dropRead c) := (Keeps.withdraw s c).trans (Keeps.discardGranted _ c)

theorem Keeps.raiseDeferred (s : State) (c : Claimant) : Keeps s (s.raiseDeferred c) := by
  unfold State.raiseDeferred
  split
  · exact (Keeps.setDeferred s c none).trans (Keeps.raiseClaim ..)
  · exact Keeps.refl s

theorem Keeps.ageClaim (s : State) (c : Claimant) : Keeps s (s.ageClaim c) := by
  unfold State.ageClaim
  split
  · exact Keeps.refl s
  · dsimp only
    split
    · exact (Keeps.setClaim s c _).trans (Keeps.judgePreempt _)
    · exact Keeps.setClaim s c _

theorem Keeps.claimHead (s : State) (q : QueueId) : Keeps s (s.claimHead q) := by
  unfold State.claimHead
  split
  · exact Keeps.raiseClaim ..
  · exact Keeps.refl s

theorem Keeps.endPageRead (s : State) : Keeps s s.endPageRead := (Keeps.onEngine s _).trans (Keeps.grantPoint _)

theorem Keeps.endWrite (s : State) : Keeps s s.endWrite := (Keeps.onEngine s _).trans (Keeps.grantPoint _)

/-! ### Read-ahead, passes, coverage -/

theorem Keeps.mapSlots (s : State) (f : AheadSlot → AheadSlot) : Keeps s (s.mapSlots f) := Keeps.onAhead _ _ (by simp)

theorem Keeps.dropFilling (s : State) : Keeps s s.dropFilling := by
  unfold State.dropFilling
  split
  · exact (Keeps.withdraw s _).trans (Keeps.mapSlots ..)
  · exact Keeps.discardGranted ..

theorem Keeps.clearAhead (s : State) : Keeps s s.clearAhead :=
  ((Keeps.dropFilling s).trans (Keeps.mapSlots _ _)).trans (Keeps.onAhead _ _ rfl)

theorem Keeps.dropOutside (s : State) (base i : Nat) : Keeps s (s.dropOutside base i) := by
  unfold State.dropOutside
  split
  · exact Keeps.dropFilling _
  · exact Keeps.refl _

theorem Keeps.movePosition (s : State) (i : Nat) : Keeps s (s.movePosition i) := by
  unfold State.movePosition
  exact ((Keeps.mapSlots s _).trans (Keeps.dropOutside _ _ _)).trans (Keeps.onAhead _ _ rfl)

theorem fillFirst_length (page : Nat) (l : List AheadSlot) : (fillFirst page l).length = l.length := by
  induction l with
  | nil => rfl
  | cons x l ih => cases x <;> simp [fillFirst, ih]

theorem Keeps.judgePrefetch (s : State) : Keeps s s.judgePrefetch := by
  unfold State.judgePrefetch
  split
  · exact (Keeps.onAhead s _ (fillFirst_length _ _)).trans (Keeps.raiseClaim _ _ _)
  · exact Keeps.refl s

theorem Keeps.onPass (s : State) (f : PassRecord → PassRecord) : Keeps s (s.onPass f) := Keeps.onUni _ _

theorem Keeps.takePass (s : State) : Keeps s s.takePass := by
  unfold State.takePass
  split <;> exact Keeps.onPass ..

theorem Keeps.closePass (s : State) : Keeps s s.closePass := (Keeps.onPass s _).trans (Keeps.clearAhead _)

theorem Keeps.startIdle (s : State) : Keeps s s.startIdle := Keeps.onPass ..

theorem Keeps.coverage (s : State) (e : Entry) (f : Bool) : Keeps s (s.coverage e f) := by
  unfold State.coverage
  split
  · exact Keeps.refl s
  · dsimp only
    split
    · exact Keeps.onUni _ _
    · exact Keeps.refl s

/-! ### The read path -/

theorem Keeps.setReading (s : State) (p : Port) (r : Reading) : Keeps s (s.setReading p r) :=
  Keeps.onPort s p _ fun _ h => ⟨h.1, h.2, h.3⟩

theorem Keeps.setPiece (s : State) (p : Port) (x : Piece) : Keeps s (s.setPiece p x) := by
  unfold State.setPiece
  split
  · exact Keeps.setReading ..
  · exact Keeps.refl s

theorem Keeps.claimPiece (s : State) (p : Port) (l : List Entry) (r : ReadRange) : Keeps s (s.claimPiece p l r) :=
  (Keeps.setPiece s p _).trans (Keeps.raiseClaim _ _ _)

theorem Keeps.judgePiece (s : State) (p : Port) (seg : Segment) (r : ReadRange) : Keeps s (s.judgePiece p seg r) := by
  unfold State.judgePiece
  dsimp only
  split
  · exact Keeps.setPiece ..
  · split
    · exact Keeps.setPiece ..
    · split
      · exact Keeps.setPiece ..
      · split
        · exact (Keeps.dropFilling s).trans (Keeps.claimPiece _ _ _ _)
        · exact Keeps.setPiece ..
      · exact Keeps.claimPiece ..

theorem Keeps.rejudgeClaim (s : State) (q : QueueId) (p : Port) : Keeps s (s.rejudgeClaim q p) := by
  unfold State.rejudgeClaim
  split
  · exact Keeps.refl s
  · split
    · dsimp only
      split
      · exact (Keeps.withdraw s _).trans (Keeps.setPiece _ _ _)
      · exact Keeps.refl s
    · exact Keeps.refl s

theorem Keeps.rejudgeImage (s : State) (q : QueueId) (p : Port) : Keeps s (s.rejudgeImage q p) := by
  unfold State.rejudgeImage
  split
  · exact Keeps.refl s
  · split
    · split
      · exact Keeps.judgePiece ..
      · exact Keeps.refl s
    · exact Keeps.refl s

theorem Keeps.rejudgeJoin (s : State) (q : QueueId) : Keeps s (s.rejudgeJoin q) :=
  (Keeps.rejudgeClaim s q .t).trans (Keeps.rejudgeClaim _ q .a)

theorem Keeps.rejudgeFormed (s : State) (q : QueueId) : Keeps s (s.rejudgeFormed q) :=
  ((Keeps.rejudgeJoin s q).trans (Keeps.rejudgeImage _ q .t)).trans (Keeps.rejudgeImage _ q .a)

theorem Keeps.rejudgeSlot (s : State) : Keeps s s.rejudgeSlot := by
  unfold State.rejudgeSlot
  split
  · split
    · exact Keeps.judgePiece ..
    · exact Keeps.refl s
  · exact Keeps.refl s

theorem Keeps.completePiece (s : State) (p : Port) : Keeps s (s.completePiece p) := by
  unfold State.completePiece
  split
  · split
    · exact Keeps.setPiece ..
    · exact Keeps.refl s
  · exact Keeps.refl s

theorem Keeps.formSegment (s : State) (p : Port) (rd : Reading) (l : Lifecycle) : Keeps s (s.formSegment p rd l) := by
  unfold State.formSegment
  split
  · exact Keeps.setReading ..
  · split
    · split
      · exact Keeps.setReading ..
      · exact (Keeps.takePass s).trans (Keeps.setReading _ _ _)
    · exact Keeps.setReading ..

theorem Keeps.preparePiece (s : State) (p : Port) (rd : Reading) (seg : Segment) : Keeps s (s.preparePiece p rd seg) := by
  unfold State.preparePiece
  split
  · exact Keeps.setPiece ..
  · dsimp only
    split
    · refine Keeps.trans ?_ ((Keeps.judgePiece _ p seg _).trans (Keeps.judgePrefetch _))
      split
      · exact Keeps.refl s
      · exact Keeps.movePosition ..
    · exact Keeps.judgePiece ..
  · exact Keeps.refl s

theorem Keeps.reachSegment (s : State) (p : Port) (rd : Reading) (l : Lifecycle) : Keeps s (s.reachSegment p rd l) := by
  unfold State.reachSegment
  split
  · exact Keeps.formSegment ..
  · split
    · exact Keeps.formSegment ..
    · exact Keeps.refl s

theorem Keeps.reachPiece (s : State) (p : Port) : Keeps s (s.reachPiece p) := by
  unfold State.reachPiece
  split
  · split
    · split
      · exact Keeps.preparePiece ..
      · exact Keeps.refl s
    · exact Keeps.refl s
  · exact Keeps.refl s

theorem Keeps.handByte (s : State) (p : Port) : Keeps s (s.handByte p).1 := by
  unfold State.handByte
  split
  · split
    · split
      · dsimp only
        exact Keeps.onPort s p _ fun _ h => ⟨h.1, h.2, h.3⟩
      · exact Keeps.refl s
    · exact Keeps.refl s
  · exact Keeps.refl s

theorem Keeps.deliverByte (s : State) (p : Port) : Keeps s (s.deliverByte p).1 := by
  unfold State.deliverByte
  split
  · split
    · exact Keeps.refl s
    · exact ((Keeps.reachSegment s p _ _).trans (Keeps.reachPiece _ p)).trans (Keeps.handByte _ p)
  · exact Keeps.refl s

theorem Keeps.deliver (n : Nat) (p : Port) (s : State) : Keeps s (deliver n p s) := by
  induction n generalizing s with
  | zero => exact Keeps.refl s
  | succ n ih =>
    have h := Keeps.deliverByte s p
    unfold Machine.deliver
    split
    · next s' heq => rw [heq] at h; exact h.trans (ih s')
    · next s' heq => rw [heq] at h; exact h

theorem Keeps.runPort (s : State) (p : Port) : Keeps s (s.runPort p) := by
  unfold State.runPort
  split
  · exact Keeps.deliver ..
  · exact Keeps.refl s

theorem Keeps.runReads (s : State) : Keeps s s.runReads := (Keeps.runPort s .t).trans (Keeps.runPort _ .a)

/-! ### The write queues -/

/-- A page taken from the pool. -/
theorem State.pageCount_takePage (s : State) (k : WriteKind) :
    (s.takePage k).1.pageCount + (s.takePage k).2.isSome.toNat = s.pageCount := by
  cases k <;> simp only [State.takePage, Option.isSome_none, Bool.toNat_false, Nat.add_zero]
  cases h : s.pool with
  | nil => simp [State.pageCount, State.freePages, State.pagesHeld_eq, State.entriesOf, h]
  | cons p l => simp [State.pageCount, State.freePages, State.pagesHeld_eq, State.entriesOf, h]; omega

theorem KeepsRest.takePage (s : State) (k : WriteKind) : KeepsRest s (s.takePage k).1 := by
  cases k <;> exact KeepsRest.of_same

theorem KeepsRest.setEntries (s : State) (q : QueueId) (l : List Entry) : KeepsRest s (s.setEntries q l) :=
  (KeepsRest.of_same (t := s.onQueue q fun x => { x with entries := l })).trans (Keeps.judgeHigh _ q).toKeepsRest

theorem KeepsRest.addEntry (s : State) (q : QueueId) (e : Entry) : KeepsRest s (s.addEntry q e) :=
  (KeepsRest.of_same (t := { s with nextSeq := s.nextSeq + 1 })).trans (KeepsRest.setEntries _ q _)

theorem Keeps.claimFirst (s : State) (q : QueueId) (l : List Entry) : Keeps s (s.claimFirst q l) := by
  unfold State.claimFirst
  split
  · exact Keeps.claimHead ..
  · exact Keeps.refl s

theorem KeepsRest.joinEntry (s : State) (q : QueueId) (e : Entry) : KeepsRest s (s.joinEntry q e) :=
  (KeepsRest.addEntry s q e).trans ((Keeps.claimFirst _ q _).trans (Keeps.rejudgeJoin _ q)).toKeepsRest

/-- An entry that joins brings its page with it. -/
theorem State.pageCount_joinEntry (s : State) (q : QueueId) (e : Entry) :
    (s.joinEntry q e).pageCount = s.pageCount + e.page.isSome.toNat := by
  have h := State.pageCount_setEntries { s with nextSeq := s.nextSeq + 1 } q (s.entriesOf q ++ [{ e with seq := s.nextSeq }])
  have hj : (s.joinEntry q e).pageCount = (s.addEntry q e).pageCount :=
    ((Keeps.claimFirst _ q _).trans (Keeps.rejudgeJoin _ q)).pages
  rw [heldIn_append, heldIn_cons] at h
  have hs : State.pageCount { s with nextSeq := s.nextSeq + 1 } = s.pageCount := rfl
  have hq : State.pagesHeld { s with nextSeq := s.nextSeq + 1 } q = heldIn (s.entriesOf q) := rfl
  rw [hj]
  unfold State.addEntry
  simp only [heldIn, List.filter_nil, List.length_nil] at h hq
  rw [hs, hq] at h
  omega

theorem Keeps.postWrite (s : State) (w : QueuedWrite) : Keeps s (s.postWrite w) := by
  unfold State.postWrite
  have hp := State.pageCount_takePage s w.kind
  have hj := State.pageCount_joinEntry (s.takePage w.kind).1 w.queue (w.entry s.nextSeq (s.takePage w.kind).2)
  have hr := (KeepsRest.takePage s w.kind).trans
    (KeepsRest.joinEntry (s.takePage w.kind).1 w.queue (w.entry s.nextSeq (s.takePage w.kind).2))
  refine Keeps.trans ⟨hr, ?_⟩ (Keeps.onPort _ .a _ fun h => nomatch h)
  rw [hj]
  exact hp

theorem Keeps.takeQueued (s : State) (w : QueuedWrite) : Keeps s (s.takeQueued w) := by
  unfold State.takeQueued
  split
  · exact Keeps.onPort _ .a _ fun h => nomatch h
  · exact Keeps.postWrite ..

/-- What a moment keeps where it is due. -/
def StepKeeps (f : State → Option State) : Prop := ∀ s t, f s = some t → Keeps s t

theorem StepKeeps.awaitingStep : StepKeeps State.awaitingStep := by
  intro s t h
  unfold State.awaitingStep at h
  split at h
  · split at h
    · cases h
    · cases h
      exact (Keeps.onPort s .a _ fun h => nomatch h).trans (Keeps.postWrite _ _)
  · cases h

theorem StepKeeps.roomStep : StepKeeps State.roomStep := by
  intro s t h
  unfold State.roomStep at h
  split at h
  · split at h
    · cases h
      exact Keeps.onPort s .a _ fun h => nomatch h
    · cases h
  · cases h

/-- A page that returns to the pool. -/
theorem State.pageCount_freePage (s : State) (p : Option Nat) : (s.freePage p).pageCount = s.pageCount + p.isSome.toNat := by
  cases p with
  | none => rfl
  | some p => simp [State.freePage, State.pageCount, State.freePages, State.pagesHeld_eq, State.entriesOf]; omega

theorem KeepsRest.freePage (s : State) (p : Option Nat) : KeepsRest s (s.freePage p) := by
  cases p <;> exact KeepsRest.of_same

theorem Keeps.tellPort (s : State) (n : BitVec 32) (b : Bool) : Keeps s (s.tellPort n b) := Keeps.onPort _ .a _ fun h => nomatch h

theorem Keeps.tellDirective (s : State) (a : Nat) (b : Bool) : Keeps s (s.tellDirective a b) := Keeps.setJob _ _

theorem Keeps.carryBundle (s : State) : Keeps s s.carryBundle := by
  unfold State.carryBundle
  split
  · exact Keeps.of_same
  · exact Keeps.refl s

theorem Keeps.tellOrigin (s : State) (e : Entry) (b : Bool) : Keeps s (s.tellOrigin e b) := by
  unfold State.tellOrigin
  split
  · exact Keeps.tellPort ..
  · exact (Keeps.tellDirective ..).trans (Keeps.carryBundle _)

theorem Keeps.tellCoverage (s : State) (q : QueueId) (e : Entry) (b : Bool) : Keeps s (s.tellCoverage q e b) := by
  unfold State.tellCoverage
  split
  · exact Keeps.coverage ..
  · exact Keeps.refl s

theorem Keeps.recordFailure (s : State) (q : QueueId) (e : Entry) (r : FailReason) : Keeps s (s.recordFailure q e r) := by
  unfold State.recordFailure
  split
  · exact Keeps.refl s
  · exact Keeps.setFirstFailure _ _

theorem Keeps.bookFailure (s : State) (q : QueueId) (e : Entry) (o : Option FailReason) : Keeps s (s.bookFailure q e o) := by
  unfold State.bookFailure
  split
  · exact (Keeps.countFailure s q).trans (Keeps.recordFailure _ q e _)
  · exact Keeps.refl s

theorem Keeps.leave (s : State) (q : QueueId) (o : Option FailReason) : Keeps s (s.leave q o) := by
  unfold State.leave
  split
  · exact Keeps.refl s
  · next e rest h =>
    refine Keeps.trans ?_ ((Keeps.tellOrigin _ e _).trans ((Keeps.tellCoverage _ q e _).trans (Keeps.bookFailure _ q e o)))
    have hc := Keeps.claimHead (s.setEntries q rest) q
    refine ⟨((KeepsRest.setEntries s q rest).trans hc.toKeepsRest).trans (KeepsRest.freePage _ _), ?_⟩
    rw [State.pageCount_freePage, hc.pages]
    have hp := State.pageCount_setEntries s q rest
    rw [State.pagesHeld_eq, h, heldIn_cons] at hp
    omega

theorem Keeps.tellRemoved (s : State) (e : Entry) : Keeps s (s.tellRemoved e) := by
  unfold State.tellRemoved
  split
  · exact Keeps.tellPort ..
  · exact Keeps.refl s

theorem Keeps.foldl_tellRemoved (l : List Entry) (s : State) : Keeps s (l.foldl State.tellRemoved s) := by
  induction l generalizing s with
  | nil => exact Keeps.refl s
  | cons e l ih => exact (Keeps.tellRemoved s e).trans (ih _)

theorem Keeps.withdrawHead (s : State) (q : QueueId) : Keeps s (s.withdrawHead q) := by
  unfold State.withdrawHead
  split
  · exact Keeps.withdraw ..
  · exact Keeps.refl s

theorem heldIn_eq_filterMap (l : List Entry) : heldIn l = (l.filterMap Entry.page).length := by
  induction l with
  | nil => rfl
  | cons e l ih =>
    rw [heldIn_cons, ih]
    cases h : e.page <;> simp [h, Nat.add_comm]

theorem heldIn_split (f : Entry → Bool) (l : List Entry) : heldIn (l.filter f) + heldIn (l.filter fun e => !f e) = heldIn l := by
  induction l with
  | nil => rfl
  | cons e l ih =>
    cases h : f e <;> simp [h, heldIn_cons, ← ih] <;> omega

theorem State.pageCount_setPool (s : State) (l : List Nat) : (s.setPool l).pageCount + s.pool.length = s.pageCount + l.length := by
  simp [State.pageCount, State.freePages, State.pagesHeld_eq, State.entriesOf]
  omega

theorem State.setEntries_pool (s : State) (q : QueueId) (l : List Entry) : (s.setEntries q l).pool = s.pool := by
  unfold State.setEntries State.judgeHigh
  split <;> rfl

theorem Keeps.discard (s : State) (q : QueueId) : Keeps s (s.discard q) := by
  unfold State.discard
  dsimp only
  refine Keeps.trans ?_ (Keeps.foldl_tellRemoved _ _)
  have hw := Keeps.withdrawHead s q
  have hentries : (s.withdrawHead q).pagesHeld q = s.pagesHeld q := by
    unfold State.withdrawHead
    split <;> rfl
  have hpool : (s.withdrawHead q).pool = s.pool := by
    unfold State.withdrawHead
    split <;> rfl
  refine ⟨(hw.toKeepsRest.trans (KeepsRest.setEntries _ q _)).trans KeepsRest.of_same, ?_⟩
  have h1 := State.pageCount_setPool ((s.withdrawHead q).setEntries q ((s.entriesOf q).filter fun e => !e.isQueued))
    (s.pool ++ ((s.entriesOf q).filter Entry.isQueued).filterMap Entry.page)
  have h2 := State.pageCount_setEntries (s.withdrawHead q) q ((s.entriesOf q).filter fun e => !e.isQueued)
  have h3 := heldIn_split Entry.isQueued (s.entriesOf q)
  rw [State.setEntries_pool, hpool, List.length_append, ← heldIn_eq_filterMap] at h1
  rw [hentries, hw.pages, State.pagesHeld_eq] at h2
  omega

end Sys2Proof.Machine
end

