-- ==== Sys2Proof/Laws/KeepsDirectives.lean ====
section
/-! SUPPORT. `Keeps` for the runs of Q-SYS work, the Key Store Controller, the Directive Unit and the settling of an event. -/

namespace Sys2Proof.Machine

-- One theorem after another: proofs checked side by side each hold a thread and its stack.
set_option Elab.async false

/-! ### Runs of Q-SYS work -/

theorem StepKeeps.sysStep : StepKeeps State.sysStep := by
  intro s t h
  unfold State.sysStep at h
  split at h
  · cases h
  · next j _ =>
    dsimp only at h
    split at h
    · cases h
      have hp := State.pageCount_takePage s (j.work.entry s.key.staging j.added).1
      have hr := KeepsRest.takePage s (j.work.entry s.key.staging j.added).1
      refine ⟨hr.trans ((Keeps.setJob _ _).toKeepsRest.trans (KeepsRest.joinEntry _ _ _)), ?_⟩
      rw [State.pageCount_joinEntry, (Keeps.setJob _ _).pages]
      exact hp
    · cases h

theorem Keeps.startJob (s : State) (w : Work) : Keeps s (s.startJob w) := Keeps.setJob _ _

theorem Keeps.requestRecord (s : State) (l : Lifecycle) (f : Fields) : Keeps s (s.requestRecord l f) := Keeps.setJob _ _

/-! ### The Key Store Controller -/

theorem Keeps.judgeStage (s : State) : Keeps s s.judgeStage := Keeps.onKey _ _ id

theorem Keeps.stageWrite (s : State) (o : Nat) (d : OffsetBytes) : Keeps s (s.stageWrite o d) :=
  (Keeps.onKey s _ fun h => Mem.wf_andAll h _ _).trans (Keeps.judgeStage _)

theorem Keeps.stageErase (s : State) : Keeps s s.stageErase := (Keeps.onKey s _ fun _ => rfl).trans (Keeps.judgeStage _)

theorem Keeps.hideKeySegment (s : State) : Keeps s s.hideKeySegment := by
  unfold State.hideKeySegment
  split
  · split
    · split
      · exact (Keeps.dropRead s _).trans (Keeps.setReading _ _ _)
      · exact Keeps.refl s
    · exact Keeps.refl s
  · exact Keeps.refl s

theorem Keeps.closeRelease (s : State) : Keeps s s.closeRelease := by
  unfold State.closeRelease
  split
  · exact ((Keeps.onKey s _ fun h => h).trans (Keeps.raise _ _)).trans (Keeps.hideKeySegment _)
  · exact Keeps.refl s

theorem Keeps.changeLifecycle (s : State) (l : Lifecycle) : Keeps s (s.changeLifecycle l) := by
  refine ((Keeps.onLife s _).trans (Keeps.onKey _ _ ?_)).trans (Keeps.raise _ _)
  intro h
  cases l <;> first | exact h | rfl

/-! ### Slots and ends -/

theorem Keeps.setSlot (s : State) (n : Nat) (x : Slot) : Keeps s (s.setSlot n x) := Keeps.onDir _ _ (by simp)

theorem Keeps.onSlot (s : State) (n : Nat) (f : Slot → Slot) : Keeps s (s.onSlot n f) := Keeps.setSlot ..

theorem Keeps.finishSlot (s : State) (n : Nat) (c : ResultCode) (d : List Byte) : Keeps s (s.finishSlot n c d) := Keeps.onSlot ..

theorem Keeps.uncount (s : State) (n : Nat) : Keeps s (s.uncount n) := by
  unfold State.uncount
  split
  · exact Keeps.onDir _ _ rfl
  · exact (Keeps.onKey s _ fun h => h).trans (Keeps.judgeStage _)
  · exact Keeps.refl s

theorem Keeps.leaveHead (s : State) : Keeps s s.leaveHead := Keeps.onDir _ _ rfl

theorem Keeps.endDirective (s : State) (c : ResultCode) (d : List Byte) : Keeps s (s.endDirective c d) :=
  (((Keeps.finishSlot s _ c d).trans (Keeps.leaveHead _)).trans (Keeps.raise _ _)).trans (Keeps.uncount _ _)

theorem Keeps.enter (s : State) (ph : Phase) : Keeps s (s.enter ph) := Keeps.onDir _ _ rfl

theorem Keeps.notInState (s : State) : Keeps s s.notInState := Keeps.endDirective ..

theorem Keeps.badParam (s : State) (o : Nat) : Keeps s (s.badParam o) := Keeps.endDirective ..

theorem Keeps.blowFuse (s : State) : Keeps s s.blowFuse :=
  { Keeps.refl s with fuse := fun h => by simp [State.blowFuse, h] }

/-! ### Starts -/

theorem Keeps.startOpen (s : State) (n : Nat) : Keeps s (s.startOpen n) := by
  unfold State.startOpen
  split
  · exact Keeps.notInState s
  · split
    · exact Keeps.badParam s _
    · split
      · exact ((Keeps.blowFuse s).trans (Keeps.enter _ _)).trans (Keeps.requestRecord _ _ _)
      · exact (Keeps.blowFuse s).trans (Keeps.endDirective _ _ _)

theorem Keeps.startClose (s : State) (n : Nat) : Keeps s (s.startClose n) := by
  unfold State.startClose
  repeat' split
  · exact Keeps.notInState s
  · exact Keeps.badParam s _
  · exact Keeps.endDirective ..
  · exact Keeps.enter ..

theorem Keeps.startRecover (s : State) (n : Nat) : Keeps s (s.startRecover n) := by
  unfold State.startRecover
  repeat' split
  · exact Keeps.notInState s
  · exact Keeps.badParam s _
  · exact Keeps.enter ..
  · exact (Keeps.blowFuse s).trans (Keeps.enter _ _)
  · exact (Keeps.blowFuse s).trans (Keeps.endDirective _ _ _)

theorem Keeps.startSetMap (s : State) (img : Mem) (n : Nat) : Keeps s (s.startSetMap img n) := by
  unfold State.startSetMap
  dsimp only
  repeat' split
  · exact Keeps.notInState s
  · exact Keeps.badParam s _
  · exact Keeps.badParam s _
  · exact Keeps.enter ..
  · exact Keeps.endDirective ..
  · exact Keeps.enter ..

theorem Keeps.setLevel (s : State) (q : QueueId) (n : Nat) : Keeps s (s.setLevel q n) :=
  (Keeps.onQueue s q (fun x => { x with level := n }) rfl).trans (Keeps.judgeHigh _ q)

theorem Keeps.startSetLevels (s : State) (img : Mem) (n : Nat) : Keeps s (s.startSetLevels img n) := by
  unfold State.startSetLevels
  repeat' split
  · exact Keeps.notInState s
  · exact Keeps.badParam s _
  · exact Keeps.badParam s _
  · exact ((((Keeps.setLevel s _ _).trans (Keeps.setLevel _ _ _)).trans (Keeps.setLevel _ _ _)).trans (Keeps.setLevel _ _ _)).trans
      (Keeps.endDirective _ _ _)

theorem Keeps.startDiscard (s : State) (img : Mem) (n : Nat) : Keeps s (s.startDiscard img n) := by
  unfold State.startDiscard
  repeat' split
  · exact Keeps.notInState s
  · exact Keeps.badParam s _
  · exact Keeps.badParam s _
  · exact (Keeps.discard s _).trans (Keeps.endDirective _ _ _)

theorem Keeps.startSync (s : State) (img : Mem) (n : Nat) : Keeps s (s.startSync img n) := by
  unfold State.startSync
  repeat' split
  · exact Keeps.notInState s
  · exact Keeps.badParam s _
  · exact Keeps.badParam s _
  · exact Keeps.badParam s _
  · exact Keeps.enter ..

theorem Keeps.setArbiterDone (s : State) (f : Engine → Engine) :
    Keeps s (((s.onEngine f).judgePreempt).endDirective .done []) :=
  ((Keeps.onEngine s f).trans (Keeps.judgePreempt _)).trans (Keeps.endDirective _ _ _)

theorem Keeps.startSetArbiter (s : State) (img : Mem) (n : Nat) : Keeps s (s.startSetArbiter img n) := by
  unfold State.startSetArbiter
  by_cases h1 : s.allows .setArbiter = false
  · rw [if_pos h1]; exact Keeps.notInState s
  rw [if_neg h1]
  by_cases h2 : n ≠ 14
  · rw [if_pos h2]; exact Keeps.badParam s _
  rw [if_neg h2]
  cases h3 : firstBad img (fun v => decide (15 < v)) 8 0 with
  | some o => exact Keeps.badParam s _
  | none =>
    dsimp only
    by_cases h4 : 1023 < paramNat img 8 2
    · rw [if_pos h4]; exact Keeps.badParam s _
    rw [if_neg h4]
    by_cases h5 : paramNat img 10 2 < 5 ∨ 1000 < paramNat img 10 2
    · rw [if_pos h5]; exact Keeps.badParam s _
    rw [if_neg h5]
    by_cases h6 : 32 < (param img 12).toNat
    · rw [if_pos h6]; exact Keeps.badParam s _
    rw [if_neg h6]
    by_cases h7 : param img 13 ≠ 0
    · rw [if_pos h7]; exact Keeps.badParam s _
    rw [if_neg h7]
    exact Keeps.setArbiterDone s _

theorem Keeps.startSetPass (s : State) (img : Mem) (n : Nat) : Keeps s (s.startSetPass img n) := by
  unfold State.startSetPass
  by_cases h1 : s.allows .setPass = false
  · rw [if_pos h1]; exact Keeps.notInState s
  rw [if_neg h1]
  cases h : s.uniformity with
  | none => exact Keeps.notInState s
  | some e =>
    dsimp only
    by_cases h2 : n ≠ 8
    · rw [if_pos h2]; exact Keeps.badParam s _
    rw [if_neg h2]
    by_cases h3 : paramNat img 0 4 % 4096 ≠ 0 ∨ e.size < paramNat img 0 4
    · rw [if_pos h3]; exact Keeps.badParam s _
    rw [if_neg h3]
    by_cases h4 : paramNat img 5 3 ≠ 0
    · rw [if_pos h4]; exact Keeps.badParam s _
    rw [if_neg h4]
    exact (Keeps.onUni s _).trans (Keeps.endDirective _ _ _)

theorem Keeps.startFlip (s : State) (img : Mem) (n : Nat) : Keeps s (s.startFlip img n) := by
  unfold State.startFlip
  repeat' split
  all_goals first
    | exact Keeps.notInState s
    | exact Keeps.badParam s _
    | exact Keeps.enter ..

theorem Keeps.startSetKeyTimers (s : State) (img : Mem) (n : Nat) : Keeps s (s.startSetKeyTimers img n) := by
  unfold State.startSetKeyTimers
  dsimp only
  by_cases h1 : s.allows .setKeyTimers = false
  · rw [if_pos h1]; exact Keeps.notInState s
  rw [if_neg h1]
  by_cases h2 : n ≠ 4
  · rw [if_pos h2]; exact Keeps.badParam s _
  rw [if_neg h2]
  by_cases h3 : paramNat img 0 2 < 100 ∨ 10000 < paramNat img 0 2
  · rw [if_pos h3]; exact Keeps.badParam s _
  rw [if_neg h3]
  by_cases h4 : (param img 2).toNat < 1 ∨ 60 < (param img 2).toNat
  · rw [if_pos h4]; exact Keeps.badParam s _
  rw [if_neg h4]
  by_cases h5 : param img 3 ≠ 0
  · rw [if_pos h5]; exact Keeps.badParam s _
  rw [if_neg h5]
  exact (Keeps.onKey s _ fun h => h).trans (Keeps.endDirective _ _ _)

theorem Keeps.startSeal (s : State) (n : Nat) : Keeps s (s.startSeal n) := by
  unfold State.startSeal
  repeat' split
  all_goals first
    | exact Keeps.notInState s
    | exact Keeps.badParam s _
    | exact Keeps.enter ..

theorem Keeps.startSetCode (s : State) (img : Mem) (n : Nat) : Keeps s (s.startSetCode img n) := by
  unfold State.startSetCode
  dsimp only
  repeat' split
  all_goals first
    | exact Keeps.notInState s
    | exact Keeps.badParam s _
    | exact (Keeps.enter s _).trans (Keeps.requestRecord _ _ _)

theorem Keeps.startServiceOpen (s : State) (img : Mem) (n : Nat) : Keeps s (s.startServiceOpen img n) := by
  unfold State.startServiceOpen
  repeat' split
  · exact Keeps.notInState s
  · exact Keeps.badParam s _
  · exact Keeps.endDirective ..
  · exact ((Keeps.setAttempts s 3 fun _ => le_refl 3).trans (Keeps.enter _ _)).trans (Keeps.requestRecord _ _ _)
  · exact ((Keeps.setAttempts s _ fun h => by omega).trans (Keeps.raise _ _)).trans (Keeps.endDirective _ _ _)

theorem Keeps.startServiceClose (s : State) (n : Nat) : Keeps s (s.startServiceClose n) := by
  unfold State.startServiceClose
  repeat' split
  all_goals first
    | exact Keeps.notInState s
    | exact Keeps.badParam s _
    | exact Keeps.enter ..

theorem Keeps.startOf (s : State) (d : Option Directive) (img : Mem) (n : Nat) : Keeps s (s.startOf d img n) := by
  unfold State.startOf
  split
  · exact Keeps.startOpen ..
  · exact Keeps.startClose ..
  · exact Keeps.startRecover ..
  · exact Keeps.startSetMap ..
  · exact Keeps.startSetLevels ..
  · exact Keeps.startDiscard ..
  · exact Keeps.startSync ..
  · exact Keeps.startSetArbiter ..
  · exact Keeps.startSetPass ..
  · exact Keeps.startFlip ..
  · exact Keeps.startSetKeyTimers ..
  · exact Keeps.startSeal ..
  · exact Keeps.startSetCode ..
  · exact Keeps.startServiceOpen ..
  · exact Keeps.startServiceClose ..
  all_goals exact Keeps.endDirective ..

theorem StepKeeps.directiveStep : StepKeeps State.directiveStep := by
  intro s t h
  unfold State.directiveStep at h
  split at h
  · dsimp only at h
    split at h
    · cases h
      exact (Keeps.onSlot s _ _).trans (Keeps.startOf _ _ _ _)
    · cases h
  · cases h

/-! ### Moments -/

theorem Keeps.sealJudge (s : State) (n : Nat) (b : List Byte) : Keeps s (s.sealJudge n b) := by
  unfold State.sealJudge
  split
  · exact Keeps.endDirective ..
  · split
    · split
      · exact (Keeps.enter s _).trans (Keeps.startJob _ _)
      · exact Keeps.notInState s
    · exact Keeps.endDirective ..

theorem Keeps.serviceJudge (s : State) (b : List Byte) : Keeps s (s.serviceJudge b) := by
  unfold State.serviceJudge
  split
  · exact Keeps.endDirective ..
  · split
    · exact (Keeps.enter s _).trans (Keeps.requestRecord _ _ _)
    · exact Keeps.endDirective ..

theorem Keeps.regionJudge (s : State) (b : List Byte) : Keeps s (s.regionJudge b) := by
  unfold State.regionJudge
  split
  · exact Keeps.sealJudge ..
  · exact Keeps.serviceJudge ..
  · exact Keeps.refl s

theorem Keeps.readRegion (s : State) : Keeps s s.readRegion := by
  unfold State.readRegion
  split
  · exact Keeps.refl s
  · dsimp only
    split
    · exact Keeps.regionJudge ..
    · split
      · exact Keeps.refl s
      · exact Keeps.raiseClaim ..

theorem StepKeeps.setMapFenceStep : StepKeeps State.setMapFenceStep := by
  intro s t h
  unfold State.setMapFenceStep at h
  repeat' split at h
  all_goals cases h
  exact (Keeps.enter s _).trans (Keeps.requestRecord _ _ _)

theorem StepKeeps.closeFenceStep : StepKeeps State.closeFenceStep := by
  intro s t h
  unfold State.closeFenceStep at h
  repeat' split at h
  all_goals cases h
  exact (Keeps.enter s _).trans (Keeps.requestRecord _ _ _)

theorem StepKeeps.recoverFenceStep : StepKeeps State.recoverFenceStep := by
  intro s t h
  unfold State.recoverFenceStep at h
  repeat' split at h
  all_goals cases h
  exact (Keeps.enter s _).trans (Keeps.startJob _ _)

theorem StepKeeps.recoverEraseStep : StepKeeps State.recoverEraseStep := by
  intro s t h
  unfold State.recoverEraseStep at h
  repeat' split at h
  all_goals cases h
  · exact (Keeps.setJob s none).trans (Keeps.endDirective _ _ _)
  · exact ((Keeps.setJob s none).trans (Keeps.enter _ _)).trans (Keeps.requestRecord _ _ _)

theorem StepKeeps.sealFenceStep : StepKeeps State.sealFenceStep := by
  intro s t h
  unfold State.sealFenceStep at h
  repeat' split at h
  all_goals cases h
  · exact Keeps.endDirective ..
  · exact (Keeps.enter s _).trans (Keeps.readRegion _)

theorem StepKeeps.sealProgramStep : StepKeeps State.sealProgramStep := by
  intro s t h
  unfold State.sealProgramStep at h
  repeat' split at h
  all_goals cases h
  exact ((Keeps.setJob s none).trans (Keeps.enter _ _)).trans (Keeps.requestRecord _ _ _)

theorem StepKeeps.sealFailedStep : StepKeeps State.sealFailedStep := by
  intro s t h
  unfold State.sealFailedStep at h
  repeat' split at h
  all_goals cases h
  exact (Keeps.setJob s none).trans (Keeps.endDirective _ _ _)

theorem StepKeeps.serviceCloseFenceStep : StepKeeps State.serviceCloseFenceStep := by
  intro s t h
  unfold State.serviceCloseFenceStep at h
  repeat' split at h
  all_goals cases h
  exact (Keeps.enter s _).trans (Keeps.readRegion _)

theorem Keeps.judgeCoverage (s : State) (f c : Bool) : Keeps s (s.judgeCoverage f c) := by
  unfold State.judgeCoverage
  repeat' split
  · exact Keeps.endDirective ..
  · exact Keeps.endDirective ..
  · exact (Keeps.enter s _).trans (Keeps.raiseClaim _ _ _)
  · exact Keeps.enter ..

theorem StepKeeps.flipDrainStep : StepKeeps State.flipDrainStep := by
  intro s t h
  unfold State.flipDrainStep at h
  repeat' split at h
  all_goals cases h
  exact Keeps.judgeCoverage ..

theorem StepKeeps.flipSwitchStep : StepKeeps State.flipSwitchStep := by
  intro s t h
  unfold State.flipSwitchStep at h
  repeat' split at h
  all_goals cases h
  exact (Keeps.enter s _).trans (Keeps.requestRecord _ _ _)

theorem StepKeeps.syncStep : StepKeeps State.syncStep := by
  intro s t h
  unfold State.syncStep at h
  repeat' split at h
  all_goals cases h
  exact Keeps.endDirective ..

theorem Keeps.resetUniformity (s : State) : Keeps s s.resetUniformity := by
  refine (((Keeps.onUni s _).trans (Keeps.clearAhead _)).trans (Keeps.onPort _ .t _ fun _ h => ?_)).trans (Keeps.rejudgeSlot _)
  unfold PortState.outOfPass
  split
  · exact ⟨h.1, h.2, h.3⟩
  · exact h

theorem Keeps.takeFields (s : State) (f : Fields) : Keeps s (s.takeFields f) := Keeps.onLife ..

theorem Keeps.dropCarried (s : State) : Keeps s s.dropCarried := by
  unfold State.dropCarried
  split
  · exact Keeps.refl s
  · exact Keeps.of_same

theorem Keeps.release (s : State) : Keeps s s.release := (Keeps.onDir s _ rfl).trans (Keeps.runPort _ .t)

theorem Keeps.switched (s : State) (n : Nat) : Keeps s (s.switched n) :=
  (((Keeps.onUni s _).trans (Keeps.clearAhead _)).trans (Keeps.release _)).trans (Keeps.raise _ _)

theorem Keeps.recordDone (s : State) (r : ControlRecord) : Keeps s (s.recordDone r) := by
  unfold State.recordDone
  have h1 := fun (l : Lifecycle) (d : List Byte) =>
    ((Keeps.takeFields s r.fields).trans (Keeps.changeLifecycle _ l)).trans (Keeps.endDirective _ .done d)
  have h2 := fun (d : List Byte) => (Keeps.takeFields s r.fields).trans (Keeps.endDirective _ .done d)
  split
  · exact h1 ..
  · exact h1 ..
  · exact h1 ..
  · split
    · exact (((Keeps.takeFields s r.fields).trans (Keeps.dropCarried _)).trans (Keeps.resetUniformity _)).trans
        (Keeps.endDirective _ _ _)
    · exact ((Keeps.takeFields s r.fields).trans (Keeps.dropCarried _)).trans (Keeps.endDirective _ _ _)
  · exact ((Keeps.takeFields s r.fields).trans (Keeps.switched _ _)).trans (Keeps.endDirective _ _ _)
  · exact (((Keeps.takeFields s r.fields).trans (Keeps.changeLifecycle _ _)).trans (Keeps.onKey _ _ fun h => h)).trans
      (Keeps.endDirective _ _ _)
  · exact h2 _
  · exact h1 ..
  · exact h1 ..
  · exact Keeps.refl s

theorem Keeps.recordFailed (s : State) : Keeps s s.recordFailed := by
  unfold State.recordFailed
  split
  · exact (((Keeps.raise s _).trans (Keeps.changeLifecycle _ _)).trans (Keeps.clearAhead _)).trans (Keeps.endDirective _ _ _)
  · exact ((Keeps.raise s _).trans (Keeps.release _)).trans (Keeps.endDirective _ _ _)
  · exact (Keeps.raise s _).trans (Keeps.endDirective _ _ _)

theorem StepKeeps.recordStep : StepKeeps State.recordStep := by
  intro s t h
  unfold State.recordStep at h
  repeat' split at h
  all_goals cases h
  · exact (Keeps.setJob s none).trans (Keeps.recordDone _ _)
  · exact Keeps.startJob ..
  · exact (Keeps.setJob s none).trans (Keeps.recordFailed _)

/-! ### The settling of an event -/

theorem firstDue_keeps {s t : State} {l : List (State → Option State)} (hl : ∀ f ∈ l, StepKeeps f) (h : firstDue s l = some t) :
    Keeps s t := by
  induction l with
  | nil => cases h
  | cons f l ih =>
    unfold firstDue at h
    split at h
    · next s' hs =>
      cases h
      exact hl f (by simp) s t hs
    · exact ih (fun g hg => hl g (List.mem_cons_of_mem _ hg)) h

theorem Keeps.due {s t : State} (h : s.due = some t) : Keeps s t := by
  refine firstDue_keeps ?_ h
  intro f hf
  simp only [moments, List.mem_cons, List.not_mem_nil, or_false] at hf
  rcases hf with rfl | rfl | rfl | rfl | rfl | rfl | rfl | rfl | rfl | rfl | rfl | rfl | rfl | rfl | rfl | rfl
  · exact StepKeeps.awaitingStep
  · exact StepKeeps.sysStep
  · exact StepKeeps.roomStep
  · exact StepKeeps.recordStep
  · exact StepKeeps.recoverEraseStep
  · exact StepKeeps.sealProgramStep
  · exact StepKeeps.sealFailedStep
  · exact StepKeeps.setMapFenceStep
  · exact StepKeeps.closeFenceStep
  · exact StepKeeps.recoverFenceStep
  · exact StepKeeps.sealFenceStep
  · exact StepKeeps.serviceCloseFenceStep
  · exact StepKeeps.flipDrainStep
  · exact StepKeeps.syncStep
  · exact StepKeeps.flipSwitchStep
  · exact StepKeeps.directiveStep

theorem Keeps.settleUpTo (n : Nat) (s : State) : Keeps s (settleUpTo n s) := by
  induction n generalizing s with
  | zero => exact Keeps.refl s
  | succ n ih =>
    unfold Machine.settleUpTo
    split
    · next s' hs => exact (Keeps.due hs).trans (ih s')
    · exact Keeps.refl s

theorem Keeps.settle (s : State) : Keeps s s.settle := Keeps.settleUpTo _ s

theorem Keeps.finish (s : State) : Keeps s s.finish := (Keeps.settle s).trans (Keeps.runReads _)

/-- Where no moment is due, the settling changes nothing. -/
theorem State.settle_of_not_due {s : State} (h : s.due = none) : s.settle = s := by
  unfold State.settle settleBound
  rw [show (512 : Nat) = 511 + 1 from rfl]
  unfold Machine.settleUpTo
  rw [h]

/-- Where one moment is due and none after it, the settling carries out that one. -/
theorem State.settle_of_due {s t : State} (h : s.due = some t) (ht : t.due = none) : s.settle = t := by
  unfold State.settle settleBound
  rw [show (512 : Nat) = 510 + 1 + 1 from rfl]
  unfold Machine.settleUpTo
  rw [h]
  dsimp only
  unfold Machine.settleUpTo
  rw [ht]

end Sys2Proof.Machine
end

