-- ==== Sys2Proof/Laws/KeepsCommands.lean ====
section
/-! SUPPORT. `Keeps` for taking a directive and for LOADING, and `Persists` for the meaning of every command but DEVICE-RESET. -/

namespace Sys2Proof.Machine

-- One theorem after another: proofs checked side by side each hold a thread and its stack.
set_option Elab.async false

/-! ### Taking into the directive window -/

theorem Keeps.cancelRunning (s : State) : Keeps s s.cancelRunning := (Keeps.dropRead s _).trans (Keeps.endDirective _ _ _)

theorem Keeps.cancelPending (s : State) (k : Nat) : Keeps s (s.cancelPending k) :=
  (((Keeps.onDir s _ rfl).trans (Keeps.finishSlot _ _ _ _)).trans (Keeps.raise _ _)).trans (Keeps.uncount _ _)

theorem Keeps.takeCancel (s : State) (n : Nat) (img : Mem) (len : Nat) : Keeps s (s.takeCancel n img len) := by
  unfold State.takeCancel
  dsimp only
  split
  · exact Keeps.finishSlot ..
  · split
    · exact (Keeps.cancelPending s _).trans (Keeps.finishSlot _ _ _ _)
    · split
      · split
        · exact (Keeps.cancelRunning s).trans (Keeps.finishSlot _ _ _ _)
        · exact Keeps.finishSlot ..
      · exact Keeps.finishSlot ..
    · exact Keeps.finishSlot ..

theorem Keeps.acknowledge (s : State) (m : BitVec 13) : Keeps s (s.acknowledge m) := Keeps.of_same

theorem Keeps.takeAck (s : State) (n : Nat) (img : Mem) (len : Nat) : Keeps s (s.takeAck n img len) := by
  unfold State.takeAck
  dsimp only
  split
  · exact Keeps.finishSlot ..
  · exact (Keeps.acknowledge s _).trans (Keeps.finishSlot _ _ _ _)

theorem Keeps.takeSetMask (s : State) (n : Nat) (img : Mem) (len : Nat) : Keeps s (s.takeSetMask n img len) := by
  unfold State.takeSetMask
  dsimp only
  split
  · exact Keeps.finishSlot ..
  · exact (Keeps.onDir s _ rfl).trans (Keeps.finishSlot _ _ _ _)

theorem Keeps.takeKeyHide (s : State) (n len : Nat) : Keeps s (s.takeKeyHide n len) := by
  unfold State.takeKeyHide
  split
  · exact Keeps.finishSlot ..
  · split
    · exact (Keeps.closeRelease s).trans (Keeps.finishSlot _ _ _ _)
    · exact Keeps.finishSlot ..

theorem Keeps.count (s : State) (d : Directive) : Keeps s (s.count d) := by
  unfold State.count
  split
  · exact Keeps.onDir _ _ rfl
  · exact (Keeps.onKey s _ fun h => h).trans (Keeps.judgeStage _)
  · exact Keeps.refl s

theorem Keeps.enqueue (s : State) (n : Nat) (d : Directive) : Keeps s (s.enqueue n d) :=
  ((Keeps.onSlot s n _).trans (Keeps.onDir _ _ rfl)).trans (Keeps.count _ d)

theorem Keeps.takeDirective (s : State) (n : Nat) (d : Directive) (img : Mem) (len : Nat) : Keeps s (s.takeDirective n d img len) := by
  cases d
  case ack => exact Keeps.takeAck ..
  case setEventMask => exact Keeps.takeSetMask ..
  case cancel => exact (Keeps.takeCancel s n img len).trans (Keeps.finish _)
  case keyHide => exact Keeps.takeKeyHide ..
  all_goals exact (Keeps.enqueue s n _).trans (Keeps.finish _)

theorem Keeps.takeSlot (s : State) (l : Lifecycle) (n off : Nat) (m : OffsetBytes) : Keeps s (s.takeSlot l n off m) := by
  unfold State.takeSlot
  dsimp only
  split
  · exact ((Keeps.setSlot s n _).trans (Keeps.finishSlot _ _ _ _)).trans (Keeps.raise _ _)
  · exact (Keeps.setSlot s n _).trans (Keeps.takeDirective _ _ _ _ _)

theorem Keeps.programWindow (s : State) (l : Lifecycle) (a : Nat) (m : OffsetBytes) : Keeps s (s.programWindow l a m) := by
  unfold State.programWindow
  dsimp only
  split
  · exact Keeps.refuse ..
  · split
    · exact Keeps.refuse ..
    · exact Keeps.takeSlot ..

theorem Keeps.eraseWindow (s : State) : Keeps s s.eraseWindow := Keeps.onDir _ _ (by simp)

/-! ### The link transactions -/

theorem Keeps.clockRead (s : State) (p : Port) (a : Option Addr) (n : Nat) : Keeps s (s.clockRead p a n) := by
  unfold State.clockRead
  split
  · exact Keeps.setReading ..
  · exact Keeps.onPort s p _ fun _ h => ⟨h.1, h.2, h.3⟩
  · exact Keeps.refl s

theorem Keeps.reportRead (s : State) (p : Port) (r : Reading) : Keeps s (s.reportRead p r) := by
  unfold State.reportRead
  repeat' split
  · exact Keeps.closePass s
  · exact Keeps.startIdle s
  · exact Keeps.refl s
  · exact Keeps.closeRelease s
  · exact Keeps.refl s

theorem Keeps.endRead (s : State) (p : Port) : Keeps s (s.endRead p) := by
  unfold State.endRead
  split
  · exact ((Keeps.dropRead s _).trans (Keeps.onPort _ p _ fun _ h => ⟨h.1, h.2, h.3⟩)).trans (Keeps.reportRead _ _ _)
  · exact Keeps.refl s

theorem Keeps.act (s : State) (p : Port) (l : Lifecycle) (k : WriteKind) (a : Nat) (m : OffsetBytes) (v : Verdict) :
    Keeps s (s.act p l k a m v) := by
  unfold State.act
  split
  · exact Keeps.refuse ..
  · split
    · exact Keeps.stageWrite ..
    · exact Keeps.refl s
  · exact Keeps.stageErase s
  · exact Keeps.programWindow ..
  · exact Keeps.eraseWindow s
  · exact (Keeps.takeQueued s _).trans (Keeps.finish _)

theorem Keeps.clearWel (s : State) (p : Port) : Keeps s (s.clearWel p) := Keeps.onPort s p _ fun _ h => ⟨h.1, h.2, h.3⟩

theorem Keeps.takeWrite (s : State) (p : Port) (k : WriteKind) (a : Nat) (m : OffsetBytes) : Keeps s (s.takeWrite p k a m) := by
  unfold State.takeWrite
  split
  · exact Keeps.refuse ..
  · split
    · exact Keeps.ignore ..
    · split
      · exact (Keeps.clearWel s p).trans (Keeps.act _ _ _ _ _ _ _)
      · exact Keeps.clearWel s p

theorem Keeps.freeLink (s : State) (p : Port) : Keeps s (s.freeLink p) := Keeps.onPort s p _ fun _ h => ⟨h.1, h.2, h.3⟩

theorem Keeps.close (s : State) (p : Port) (k : WriteKind) (a : Addr) (d : List Byte) : Keeps s (s.close p k a d) := by
  unfold State.close
  split
  · exact Keeps.freeLink s p
  · exact (Keeps.freeLink s p).trans (Keeps.takeWrite _ _ _ _ _)

theorem Keeps.arrive (s : State) (p : Port) (k : WriteKind) (a : Addr) (d : List Byte) (c : Bool) : Keeps s (s.arrive p k a d c) := by
  unfold State.arrive
  split
  · exact Keeps.refl s
  · split
    · exact Keeps.close ..
    · exact Keeps.onPort s p _ fun _ h => ⟨h.1, h.2, h.3⟩

theorem Keeps.clearPort (s : State) (p : Port) : Keeps s (s.clearPort p) := Keeps.onPort s p _ fun _ h => ⟨h.1, h.2, rfl⟩

/-! ### Page reads -/

theorem KeepsRest.endLoading (s : State) : KeepsRest s s.endLoading where
  pending := rfl
  flash := rfl
  fuse := id
  slots := rfl
  ahead := rfl
  attempts := fun _ => le_refl 3
  staging := fun _ => by unfold State.endLoading KeyUnit.atLoading; dsimp only; split <;> rfl
  portT := fun h => ⟨Or.inr rfl, h.2, h.3⟩

theorem Keeps.endLoading (s : State) : Keeps s s.endLoading := ⟨KeepsRest.endLoading s, rfl⟩

theorem Keeps.takeLoaded (s : State) (r : PageRead) : Keeps s (s.takeLoaded r) := by
  unfold State.takeLoaded
  exact Keeps.onLife ..

theorem Keeps.loadPage (s : State) (r : PageRead) : Keeps s (s.loadPage r) := by
  unfold State.loadPage
  split
  · exact (Keeps.takeLoaded s r).trans (Keeps.endLoading _)
  · exact (Keeps.takeLoaded s r).trans (Keeps.raiseClaim _ _ _)

theorem Keeps.claimCrc (s : State) (l st n : Nat) (c : BitVec 32) : Keeps s (s.claimCrc l st n c) :=
  (Keeps.enter s _).trans (Keeps.raiseClaim _ _ _)

theorem Keeps.headerRead (s : State) : Keeps s s.headerRead := by
  unfold State.headerRead
  dsimp only
  split
  · exact Keeps.endDirective ..
  · exact Keeps.claimCrc ..

theorem Keeps.crcRead (s : State) (r : ReadRange) (l st n : Nat) (c : BitVec 32) : Keeps s (s.crcRead r l st n c) := by
  unfold State.crcRead
  dsimp only
  split
  · exact Keeps.claimCrc ..
  · split
    · exact Keeps.enter ..
    · exact Keeps.endDirective ..

theorem Keeps.sysRead (s : State) (r : PageRead) : Keeps s (s.sysRead r) := by
  unfold State.sysRead
  split
  · exact Keeps.loadPage ..
  · split
    · exact Keeps.headerRead s
    · exact Keeps.crcRead ..
    · exact Keeps.regionJudge ..
    · exact Keeps.regionJudge ..
    · exact Keeps.refl s

theorem Keeps.fillAhead (s : State) (r : PageRead) : Keeps s (s.fillAhead r) :=
  ((Keeps.mapSlots s _).trans (Keeps.rejudgeSlot _)).trans (Keeps.judgePrefetch _)

theorem Keeps.emptyFilling (s : State) : Keeps s s.emptyFilling :=
  ((Keeps.mapSlots s _).trans (Keeps.rejudgeSlot _)).trans (Keeps.judgePrefetch _)

theorem Keeps.handOver (s : State) (r : PageRead) : Keeps s (s.handOver r) := by
  unfold State.handOver
  split
  · exact Keeps.completePiece ..
  · exact Keeps.completePiece ..
  · exact Keeps.fillAhead ..
  · exact Keeps.emptyFilling s
  · exact Keeps.sysRead ..
  · exact Keeps.refl s

theorem Keeps.keepNoDiscard (s : State) : Keeps s s.keepNoDiscard := Keeps.onEngine ..

theorem Keeps.rejudgeRegion (s : State) (q : QueueId) : Keeps s (s.rejudgeRegion q) := by
  unfold State.rejudgeRegion
  split
  · split
    · exact Keeps.readRegion s
    · exact Keeps.refl s
  · split
    · exact Keeps.readRegion s
    · exact Keeps.refl s
  · exact Keeps.refl s

theorem Keeps.operationEnd (s : State) (q : QueueId) (o : Option FailReason) : Keeps s (s.operationEnd q o) :=
  ((Keeps.leave s q o).trans (Keeps.finish _)).trans (Keeps.endWrite _)

/-! ### Timers -/

theorem Keeps.passExpired (s : State) : Keeps s s.passExpired := by
  unfold State.passExpired
  split
  · exact ((Keeps.closePass s).trans (Keeps.raise _ _)).trans (Keeps.finish _)
  · exact Keeps.refl s

theorem Keeps.stageExpired (s : State) : Keeps s s.stageExpired := by
  unfold State.stageExpired
  split
  · exact ((Keeps.onKey s _ fun _ => rfl).trans (Keeps.raise _ _)).trans (Keeps.runReads _)
  · exact Keeps.refl s

theorem Keeps.releaseExpired (s : State) : Keeps s s.releaseExpired := by
  unfold State.releaseExpired
  split
  · exact (Keeps.closeRelease s).trans (Keeps.runReads _)
  · exact Keeps.refl s

theorem Keeps.tickRelease (s : State) : Keeps s s.tickRelease := by
  unfold State.tickRelease
  dsimp only
  split
  · exact (Keeps.onKey s _ fun h => h).trans (Keeps.releaseExpired _)
  · exact Keeps.onKey s _ fun h => h

theorem Keeps.tickStage (s : State) : Keeps s s.tickStage := by
  unfold State.tickStage
  dsimp only
  split
  · exact (Keeps.onKey s _ fun h => h).trans (Keeps.stageExpired _)
  · exact Keeps.onKey s _ fun h => h

theorem Keeps.tickPass (s : State) : Keeps s s.tickPass := by
  unfold State.tickPass
  dsimp only
  split
  · exact (Keeps.onPass s _).trans (Keeps.passExpired _)
  · exact Keeps.onPass ..

theorem Keeps.countBreak (s : State) : Keeps s s.countBreak := Keeps.of_same

theorem Keeps.countClaim (s : State) (c : Claimant) : Keeps s (s.countClaim c) := by
  unfold State.countClaim
  split
  · exact Keeps.setClaim ..
  · exact Keeps.refl s

theorem Keeps.stepClaim (s : State) (c : Claimant) : Keeps s (s.stepClaim c) := by
  unfold State.stepClaim
  split
  · split
    · exact Keeps.ageClaim ..
    · exact Keeps.refl s
  · exact Keeps.refl s

theorem Keeps.foldl_claims (f : State → Claimant → State) (h : ∀ s c, Keeps s (f s c)) (l : List Claimant) (s : State) :
    Keeps s (l.foldl f s) := by
  induction l generalizing s with
  | nil => exact Keeps.refl s
  | cons c l ih => exact (h s c).trans (ih _)

/-! ### What every command but DEVICE-RESET preserves -/

/-- What every command but DEVICE-RESET preserves: `Keeps`, but for what the flash holds, which stays in the canonical form. -/
structure Persists (s t : State) : Prop where
  pending : t.pending = s.pending
  flash : Mem.wf s.flash = true → Mem.wf t.flash = true
  fuse : s.fuseCell = true → t.fuseCell = true
  slots : t.dir.slots.length = s.dir.slots.length
  ahead : t.ahead.slots.length = s.ahead.slots.length
  attempts : s.attempts ≤ 3 → t.attempts ≤ 3
  staging : Mem.wf s.key.staging = true → Mem.wf t.key.staging = true
  portT : s.portT.Orderly → t.portT.Orderly
  pages : t.pageCount = s.pageCount

theorem Keeps.persists {s t : State} (h : Keeps s t) : Persists s t :=
  ⟨h.pending, fun w => h.flash ▸ w, h.fuse, h.slots, h.ahead, h.attempts, h.staging, h.portT, h.pages⟩

theorem Persists.trans {s t u : State} (h : Persists s t) (k : Persists t u) : Persists s u :=
  ⟨k.1.trans h.1, fun x => k.2 (h.2 x), fun x => k.3 (h.3 x), k.4.trans h.4, k.5.trans h.5, fun x => k.6 (h.6 x),
   fun x => k.7 (h.7 x), fun x => k.8 (h.8 x), k.9.trans h.9⟩

theorem Persists.setFlash (s : State) (m : Mem) (h : Mem.wf s.flash = true → Mem.wf m = true) : Persists s (s.setFlash m) :=
  ⟨rfl, h, id, rfl, rfl, id, id, id, rfl⟩

theorem wf_noRecord {m : Mem} (e : Entry) (h : Mem.wf m = true) : Mem.wf (noRecord m e) = true := by
  unfold noRecord
  split
  · exact Mem.wf_set h _ _
  · exact h

theorem wf_noMarker {m : Mem} (e : Entry) (h : Mem.wf m = true) : Mem.wf (noMarker m e) = true := by
  unfold noMarker
  split
  · exact Mem.wf_set h _ _
  · exact h

/-- Outside the operation's range the guard of the control sector changes nothing. -/
theorem get_noRecord {m : Mem} (hm : Mem.wf m = true) (e : Entry) {a : Nat} (h : a < e.addr ∨ e.addr + e.kind.range ≤ a) :
    Mem.get (noRecord m e) a = Mem.get m a := by
  unfold noRecord
  split
  · next hc =>
    simp only [Entry.touches, Bool.and_eq_true, decide_eq_true_eq] at hc
    rw [Mem.get_set hm, if_neg (by omega)]
  · rfl

/-- An erase that has left its whole range erased passes the guard. -/
theorem noRecord_erased (m : Mem) (e : Entry) : noRecord (Mem.erase m e.addr e.kind.range) e = Mem.erase m e.addr e.kind.range := by
  unfold noRecord
  refine if_neg ?_
  intro hc
  simp only [Entry.touches, Bool.and_eq_true, decide_eq_true_eq, Bool.not_eq_true'] at hc
  have : Mem.erasedIn (Mem.erase m e.addr e.kind.range) controlSector 512 = true := by
    unfold Mem.erasedIn Mem.erase
    rw [List.all_eq_true]
    intro c h
    have h' := (List.mem_filter.1 h).2
    simp only [Bool.or_eq_true, decide_eq_true_eq] at h' ⊢
    omega
  rw [this] at hc
  exact absurd hc.2 (by decide)

/-- Outside the page a failed program changes nothing. -/
theorem get_noMarker {m : Mem} (hm : Mem.wf m = true) (e : Entry) {a : Nat} (h : a < e.addr ∨ e.addr + e.kind.range ≤ a) :
    Mem.get (noMarker m e) a = Mem.get m a := by
  unfold noMarker
  split
  · next hc =>
    have : e.kind.range = 256 := by rw [hc.1]; rfl
    rw [Mem.get_set hm, if_neg (by omega)]
  · rfl

theorem wf_flashDone (s : State) (e : Entry) (l : OffsetBytes) (h : Mem.wf s.flash = true) : Mem.wf (s.flashDone e l) = true := by
  unfold State.flashDone
  dsimp only
  split
  · exact Mem.wf_andAll h _ _
  · exact wf_noRecord e (Mem.wf_setAll (Mem.wf_erase h _ _) _ _)

theorem wf_flashBroken (s : State) (e : Entry) (l : OffsetBytes) (h : Mem.wf s.flash = true) : Mem.wf (s.flashBroken e l) = true := by
  unfold State.flashBroken
  dsimp only
  split
  · exact Mem.wf_andAll h _ _
  · exact wf_noRecord e (Mem.wf_setAll h _ _)

theorem wf_flashAtReset (s : State) (l : OffsetBytes) (h : Mem.wf s.flash = true) : Mem.wf (s.flashAtReset l) = true := by
  unfold State.flashAtReset
  split
  · split
    · exact wf_flashBroken _ _ _ h
    · exact h
  · exact h

theorem Persists.waitExpired (s : State) (l : OffsetBytes) : Persists s (s.waitExpired l) := by
  unfold State.waitExpired
  split
  · exact (Persists.setFlash s _ fun h => wf_noMarker _ (wf_flashBroken _ _ _ h)).trans (Keeps.operationEnd _ _ _).persists
  · exact (Keeps.refl s).persists

theorem Persists.tickWait (s : State) : Persists s s.tickWait := by
  unfold State.tickWait
  split
  · dsimp only
    split
    · exact ((Keeps.onEngine s fun x => { x with waited := x.waited + 1 }).trans (Keeps.countBreak _)).persists.trans
        (Persists.waitExpired _ _)
    · exact (Keeps.onEngine s _).persists
  · exact (Keeps.refl s).persists

theorem Persists.tick (s : State) : Persists s s.tick :=
  (((((Keeps.foldl_claims _ Keeps.countClaim claimants s).trans (Keeps.tickRelease _)).trans (Keeps.tickStage _)).trans
    (Keeps.tickPass _)).persists.trans (Persists.tickWait _)).trans (Keeps.foldl_claims _ Keeps.stepClaim claimants _).persists

theorem Persists.moment {s t : State} {o : Option State} (ho : ∀ u : State, o = some u → Keeps s u) (h : s.moment o = .next t) :
    Persists s t := by
  unfold State.moment at h
  split at h
  · next o' u => cases h; exact ((ho u rfl).trans (Keeps.finish _)).persists
  · cases h; exact (Keeps.refl s).persists

/-! ### The meanings -/

theorem execRead_persists {p a n} {s t : State} (h : execRead p a n s = .next t) : Persists s t := by
  cases h
  exact ((Keeps.clockRead s p a n).trans (Keeps.runReads _)).persists

theorem execReadEnd_persists {p} {s t : State} (h : execReadEnd p s = .next t) : Persists s t := by
  cases h
  exact ((Keeps.endRead s p).trans (Keeps.finish _)).persists

theorem execProgram_persists {p a d c} {s t : State} (h : execProgram p a d c s = .next t) : Persists s t := by
  cases h
  exact (Keeps.arrive ..).persists

theorem execEraseSector_persists {p a c} {s t : State} (h : execEraseSector p a c s = .next t) : Persists s t := by
  cases h
  exact (Keeps.arrive ..).persists

theorem execEraseBlock_persists {p a c} {s t : State} (h : execEraseBlock p a c s = .next t) : Persists s t := by
  cases h
  exact (Keeps.arrive ..).persists

theorem execWriteEnable_persists {p} {s t : State} (h : execWriteEnable p s = .next t) : Persists s t := by
  unfold execWriteEnable at h
  split at h <;> cases h
  · exact (Keeps.refl s).persists
  · exact (Keeps.onPort s p _ fun _ h => ⟨h.1, h.2, rfl⟩).persists

theorem execWriteDisable_persists {p} {s t : State} (h : execWriteDisable p s = .next t) : Persists s t := by
  unfold execWriteDisable at h
  split at h <;> cases h
  · exact (Keeps.refl s).persists
  · exact (Keeps.onPort s p _ fun _ h => ⟨h.1, h.2, h.3⟩).persists

theorem execStatusRead_persists {p} {s t : State} (h : execStatusRead p s = .next t) : Persists s t := by
  unfold execStatusRead at h
  split at h <;> cases h
  · exact (Keeps.refl s).persists
  · exact (Keeps.onPort s p _ fun _ h => ⟨h.1, h.2, h.3⟩).persists

theorem execUnknownCommand_persists {p n} {s t : State} (h : execUnknownCommand p n s = .next t) : Persists s t := by
  unfold execUnknownCommand at h
  split at h <;> cases h
  · exact (Keeps.refl s).persists
  · exact (Keeps.onPort s p _ fun _ h => ⟨h.1, h.2, h.3⟩).persists

theorem execPortReset_persists {p} {s t : State} (h : execPortReset p s = .next t) : Persists s t := by
  cases h
  exact (((Keeps.endRead s p).trans (Keeps.clearPort _ p)).trans (Keeps.finish _)).persists

theorem execDirectiveStart_persists {s t : State} (h : execDirectiveStart s = .next t) : Persists s t :=
  Persists.moment (StepKeeps.directiveStep s) h

theorem execSetMapFenceEnd_persists {s t : State} (h : execSetMapFenceEnd s = .next t) : Persists s t :=
  Persists.moment (StepKeeps.setMapFenceStep s) h

theorem execCloseFenceEnd_persists {s t : State} (h : execCloseFenceEnd s = .next t) : Persists s t :=
  Persists.moment (StepKeeps.closeFenceStep s) h

theorem execRecoverFenceEnd_persists {s t : State} (h : execRecoverFenceEnd s = .next t) : Persists s t :=
  Persists.moment (StepKeeps.recoverFenceStep s) h

theorem execRecoverEraseEnd_persists {s t : State} (h : execRecoverEraseEnd s = .next t) : Persists s t :=
  Persists.moment (StepKeeps.recoverEraseStep s) h

theorem execSealFenceEnd_persists {s t : State} (h : execSealFenceEnd s = .next t) : Persists s t :=
  Persists.moment (StepKeeps.sealFenceStep s) h

theorem execSealProgramEnd_persists {s t : State} (h : execSealProgramEnd s = .next t) : Persists s t :=
  Persists.moment (StepKeeps.sealProgramStep s) h

theorem execSealFlashFailed_persists {s t : State} (h : execSealFlashFailed s = .next t) : Persists s t :=
  Persists.moment (StepKeeps.sealFailedStep s) h

theorem execServiceCloseFenceEnd_persists {s t : State} (h : execServiceCloseFenceEnd s = .next t) : Persists s t :=
  Persists.moment (StepKeeps.serviceCloseFenceStep s) h

theorem execFlipDrainEnd_persists {s t : State} (h : execFlipDrainEnd s = .next t) : Persists s t :=
  Persists.moment (StepKeeps.flipDrainStep s) h

theorem execFlipSwitchBegin_persists {s t : State} (h : execFlipSwitchBegin s = .next t) : Persists s t :=
  Persists.moment (StepKeeps.flipSwitchStep s) h

theorem execSyncWaitEnd_persists {s t : State} (h : execSyncWaitEnd s = .next t) : Persists s t :=
  Persists.moment (StepKeeps.syncStep s) h

theorem execControlRecordWriteEnd_persists {s t : State} (h : execControlRecordWriteEnd s = .next t) : Persists s t :=
  Persists.moment (StepKeeps.recordStep s) h

theorem execAwaitingWriteEntryMade_persists {s t : State} (h : execAwaitingWriteEntryMade s = .next t) : Persists s t :=
  Persists.moment (StepKeeps.awaitingStep s) h

theorem execSysProgramEntryMade_persists {s t : State} (h : execSysProgramEntryMade s = .next t) : Persists s t :=
  Persists.moment (StepKeeps.sysStep s) h

theorem execPageReadEnd_persists {s t : State} (h : execPageReadEnd s = .next t) : Persists s t := by
  unfold execPageReadEnd at h
  split at h <;> cases h
  · exact (((((Keeps.keepNoDiscard s).trans (Keeps.handOver _ _)).trans (Keeps.raiseDeferred _ _)).trans (Keeps.finish _)).trans
      (Keeps.endPageRead _)).persists
  · exact (Keeps.refl s).persists

theorem execPreReadEnd_persists {s t : State} (h : execPreReadEnd s = .next t) : Persists s t := by
  unfold execPreReadEnd at h
  split at h <;> cases h
  · exact ((((Keeps.setHead s _ (Entry.imaged s.flash) fun _ => rfl).trans (Keeps.rejudgeFormed _ _)).trans (Keeps.rejudgeRegion _ _)).trans
      (Keeps.finish _)).persists
  · exact (Keeps.refl s).persists

theorem execProgramCommandIssued_persists {s t : State} (h : execProgramCommandIssued s = .next t) : Persists s t := by
  unfold execProgramCommandIssued at h
  split at h <;> cases h
  · exact (((Keeps.setHead s _ (fun e => { e with state := .active .wait }) fun _ => rfl).trans (Keeps.onEngine _ _)).trans
      (Keeps.judgePreempt _)).persists
  · exact (Keeps.refl s).persists

theorem execFlashReady_persists {b l} {s t : State} (h : execFlashReady b l s = .next t) : Persists s t := by
  unfold execFlashReady at h
  split at h
  · split at h <;> cases h
    · exact (Persists.setFlash s _ fun h => wf_noMarker _ (wf_flashDone _ _ _ h)).trans (Keeps.operationEnd _ _ _).persists
    · exact (Persists.setFlash s _ (wf_flashDone _ _ _)).trans
        (Keeps.setHead _ _ (fun e => { e with state := .active .verify }) fun _ => rfl).persists
  · cases h; exact (Keeps.refl s).persists

theorem execWaitLimitExpiry_persists {l} {s t : State} (h : execWaitLimitExpiry l s = .next t) : Persists s t := by
  cases h
  exact Persists.waitExpired s l

theorem execVerifyEnd_persists {s t : State} (h : execVerifyEnd s = .next t) : Persists s t := by
  unfold execVerifyEnd at h
  repeat' split at h
  all_goals cases h
  · exact (Keeps.refl s).persists
  · exact (Keeps.operationEnd _ _ _).persists
  · exact (Keeps.setHead s _ (fun e => { e with retries := e.retries + 1, state := .active .program }) fun _ => rfl).persists
  · exact (Keeps.operationEnd _ _ _).persists
  · exact (Keeps.refl s).persists

theorem execEraseCheckEnd_persists {s t : State} (h : execEraseCheckEnd s = .next t) : Persists s t := by
  unfold execEraseCheckEnd at h
  repeat' split at h
  all_goals cases h
  · exact (Keeps.refl s).persists
  · exact (Keeps.operationEnd _ _ _).persists
  · exact (Keeps.operationEnd _ _ _).persists
  · exact (Keeps.refl s).persists

theorem execAgingStep_persists {c} {s t : State} (h : execAgingStep c s = .next t) : Persists s t := by
  cases h
  exact (Keeps.ageClaim s c).persists

theorem execPassIdleExpiry_persists {s t : State} (h : execPassIdleExpiry s = .next t) : Persists s t := by
  cases h
  exact (Keeps.passExpired s).persists

theorem execStageIdleExpiry_persists {s t : State} (h : execStageIdleExpiry s = .next t) : Persists s t := by
  cases h
  exact (Keeps.stageExpired s).persists

theorem execReleaseTimerExpiry_persists {s t : State} (h : execReleaseTimerExpiry s = .next t) : Persists s t := by
  cases h
  exact (Keeps.releaseExpired s).persists

/-- DEVICE-RESET gives every block its reset values. -/
theorem execDeviceReset_next {b l} {s t : State} (h : execDeviceReset b l s = .next t) : t = s.deviceReset b (s.flashAtReset l) := by
  cases h
  rfl

end Sys2Proof.Machine
end

