-- ==== Sys2Proof/Laws/Calm.lean ====
section
/-! SUPPORT. When the rest of an event brings nothing about: no moment is due in a calm state, and no byte is delivered without a
read. -/

namespace Sys2Proof.Machine

-- One theorem after another: proofs checked side by side each hold a thread and its stack.
set_option Elab.async false

/-! ### No moment is due -/

/-- With no directive running, only the making of entries, the clearing of ROOM, the end of a record write and the start of a directive
can be due. -/
theorem State.due_of_idle {s : State} (hr : s.dir.running = none) (hj : s.job = none) :
    s.due = (s.awaitingStep.or s.roomStep).or s.directiveStep := by
  simp only [State.due, moments, firstDue, State.sysStep, State.recordStep, State.recoverEraseStep, State.sealProgramStep,
    State.sealFailedStep, State.setMapFenceStep, State.closeFenceStep, State.recoverFenceStep, State.sealFenceStep,
    State.serviceCloseFenceStep, State.flipDrainStep, State.syncStep, State.flipSwitchStep, hr, hj]
  cases s.awaitingStep <;> cases s.roomStep <;> cases s.directiveStep <;> rfl

theorem State.awaitingStep_none {s : State} (h : s.portA.awaiting = none) : s.awaitingStep = none := by
  simp only [State.awaitingStep, h]

theorem State.roomStep_none {s : State} (h : ∀ q, s.portA.cause ≠ .room q) : s.roomStep = none := by
  unfold State.roomStep
  split
  · next q hq => exact absurd hq (h q)
  · rfl

theorem State.directiveStep_none {s : State} (h : s.dir.queue = []) : s.directiveStep = none := by
  unfold State.directiveStep
  rw [h]
  cases s.dir.running <;> rfl

theorem State.Calm.due {s : State} (h : s.Calm) : s.due = none := by
  rw [State.due_of_idle h.running h.job, State.awaitingStep_none h.awaiting, State.roomStep_none h.noRoom,
    State.directiveStep_none h.queue]
  rfl

theorem State.Calm.settle {s : State} (h : s.Calm) : s.settle = s := State.settle_of_not_due h.due

theorem State.Calm.finish {s : State} (h : s.Calm) : s.finish = s.runReads := by
  unfold State.finish
  rw [h.settle]

/-! ### No byte is delivered -/

theorem State.runPort_of_none {s : State} {p : Port} (h : s.reading p = none) : s.runPort p = s := by
  unfold State.runPort
  rw [h]

theorem State.NoReads.runReads {s : State} (h : s.NoReads) : s.runReads = s := by
  unfold State.runReads
  rw [State.runPort_of_none h.linkT, State.runPort_of_none h.linkA]

theorem State.Calm.finish_eq {s : State} (h : s.Calm) (n : s.NoReads) : s.finish = s := by
  rw [h.finish, n.runReads]

/-! ### A directive that waits for its entries or for its reads -/

/-- What the making of entries and the delivery of reads leave as it was. -/
structure Made (s t : State) : Prop where
  flash : t.flash = s.flash
  fuseCell : t.fuseCell = s.fuseCell
  life : t.life = s.life
  key : t.key = s.key
  attempts : t.attempts = s.attempts
  firstFailure : t.firstFailure = s.firstFailure
  running : t.dir.running = s.dir.running
  queue : t.dir.queue = s.dir.queue
  slots : t.dir.slots = s.dir.slots
  mask : t.dir.mask = s.dir.mask
  refusedWrite : t.dir.refusedWrite = s.dir.refusedWrite
  refusals : t.dir.refusals = s.dir.refusals
  flipCount : t.dir.flipCount = s.dir.flipCount
  work : t.job.map Job.work = s.job.map Job.work
  settings : t.engine.settings = s.engine.settings
  failures : ∀ q, (t.queues.get q).failures = (s.queues.get q).failures
  levels : ∀ q, (t.queues.get q).level = (s.queues.get q).level
  portT : t.portT.still = s.portT.still
  coverage : t.uni.coverage = s.uni.coverage
  passCount : t.uni.pass.count = s.uni.pass.count

theorem Made.refl (s : State) : Made s s :=
  ⟨rfl, rfl, rfl, rfl, rfl, rfl, rfl, rfl, rfl, rfl, rfl, rfl, rfl, rfl, rfl, fun _ => rfl, fun _ => rfl, rfl, rfl, rfl⟩

theorem Made.trans {s t u : State} (h : Made s t) (k : Made t u) : Made s u :=
  ⟨k.1.trans h.1, k.2.trans h.2, k.3.trans h.3, k.4.trans h.4, k.5.trans h.5, k.6.trans h.6, k.7.trans h.7, k.8.trans h.8,
   k.9.trans h.9, k.10.trans h.10, k.11.trans h.11, k.12.trans h.12, k.13.trans h.13, k.14.trans h.14, k.15.trans h.15,
   fun q => (k.16 q).trans (h.16 q), fun q => (k.17 q).trans (h.17 q), k.18.trans h.18, k.19.trans h.19, k.20.trans h.20⟩

theorem Apart.made {s t : State} (h : Apart s t) : Made s t where
  flash := h.flash
  fuseCell := h.fuseCell
  life := h.life
  key := h.key
  attempts := h.attempts
  firstFailure := h.firstFailure
  running := by rw [h.dir]
  queue := by rw [h.dir]
  slots := by rw [h.dir]
  mask := by rw [h.dir]
  refusedWrite := by rw [h.dir]
  refusals := by rw [h.dir]
  flipCount := by rw [h.dir]
  work := by rw [h.job]
  settings := h.settings
  failures := fun q => by have e := congrArg Queue.failures (h.queues q); exact e
  levels := fun q => by have e := congrArg Queue.level (h.queues q); exact e
  portT := h.portT
  coverage := h.coverage
  passCount := h.passCount

theorem Made.onPortA (s : State) (f : PortState → PortState) : Made s (s.onPort .a f) := { Made.refl s with }

theorem Made.setPool (s : State) (l : List Nat) : Made s (s.setPool l) := { Made.refl s with }

theorem Made.raise (s : State) (e : Event) : Made s (s.raise e) := { Made.refl s with }

/-- A queue changed in its entries and its flag only. -/
theorem Made.onQueue (s : State) (q : QueueId) (f : Queue → Queue) (hf : ∀ x, (f x).failures = x.failures)
    (hl : ∀ x, (f x).level = x.level) : Made s (s.onQueue q f) :=
  { Made.refl s with
    failures := fun r => by
      unfold State.onQueue State.setQueue
      cases q <;> cases r <;> simp only [PerQueue.put, PerQueue.get, hf]
    levels := fun r => by
      unfold State.onQueue State.setQueue
      cases q <;> cases r <;> simp only [PerQueue.put, PerQueue.get, hl] }

theorem Made.judgeHigh (s : State) (q : QueueId) : Made s (s.judgeHigh q) := by
  unfold State.judgeHigh
  split
  · exact (Made.onQueue s q Queue.judged (fun _ => rfl) (fun _ => rfl)).trans (Made.raise _ _)
  · exact Made.onQueue s q Queue.judged (fun _ => rfl) (fun _ => rfl)

theorem Made.setEntries (s : State) (q : QueueId) (l : List Entry) : Made s (s.setEntries q l) :=
  (Made.onQueue s q (fun x => { x with entries := l }) (fun _ => rfl) (fun _ => rfl)).trans (Made.judgeHigh _ q)

theorem Made.addEntry (s : State) (q : QueueId) (e : Entry) : Made s (s.addEntry q e) := by
  unfold State.addEntry
  refine Made.trans ?_ (Made.setEntries _ q _)
  exact { Made.refl s with }

theorem Apart.claimFirst (s : State) (q : QueueId) (l : List Entry) : Apart s (s.claimFirst q l) := by
  unfold State.claimFirst
  split
  · exact Apart.claimHead s q
  · exact Apart.refl s

theorem Made.joinEntry (s : State) (q : QueueId) (e : Entry) : Made s (s.joinEntry q e) :=
  ((Made.addEntry s q e).trans (Apart.claimFirst _ q _).made).trans (Apart.rejudgeJoin _ q).made

theorem Made.takePage (s : State) (k : WriteKind) : Made s (s.takePage k).1 := by
  unfold State.takePage
  split
  · exact Made.setPool ..
  · exact Made.refl s

theorem Made.postWrite (s : State) (w : QueuedWrite) : Made s (s.postWrite w) := by
  unfold State.postWrite
  exact ((Made.takePage s w.kind).trans (Made.joinEntry _ _ _)).trans (Made.onPortA _ _)

theorem Made.awaitingStep {s t : State} (h : s.awaitingStep = some t) : Made s t := by
  unfold State.awaitingStep at h
  repeat' split at h
  all_goals cases h
  exact (Made.onPortA s _).trans (Made.postWrite _ _)

theorem Made.roomStep {s t : State} (h : s.roomStep = some t) : Made s t := by
  unfold State.roomStep at h
  repeat' split at h
  all_goals cases h
  exact Made.onPortA ..

/-- The work of a Q-SYS run stands as it was but for one entry more. -/
theorem Made.setJob (s : State) (j k : Job) (h : s.job = some j) (hw : k.work = j.work) : Made s (s.setJob (some k)) :=
  { Made.refl s with work := by simp [h, hw] }

theorem State.takePage_job (s : State) (k : WriteKind) : (s.takePage k).1.job = s.job := by
  unfold State.takePage
  split <;> rfl

theorem State.joinEntry_job (s : State) (q : QueueId) (e : Entry) : (s.joinEntry q e).job = s.job := by
  unfold State.joinEntry
  rw [(Apart.rejudgeJoin _ q).job, (Apart.claimFirst _ q _).job]
  unfold State.addEntry State.setEntries State.judgeHigh
  split <;> rfl

theorem State.postWrite_job (s : State) (w : QueuedWrite) : (s.postWrite w).job = s.job := by
  unfold State.postWrite
  rw [State.onPort_job, State.joinEntry_job, State.takePage_job]

theorem State.awaitingStep_job {s t : State} (h : s.awaitingStep = some t) : t.job = s.job := by
  unfold State.awaitingStep at h
  repeat' split at h
  all_goals cases h
  exact State.postWrite_job _ _

theorem State.roomStep_job {s t : State} (h : s.roomStep = some t) : t.job = s.job := by
  unfold State.roomStep at h
  repeat' split at h
  all_goals cases h
  rfl

/-- A run of Q-SYS work adds an entry: the job counts it. -/
theorem State.sysStep_job {s t : State} {j : Job} (h : s.sysStep = some t) (hj : s.job = some j) :
    t.job = some { j with added := j.added + 1, unleft := j.unleft + 1 } := by
  unfold State.sysStep at h
  rw [hj] at h
  dsimp only at h
  split at h
  · cases h
    rw [State.joinEntry_job]
    rfl
  · cases h

theorem Made.sysStep {s t : State} (h : s.sysStep = some t) : Made s t := by
  cases hj : s.job with
  | none => unfold State.sysStep at h; rw [hj] at h; cases h
  | some j =>
    unfold State.sysStep at h
    rw [hj] at h
    dsimp only at h
    split at h
    · cases h
      refine Made.trans ((Made.takePage s (j.work.entry s.key.staging j.added).1).trans ?_) (Made.joinEntry _ _ _)
      exact Made.setJob _ j _ (by rw [State.takePage_job, hj]) rfl
    · cases h

theorem Job.next_not_ended (j : Job) : Job.ended { j with added := j.added + 1, unleft := j.unleft + 1 } = false := by
  simp [Job.ended]

/-- While such a directive runs, only the making of entries and the clearing of ROOM can be due. -/
theorem State.Steady.due_cases {ph : Phase} {w : Option Work} {s t : State} (h : s.Steady ph w) (hd : s.due = some t) :
    s.awaitingStep = some t ∨ s.sysStep = some t ∨ s.roomStep = some t := by
  have hrec : s.recordStep = none := by
    unfold State.recordStep
    cases hj : s.job with
    | none => rfl
    | some j =>
      have := h.job j hj
      dsimp only
      split
      · simp [this]
      · rfl
  have hre : s.recoverEraseStep = none := by
    unfold State.recoverEraseStep
    split
    · next j _ hj => simp [h.job j hj]
    · rfl
  have hsp : s.sealProgramStep = none := by
    unfold State.sealProgramStep
    split
    · next j _ hj => simp [h.job j hj]
    · rfl
  have hsf : s.sealFailedStep = none := by
    unfold State.sealFailedStep
    split
    · next j _ hj =>
      rw [h.job j hj]
      cases j.firstFailed <;> rfl
    · rfl
  have hds : s.directiveStep = none := by unfold State.directiveStep; rw [h.running]
  have hst := h.stays
  have hm : s.setMapFenceStep = none ∧ s.closeFenceStep = none ∧ s.recoverFenceStep = none ∧ s.sealFenceStep = none ∧
      s.serviceCloseFenceStep = none ∧ s.flipDrainStep = none ∧ s.syncStep = none ∧ s.flipSwitchStep = none := by
    unfold State.setMapFenceStep State.closeFenceStep State.recoverFenceStep State.sealFenceStep State.serviceCloseFenceStep
      State.flipDrainStep State.syncStep State.flipSwitchStep
    rw [h.running]
    cases ph <;> first | exact absurd hst Bool.false_ne_true | exact ⟨rfl, rfl, rfl, rfl, rfl, rfl, rfl, rfl⟩
  obtain ⟨m1, m2, m3, m4, m5, m6, m7, m8⟩ := hm
  simp only [State.due, moments, firstDue, hrec, hre, hsp, hsf, hds, m1, m2, m3, m4, m5, m6, m7, m8] at hd
  cases h1 : s.awaitingStep with
  | some a => rw [h1] at hd; cases hd; exact Or.inl rfl
  | none =>
    rw [h1] at hd
    cases h2 : s.sysStep with
    | some a => rw [h2] at hd; cases hd; exact Or.inr (Or.inl rfl)
    | none =>
      rw [h2] at hd
      cases h3 : s.roomStep with
      | some a => rw [h3] at hd; cases hd; exact Or.inr (Or.inr rfl)
      | none => rw [h3] at hd; cases hd

theorem State.Steady.due_step {ph : Phase} {w : Option Work} {s t : State} (h : s.Steady ph w) (hd : s.due = some t) :
    Made s t ∧ t.Steady ph w := by
  rcases h.due_cases hd with e | e | e
  · have m := Made.awaitingStep e
    exact ⟨m, m.running.trans h.running, h.stays, m.work.trans h.work, fun j hj => h.job j (State.awaitingStep_job e ▸ hj)⟩
  · have m := Made.sysStep e
    refine ⟨m, m.running.trans h.running, h.stays, m.work.trans h.work, fun j hj => ?_⟩
    cases hs : s.job with
    | none => unfold State.sysStep at e; rw [hs] at e; cases e
    | some k =>
      rw [State.sysStep_job e hs] at hj
      cases hj
      exact Job.next_not_ended k
  · have m := Made.roomStep e
    exact ⟨m, m.running.trans h.running, h.stays, m.work.trans h.work, fun j hj => h.job j (State.roomStep_job e ▸ hj)⟩

theorem State.Steady.settleUpTo {ph : Phase} {w : Option Work} (n : Nat) {s : State} (h : s.Steady ph w) :
    Made s (settleUpTo n s) ∧ (settleUpTo n s).Steady ph w := by
  induction n generalizing s with
  | zero => exact ⟨Made.refl s, h⟩
  | succ n ih =>
    unfold Machine.settleUpTo
    split
    · next t ht =>
      obtain ⟨m, k⟩ := h.due_step ht
      exact ⟨m.trans (ih k).1, (ih k).2⟩
    · exact ⟨Made.refl s, h⟩

/-- While such a directive runs, the rest of an event makes entries and delivers bytes, and the directive waits on in its phase with its
work. -/
theorem State.Steady.finish {ph : Phase} {w : Option Work} {s : State} (h : s.Steady ph w) : Made s s.finish :=
  (State.Steady.settleUpTo settleBound h).1.trans (Apart.runReads _).made

theorem State.steady_record {s : State} {ph : Phase} (hs : ph.stays = true) (l : Lifecycle) (f : Fields) (hr : s.dir.running = some ph) :
    (s.requestRecord l f).Steady ph (some (.record { lifecycle := l, fields := f } 1)) :=
  ⟨hr, hs, rfl, fun j hj => by cases hj; rfl⟩

end Sys2Proof.Machine
end

