-- ==== Sys2Proof/Laws/Settle.lean ====
section
/-! SUPPORT. The settling of an event comes to its end: a measure that every moment lowers, so that after `State.finish` no moment is
due; and what a change must leave alone for no moment to become due. -/

namespace Sys2Proof.Machine

-- One theorem after another: proofs checked side by side each hold a thread and its stack.
set_option Elab.async false

/-! ### When no moment is due -/

theorem firstDue_none {s : State} (l : List (State → Option State)) : firstDue s l = none ↔ ∀ f ∈ l, f s = none := by
  induction l with
  | nil => simp [firstDue]
  | cons f l ih =>
    unfold firstDue
    cases h : f s with
    | none => simp [ih, h]
    | some x => simp [h]

theorem State.due_none {s : State} : s.due = none ↔ ∀ f ∈ moments, f s = none := firstDue_none moments

theorem firstDue_some {s t : State} {l : List (State → Option State)} (h : firstDue s l = some t) : ∃ f ∈ l, f s = some t := by
  induction l with
  | nil => cases h
  | cons f l ih =>
    unfold firstDue at h
    split at h
    · next x hx => cases h; exact ⟨f, List.mem_cons_self, hx⟩
    · obtain ⟨g, hg, e⟩ := ih h
      exact ⟨g, List.mem_cons_of_mem _ hg, e⟩

/-- What decides whether a moment is due, but for the slots: unchanged from `s` to `t`, save that a pass may have opened. -/
structure SameDue (s t : State) : Prop where
  running : t.dir.running = s.dir.running
  queue : t.dir.queue = s.dir.queue
  job : t.job = s.job
  counts : ∀ q, (t.entriesOf q).length = (s.entriesOf q).length
  pool : t.pool = s.pool
  awaiting : t.portA.awaiting = s.portA.awaiting
  cause : t.portA.cause = s.portA.cause
  passOpen : s.uni.pass.isOpen = true → t.uni.pass.isOpen = true

theorem SameDue.refl (s : State) : SameDue s s := ⟨rfl, rfl, rfl, fun _ => rfl, rfl, rfl, rfl, id⟩

theorem SameDue.trans {s t u : State} (h : SameDue s t) (k : SameDue t u) : SameDue s u :=
  ⟨k.1.trans h.1, k.2.trans h.2, k.3.trans h.3, fun q => (k.4 q).trans (h.4 q), k.5.trans h.5, k.6.trans h.6, k.7.trans h.7,
   fun o => k.8 (h.8 o)⟩

theorem Apart.sameDue {s t : State} (h : Apart s t) : SameDue s t where
  running := by rw [h.dir]
  queue := by rw [h.dir]
  job := h.job
  counts := fun q => by
    have e := congrArg (fun x : Queue => x.entries.length) (h.queues q)
    simpa [Queue.still, State.entriesOf] using e
  pool := h.pool
  awaiting := by have e := congrArg PortState.awaiting h.portA; exact e
  cause := by have e := congrArg PortState.cause h.portA; exact e
  passOpen := h.passOpen

theorem SameDue.fenceClear {s t : State} (h : SameDue s t) (qs : List QueueId) : t.fenceClear qs = s.fenceClear qs := by
  unfold State.fenceClear
  congr 1
  funext q
  unfold State.fenceEmpty
  have : (t.entriesOf q).isEmpty = (s.entriesOf q).isEmpty := by
    have := h.counts q
    cases h1 : t.entriesOf q <;> cases h2 : s.entriesOf q <;> simp_all
  rw [this, h.awaiting]

theorem Work.entry_kind (w : Work) (m m' : Mem) (i : Nat) : (w.entry m i).1 = (w.entry m' i).1 := by
  unfold Work.entry
  split
  · split <;> rfl
  · split <;> rfl
  · rfl

/-- Where no moment is due, such a change makes none due but the start of a directive. -/
theorem SameDue.due {s t : State} (h : SameDue s t) (hd : s.due = none) (hs : t.directiveStep = none) : t.due = none := by
  rw [State.due_none] at hd ⊢
  simp only [moments, List.mem_cons, List.not_mem_nil, or_false, forall_eq_or_imp, forall_eq] at hd ⊢
  obtain ⟨d1, d2, d3, d4, d5, d6, d7, d8, d9, d10, d11, d12, d13, d14, d15, -⟩ := hd
  refine ⟨?_, ?_, ?_, ?_, ?_, ?_, ?_, ?_, ?_, ?_, ?_, ?_, ?_, ?_, ?_, hs⟩
  · unfold State.awaitingStep at d1 ⊢
    rw [h.awaiting, h.pool]
    revert d1
    repeat' split
    all_goals simp
  · unfold State.sysStep at d2 ⊢
    rw [h.job]
    revert d2
    split
    · simp
    · next j _ =>
      dsimp only
      rw [Work.entry_kind j.work t.key.staging s.key.staging, h.counts, h.pool]
      split <;> simp
  · unfold State.roomStep at d3 ⊢
    rw [h.cause]
    revert d3
    split
    · rw [h.counts, h.pool]
      split <;> simp
    · simp
  · unfold State.recordStep at d4 ⊢
    rw [h.job]
    revert d4
    repeat' split
    all_goals simp
  · unfold State.recoverEraseStep at d5 ⊢
    rw [h.running, h.job]
    revert d5
    repeat' split
    all_goals simp
  · unfold State.sealProgramStep at d6 ⊢
    rw [h.running, h.job]
    revert d6
    repeat' split
    all_goals simp
  · unfold State.sealFailedStep at d7 ⊢
    rw [h.running, h.job]
    revert d7
    repeat' split
    all_goals simp
  · unfold State.setMapFenceStep at d8 ⊢
    rw [h.running, h.fenceClear]
    revert d8
    repeat' split
    all_goals simp
  · unfold State.closeFenceStep at d9 ⊢
    rw [h.running, h.fenceClear]
    revert d9
    repeat' split
    all_goals simp
  · unfold State.recoverFenceStep at d10 ⊢
    rw [h.running, h.fenceClear]
    revert d10
    repeat' split
    all_goals simp
  · unfold State.sealFenceStep at d11 ⊢
    rw [h.running, h.fenceClear]
    revert d11
    split
    · split
      · split <;> split <;> simp
      · simp
    · simp
  · unfold State.serviceCloseFenceStep at d12 ⊢
    rw [h.running, h.fenceClear]
    revert d12
    repeat' split
    all_goals simp
  · unfold State.flipDrainStep at d13 ⊢
    rw [h.running, h.fenceClear]
    revert d13
    repeat' split
    all_goals simp
  · unfold State.syncStep at d14 ⊢
    rw [h.running]
    revert d14
    split
    · rw [h.fenceClear]
      split <;> simp
    · simp
  · unfold State.flipSwitchStep at d15 ⊢
    rw [h.running]
    revert d15
    split
    · cases hp : s.uni.pass.isOpen with
      | true => rw [h.passOpen hp]; simp
      | false => simp
    · simp

/-- Where no moment is due, no directive waits to start unless one runs. -/
theorem State.queue_of_not_due {s : State} (h : s.directivesOk) (hd : s.due = none)
    (hr : s.dir.running = none) : s.dir.queue = [] := by
  have d := State.due_none.1 hd State.directiveStep (by simp [moments])
  cases hq : s.dir.queue with
  | nil => rfl
  | cons n l =>
    obtain ⟨-, range, -, slots⟩ := h
    have rn := range n (by rw [hq]; exact List.mem_cons_self)
    have sn := slots n rn.1 rn.2
    have hs : (s.slot n).state = .pending := by
      rcases sn.1.1 (by rw [hq]; exact List.mem_cons_self) with e | e
      · exact e
      · have := (sn.2.1 e).1
        rw [hr] at this
        cases this
    unfold State.directiveStep at d
    rw [hr, hq] at d
    simp [hs] at d

/-! ### The measure -/

/-- How much may still follow in a phase. -/
def Phase.toGo : Phase → Nat
  | .closeFence | .recoverFence | .setMapFence _ _ | .syncWait _ | .flipDrain _ _ | .sealFence | .serviceCloseFence => 5
  | .flipHeader | .flipCrc _ _ _ _ | .flipArm | .sealValidate _ | .serviceCloseCheck => 4
  | .recoverErase | .sealProgram _ _ => 2
  | _ => 1

/-- How much may still follow for the directives. -/
def State.dirToGo (s : State) : Nat := 8 * s.dir.queue.length + (match s.dir.running with | some ph => ph.toGo | none => 6)

/-- A run of Q-SYS work has ended and its directive is to hear of it. -/
def State.jobToGo (s : State) : Nat := match s.job with | some j => if j.ended then 1 else 0 | none => 0

/-- An awaiting write is to become an entry, and its ROOM to clear. -/
def awaitingToGo : Option QueuedWrite → Nat
  | some _ => 2
  | none => 0

/-- ROOM is to clear. -/
def roomToGo : BusyCause → Nat
  | .room _ => 1
  | _ => 0

/-- How many entries may still be made, and whether ROOM may clear. -/
def State.writesToGo (s : State) : Nat :=
  2 * (32 - (s.entriesOf .sys).length) + awaitingToGo s.portA.awaiting + roomToGo s.portA.cause

/-- How many moments may still follow in the event. -/
def State.toGo (s : State) : Nat := s.dirToGo + s.jobToGo + s.writesToGo

theorem State.writesToGo_le (s : State) : s.writesToGo ≤ 67 := by
  have h1 : awaitingToGo s.portA.awaiting ≤ 2 := by unfold awaitingToGo; split <;> omega
  have h2 : roomToGo s.portA.cause ≤ 1 := by unfold roomToGo; split <;> omega
  unfold State.writesToGo
  omega

theorem State.jobToGo_le (s : State) : s.jobToGo ≤ 1 := by
  unfold State.jobToGo
  split
  · split <;> omega
  · omega

theorem Phase.toGo_le (ph : Phase) : ph.toGo ≤ 5 := by
  unfold Phase.toGo
  split <;> decide

/-- The directive queue stands, and no more may follow for the run of work and the writes than before. -/
structure Rest (s t : State) : Prop where
  queue : t.dir.queue = s.dir.queue
  job : t.jobToGo ≤ s.jobToGo
  writes : t.writesToGo ≤ s.writesToGo

/-- And the phase stands. -/
structure Light (s t : State) : Prop extends Rest s t where
  running : t.dir.running = s.dir.running

theorem Rest.trans {s t u : State} (h : Rest s t) (k : Rest t u) : Rest s u := ⟨k.1.trans h.1, k.2.trans h.2, k.3.trans h.3⟩

theorem Light.refl (s : State) : Light s s := ⟨⟨rfl, Nat.le_refl _, Nat.le_refl _⟩, rfl⟩

theorem Light.trans {s t u : State} (h : Light s t) (k : Light t u) : Light s u := ⟨h.toRest.trans k.toRest, k.running.trans h.running⟩

theorem SameDue.light {s t : State} (h : SameDue s t) : Light s t :=
  ⟨⟨h.queue, by unfold State.jobToGo; rw [h.job], by unfold State.writesToGo; rw [h.counts, h.awaiting, h.cause]⟩, h.running⟩

theorem Apart.light {s t : State} (h : Apart s t) : Light s t := h.sameDue.light

/-- A change of none of the measured things. -/
theorem Light.of_same {s t : State} (running : t.dir.running = s.dir.running := by rfl) (queue : t.dir.queue = s.dir.queue := by rfl)
    (job : t.job = s.job := by rfl) (queues : t.queues = s.queues := by rfl) (portA : t.portA = s.portA := by rfl) : Light s t :=
  ⟨⟨queue, by unfold State.jobToGo; rw [job], by unfold State.writesToGo State.entriesOf; rw [queues, portA]⟩, running⟩

theorem Light.setJob_none (s : State) : Light s (s.setJob none) := ⟨⟨rfl, Nat.zero_le _, Nat.le_refl _⟩, rfl⟩

/-- A run that begins has not ended. -/
theorem State.jobToGo_startJob (s : State) (w : Work) : (s.startJob w).jobToGo = 0 := by
  have : 0 < w.total := by cases w <;> simp [Work.total]
  simp [State.startJob, State.setJob, State.jobToGo, Job.ended, Job.wants, this]

theorem Light.startJob (s : State) (w : Work) : Light s (s.startJob w) :=
  ⟨⟨rfl, by rw [State.jobToGo_startJob]; exact Nat.zero_le _, Nat.le_refl _⟩, rfl⟩

theorem Light.requestRecord (s : State) (l : Lifecycle) (f : Fields) : Light s (s.requestRecord l f) := Light.startJob ..

theorem Light.blowFuse (s : State) : Light s s.blowFuse := Light.of_same

theorem Light.raise (s : State) (e : Event) : Light s (s.raise e) := Light.of_same

theorem Light.changeLifecycle (s : State) (l : Lifecycle) : Light s (s.changeLifecycle l) := Light.of_same

/-- Queues that differ in levels and flags only. -/
theorem Light.of_entries {s t : State} (running : t.dir.running = s.dir.running) (queue : t.dir.queue = s.dir.queue) (job : t.job = s.job)
    (sys : t.entriesOf .sys = s.entriesOf .sys) (portA : t.portA = s.portA) : Light s t :=
  ⟨⟨queue, by unfold State.jobToGo; rw [job], by unfold State.writesToGo; rw [sys, portA]⟩, running⟩

theorem Light.setLevel (s : State) (q : QueueId) (n : Nat) : Light s (s.setLevel q n) := by
  unfold State.setLevel State.judgeHigh
  split <;> cases q <;> exact Light.of_entries rfl rfl rfl rfl rfl

theorem Light.uncount (s : State) (n : Nat) : Light s (s.uncount n) := by
  unfold State.uncount
  split <;> exact Light.of_same

theorem Light.tellRemoved (s : State) (e : Entry) : Light s (s.tellRemoved e) := by
  unfold State.tellRemoved
  split
  · next h =>
    refine ⟨⟨rfl, Nat.le_refl _, ?_⟩, rfl⟩
    show State.writesToGo (s.onPort .a _) ≤ _
    unfold State.writesToGo
    rw [h]
    simp [State.onPort, State.setPort, State.port, State.entriesOf, h, roomToGo]
  · exact Light.refl s

theorem Light.foldl_tellRemoved (l : List Entry) (s : State) : Light s (l.foldl State.tellRemoved s) := by
  induction l generalizing s with
  | nil => exact Light.refl s
  | cons e l ih => exact (Light.tellRemoved s e).trans (ih _)

theorem Light.setEntries (s : State) (q : QueueId) (l : List Entry) (h : q ≠ .sys) : Light s (s.setEntries q l) := by
  unfold State.setEntries State.judgeHigh
  split <;> cases q <;> first | exact absurd rfl h | exact Light.of_entries rfl rfl rfl rfl rfl

theorem Light.setPool (s : State) (l : List Nat) : Light s (s.setPool l) := Light.of_same

theorem Light.withdrawHead (s : State) (q : QueueId) : Light s (s.withdrawHead q) := by
  unfold State.withdrawHead
  split
  · exact (Apart.withdraw s _).light
  · exact Light.refl s

/-- DISCARD never removes an entry of Q-SYS. -/
theorem Light.discard (s : State) (q : QueueId) (h : q ≠ .sys) : Light s (s.discard q) :=
  (((Light.withdrawHead s q).trans (Light.setEntries _ q _ h)).trans (Light.setPool _ _)).trans (Light.foldl_tellRemoved _ _)

theorem Light.onUni (s : State) (f : UniformityUnit → UniformityUnit) : Light s (s.onUni f) := Light.of_same

theorem Light.onEngine (s : State) (f : Engine → Engine) : Light s (s.onEngine f) := Light.of_same

theorem Light.onKey (s : State) (f : KeyUnit → KeyUnit) : Light s (s.onKey f) := Light.of_same

theorem Light.onPortT (s : State) (f : PortState → PortState) : Light s (s.onPort .t f) := Light.of_same

theorem Light.takeFields (s : State) (f : Fields) : Light s (s.takeFields f) := Light.of_same

theorem Light.dropCarried (s : State) : Light s s.dropCarried := by
  unfold State.dropCarried
  split
  · exact Light.of_same
  · exact Light.of_same

theorem Light.resetUniformity (s : State) : Light s s.resetUniformity :=
  (((Light.onUni s _).trans (Apart.clearAhead _).light).trans (Light.onPortT _ _)).trans (Apart.rejudgeSlot _).light

/-! ### What a directive does lowers the measure -/

/-- From `s` to `t` at most `r` may still follow in the phase, or the queue is shorter. -/
structure Eases (s : State) (r : Nat) (t : State) : Prop where
  dir : t.dirToGo ≤ 8 * s.dir.queue.length + r
  live : t.dir.running.isSome = true → t.dir.queue ≠ []
  job : t.jobToGo ≤ s.jobToGo
  writes : t.writesToGo ≤ s.writesToGo

theorem Eases.light {s t u : State} {r : Nat} (h : Eases s r t) (k : Light t u) : Eases s r u :=
  ⟨by unfold State.dirToGo; rw [k.queue, k.running]; exact h.dir, by rw [k.running, k.queue]; exact h.live, k.job.trans h.job,
   k.writes.trans h.writes⟩

/-- From `s` to `u` more may follow for the phase alone, and a directive stands at the head of the queue. -/
structure Going (s u : State) : Prop extends Rest s u where
  some : s.dir.queue ≠ []

theorem Going.light {s t u : State} (p : Going s t) (h : Light t u) : Going s u := ⟨p.toRest.trans h.toRest, p.some⟩

theorem Rest.endDirective {s u : State} (h : Rest s u) (c : ResultCode) (d : List Byte) :
    (u.endDirective c d).dirToGo = 8 * (s.dir.queue.length - 1) + 6 ∧ (u.endDirective c d).dir.running = none ∧
    (u.endDirective c d).jobToGo ≤ s.jobToGo ∧ (u.endDirective c d).writesToGo ≤ s.writesToGo := by
  have k : Light ((u.finishSlot u.headSlot c d).leaveHead) (u.endDirective c d) := (Light.raise _ _).trans (Light.uncount _ _)
  refine ⟨?_, k.running, k.job.trans h.job, k.writes.trans h.writes⟩
  unfold State.dirToGo
  rw [k.running, k.queue]
  show 8 * u.dir.queue.tail.length + 6 = _
  rw [h.queue, List.length_tail]

theorem Going.ends {s u : State} (p : Going s u) (c : ResultCode) (d : List Byte) (r : Nat) : Eases s r (u.endDirective c d) := by
  obtain ⟨h1, h2, h3, h4⟩ := p.endDirective c d
  have := List.length_pos_iff.2 p.some
  exact ⟨by omega, (by rw [h2]; exact fun h => nomatch h), h3, h4⟩

theorem Going.refuses {s u : State} (p : Going s u) (r : Nat) : Eases s r u.notInState := p.ends ..

theorem Going.bad {s u : State} (p : Going s u) (o r : Nat) : Eases s r (u.badParam o) := p.ends ..

theorem Going.enter {s u : State} (p : Going s u) (ph : Phase) {r : Nat} (h : ph.toGo ≤ r) : Eases s r (u.enter ph) := by
  refine ⟨?_, fun _ => ?_, p.job, p.writes⟩
  · show 8 * u.dir.queue.length + ph.toGo ≤ _
    rw [p.queue]
    omega
  · show u.dir.queue ≠ []
    rw [p.queue]
    exact p.some

theorem Going.entered {s u : State} (p : Going s u) (ph : Phase) : Going s (u.enter ph) := ⟨⟨p.queue, p.job, p.writes⟩, p.some⟩

theorem Going.requests {s u : State} (p : Going s u) (ph : Phase) (l : Lifecycle) (f : Fields) {r : Nat} (h : ph.toGo ≤ r) :
    Eases s r ((u.enter ph).requestRecord l f) := (p.enter ph h).light (Light.requestRecord ..)

theorem Going.startOpen {s u : State} (p : Going s u) (n : Nat) : Eases s 5 (u.startOpen n) := by
  unfold State.startOpen
  repeat' split
  · exact p.refuses _
  · exact p.bad _ _
  · exact (p.light (Light.blowFuse u)).requests _ _ _ (by decide)
  · exact (p.light (Light.blowFuse u)).ends ..

theorem Going.startClose {s u : State} (p : Going s u) (n : Nat) : Eases s 5 (u.startClose n) := by
  unfold State.startClose
  repeat' split
  · exact p.refuses _
  · exact p.bad _ _
  · exact p.ends ..
  · exact p.enter _ (by decide)

theorem Going.startRecover {s u : State} (p : Going s u) (n : Nat) : Eases s 5 (u.startRecover n) := by
  unfold State.startRecover
  repeat' split
  · exact p.refuses _
  · exact p.bad _ _
  · exact p.enter _ (by decide)
  · exact (p.light (Light.blowFuse u)).enter _ (by decide)
  · exact (p.light (Light.blowFuse u)).ends ..

theorem Going.startSetMap {s u : State} (p : Going s u) (img : Mem) (n : Nat) : Eases s 5 (u.startSetMap img n) := by
  unfold State.startSetMap
  dsimp only
  repeat' split
  · exact p.refuses _
  · exact p.bad _ _
  · exact p.bad _ _
  · exact p.enter _ (Phase.toGo_le _)
  · exact p.ends ..
  · exact p.enter _ (Phase.toGo_le _)

theorem Going.startSetLevels {s u : State} (p : Going s u) (img : Mem) (n : Nat) : Eases s 5 (u.startSetLevels img n) := by
  unfold State.startSetLevels
  repeat' split
  · exact p.refuses _
  · exact p.bad _ _
  · exact p.bad _ _
  · exact ((((p.light (Light.setLevel u _ _)).light (Light.setLevel _ _ _)).light (Light.setLevel _ _ _)).light (Light.setLevel _ _ _)).ends _ _ _

theorem discardQueue_ne {n : Nat} {q : QueueId} (h : discardQueue n = some q) : q ≠ .sys := by
  unfold discardQueue at h
  split at h <;> cases h <;> decide

theorem Going.startDiscard {s u : State} (p : Going s u) (img : Mem) (n : Nat) : Eases s 5 (u.startDiscard img n) := by
  unfold State.startDiscard
  repeat' split
  · exact p.refuses _
  · exact p.bad _ _
  · exact p.bad _ _
  · next h => exact (p.light (Light.discard u _ (discardQueue_ne h))).ends _ _ _

theorem Going.startSync {s u : State} (p : Going s u) (img : Mem) (n : Nat) : Eases s 5 (u.startSync img n) := by
  unfold State.startSync
  repeat' split
  · exact p.refuses _
  · exact p.bad _ _
  · exact p.bad _ _
  · exact p.bad _ _
  · exact p.enter _ (Phase.toGo_le _)

theorem Going.startSetArbiter {s u : State} (p : Going s u) (img : Mem) (n : Nat) : Eases s 5 (u.startSetArbiter img n) := by
  unfold State.startSetArbiter
  split
  · exact p.refuses _
  · split
    · exact p.bad _ _
    · split
      · exact p.bad _ _
      · dsimp only
        split
        · exact p.bad _ _
        · split
          · exact p.bad _ _
          · split
            · exact p.bad _ _
            · split
              · exact p.bad _ _
              · exact (p.light ((Light.onEngine u _).trans (Apart.judgePreempt _).light)).ends _ _ _

theorem Going.startSetPass {s u : State} (p : Going s u) (img : Mem) (n : Nat) : Eases s 5 (u.startSetPass img n) := by
  unfold State.startSetPass
  split
  · exact p.refuses _
  · split
    · exact p.refuses _
    · dsimp only
      split
      · exact p.bad _ _
      · split
        · exact p.bad _ _
        · split
          · exact p.bad _ _
          · exact (p.light (Light.onUni u _)).ends _ _ _

theorem Going.startFlip {s u : State} (p : Going s u) (img : Mem) (n : Nat) : Eases s 5 (u.startFlip img n) := by
  unfold State.startFlip
  repeat' split
  all_goals first
    | exact p.refuses _
    | exact p.bad _ _
    | exact p.enter _ (Phase.toGo_le _)

theorem Going.startSetKeyTimers {s u : State} (p : Going s u) (img : Mem) (n : Nat) : Eases s 5 (u.startSetKeyTimers img n) := by
  unfold State.startSetKeyTimers
  dsimp only
  split
  · exact p.refuses _
  · split
    · exact p.bad _ _
    · split
      · exact p.bad _ _
      · split
        · exact p.bad _ _
        · split
          · exact p.bad _ _
          · exact (p.light (Light.onKey u _)).ends _ _ _

theorem Going.startSeal {s u : State} (p : Going s u) (n : Nat) : Eases s 5 (u.startSeal n) := by
  unfold State.startSeal
  repeat' split
  all_goals first
    | exact p.refuses _
    | exact p.bad _ _
    | exact p.enter _ (Phase.toGo_le _)

theorem Going.startSetCode {s u : State} (p : Going s u) (img : Mem) (n : Nat) : Eases s 5 (u.startSetCode img n) := by
  unfold State.startSetCode
  dsimp only
  repeat' split
  all_goals first
    | exact p.refuses _
    | exact p.bad _ _
    | exact p.requests _ _ _ (Phase.toGo_le _)

theorem Going.startServiceOpen {s u : State} (p : Going s u) (img : Mem) (n : Nat) : Eases s 5 (u.startServiceOpen img n) := by
  unfold State.startServiceOpen
  repeat' split
  · exact p.refuses _
  · exact p.bad _ _
  · exact p.ends ..
  · exact (p.light (u := u.setAttempts 3) Light.of_same).requests _ _ _ (Phase.toGo_le _)
  · exact (p.light (u := (u.setAttempts (u.attempts - 1)).raise .codeRejected) Light.of_same).ends _ _ _

theorem Going.startServiceClose {s u : State} (p : Going s u) (n : Nat) : Eases s 5 (u.startServiceClose n) := by
  unfold State.startServiceClose
  repeat' split
  all_goals first
    | exact p.refuses _
    | exact p.bad _ _
    | exact p.enter _ (Phase.toGo_le _)

theorem Going.startOf {s u : State} (p : Going s u) (d : Option Directive) (img : Mem) (n : Nat) : Eases s 5 (u.startOf d img n) := by
  unfold State.startOf
  split
  · exact p.startOpen ..
  · exact p.startClose ..
  · exact p.startRecover ..
  · exact p.startSetMap ..
  · exact p.startSetLevels ..
  · exact p.startDiscard ..
  · exact p.startSync ..
  · exact p.startSetArbiter ..
  · exact p.startSetPass ..
  · exact p.startFlip ..
  · exact p.startSetKeyTimers ..
  · exact p.startSeal ..
  · exact p.startSetCode ..
  · exact p.startServiceOpen ..
  · exact p.startServiceClose ..
  all_goals exact p.ends ..

/-! ### Every moment lowers the measure -/

/-- A directive that runs has its slot at the head of the queue. -/
def State.Live (s : State) : Prop := s.dir.running.isSome = true → s.dir.queue ≠ []

/-- A moment that is due lowers the measure, and keeps a directive's slot in the queue. -/
def Lowers (f : State → Option State) : Prop := ∀ s t, s.Live → f s = some t → t.toGo < s.toGo ∧ t.Live

theorem State.Live.going {s : State} (h : s.Live) {ph : Phase} (hr : s.dir.running = some ph) : Going s s :=
  ⟨(Light.refl s).toRest, h (by rw [hr]; rfl)⟩

theorem Eases.lowers {s t : State} {r : Nat} {ph : Phase} (h : Eases s r t) (hr : s.dir.running = some ph) (k : r < ph.toGo) :
    t.toGo < s.toGo ∧ t.Live := by
  have e : s.dirToGo = 8 * s.dir.queue.length + ph.toGo := by unfold State.dirToGo; rw [hr]
  have := h.dir
  have := h.job
  have := h.writes
  exact ⟨by unfold State.toGo; omega, h.live⟩

theorem Lowers.directiveStep : Lowers State.directiveStep := by
  intro s t _ h
  unfold State.directiveStep at h
  split at h
  · next n l hr hq =>
    dsimp only at h
    split at h
    · cases h
      have p : Going s (s.onSlot n fun y => { y with state := .running }) 
        := ⟨(Light.of_same (s := s)).toRest, by rw [hq]; exact List.cons_ne_nil _ _⟩
      have e := p.startOf (s.slot n).directive ((s.slot n).image.getD []) (s.slot n).len.toNat
      have d : s.dirToGo = 8 * s.dir.queue.length + 6 := by unfold State.dirToGo; rw [hr]
      have := e.dir
      have := e.job
      have := e.writes
      exact ⟨by unfold State.toGo; omega, e.live⟩
    · cases h
  · cases h

theorem Going.sealJudge {s u : State} (p : Going s u) (n : Nat) (b : List Byte) : Eases s 4 (u.sealJudge n b) := by
  unfold State.sealJudge
  split
  · exact p.ends ..
  · split
    · split
      · exact (p.enter (.sealProgram n _) (show 2 ≤ 4 by decide)).light (Light.startJob ..)
      · exact p.refuses _
    · exact p.ends ..

theorem Going.serviceJudge {s u : State} (p : Going s u) (b : List Byte) : Eases s 4 (u.serviceJudge b) := by
  unfold State.serviceJudge
  split
  · exact p.ends ..
  · split
    · exact p.requests (.serviceCloseRecord _) _ _ (show 1 ≤ 4 by decide)
    · exact p.ends ..

theorem Going.regionJudge {s u : State} (p : Going s u) (e : Eases s 4 u) (b : List Byte) : Eases s 4 (u.regionJudge b) := by
  unfold State.regionJudge
  split
  · exact p.sealJudge ..
  · exact p.serviceJudge ..
  · exact e

theorem Going.readRegion {s u : State} (p : Going s u) (e : Eases s 4 u) : Eases s 4 u.readRegion := by
  unfold State.readRegion
  split
  · exact e
  · dsimp only
    split
    · exact p.regionJudge e _
    · split
      · exact e
      · exact e.light (Apart.raiseClaim ..).light

theorem Lowers.setMapFenceStep : Lowers State.setMapFenceStep := by
  intro s t i h
  unfold State.setMapFenceStep at h
  split at h
  · next n e hr => split at h <;> cases h; exact ((i.going hr).requests (.setMapRecord n e) _ _ (Nat.le_refl 1)).lowers hr (show 1 < 5 by decide)
  · cases h

theorem Lowers.closeFenceStep : Lowers State.closeFenceStep := by
  intro s t i h
  unfold State.closeFenceStep at h
  split at h
  · next hr => split at h <;> cases h; exact ((i.going hr).requests .closeRecord _ _ (Nat.le_refl 1)).lowers hr (by decide)
  · cases h

theorem Lowers.recoverFenceStep : Lowers State.recoverFenceStep := by
  intro s t i h
  unfold State.recoverFenceStep at h
  split at h
  · next hr =>
    split at h <;> cases h
    exact (((i.going hr).enter .recoverErase (Nat.le_refl 2)).light (Light.startJob ..)).lowers hr (by decide)
  · cases h

theorem Lowers.recoverEraseStep : Lowers State.recoverEraseStep := by
  intro s t i h
  unfold State.recoverEraseStep at h
  split at h
  · next hr hj =>
    have p := (i.going hr).light (Light.setJob_none s)
    split at h
    · split at h <;> cases h
      · exact (p.ends _ _ 1).lowers hr (by decide)
      · exact (p.requests .recoverRecord _ _ (Nat.le_refl 1)).lowers hr (by decide)
    · cases h
  · cases h

theorem Lowers.sealFenceStep : Lowers State.sealFenceStep := by
  intro s t i h
  unfold State.sealFenceStep at h
  split at h
  · next hr =>
    have p := i.going hr
    split at h
    · split at h <;> cases h
      · exact (p.ends _ _ 1).lowers hr (by decide)
      · exact ((p.entered _).readRegion (p.enter (.sealValidate _) (Nat.le_refl 4))).lowers hr (by decide)
    · cases h
  · cases h

theorem Lowers.sealProgramStep : Lowers State.sealProgramStep := by
  intro s t i h
  unfold State.sealProgramStep at h
  split at h
  · next hr hj =>
    split at h <;> cases h
    exact (((i.going hr).light (Light.setJob_none s)).requests (.sealRecord _ _) _ _ (Nat.le_refl 1)).lowers hr (show 1 < 2 by decide)
  · cases h

theorem Lowers.sealFailedStep : Lowers State.sealFailedStep := by
  intro s t i h
  unfold State.sealFailedStep at h
  split at h
  · next hr hj =>
    split at h
    · split at h <;> cases h
      exact (((i.going hr).light (Light.setJob_none s)).ends _ _ 1).lowers hr (show 1 < 2 by decide)
    · cases h
  · cases h

theorem Lowers.serviceCloseFenceStep : Lowers State.serviceCloseFenceStep := by
  intro s t i h
  unfold State.serviceCloseFenceStep at h
  split at h
  · next hr =>
    have p := i.going hr
    split at h <;> cases h
    exact ((p.entered _).readRegion (p.enter .serviceCloseCheck (Nat.le_refl 4))).lowers hr (by decide)
  · cases h

theorem Going.judgeCoverage {s u : State} (p : Going s u) (f c : Bool) : Eases s 4 (u.judgeCoverage f c) := by
  unfold State.judgeCoverage
  repeat' split
  · exact p.ends ..
  · exact p.ends ..
  · exact (p.enter .flipHeader (Nat.le_refl 4)).light (Apart.raiseClaim ..).light
  · exact p.enter .flipArm (Nat.le_refl 4)

theorem Lowers.flipDrainStep : Lowers State.flipDrainStep := by
  intro s t i h
  unfold State.flipDrainStep at h
  split at h
  · next hr => split at h <;> cases h; exact ((i.going hr).judgeCoverage _ _).lowers hr (show 4 < 5 by decide)
  · cases h

theorem Lowers.flipSwitchStep : Lowers State.flipSwitchStep := by
  intro s t i h
  unfold State.flipSwitchStep at h
  split at h
  · next hr => split at h <;> cases h; exact ((i.going hr).requests .flipSwitch _ _ (Nat.le_refl 1)).lowers hr (by decide)
  · cases h

theorem Lowers.syncStep : Lowers State.syncStep := by
  intro s t i h
  unfold State.syncStep at h
  split at h
  · next hr => split at h <;> cases h; exact ((i.going hr).ends _ _ 1).lowers hr (show 1 < 5 by decide)
  · cases h

/-! ### The end of a control record write -/

/-- A moment whose run of work had ended, and that leaves no ended run. -/
theorem State.toGo_lt_of_job {s t : State} (h : s.jobToGo = 1) (hj : t.jobToGo = 0) (hd : t.dirToGo ≤ s.dirToGo)
    (hw : t.writesToGo ≤ s.writesToGo) : t.toGo < s.toGo := by
  unfold State.toGo
  omega

/-- `u` is `s` with no run of work, and at most the phase may have ended. -/
structure Spent (s u : State) : Prop where
  queue : u.dir.queue = s.dir.queue
  job : u.jobToGo = 0
  writes : u.writesToGo ≤ s.writesToGo

theorem Spent.light {s t u : State} (h : Spent s t) (k : Light t u) : Spent s u :=
  ⟨k.queue.trans h.queue, Nat.le_zero.1 (h.job ▸ k.job), k.writes.trans h.writes⟩

theorem Spent.release {s t : State} (h : Spent s t) : Spent s t.release :=
  Spent.light (t := t.onDir fun x => { x with running := none }) ⟨h.queue, h.job, h.writes⟩ (Apart.runPort _ _).light

/-- With nothing running, or with a directive at the head of the queue, an end does not raise what may follow. -/
theorem Spent.ends {s u : State} (h : Spent s u) (i : s.Live) (e : s.jobToGo = 1) (c : ResultCode) (d : List Byte) :
    (u.endDirective c d).toGo < s.toGo ∧ (u.endDirective c d).Live := by
  obtain ⟨h1, h2, h3, h4⟩ := Rest.endDirective (s := u) ⟨rfl, Nat.le_refl _, Nat.le_refl _⟩ c d
  refine ⟨State.toGo_lt_of_job e (Nat.le_zero.1 (h.job ▸ h3)) ?_ (h4.trans h.writes), fun x => ?_⟩
  · rw [h1, h.queue]
    unfold State.dirToGo
    cases hr : s.dir.running with
    | none => simp only; omega
    | some ph =>
      have := List.length_pos_iff.2 (i (by rw [hr]; rfl))
      simp only
      omega
  · rw [h2] at x
    cases x

theorem Lowers.recordStep : Lowers State.recordStep := by
  intro s t i h
  unfold State.recordStep at h
  split at h
  · next j hj =>
    split at h
    · next r k hk =>
      split at h
      · next he =>
        have e : s.jobToGo = 1 := by unfold State.jobToGo; rw [hj]; simp [he]
        have p : Spent s (s.setJob none) := ⟨rfl, rfl, Nat.le_refl _⟩
        split at h
        · cases h
          unfold State.recordDone
          have q := p.light (Light.takeFields _ r.fields)
          split
          · exact (q.light (Light.changeLifecycle _ _)).ends i e _ _
          · exact (q.light (Light.changeLifecycle _ _)).ends i e _ _
          · exact (q.light (Light.changeLifecycle _ _)).ends i e _ _
          · split
            · exact ((q.light (Light.dropCarried _)).light (Light.resetUniformity _)).ends i e _ _
            · exact (q.light (Light.dropCarried _)).ends i e _ _
          · exact ((((q.light (Light.onUni _ _)).light (Apart.clearAhead _).light).release).light (Light.raise _ _)).ends i e _ _
          · exact ((q.light (Light.changeLifecycle _ _)).light (Light.onKey _ _)).ends i e _ _
          · exact q.ends i e _ _
          · exact (q.light (Light.changeLifecycle _ _)).ends i e _ _
          · exact (q.light (Light.changeLifecycle _ _)).ends i e _ _
          · exact ⟨State.toGo_lt_of_job e rfl (Nat.le_refl _) (Nat.le_refl _), i⟩
        · split at h
          · cases h
            exact ⟨State.toGo_lt_of_job e (State.jobToGo_startJob _ _) (Nat.le_refl _) (Nat.le_refl _), i⟩
          · cases h
            unfold State.recordFailed
            have q := p.light (Light.raise _ .controlFailed)
            split
            · exact ((q.light (Light.changeLifecycle _ _)).light (Apart.clearAhead _).light).ends i e _ _
            · exact q.release.ends i e _ _
            · exact q.ends i e _ _
      · cases h
    · cases h
  · cases h

/-! ### The making of entries -/

theorem State.addEntry_entries (s : State) (q r : QueueId) (e : Entry) :
    ((s.addEntry q e).entriesOf r).length = if r = q then (s.entriesOf r).length + 1 else (s.entriesOf r).length := by
  unfold State.addEntry State.setEntries State.judgeHigh
  split <;> cases q <;> cases r <;>
    simp [State.onQueue, State.setQueue, State.entriesOf, PerQueue.get, PerQueue.put, Queue.judged, State.raise, State.onDir]

theorem State.joinEntry_entries (s : State) (q r : QueueId) (e : Entry) :
    ((s.joinEntry q e).entriesOf r).length = if r = q then (s.entriesOf r).length + 1 else (s.entriesOf r).length := by
  unfold State.joinEntry
  rw [(Apart.rejudgeJoin _ q).sameDue.counts, (Apart.claimFirst _ q _).sameDue.counts, State.addEntry_entries]

theorem State.addEntry_portA (s : State) (q : QueueId) (e : Entry) : (s.addEntry q e).portA = s.portA := by
  unfold State.addEntry State.setEntries State.judgeHigh
  split <;> rfl

theorem State.joinEntry_portA (s : State) (q : QueueId) (e : Entry) :
    (s.joinEntry q e).portA.awaiting = s.portA.awaiting ∧ (s.joinEntry q e).portA.cause = s.portA.cause := by
  unfold State.joinEntry
  rw [(Apart.rejudgeJoin _ q).sameDue.awaiting, (Apart.claimFirst _ q _).sameDue.awaiting, (Apart.rejudgeJoin _ q).sameDue.cause,
    (Apart.claimFirst _ q _).sameDue.cause, State.addEntry_portA]
  exact ⟨rfl, rfl⟩

theorem Made.dirToGo {s t : State} (h : Made s t) : t.dirToGo = s.dirToGo := by
  unfold State.dirToGo
  rw [h.running, h.queue]

theorem Made.live {s t : State} (h : Made s t) (i : s.Live) : t.Live := by
  unfold State.Live
  rw [h.running, h.queue]
  exact i

theorem Lowers.roomStep : Lowers State.roomStep := by
  intro s t i h
  have m := Made.roomStep h
  refine ⟨?_, m.live i⟩
  have hj : t.jobToGo = s.jobToGo := by unfold State.jobToGo; rw [State.roomStep_job h]
  unfold State.toGo
  rw [m.dirToGo, hj]
  unfold State.roomStep at h
  split at h
  · next q hq =>
    split at h <;> cases h
    have e : s.writesToGo = 2 * (32 - (s.entriesOf .sys).length) + awaitingToGo s.portA.awaiting + 1 := by
      unfold State.writesToGo
      rw [hq]
      rfl
    have f : (s.onPort .a fun x => { x with cause := .none }).writesToGo =
        2 * (32 - (s.entriesOf .sys).length) + awaitingToGo s.portA.awaiting := rfl
    omega
  · cases h

theorem State.takePage_entries (s : State) (k : WriteKind) (q : QueueId) : (s.takePage k).1.entriesOf q = s.entriesOf q := by
  unfold State.takePage
  split <;> rfl

theorem State.takePage_portA (s : State) (k : WriteKind) : (s.takePage k).1.portA = s.portA := by
  unfold State.takePage
  split <;> rfl

theorem roomToGo_le (c : BusyCause) : roomToGo c ≤ 1 := by
  unfold roomToGo
  split <;> omega

theorem State.postWrite_writesToGo (s : State) (w : QueuedWrite) :
    (s.postWrite w).writesToGo ≤ 2 * (32 - (s.entriesOf .sys).length) + awaitingToGo s.portA.awaiting + 1 := by
  unfold State.postWrite
  generalize he : w.entry s.nextSeq (s.takePage w.kind).2 = e
  have k := State.joinEntry_entries (s.takePage w.kind).1 w.queue .sys e
  have a := (State.joinEntry_portA (s.takePage w.kind).1 w.queue e).1
  rw [State.takePage_portA] at a
  rw [State.takePage_entries] at k
  show 2 * (32 - (((s.takePage w.kind).1.joinEntry w.queue e).entriesOf .sys).length) +
    awaitingToGo ((s.takePage w.kind).1.joinEntry w.queue e).portA.awaiting + roomToGo (if w.posted then .room w.queue else .entry s.nextSeq) ≤ _
  rw [a]
  have := roomToGo_le (if w.posted then .room w.queue else .entry s.nextSeq)
  split at k <;> omega

theorem Lowers.awaitingStep : Lowers State.awaitingStep := by
  intro s t i h
  have m := Made.awaitingStep h
  refine ⟨?_, m.live i⟩
  have hj : t.jobToGo = s.jobToGo := by unfold State.jobToGo; rw [State.awaitingStep_job h]
  unfold State.toGo
  rw [m.dirToGo, hj]
  unfold State.awaitingStep at h
  split at h
  · next w hw =>
    split at h <;> cases h
    have p := State.postWrite_writesToGo (s.onPort .a fun x => { x with awaiting := none }) w
    have e : s.writesToGo = 2 * (32 - (s.entriesOf .sys).length) + 2 + roomToGo s.portA.cause := by
      unfold State.writesToGo
      rw [hw]
      rfl
    have p : ((s.onPort .a fun x => { x with awaiting := none }).postWrite w).writesToGo ≤ 2 * (32 - (s.entriesOf .sys).length) + 0 + 1 := p
    omega
  · cases h

theorem Lowers.sysStep : Lowers State.sysStep := by
  intro s t i h
  have m := Made.sysStep h
  refine ⟨?_, m.live i⟩
  have hj : t.jobToGo ≤ s.jobToGo + 1 := (State.jobToGo_le t).trans (Nat.le_add_left _ _)
  unfold State.toGo
  rw [m.dirToGo]
  have hw : t.writesToGo + 2 ≤ s.writesToGo := by
    unfold State.sysStep at h
    split at h
    · cases h
    · next j _ =>
      dsimp only at h
      split at h
      · next hc =>
        cases h
        generalize he : Entry.mk _ _ _ _ _ _ _ _ _ _ _ = e
        generalize hu : ((s.takePage (j.work.entry s.key.staging j.added).1).1.setJob _) = u
        have ue : ∀ q, u.entriesOf q = s.entriesOf q := fun q => by rw [← hu]; exact State.takePage_entries _ _ q
        have up : u.portA = s.portA := by rw [← hu]; exact State.takePage_portA _ _
        have k := State.joinEntry_entries u .sys .sys e
        have a := State.joinEntry_portA u .sys e
        unfold State.writesToGo
        rw [a.1, a.2, up, k, ue, if_pos rfl]
        have := hc.2.1
        omega
      · cases h
  omega

/-! ### The end of the settling -/

theorem Lowers.due {s t : State} (i : s.Live) (h : s.due = some t) : t.toGo < s.toGo ∧ t.Live := by
  obtain ⟨f, hf, e⟩ := firstDue_some h
  simp only [moments, List.mem_cons, List.not_mem_nil, or_false] at hf
  rcases hf with rfl | rfl | rfl | rfl | rfl | rfl | rfl | rfl | rfl | rfl | rfl | rfl | rfl | rfl | rfl | rfl
  · exact Lowers.awaitingStep s t i e
  · exact Lowers.sysStep s t i e
  · exact Lowers.roomStep s t i e
  · exact Lowers.recordStep s t i e
  · exact Lowers.recoverEraseStep s t i e
  · exact Lowers.sealProgramStep s t i e
  · exact Lowers.sealFailedStep s t i e
  · exact Lowers.setMapFenceStep s t i e
  · exact Lowers.closeFenceStep s t i e
  · exact Lowers.recoverFenceStep s t i e
  · exact Lowers.sealFenceStep s t i e
  · exact Lowers.serviceCloseFenceStep s t i e
  · exact Lowers.flipDrainStep s t i e
  · exact Lowers.syncStep s t i e
  · exact Lowers.flipSwitchStep s t i e
  · exact Lowers.directiveStep s t i e

theorem settleUpTo_due (n : Nat) {s : State} (i : s.Live) (h : s.toGo ≤ n) :
    (settleUpTo n s).due = none ∧ (settleUpTo n s).Live := by
  induction n generalizing s with
  | zero =>
    refine ⟨?_, i⟩
    cases hd : s.due with
    | none => exact hd
    | some t => exact absurd (Lowers.due i hd).1 (by omega)
  | succ n ih =>
    unfold settleUpTo
    split
    · next t ht =>
      have l := Lowers.due i ht
      exact ih l.2 (by omega)
    · next hd => exact ⟨hd, i⟩

theorem State.toGo_le_settleBound {s : State} (h : s.dir.queue.length ≤ 48) : s.toGo ≤ settleBound := by
  have hd : s.dirToGo ≤ 8 * 48 + 6 := by
    unfold State.dirToGo
    split
    · next ph _ => have := ph.toGo_le; omega
    · omega
  have := s.jobToGo_le
  have := s.writesToGo_le
  unfold State.toGo settleBound
  omega

/-- After the settling of an event no moment is due. -/
theorem State.settle_due {s : State} (i : s.Live) (h : s.dir.queue.length ≤ 48) : s.settle.due = none ∧ s.settle.Live :=
  settleUpTo_due _ i (State.toGo_le_settleBound h)

/-- The delivery of bytes and the Arbiter's work make no moment due. -/
theorem Apart.due {s t : State} (h : Apart s t) (hd : s.due = none) : t.due = none := by
  refine h.sameDue.due hd ?_
  have d := State.due_none.1 hd State.directiveStep (by simp [moments])
  have hs : ∀ n, t.slot n = s.slot n := fun n => by unfold State.slot; rw [h.dir]
  unfold State.directiveStep at d ⊢
  rw [h.dir]
  revert d
  split
  · dsimp only
    rw [hs]
    split <;> simp
  · simp

/-- After the rest of an event no moment is due. -/
theorem State.finish_due {s : State} (i : s.Live) (h : s.dir.queue.length ≤ 48) : s.finish.due = none :=
  (Apart.runReads _).due (State.settle_due i h).1

end Sys2Proof.Machine
end

