-- ==== Sys2Proof/Tests/Slice0.lean ====
section
/-! SUPPORT. Tests: ill-formed commands, small examples from the spec, and, for each statement with hypotheses, a state and operands that
meet them. -/

namespace Sys2Proof.Tests

open Sys2Proof Sys2Proof.Machine

-- One theorem after another: proofs checked side by side each hold a thread and its stack.
set_option Elab.async false

/-! ### Ill-formed commands -/

theorem test_wf_reset_offset_too_high : (Instr.deviceReset true [(65536, 0x00#8)]).wf = false := by decide
theorem test_wf_reset_offsets_not_rising : (Instr.deviceReset true [(5, 0x00#8), (5, 0x01#8)]).wf = false := by decide
theorem test_wf_ready_offset_too_high : (Instr.flashReady false [(1, 0x00#8), (65536, 0x01#8)]).wf = false := by decide
theorem test_wf_ready_offsets_not_rising : (Instr.flashReady false [(9, 0x00#8), (8, 0x01#8)]).wf = false := by decide
theorem test_wf_limit_offset_too_high : (Instr.waitLimitExpiry [(70000, 0x00#8)]).wf = false := by decide
theorem test_wf_limit_offsets_not_rising : (Instr.waitLimitExpiry [(2, 0x00#8), (1, 0x01#8)]).wf = false := by decide
theorem test_wf_read_goes_on_with_nothing : (Instr.read .t none 0).wf = false := by decide
theorem test_wf_taken : (Instr.deviceReset true [(0, 0x00#8), (65535, 0x01#8)]).wf = true ∧ (Instr.read .t none 1).wf = true ∧
    (Instr.read .t (some 0) 0).wf = true := by decide

/-! ### Check codes, masks and the hook for words -/

/-- The nine characters 1 to 9, over which R193 gives both check values. -/
def digits : List Byte := [0x31, 0x32, 0x33, 0x34, 0x35, 0x36, 0x37, 0x38, 0x39]

theorem test_crc32_check_value : crc32 digits = 0xCBF43926#32 := by decide +kernel
theorem test_crc16_check_value : crc16 digits = 0x29B1#16 := by decide +kernel
theorem test_program_wraps_in_its_page : covered 0x1FE [0xA0, 0xA1, 0xA2] = [(0, 0xA2#8), (254, 0xA0#8), (255, 0xA1#8)] := by decide
theorem test_erased_byte_stays_unlisted : Mem.set (Mem.set [] 7 0x12) 7 0xFF = [] := by decide
theorem test_no_word_is_a_command : decodeTableWord 8 0 = none := by decide
theorem test_empty_queue_ticks : ∃ t, step State.reset = .next t ∧ t.pending = [] := ⟨_, rfl, by decide +kernel⟩

/-! ### States -/

/-- A machine past LOADING in a lifecycle, with nothing going on. -/
def idle (l : Lifecycle) : State :=
  { State.reset with
    life := { State.reset.life with lifecycle := some l }
    portA := { PortState.reset with cause := .none }
    portT := { PortState.reset with cause := .none }
    engine := { Engine.reset with read := none } }

/-- `idle` with another map. -/
def mapped (l : Lifecycle) (m : List (Option MapEntry)) : State :=
  { idle l with life := { (idle l).life with fields := { Fields.default with map := m } } }

/-- `idle` with WEL set on both ports. -/
def enabled (s : State) : State := { s with portA := { s.portA with wel := true }, portT := { s.portT with wel := true } }

def keyEntry : MapEntry :=
  { cls := .key, ubase := 0x10000, size := 4096, pbase := 0x10000, pbase2 := 0, aRight := .none, tRight := .none, posted := false }

def settingsEntry : MapEntry :=
  { cls := .settings, ubase := 0x20000, size := 4096, pbase := 0x20000, pbase2 := 0, aRight := .none, tRight := .read, posted := false }

def uniformityEntry : MapEntry :=
  { cls := .uniformity, ubase := 0x40000, size := 0x20000, pbase := 0x40000, pbase2 := 0x80000, aRight := .none, tRight := .none,
    posted := false }

def postedEntry : MapEntry :=
  { cls := .pass, ubase := 0, size := 0x10000, pbase := 0, pbase2 := 0, aRight := .readWrite, tRight := .read, posted := true }

/-- A map with an entry of each class. -/
def fullMap : List (Option MapEntry) :=
  [some postedEntry, some keyEntry, some settingsEntry, some uniformityEntry] ++ List.replicate 11 none

/-- The state after a command. -/
def after (c : Instr) (s : State) : State :=
  match exec c s with
  | .next t => t
  | _ => s

theorem calm_idle (l : Lifecycle) : (idle l).Calm := ⟨rfl, rfl, rfl, rfl, fun _ h => by cases h⟩
theorem quiet_idle (l : Lifecycle) : (idle l).NoReads := ⟨rfl, rfl⟩

/-! ### Small examples -/

theorem test_write_enable_while_busy :
    ((after (.writeEnable .a) State.reset).portA.wel, (after (.writeEnable .a) State.reset).portA.cause) = (true, .loading) := by
  decide +kernel

theorem test_status_byte_shows_busy_and_wel : (after (.statusRead .a) (enabled State.reset)).portA.returned = [0x03#8] := by
  decide +kernel

theorem test_unknown_command_returns_erased_bytes : (after (.unknownCommand .t 2) (idle .opened)).portT.returned = [0xFF#8, 0xFF#8] := by
  decide +kernel

theorem test_program_goes_to_q_pass :
    ((after (.program .a 0x1FE [0x0F, 0xF0] true) (enabled (idle .blank))).entriesOf .pass).map (fun e => (e.addr, e.data, e.state)) =
      [(0x100, [(254, 0x0F#8), (255, 0xF0#8)], .active .preRead)] := by
  decide +kernel

theorem test_open_program_is_not_taken :
    ((after (.program .a 0 [0x00] false) (enabled (idle .blank))).portA.link,
     (after (.program .a 0 [0x00] false) (enabled (idle .blank))).entriesOf .pass) = (.collecting .program 0 [0x00], []) := by
  decide +kernel

theorem test_uniformity_write_goes_to_shadow :
    (mapped .sealed fullMap).classify .a .sealed .eraseSector 0x41234 = .queue .uni 0x81000 true := by decide +kernel

theorem test_block_over_two_entries_is_refused :
    (mapped .opened fullMap).classify .a .opened .eraseBlock 0x20000 = .refuse .spansEntries := by decide +kernel

/-- A queued sector erase at 0. -/
def queuedErase : Entry :=
  { seq := 0, kind := .eraseSector, addr := 0, data := [], page := none, origin := .portA, upstream := none, posted := false,
    state := .queued, retries := 0, image := none }

theorem test_erase_over_queue_reads_erased :
    combine [(0x100, 0x55#8)] [queuedErase] { page := 0x100, lo := 0, hi := 1 } = [0xFF#8, 0xFF#8] := by
  decide +kernel

theorem test_loading_goes_on_page_by_page :
    ((after .pageReadEnd State.reset).life.loadPages, (after .pageReadEnd State.reset).engine.read.map (fun r => r.range.page)) =
      (1, some 0x1FFF100) := by
  decide +kernel

/-! ### Hypotheses of the invariants -/

theorem test_invariants_are_met :
    ∃ t, State.reset.memoryOk ∧ State.reset.pageCount = 64 ∧ State.reset.attempts ≤ 3 ∧ State.reset.dir.slots.length = 15 ∧
      State.reset.ahead.slots.length = 8 ∧ State.reset.portT.cause = .loading ∧ State.reset.portT.awaiting = none ∧
      State.reset.portT.programErr = false ∧ step State.reset = .next t :=
  ⟨_, ⟨rfl, rfl⟩, rfl, by decide, rfl, rfl, rfl, rfl, rfl, rfl⟩

theorem test_port_t_not_busy_is_met :
    ∃ t, (idle .opened).portT.cause = .none ∧ (idle .opened).portT.awaiting = none ∧ (idle .opened).portT.programErr = false ∧
      step (idle .opened) = .next t := ⟨_, rfl, rfl, rfl, rfl⟩

theorem test_blown_fuse_is_met :
    ∃ t, ({ idle .opened with fuseCell := true } : State).fuseCell = true ∧ step { idle .opened with fuseCell := true } = .next t :=
  ⟨_, rfl, rfl⟩

/-- A state with the slots' directives in the queue: slot 1 RUNNING in a phase, with a code and a parameter length. -/
def running (l : Lifecycle) (m : List (Option MapEntry)) (ph : Phase) (code : Byte) : State :=
  { mapped l m with
    dir := { State.reset.dir with
      slots := { Slot.reset with state := .running, code := code, image := some [] } :: List.replicate 14 Slot.reset
      queue := [1]
      running := some ph } }

theorem alone_running (l : Lifecycle) (m : List (Option MapEntry)) (ph : Phase) (code : Byte) : (running l m ph code).Alone 1 ph :=
  { linkA := rfl, linkT := rfl, running := rfl, queue := rfl, low := by decide, high := Nat.le_add_left .., awaiting := rfl,
    noRoom := fun _ h => by cases h }

theorem test_directives_in_step_is_met :
    let s := running .opened fullMap (.sealValidate 64) 0x61
    ∃ t, s.dir.slots.length = 15 ∧ s.directivesOk ∧ s.due = none ∧ step s = .next t := by
  refine ⟨_, rfl, ⟨by decide, by decide, by decide, ?_⟩, by decide +kernel, rfl⟩
  intro n h1 h2
  have h2 : n ≤ 15 := h2
  interval_cases n <;> exact ⟨by decide, by decide⟩

/-! ### Hypotheses of the writes -/

/-- A program of one byte, and the two erases, close on a free link; an open program closes without a further byte. -/
theorem test_closes_is_met (p : Port) (s : State) (h : (s.port p).link = .idle) (a : Addr) :
    s.Closes p .program a [0x00] a [0x00] ∧ s.Closes p .eraseSector a [] a [] ∧ s.Closes p .eraseBlock a [] a [] := by
  refine ⟨⟨?_, fun h => absurd rfl h, fun _ => by decide⟩, ⟨?_, fun _ => rfl, fun h => by cases h⟩, ⟨?_, fun _ => rfl, fun h => by cases h⟩⟩ <;>
    · rw [h]; rfl

theorem test_collected_program_closes :
    ({ idle .opened with portA := { (idle .opened).portA with link := .collecting .program 5 [0x01] } } : State).Closes
      .a .program 9 [] 5 [0x01] := ⟨rfl, fun h => absurd rfl h, fun _ => by decide⟩

theorem test_no_enable_is_met :
    State.reset.Closes .t .eraseBlock 0 [] 0 [] ∧ (State.reset.port .t).wel = false ∧
    (enabled (idle .opened)).Closes .t .program 0 [0x00] 0 [0x00] ∧ (enabled (idle .opened)).portT.wel = true ∧
    (enabled (idle .opened)).portT.busy = false ∧ (enabled (idle .opened)).life.lifecycle = some .opened :=
  ⟨(test_closes_is_met .t _ rfl 0).2.2, rfl, (test_closes_is_met .t _ rfl 0).1, rfl, rfl, rfl⟩

theorem test_busy_write_is_met :
    (enabled State.reset).Closes .a .program 0 [0x00] 0 [0x00] ∧ ((enabled State.reset).port .a).wel = true ∧
    ((enabled State.reset).port .a).cause ≠ .none := ⟨(test_closes_is_met .a _ rfl 0).1, rfl, by decide⟩

/-- Port A takes a closed program of one byte, or a sector erase. -/
theorem takes_program {s : State} {l : Lifecycle} (h : s.portA.link = .idle) (w : s.portA.wel = true) (f : s.portA.busy = false)
    (hl : s.life.lifecycle = some l) (a : Addr) {d : List Byte} (hd : d ≠ []) : s.Takes .program a d a d l :=
  { collected := by rw [show (s.port .a).link = .idle from h]; rfl, erase := fun h => absurd rfl h, byte := fun _ => hd, wel := w,
    free := f, life := hl }

theorem takes_erase {s : State} {l : Lifecycle} (h : s.portA.link = .idle) (w : s.portA.wel = true) (f : s.portA.busy = false)
    (hl : s.life.lifecycle = some l) (a : Addr) : s.Takes .eraseSector a [] a [] l :=
  { collected := by rw [show (s.port .a).link = .idle from h]; rfl, erase := fun _ => rfl, byte := fun h => (by cases h), wel := w,
    free := f, life := hl }

theorem test_classifier_refusal_is_met :
    (enabled (idle .safe)).Takes .program 0 [0x00] 0 [0x00] .safe ∧
    (enabled (idle .safe)).classify .a .safe .program (0 : Addr).toNat = .refuse .classLocked :=
  ⟨takes_program rfl rfl rfl rfl 0 (by decide), by decide +kernel⟩

/-- Slot 2 PENDING behind slot 1. -/
def pendingTwo : State :=
  { enabled (running .opened fullMap .sealFence 0x61) with
    dir :=
      { (running .opened fullMap .sealFence 0x61).dir with
        slots := (running .opened fullMap .sealFence 0x61).dir.slots.set 1 { Slot.reset with state := .pending }
        queue := [1, 2] } }

theorem test_slot_program_refused_is_met :
    (pendingTwo.Takes .program 0x1FFF000 [0x00] 0x1FFF000 [0x00] .opened ∧
      pendingTwo.classify .a .opened .program (0x1FFF000 : Addr).toNat = .slot ∧ ((0x1FFF000 : Addr).toNat - windowBase) / 256 = 0) ∧
    (pendingTwo.Takes .program 0x1FFF2FF [0x00] 0x1FFF2FF [0x00] .opened ∧
      pendingTwo.classify .a .opened .program (0x1FFF2FF : Addr).toNat = .slot ∧
      ((0x1FFF2FF : Addr).toNat - windowBase) / 256 ≠ 0 ∧ (pendingTwo.slot (((0x1FFF2FF : Addr).toNat - windowBase) / 256)).state = .pending) ∧
    (pendingTwo.classify .a .opened .program (0x1FFF100 : Addr).toNat = .slot ∧
      (pendingTwo.slot (((0x1FFF100 : Addr).toNat - windowBase) / 256)).state = .running) :=
  ⟨⟨takes_program rfl rfl rfl rfl _ (by decide), by decide +kernel, by decide⟩,
   ⟨takes_program rfl rfl rfl rfl _ (by decide), by decide +kernel, by decide, by decide +kernel⟩, by decide +kernel, by decide +kernel⟩

theorem test_queued_write_is_met :
    ((enabled (idle .opened)).Takes .program 0 [0x00] 0 [0x00] .opened ∧
      (enabled (idle .opened)).classify .a .opened .program (0 : Addr).toNat = .queue .pass 0 false ∧ (enabled (idle .opened)).Calm ∧
      (enabled (idle .opened)).NoReads ∧ (enabled (idle .opened)).pool ≠ []) ∧
    ((enabled { mapped .opened fullMap with pool := [] }).Takes .eraseSector 0xFFF [] 0xFFF [] .opened ∧
      (enabled { mapped .opened fullMap with pool := [] }).classify .a .opened .eraseSector (0xFFF : Addr).toNat = .queue .pass 0 true) :=
  ⟨⟨takes_program rfl rfl rfl rfl 0 (by decide), by decide +kernel, ⟨rfl, rfl, rfl, rfl, fun _ h => by cases h⟩, ⟨rfl, rfl⟩, by decide⟩,
   takes_erase rfl rfl rfl rfl _, by decide +kernel⟩

theorem test_awaited_page_is_met :
    let s := enabled { idle .opened with pool := [] }
    s.Takes .program 0 [0x00] 0 [0x00] .opened ∧ s.classify .a .opened .program (0 : Addr).toNat = .queue .pass 0 false ∧ s.Calm ∧
    s.NoReads ∧ s.pool = [] :=
  ⟨takes_program rfl rfl rfl rfl 0 (by decide), by decide +kernel, ⟨rfl, rfl, rfl, rfl, fun _ h => by cases h⟩, ⟨rfl, rfl⟩, rfl⟩

theorem test_staging_is_met :
    let s := enabled (mapped .opened fullMap)
    (s.Takes .program 0x10FFF [0x00] 0x10FFF [0x00] .opened ∧ s.classify .a .opened .program (0x10FFF : Addr).toNat = .stage ∧
      entryOfClass s.life.fields.map .key = some keyEntry ∧ s.memoryOk) ∧
    s.Takes .eraseSector 0x10000 [] 0x10000 [] .opened ∧ s.classify .a .opened .eraseSector (0x10000 : Addr).toNat = .stageErase :=
  ⟨⟨takes_program rfl rfl rfl rfl _ (by decide), by decide +kernel, by decide +kernel, rfl, rfl⟩, takes_erase rfl rfl rfl rfl _,
   by decide +kernel⟩

theorem test_window_erase_is_met :
    let s := enabled (idle .safe)
    s.Takes .eraseSector 0x1FFFFFF [] 0x1FFFFFF [] .safe ∧ s.classify .a .safe .eraseSector (0x1FFFFFF : Addr).toNat = .windowErase :=
  ⟨takes_erase rfl rfl rfl rfl _, by decide +kernel⟩

/-! ### Hypotheses of the programs to slots -/

/-- A program that reaches slot `n` of a state without directives. -/
theorem reaches {s : State} {l : Lifecycle} {n : Nat} (t : ∀ a : Addr, ∀ d, d ≠ [] → s.Takes .program a d a d l) (a : Addr) {d : List Byte}
    (hd : d ≠ []) (hv : s.classify .a l .program a.toNat = .slot) (hn : n = (a.toNat - windowBase) / 256) (h1 : 1 ≤ n)
    (h2 : n ≤ s.dir.slots.length) (ho : (s.slot n).state ≠ .pending ∧ (s.slot n).state ≠ .running) : s.Reaches a d a d l n :=
  { toTakes := t a d hd, verdict := hv, page := hn, low := h1, high := h2, open_ := ho }

theorem takes_enabled (l : Lifecycle) (m : List (Option MapEntry)) (a : Addr) (d : List Byte) (hd : d ≠ []) :
    (enabled (mapped l m)).Takes .program a d a d l := takes_program rfl rfl rfl rfl a hd

theorem reaches_enabled (l : Lifecycle) (a : Addr) {d : List Byte} {n : Nat} (hd : d ≠ [])
    (hv : (enabled (mapped l fullMap)).classify .a l .program a.toNat = .slot) (hn : n = (a.toNat - windowBase) / 256) (h1 : 1 ≤ n)
    (h2 : n ≤ 15) : (enabled (mapped l fullMap)).Reaches a d a d l n := by
  refine reaches (takes_enabled l fullMap) a hd hv hn h1 h2 ?_
  show ((List.replicate 15 Slot.reset).getD (n - 1) Slot.reset).state ≠ _ ∧ ((List.replicate 15 Slot.reset).getD (n - 1) Slot.reset).state ≠ _
  have : (List.replicate 15 Slot.reset).getD (n - 1) Slot.reset = Slot.reset := by
    rw [List.getD_eq_getElem?_getD, List.getElem?_replicate]
    split <;> rfl
  rw [this]
  decide

/-- Directive records with their check codes: ACK of one event, ACK with a bit too high, SET-EVENT-MASK of all events, KEY-HIDE without
and with a parameter, and FLIP. -/
def ackRecord : List Byte := [0x5A, 0xD7, 0x01, 0x00, 0x02, 0x01, 0x00, 0xE2, 0x73]
def ackHighRecord : List Byte := [0x5A, 0xD7, 0x01, 0x00, 0x02, 0x00, 0x20, 0xB1, 0x64]
def maskRecord : List Byte := [0x5A, 0xD7, 0x02, 0x00, 0x02, 0xFF, 0x1F, 0x20, 0x4E]
def keyHideRecord : List Byte := [0x5A, 0xD7, 0x62, 0x00, 0x00, 0xB5, 0x4E]
def keyHideLongRecord : List Byte := [0x5A, 0xD7, 0x62, 0x00, 0x01, 0x00, 0x3B, 0x2F]
def flipRecord : List Byte := [0x5A, 0xD7, 0x51, 0x00, 0x02, 0x00, 0x00, 0xE1, 0x55]

/-- What the Directive Unit makes of a record at the start of a slot's page in a lifecycle. -/
def recognized (l : Lifecycle) (d : List Byte) : Option Directive :=
  match (enabled (mapped l fullMap)).recognize l 0 (covered 0x1FFF100 d) (slotImage 0x1FFF100 d) with
  | .ok x => some x
  | .error _ => none

theorem test_recognition :
    recognized .safe ackRecord = some .ack ∧ recognized .opened maskRecord = some .setEventMask ∧
    recognized .service keyHideRecord = some .keyHide ∧ recognized .sealed flipRecord = some .flip ∧
    recognized .opened keyHideRecord = none := by
  decide +kernel

theorem recognize_of {l : Lifecycle} {d : List Byte} {x : Directive} (h : recognized l d = some x) :
    (enabled (mapped l fullMap)).recognize l 0 (covered 0x1FFF100 d) (slotImage 0x1FFF100 d) = .ok x := by
  unfold recognized at h
  split at h
  · next y hy => cases h; exact hy
  · cases h

theorem test_unrecognized_program_is_met :
    (enabled (mapped .opened fullMap)).Reaches 0x1FFFF00 [0x00] 0x1FFFF00 [0x00] .opened 15 ∧ ResultCode.malformed ≠ .done ∧
    (enabled (mapped .opened fullMap)).recognize .opened ((0x1FFFF00 : Addr).toNat % 256) (covered (0x1FFFF00 : Addr).toNat [0x00])
      (slotImage 0x1FFFF00 [0x00]) = .error .malformed :=
  ⟨reaches_enabled .opened _ (by decide) (by decide +kernel) (by decide) (by decide) (by decide), by decide, rfl⟩

theorem test_ack_is_met :
    ((enabled (mapped .opened fullMap)).Reaches 0x1FFF100 ackRecord 0x1FFF100 ackRecord .opened 1 ∧
      (enabled (mapped .opened fullMap)).recognize .opened 0 (covered 0x1FFF100 ackRecord) (slotImage 0x1FFF100 ackRecord) = .ok .ack ∧
      ¬ (Mem.get (slotImage 0x1FFF100 ackRecord) 4 ≠ 2 ∨ 8192 ≤ paramNat (slotImage 0x1FFF100 ackRecord) 0 2)) ∧
    (enabled (mapped .opened fullMap)).recognize .opened 0 (covered 0x1FFF100 ackHighRecord) (slotImage 0x1FFF100 ackHighRecord) =
      .ok .ack ∧ 8192 ≤ paramNat (slotImage 0x1FFF100 ackHighRecord) 0 2 :=
  ⟨⟨reaches_enabled .opened _ (by decide) (by decide +kernel) (by decide) (by decide) (by decide), recognize_of (by decide +kernel),
    by decide +kernel⟩, recognize_of (by decide +kernel), by decide +kernel⟩

theorem test_event_mask_is_met :
    (enabled (mapped .opened fullMap)).Reaches 0x1FFF100 maskRecord 0x1FFF100 maskRecord .opened 1 ∧
    (enabled (mapped .opened fullMap)).recognize .opened 0 (covered 0x1FFF100 maskRecord) (slotImage 0x1FFF100 maskRecord) =
      .ok .setEventMask ∧ paramNat (slotImage 0x1FFF100 maskRecord) 0 2 = 8191 :=
  ⟨reaches_enabled .opened _ (by decide) (by decide +kernel) (by decide) (by decide) (by decide), recognize_of (by decide +kernel),
   by decide +kernel⟩

theorem test_key_hide_is_met :
    (enabled (mapped .sealed fullMap)).Reaches 0x1FFF100 keyHideRecord 0x1FFF100 keyHideRecord .sealed 1 ∧
    (enabled (mapped .sealed fullMap)).recognize .sealed 0 (covered 0x1FFF100 keyHideRecord) (slotImage 0x1FFF100 keyHideRecord) =
      .ok .keyHide ∧
    (enabled (mapped .sealed fullMap)).recognize .sealed 0 (covered 0x1FFF100 keyHideLongRecord) (slotImage 0x1FFF100 keyHideLongRecord) =
      .ok .keyHide :=
  ⟨reaches_enabled .sealed _ (by decide) (by decide +kernel) (by decide) (by decide) (by decide), recognize_of (by decide +kernel),
   recognize_of (by decide +kernel)⟩

theorem test_directive_joins_is_met :
    let s := enabled (running .sealed fullMap .serviceCloseCheck 0x72)
    s.Reaches 0x1FFF200 flipRecord 0x1FFF200 flipRecord .sealed 2 ∧
    s.recognize .sealed 0 (covered 0x1FFF200 flipRecord) (slotImage 0x1FFF200 flipRecord) = .ok .flip ∧
    Directive.flip.immediate = false ∧ s.Steady .serviceCloseCheck none :=
  ⟨reaches (fun a d hd => takes_program rfl rfl rfl rfl a hd) _ (by decide) (by decide +kernel) (by decide) (by decide) (by decide)
     (by decide +kernel),
   recognize_of (l := .sealed) (by decide +kernel), rfl, ⟨rfl, rfl, rfl, fun j h => by cases h⟩⟩

/-! ### Hypotheses of the reads -/

theorem test_window_read_is_met :
    (idle .safe).portA.link = .idle ∧ (idle .safe).reading .t = none ∧ (idle .safe).life.lifecycle = some .safe ∧
    findEntry (idle .safe).entries (0x1FFF1FE : Addr).toNat = some directiveEntry ∧ 2 ≤ 256 - (0x1FFF1FE : Addr).toNat % 256 :=
  ⟨rfl, rfl, rfl, by decide +kernel, by decide⟩

theorem test_unmapped_read_is_met :
    let s := mapped .opened fullMap
    Port.t ≠ Port.a ∧ (s.port .t).link = .idle ∧ s.reading .a = none ∧ s.life.lifecycle = some .opened ∧
    findEntry s.entries (0x1FFFE : Addr).toNat = none ∧ (0x1FFFE : Addr).toNat + 2 ≤ gapEnd s.entries (0x1FFFE : Addr).toNat + 1 :=
  ⟨by decide, rfl, rfl, rfl, by decide +kernel, by decide +kernel⟩

theorem test_flash_read_is_met :
    let s := idle .opened
    Port.t ≠ Port.a ∧ (s.port .t).link = .idle ∧ s.reading .a = none ∧ s.life.lifecycle = some .opened ∧ Lifecycle.opened ≠ .safe ∧
    findEntry s.entries (0x1FFEFFF : Addr).toNat = some MapEntry.default0 ∧ MapEntry.default0.cls = .pass ∧
    MapEntry.default0.tRight ≠ .none ∧ MapEntry.default0.aRight ≠ .none ∧ s.entriesOf .pass = [] ∧ s.engine.write = none ∧
    s.engine.read = none ∧ 0 < 1 :=
  ⟨by decide, rfl, rfl, rfl, by decide, by decide +kernel, rfl, by decide, by decide, rfl, rfl, rfl, by decide⟩

/-- A read of two bytes on Port T, held for its claim. -/
def heldRead : Reading :=
  { addr := 0x10, want := 2, piece := .claim { page := 0, lo := 16, hi := 17 }, inPass := false, passLast := false, keyLast := false
    seg := some { first := 0x10, last := 0x11, cls := some .pass, source := .flash, owner := .pass, phys := 0x10, offset := 0x10,
                  inPass := false } }

def heldState : State :=
  { idle .opened with
    portT := { (idle .opened).portT with link := .reading heldRead }
    engine := { (idle .opened).engine with
      read := some { claimant := .tRead, range := { page := 0, lo := 16, hi := 17 }, discard := false } } }

theorem test_page_read_is_met :
    Port.t ≠ Port.a ∧ heldState.Calm ∧ heldState.reading .a = none ∧ heldState.life.lifecycle = some .opened ∧
    heldState.reading .t = some heldRead ∧ heldRead.addr ≤ 0x11 ∧ heldRead.want = 17 + 1 - 16 ∧ heldRead.want ≤ 0x11 + 1 - heldRead.addr ∧
    heldState.engine.deferred.get .tRead = none ∧ heldState.engine.write = none ∧ heldState.engine.claims = PerClaimant.all none :=
  ⟨by decide, ⟨rfl, rfl, rfl, rfl, fun _ h => by cases h⟩, rfl, rfl, rfl, by decide, rfl, by decide, rfl, rfl, rfl⟩

/-- The uniformity registers with an open pass, and the key registers with the bundle released. -/
def openPass : UniformityUnit := { State.reset.uni with pass := { State.reset.uni.pass with isOpen := true } }
def releasedKey : KeyUnit := { State.reset.key with window := .released }

/-- A read that has delivered the last byte of the open pass, or of the bundle. -/
def lastRead : Reading := { heldRead with want := 0, inPass := true, passLast := true, keyLast := true }

theorem test_read_end_is_met :
    (Port.t ≠ Port.a ∧ heldState.Calm ∧ heldState.reading .a = none ∧ heldState.reading .t = some heldRead) ∧
    (let s : State := { idle .sealed with portT := { (idle .sealed).portT with link := .reading lastRead }, uni := openPass }
     s.Calm ∧ s.reading .a = none ∧ s.reading .t = some lastRead ∧ lastRead.inPass = true ∧ s.uni.pass.isOpen = true ∧
       lastRead.passLast = true) ∧
    (let s : State := { idle .sealed with portA := { (idle .sealed).portA with link := .reading lastRead }, key := releasedKey }
     s.Calm ∧ s.reading .t = none ∧ s.reading .a = some lastRead ∧ lastRead.keyLast = true ∧ s.key.window = .released) :=
  ⟨⟨by decide, ⟨rfl, rfl, rfl, rfl, fun _ h => by cases h⟩, rfl, rfl⟩,
   ⟨⟨rfl, rfl, rfl, rfl, fun _ h => by cases h⟩, rfl, rfl, rfl, rfl, rfl⟩,
   ⟨rfl, rfl, rfl, rfl, fun _ h => by cases h⟩, rfl, rfl, rfl, rfl⟩

/-! ### Hypotheses of the directives that start -/

/-- Slot 1 PENDING with a directive that is about to start. -/
def starting (l : Lifecycle) (code : Byte) (params : List Byte) : State :=
  { mapped l fullMap with
    dir := { State.reset.dir with
      slots := { Slot.reset with state := .pending, code := code, len := byte params.length,
                                 image := some (Mem.setAll [] 5 (covered 0 params)) } :: List.replicate 14 Slot.reset
      queue := [1] } }

theorem starts_starting (l : Lifecycle) (code : Byte) (params : List Byte) {d : Directive} {n : Nat} (hc : Directive.ofCode code = some d)
    (hn : (byte params.length).toNat = n) : (starting l code params).Starts 1 d (Mem.setAll [] 5 (covered 0 params)) n :=
  { linkA := rfl, linkT := rfl, running := rfl, queue := rfl, low := by decide, high := Nat.le_add_left .., pending := rfl, code := hc, image := rfl,
    len := hn, job := rfl, awaiting := rfl, noRoom := fun _ h => by cases h }

/-- SET-ARBITER's parameters at their highest: weights 15, bar 1023, interval 1000, limit 32. -/
def arbiterParams : List Byte := [15, 15, 15, 15, 15, 15, 15, 15, 0xFF, 0x03, 0xE8, 0x03, 32, 0]

theorem test_set_arbiter_is_met :
    let m := Mem.setAll [] 5 (covered 0 arbiterParams)
    let changed := fun (i : Nat) (b : Byte) => Mem.set m (5 + i) b
    (starting .blank 0x40 arbiterParams).Starts 1 .setArbiter m 14 ∧ (starting .blank 0x40 arbiterParams).life.lifecycle = some .blank ∧
    (∀ i < 8, (param m i).toNat ≤ 15) ∧ paramNat m 8 2 = 1023 ∧ paramNat m 10 2 = 1000 ∧ (param m 12).toNat = 32 ∧ param m 13 = 0 ∧
    (starting .blank 0x40 [0]).Starts 1 .setArbiter (Mem.setAll [] 5 (covered 0 [0])) 1 ∧
    (15 < (param (changed 7 16) 7).toNat ∧ ∀ j < 7, (param (changed 7 16) j).toNat ≤ 15) ∧ 1023 < paramNat (changed 9 4) 8 2 ∧
    1000 < paramNat (changed 10 0xE9) 10 2 ∧ 32 < (param (changed 12 33) 12).toNat ∧ param (changed 13 1) 13 ≠ 0 :=
  ⟨starts_starting _ _ _ rfl rfl, rfl, by decide +kernel, by decide +kernel, by decide +kernel, by decide +kernel, by decide +kernel,
   starts_starting _ _ _ rfl rfl, by decide +kernel, by decide +kernel, by decide +kernel, by decide +kernel, by decide +kernel⟩

theorem test_set_key_timers_is_met :
    (starting .sealed 0x60 [0x64, 0x00, 60, 0]).Starts 1 .setKeyTimers (Mem.setAll [] 5 (covered 0 [0x64, 0x00, 60, 0])) 4 ∧
    (starting .closed 0x60 []).Starts 1 .setKeyTimers (Mem.setAll [] 5 (covered 0 [])) 0 ∧
    (starting .closed 0x60 []).life.lifecycle = some .closed ∧
    paramNat (Mem.setAll [] 5 (covered 0 [0x64, 0x00, 60, 0])) 0 2 = 100 :=
  ⟨starts_starting _ _ _ rfl rfl, starts_starting _ _ _ rfl rfl, rfl, by decide +kernel⟩

theorem test_set_pass_is_met :
    (starting .service 0x50 [0, 0, 2, 0, 255, 0, 0, 0]).Starts 1 .setPass (Mem.setAll [] 5 (covered 0 [0, 0, 2, 0, 255, 0, 0, 0])) 8 ∧
    (starting .service 0x50 []).life.lifecycle = some .service ∧ entryOfClass fullMap .uniformity = some uniformityEntry ∧
    paramNat (Mem.setAll [] 5 (covered 0 [0, 0, 2, 0, 255, 0, 0, 0])) 0 4 = uniformityEntry.size :=
  ⟨starts_starting _ _ _ rfl rfl, rfl, by decide +kernel, by decide +kernel⟩

theorem test_set_queue_levels_is_met :
    (starting .opened 0x30 [1, 32, 1, 32]).Starts 1 .setQueueLevels (Mem.setAll [] 5 (covered 0 [1, 32, 1, 32])) 4 ∧
    ∀ i < 4, 1 ≤ (param (Mem.setAll [] 5 (covered 0 [1, 32, 1, 32])) i).toNat ∧
      (param (Mem.setAll [] 5 (covered 0 [1, 32, 1, 32])) i).toNat ≤ 32 :=
  ⟨starts_starting _ _ _ rfl rfl, by decide +kernel⟩

/-! ### Hypotheses of the moments -/

theorem test_fences_are_met :
    ((running .opened fullMap (.setMapFence 14 none) 0x20).dir.running = some (.setMapFence 14 none) ∧
      (∀ q, (running .opened fullMap (.setMapFence 14 none) 0x20).entriesOf q = []) ∧
      (running .opened fullMap (.setMapFence 14 none) 0x20).portA.awaiting = none) ∧
    (running .sealed fullMap .closeFence 0x11).dir.running = some .closeFence ∧
    (running .safe fullMap .recoverFence 0x12).dir.running = some .recoverFence ∧
    ((running .sealed fullMap .flipArm 0x51).dir.running = some .flipArm ∧
      (running .sealed fullMap .flipArm 0x51).uni.pass.isOpen = false) :=
  ⟨⟨rfl, fun q => by cases q <;> rfl, rfl⟩, rfl, rfl, rfl, rfl⟩

/-- An entry of a queue. -/
def entry (kind : WriteKind) (st : EntryState) : Entry :=
  { seq := 7, kind := kind, addr := 0x40000, data := [(0, 0x0F#8)], page := some 9, origin := .portA, upstream := some 0x40000,
    posted := false, state := st, retries := 0, image := none }

/-- `idle` with one entry in Q-UNI, and the operation of its head in flight. -/
def writing (kind : WriteKind) (st : EntryState) : State :=
  { mapped .opened fullMap with
    queues := { State.reset.queues with uni := { Queue.reset with entries := [entry kind st] } }
    engine := { (idle .opened).engine with write := some .uni }
    portA := { (idle .opened).portA with cause := .entry 7 } }

theorem test_fences_not_yet_are_met :
    (∃ q, (writing .program .queued).entriesOf q ≠ []) ∧ (∃ q, q ≠ .sys ∧ (writing .program .queued).entriesOf q ≠ []) ∧
    ({ writing .program .queued with uni := { State.reset.uni with pass := { State.reset.uni.pass with isOpen := true } } } :
      State).uni.pass.isOpen = true :=
  ⟨⟨.uni, by decide⟩, ⟨.uni, by decide, by decide⟩, rfl⟩

/-- A run that has ended, and one of which an entry has failed. -/
def endedJob (w : Work) (failed : Option Nat) : Job := { work := w, added := w.total, unleft := 0, firstFailed := failed }

def someRegion : Region := { code := 4095, family := .dual }

/-- A directive runs in a phase, with its run of work. -/
def working (ph : Phase) (code : Byte) (j : Job) : State := { running .sealed fullMap ph code with job := some j }

theorem alone_working (ph : Phase) (code : Byte) (j : Job) : (working ph code j).Alone 1 ph :=
  { alone_running .sealed fullMap ph code with }

theorem test_runs_end_is_met :
    ((working .recoverErase 0x12 (endedJob .eraseAll none)).job = some (endedJob .eraseAll none) ∧
      (endedJob .eraseAll none).ended = true ∧ (endedJob .eraseAll none).firstFailed = none ∧
      (working .recoverErase 0x12 (endedJob .eraseAll none)).dir.running = some .recoverErase) ∧
    (endedJob (.keySector 0x10000 64) none).ended = true ∧
    (working (.sealProgram 64 someRegion) 0x61 (endedJob (.keySector 0x10000 64) none)).dir.running = some (.sealProgram 64 someRegion) :=
  ⟨⟨rfl, by decide, rfl, rfl⟩, by decide, rfl⟩

theorem test_failed_runs_are_met :
    ((working .recoverErase 0x12 (endedJob .eraseAll (some 0x10000))).Alone 1 .recoverErase ∧
      (endedJob .eraseAll (some 0x10000)).ended = true ∧
      ((working .recoverErase 0x12 (endedJob .eraseAll (some 0x10000))).slot 1).directive = some .recover) ∧
    (endedJob (.keySector 0x10000 64) (some 0x10000)).ended = true ∧
    ((working (.sealProgram 64 someRegion) 0x61 (endedJob (.keySector 0x10000 64) (some 0x10000))).slot 1).directive = some .seals :=
  ⟨⟨alone_working _ _ _, by decide, by decide⟩, by decide, by decide⟩

/-- A bundle of 64 bytes that passes R147's check. -/
def bundle : List Byte :=
  [0x4B, 0x59, 0x42, 0x31, 0x01, 0x00, 0x40, 0x00, 1, 1, 0, 0, 0x01, 0x00, 7, 0, 4, 0, 40, 0] ++ List.replicate 40 0xAA

def sealedBundle : Mem := Mem.setAll [] 0 (covered 0 (bundle ++ leBytes 4 (crc32 bundle).toNat))

theorem test_bundle_passes : (match checkBundle sealedBundle with | .ok n => n | .error _ => 0) = 64 := by decide +kernel

theorem test_seal_fence_is_met :
    let s := running .opened fullMap .sealFence 0x61
    s.Alone 1 .sealFence ∧ s.entriesOf .set = [] ∧ s.job = none ∧ (s.slot 1).directive = some .seals ∧
    (match checkBundle s.key.staging with | .error o => some o | .ok _ => none) = some 0 ∧
    entryOfClass s.life.fields.map .settings = some settingsEntry ∧ s.portFree = true :=
  ⟨alone_running _ _ _ _, rfl, rfl, by decide, by decide +kernel, by decide +kernel, rfl⟩

theorem test_service_close_fence_is_met :
    let s := running .service fullMap .serviceCloseFence 0x72
    s.Alone 1 .serviceCloseFence ∧ s.entriesOf .set = [] ∧ s.entriesOf .uni = [] ∧ s.job = none ∧
    entryOfClass s.life.fields.map .settings = some settingsEntry ∧ s.portFree = true :=
  ⟨alone_running _ _ _ _, rfl, rfl, rfl, by decide +kernel, rfl⟩

/-- A FLIP in DRAIN over sectors in these states. -/
def draining (full check : Bool) (c : List Coverage) : State :=
  { running .sealed fullMap (.flipDrain full check) 0x51 with
    uni := { State.reset.uni with coverage := c, pass := { State.reset.uni.pass with isOpen := true } } }

theorem test_flip_drain_is_met :
    (∀ full check c, (draining full check c).Alone 1 (.flipDrain full check) ∧ (draining full check c).entriesOf .uni = [] ∧
      (draining full check c).job = none ∧ ((draining full check c).slot 1).directive = some .flip ∧
      (draining full check c).portFree = true ∧ (draining full check c).uni.pass.isOpen = true ∧
      (draining full check c).uni.coverage = c) ∧
    Coverage.failed ∈ [Coverage.clean, .failed] ∧ (Coverage.failed ∉ [Coverage.stale] ∧ Coverage.stale ∈ [Coverage.stale]) ∧
    Coverage.failed ∉ [Coverage.clean] ∧ Coverage.stale ∉ [Coverage.clean] :=
  ⟨fun _ _ _ => ⟨{ alone_running .sealed fullMap _ 0x51 with }, rfl, rfl, rfl, rfl, rfl, rfl⟩, by decide, by decide, by decide, by decide⟩

theorem test_sync_is_met :
    let names : PerQueue Bool := ⟨false, false, false, true⟩
    let s := running .sealed fullMap (.syncWait names) 0x32
    let w : State := { s with queues := (writing .program .queued).queues }
    (s.Alone 1 (.syncWait names) ∧ s.job = none ∧ (s.slot 1).directive = some .sync ∧ ∀ q, names.get q = true → s.entriesOf q = []) ∧
    w.Alone 1 (.syncWait names) ∧ names.get .uni = true ∧ w.entriesOf .uni ≠ [] :=
  ⟨⟨alone_running _ _ _ _, rfl, rfl, fun q _ => by cases q <;> rfl⟩, { alone_running .sealed fullMap (.syncWait ⟨false, false, false, true⟩) 0x32 with }, rfl,
    by decide⟩

/-! ### Hypotheses of the record writes -/

/-- A record in OPEN with one map entry. None of its bytes is `0xFF`. -/
def someRecord : ControlRecord :=
  { lifecycle := .opened, fields := { Fields.default with map := some postedEntry :: List.replicate 14 none } }

theorem ended_record (k : Nat) (f : Option Nat) : (endedJob (.record someRecord k) f).ended = true := rfl

theorem test_record_write_is_met (ph : Phase) (code : Byte) (k : Nat) (f : Option Nat) :
    let s := working ph code (endedJob (.record someRecord k) f)
    s.Alone 1 ph ∧ s.job = some (endedJob (.record someRecord k) f) ∧ (endedJob (.record someRecord k) f).ended = true ∧
    (endedJob (.record someRecord k) f).firstFailed = f ∧ (endedJob (.record someRecord k) f).work = .record someRecord k ∧
    (s.slot 1).directive = Directive.ofCode code :=
  ⟨alone_working _ _ _, rfl, rfl, rfl, rfl, rfl⟩

theorem test_record_write_codes_are_met :
    (Directive.ofCode 0x10 = some .opens ∧ Directive.ofCode 0x12 = some .recover ∧ Directive.ofCode 0x11 = some .closes ∧
      Directive.ofCode 0x71 = some .serviceOpen ∧ Directive.ofCode 0x72 = some .serviceClose ∧
      Directive.ofCode 0x70 = some .setServiceCode) ∧
    Directive.ofCode 0x61 = some .seals ∧ Directive.ofCode 0x51 = some .flip ∧ Directive.ofCode 0x20 = some .setMap ∧
    (∀ g, (Phase.serviceCloseRecord g).stays = true ∧ (Phase.sealRecord 64 g).stays = true) ∧
    changesUniformity fullMap 3 none = true ∧ changesUniformity fullMap 0 none = false ∧ (2 < 3 ∧ 3 ≤ 3) :=
  ⟨by decide, by decide, by decide, by decide, fun _ => ⟨rfl, rfl⟩, by decide +kernel, by decide +kernel, by decide⟩

theorem test_awaiting_write_is_met :
    let w : QueuedWrite := { queue := .pass, kind := .program, addr := 0, data := [(0, 0x00#8)], upstream := 0, posted := true }
    let s : State := { idle .opened with pool := [5], portA := { (idle .opened).portA with awaiting := some w, cause := .page } }
    s.dir.queue = [] ∧ s.dir.running = none ∧ s.job = none ∧ s.NoReads ∧ s.portA.awaiting = some w ∧ w.kind = .program ∧ s.pool ≠ [] :=
  ⟨rfl, rfl, rfl, ⟨rfl, rfl⟩, rfl, rfl, by decide⟩

theorem test_sys_entry_is_met :
    let j : Job := { work := .eraseAll, added := 511, unleft := 31, firstFailed := none }
    let k : Job := { work := .record someRecord 1, added := 2, unleft := 0, firstFailed := some 0 }
    (working .recoverErase 0x12 j).Alone 1 .recoverErase ∧ Phase.recoverErase.stays = true ∧ j.wants = true ∧
    j.added + 1 = j.work.total ∧ ((working .recoverErase 0x12 j).entriesOf .sys).length < 32 ∧ j.unleft < 32 ∧
    (j.work.entry [] j.added).1 = .eraseBlock ∧
    k.wants = true ∧ k.added + 1 = k.work.total ∧ (k.work.entry [] k.added).1 = .program ∧ (working .openRecord 0x10 k).pool ≠ [] :=
  ⟨alone_working _ _ _, rfl, by decide, by decide, by decide, by decide, rfl, by decide, by decide, rfl, by decide⟩

/-! ### Hypotheses of LOADING and of the control record -/

theorem test_loading_is_met :
    (State.reset.Calm ∧ State.reset.NoReads ∧ State.reset.life.lifecycle = none ∧ State.reset.engine.write = none ∧
      State.reset.engine.claims = PerClaimant.all none ∧ State.reset.engine.deferred = PerClaimant.all none ∧
      State.reset.engine.read = some { claimant := .sysRead, range := { page := 0x1FFF000, lo := 0, hi := 255 }, discard := false } ∧
      State.reset.life.loadPages < 15) ∧
    15 ≤ ({ State.reset with life := { State.reset.life with loadPages := 15 } } : State).life.loadPages :=
  ⟨⟨⟨rfl, rfl, rfl, rfl, fun _ h => by cases h⟩, ⟨rfl, rfl⟩, rfl, rfl, rfl, rfl, rfl, by decide⟩, by decide⟩

theorem posted_ok : postedEntry.ok :=
  ⟨by decide, fun _ => rfl, by decide, fun _ => Or.inl rfl, fun _ => rfl, by decide, by decide, by decide +kernel, by decide,
   by decide +kernel, rfl⟩

/-- The memory that holds the last `n` of 512 bytes at their places. -/
def holding (l : List Byte) : Nat → Mem
  | 0 => []
  | n + 1 => if l.getD (511 - n) 0xFF#8 = 0xFF#8 then holding l n else (511 - n, l.getD (511 - n) 0xFF#8) :: holding l n

theorem get_holding (l : List Byte) (n i : Nat) (hn : n ≤ 512) :
    Mem.get (holding l n) i = if 512 - n ≤ i ∧ i < 512 then l.getD i 0xFF#8 else 0xFF#8 := by
  induction n with
  | zero =>
    rw [if_neg (by omega)]
    rfl
  | succ n ih =>
    have h := ih (by omega)
    by_cases hi : i = 511 - n
    · rw [if_pos (by omega), hi]
      simp only [holding]
      split
      · next hb => rw [← hi, h, if_neg (by omega), hi, hb]
      · simp [Mem.get]
    · have hc : (512 - (n + 1) ≤ i ∧ i < 512) ↔ (512 - n ≤ i ∧ i < 512) := by omega
      simp only [hc, holding]
      split
      · exact h
      · simp only [Mem.get]
        rw [if_neg (Ne.symm hi)]
        exact h

theorem get_record (r : ControlRecord) {i : Nat} (h : i < 512) :
    Mem.get (holding (recordBytes r) 512) i = (recordBytes r).getD i 0xFF#8 := by
  rw [get_holding _ _ _ (Nat.le_refl _), if_pos ⟨by omega, h⟩]

/-- A record with every optional field present, at the ends of their ranges. -/
def fullRecord : ControlRecord :=
  { lifecycle := .closed
    fields := { live := .bank1, map := some postedEntry :: List.replicate 14 none, bundleLen := 4096,
                scopes := List.replicate 8 { code := 65535, families := 7 }, region := some { code := 4095, family := .dual },
                releaseTime := 10000, code := some (List.replicate 16 0xFF) } }

theorem test_control_record_is_met :
    fullRecord.ok ∧ ∀ i < 512, Mem.get (holding (recordBytes fullRecord) 512) i = (recordBytes fullRecord).getD i 0xFF#8 := by
  refine ⟨⟨by decide, by decide, rfl, ?_, by decide +kernel, .inr (by decide), by decide, ?_, ?_, by decide, by decide, ?_⟩,
    fun i h => get_record _ h⟩
  · intro e he
    have : e = postedEntry := by simpa [fullRecord] using he
    rw [this]; exact posted_ok
  · intro x hx
    rw [List.eq_of_mem_replicate hx]
    decide
  · intro g hg; cases hg; decide
  · intro c hc; cases hc; rfl

theorem leNat_leBytes (v : Nat) (h : v < 4294967296) : leNat (leBytes 4 v) = v := by
  simp only [leBytes, leNat, BitVec.toNat_ofNat]
  omega

/-- The check code at the end of a record's bytes is the one `readRecord` asks for. -/
theorem check_holding {r : ControlRecord} (h : (recordBody r).length = 508) :
    (crc32 (Mem.slice (holding (recordBytes r) 512) 0 508)).toNat = leNat (Mem.slice (holding (recordBytes r) 512) 508 4) := by
  have hs : ∀ lo n, lo + n ≤ 512 →
      Mem.slice (holding (recordBytes r) 512) lo n = (List.range n).map fun i => (recordBytes r).getD (lo + i) 0xFF#8 := by
    intro lo n hl
    unfold Mem.slice
    refine List.map_congr_left fun i hi => ?_
    have := List.mem_range.1 hi
    exact get_record r (by omega)
  have h1 : Mem.slice (holding (recordBytes r) 512) 0 508 = recordBody r := by
    rw [hs _ _ (by omega)]
    refine List.ext_getElem (by simp [h]) fun i h1 h2 => ?_
    simp only [List.getElem_map, List.getElem_range, Nat.zero_add, recordBytes]
    rw [List.getD_append _ _ _ _ h2, List.getD_eq_getElem _ _ h2]
  have h2 : Mem.slice (holding (recordBytes r) 512) 508 4 = leBytes 4 (crc32 (recordBody r)).toNat := by
    rw [hs _ _ (by omega)]
    have : ∀ i, (recordBytes r).getD (508 + i) 0xFF#8 = (leBytes 4 (crc32 (recordBody r)).toNat).getD i 0xFF#8 := by
      intro i
      have e : 508 + i - (recordBody r).length = i := by omega
      have := List.getD_append_right (recordBody r) (leBytes 4 (crc32 (recordBody r)).toNat) 0xFF#8 (508 + i) (by omega)
      rwa [e] at this
    simp only [this]
    rfl
  rw [h1, h2, leNat_leBytes _ (BitVec.isLt _)]

theorem test_startup_is_met :
    (readRecord (holding (recordBytes someRecord) 512)).isSome = true ∧ readRecord [(0, 0x00#8)] = none := by
  refine ⟨?_, by decide +kernel⟩
  unfold readRecord
  rw [if_pos ⟨by decide +kernel, by decide +kernel, by decide +kernel, check_holding (by decide +kernel)⟩]
  decide +kernel

/-! ### Hypotheses of the engine -/

theorem test_engine_phases_are_met :
    (∀ k st, (writing k st).Calm ∧ (writing k st).NoReads ∧ (writing k st).memoryOk ∧ (writing k st).entriesOf .uni = [entry k st]) ∧
    (∀ ph, (writing .program (.active ph)).inPhase ph = some (.uni, entry .program (.active ph))) ∧
    (∀ ph, (writing .eraseBlock (.active ph)).inPhase ph = some (.uni, entry .eraseBlock (.active ph))) ∧
    OffsetBytes.ok 256 (entry .program (.active .preRead)).data = true ∧ (writing .program (.active .program)).claim .tRead = none ∧
    (writing .program (.active .program)).claim .aRead = none := by
  refine ⟨fun k st => ⟨⟨rfl, rfl, rfl, rfl, fun _ h => by cases h⟩, ⟨rfl, rfl⟩, ⟨rfl, rfl⟩, rfl⟩, ?_, ?_, by decide, rfl, rfl⟩ <;>
    · intro ph; cases ph <;> decide +kernel

theorem test_verify_is_met :
    (let e : Entry := { entry .program (.active .verify) with image := some [] }
     e.kind = .program ∧ e.image = some (Mem.cut (writing .program .queued).flash e.addr 256)) ∧
    ((entry .program (.active .verify)).image ≠ some (Mem.cut (writing .program .queued).flash 0x40000 256) ∧
      (entry .program (.active .verify)).retries < 2 ∧ 2 ≤ ({ entry .program (.active .verify) with retries := 2 } : Entry).retries) ∧
    (∀ o < WriteKind.eraseSector.range, Mem.get [] (0x40000 + o) = 0xFF#8) ∧
    ∃ o < WriteKind.eraseSector.range, Mem.get [(0x40FFF, 0x00#8)] (0x40000 + o) ≠ 0xFF#8 :=
  ⟨⟨rfl, by decide⟩, ⟨by decide, by decide, by decide⟩, fun _ _ => rfl, 4095, by decide, by decide⟩

theorem test_aging_is_met :
    let cl : Claim := { range := some { page := 0, lo := 0, hi := 0 }, aged := 47, due := 20 }
    let s : State := { writing .eraseBlock (.active .wait) with
      engine := { (writing .eraseBlock (.active .wait)).engine with claims := { PerClaimant.all none with aRead := some cl } } }
    s.claim .qUni = none ∧ s.claim .aRead = some cl ∧ s.engine.write = some .uni ∧ s.headState .uni = some (.active .wait) ∧
    s.engine.read = none ∧ s.engine.suspendCount < s.engine.limit ∧ (∀ d, d ≠ .aRead → d = .tRead ∨ d = .aRead → s.claim d = none) ∧
    s.engine.bar = 64 * s.engine.weights.get .aRead + min 63 (cl.aged + 1) ∧
    ({ s with engine := { s.engine with write := none } } : State).engine.write = none := by
  refine ⟨rfl, rfl, rfl, by decide, rfl, by decide, ?_, by decide, rfl⟩
  rintro d h (rfl | rfl)
  · rfl
  · exact absurd rfl h

theorem test_coverage_is_met :
    entryOfClass (writing .eraseBlock .queued).life.fields.map .uniformity = some uniformityEntry ∧
    uniformityEntry.bankBase (writing .eraseBlock .queued).live.other ≤ 0x80000 := ⟨by decide +kernel, by decide +kernel⟩

theorem test_timers_are_met :
    let s : State := { idle .sealed with
      key := { State.reset.key with window := .released, stageTimer := .running 1, releaseTimer := .running 3000000 }
      uni := { State.reset.uni with pass := { State.reset.uni.pass with isOpen := true, idle := .running 40000 } } }
    s.NoReads ∧ s.key.stageTimer = .running 1 ∧ s.key.releaseTimer = .running 3000000 ∧ s.key.window = .released ∧
    s.uni.pass.idle = .running 40000 ∧ s.Calm ∧ (idle .sealed).key.stageTimer = .stopped ∧ (idle .sealed).key.releaseTimer = .stopped ∧
    (idle .sealed).uni.pass.idle = .stopped :=
  ⟨⟨rfl, rfl⟩, rfl, rfl, rfl, rfl, ⟨rfl, rfl, rfl, rfl, fun _ h => by cases h⟩, rfl, rfl, rfl⟩

/-! ### Where a write lies, and what the Classifier makes of it -/

/-- A SETTINGS entry of one block. -/
def blockSettings : MapEntry := { settingsEntry with size := 65536 }

theorem test_write_lies_is_met :
    let s := enabled (mapped .opened fullMap)
    s.LiesIn .program 0 postedEntry ∧ s.LiesIn .eraseBlock 0xFFFF postedEntry ∧ s.LiesIn .eraseSector 0x10FFF keyEntry ∧
    s.LiesIn .program 0x20FFF settingsEntry ∧ s.LiesIn .eraseBlock 0x5FFFF uniformityEntry ∧ s.LiesIn .program 0x1FFF000 directiveEntry ∧
    (enabled (mapped .service [some blockSettings])).LiesIn .eraseBlock 0x2FFFF blockSettings := by
  refine ⟨⟨⟨0, ?_⟩, ?_, ?_⟩, ⟨⟨0, ?_⟩, ?_, ?_⟩, ⟨⟨1, ?_⟩, ?_, ?_⟩, ⟨⟨2, ?_⟩, ?_, ?_⟩, ⟨⟨3, ?_⟩, ?_, ?_⟩, ⟨⟨15, ?_⟩, ?_, ?_⟩, ⟨⟨0, ?_⟩, ?_, ?_⟩⟩ <;>
    first
      | decide +kernel
      | (unfold MapEntry.Takes; decide +kernel)

theorem test_write_lies_nowhere_is_met :
    let s := mapped .opened fullMap
    (∀ x ∈ s.entries, ¬ x.2.Takes .program 0x11000) ∧
    ((∀ x ∈ s.entries, ¬ x.2.Takes .eraseBlock 0x10000) ∧
      ∃ x ∈ s.entries, x.2.ubase < blockStart 0x10000 + 65536 ∧ blockStart 0x10000 < x.2.ubase + x.2.size) ∧
    (∀ x ∈ s.entries, ¬ x.2.Takes .eraseBlock 0x6FFFF) ∧
    ∀ x ∈ s.entries, blockStart 0x6FFFF + 65536 ≤ x.2.ubase ∨ x.2.ubase + x.2.size ≤ blockStart 0x6FFFF := by
  refine ⟨?_, ⟨?_, ⟨(1, keyEntry), ?_⟩⟩, ?_, ?_⟩
  all_goals first
    | decide +kernel
    | (unfold MapEntry.Takes; decide +kernel)

theorem test_class_locks_are_met :
    (∀ c, (mapped .opened fullMap).locked c = false) ∧ (mapped .opened fullMap).dir.flipCount = 0 ∧
    (running .opened fullMap (.setMapRecord 0 none) 0x20).dir.running = some (.setMapRecord 0 none) ∧
    (running .service fullMap (.serviceCloseRecord { code := 1, family := .f50 }) 0x72).dir.running =
      some (.serviceCloseRecord { code := 1, family := .f50 }) ∧
    (running .opened fullMap (.sealValidate 64) 0x61).dir.running = some (.sealValidate 64) ∧
    settingsEntry.cls = .settings ∧ uniformityEntry.cls = .uniformity ∧ keyEntry.cls = .key ∧ postedEntry.cls = .pass ∧
    ({ postedEntry with aRight := .read } : MapEntry).aRight ≠ .readWrite ∧
    0 < ({ mapped .opened fullMap with dir := { State.reset.dir with flipCount := 1 } } : State).dir.flipCount :=
  ⟨fun c => by cases c <;> rfl, rfl, rfl, rfl, rfl, rfl, rfl, rfl, rfl, by decide, by decide⟩

/-- Q-PASS with 31 entries, one page free, WEL set. -/
def nearlyFull : State :=
  { enabled (mapped .opened fullMap) with
    queues := { State.reset.queues with pass := { Queue.reset with level := 32, entries := List.replicate 31 queuedErase } }
    pool := [9] }

theorem test_queue_fills_is_met :
    nearlyFull.Takes .program 0xFFFF [0x00] 0xFFFF [0x00] .opened ∧
    nearlyFull.classify .a .opened .program (0xFFFF : Addr).toNat = .queue .pass 0xFF00 true ∧ nearlyFull.Calm ∧ nearlyFull.NoReads ∧
    nearlyFull.pool = [9] ∧ (nearlyFull.entriesOf .pass).length + 1 = 32 ∧
    (nearlyFull.queues.get .pass).level ≤ (nearlyFull.entriesOf .pass).length + 1 ∧ (nearlyFull.queues.get .pass).high = false :=
  ⟨takes_program rfl rfl rfl rfl _ (by decide), by decide +kernel, ⟨rfl, rfl, rfl, rfl, fun _ h => by cases h⟩, ⟨rfl, rfl⟩, rfl, rfl,
   by decide, rfl⟩

theorem test_block_erase_is_met (m : List (Option MapEntry)) (l : Lifecycle) :
    let s := enabled (mapped l m)
    s.portA.link = .idle ∧ s.portA.wel = true ∧ s.portA.cause = .none ∧ s.life.lifecycle = some l ∧ s.Calm ∧ s.NoReads ∧
    (∀ c, s.locked c = false) ∧ s.dir.flipCount = 0 :=
  ⟨rfl, rfl, rfl, rfl, ⟨rfl, rfl, rfl, rfl, fun _ h => by cases h⟩, ⟨rfl, rfl⟩, fun c => by cases c <;> rfl, rfl⟩

/-! ### The tests of a directive record, and CANCEL -/

def openRecord : List Byte := [0x5A, 0xD7, 0x10, 0x00, 0x00, 0xDD, 0xF8]
def unknownRecord : List Byte := [0x5A, 0xD7, 0x99, 0x00, 0x00, 0x16, 0x5D]
def sealRecord : List Byte := [0x5A, 0xD7, 0x61, 0x00, 0x00, 0xE5, 0x17]

theorem test_directive_record_is_met :
    let img := slotImage 0x1FFF100
    (∀ d ∈ [openRecord, unknownRecord, sealRecord],
      (∀ i < 7, covers (covered 0x1FFF100 d) i = true) ∧ Mem.get (img d) 0 = 0x5A ∧ Mem.get (img d) 1 = 0xD7 ∧ Mem.get (img d) 4 = 0 ∧
      (crc16 (Mem.slice (img d) 0 5)).toNat = leNat (Mem.slice (img d) 5 2)) ∧
    (∀ x ∈ directiveTable, x.1 ≠ Mem.get (img unknownRecord) 2) ∧
    ((0x61, .seals, [.opened]) ∈ directiveTable ∧ Mem.get (img sealRecord) 2 = 0x61 ∧ Lifecycle.closed ∉ [Lifecycle.opened]) ∧
    ((0x10, .opens, [.blank]) ∈ directiveTable ∧ Mem.get (img openRecord) 2 = 0x10 ∧ (idle .blank).life.fixture = false) ∧
    (Mem.get (img [0x5A]) 1 ≠ 0xD7 ∧ covers (covered 0x1FFF100 [0x5A]) 6 = false) := by
  decide +kernel

def cancelRecord0 : List Byte := [0x5A, 0xD7, 0x03, 0x00, 0x01, 0x00, 0x5D, 0x00]
def cancelRecord1 : List Byte := [0x5A, 0xD7, 0x03, 0x00, 0x01, 0x01, 0x7C, 0x10]
def cancelRecord2 : List Byte := [0x5A, 0xD7, 0x03, 0x00, 0x01, 0x02, 0x1F, 0x20]
def cancelRecord16 : List Byte := [0x5A, 0xD7, 0x03, 0x00, 0x01, 0x10, 0x6C, 0x12]

/-- Slot 1 RUNNING in a phase of FLIP that waits, slot 2 PENDING. -/
def cancelling (ph : Phase) : State :=
  { enabled (running .sealed fullMap ph 0x51) with
    dir := { (running .sealed fullMap ph 0x51).dir with
      slots := (running .sealed fullMap ph 0x51).dir.slots.set 1 { Slot.reset with state := .pending, code := 0x51 }
      queue := [1, 2] } }

theorem test_cancel_is_met :
    let s := cancelling .flipHeader
    let img := slotImage 0x1FFFF00
    s.Reaches 0x1FFFF00 cancelRecord2 0x1FFFF00 cancelRecord2 .sealed 15 ∧ s.NoReads ∧ s.due = none ∧
    s.dir.running = some .flipHeader ∧
    (∀ d ∈ [cancelRecord0, cancelRecord1, cancelRecord2, cancelRecord16],
      (match s.recognize .sealed 0 (covered 0x1FFFF00 d) (img d) with | .ok x => decide (x = .cancel) | .error _ => false) = true) ∧
    [cancelRecord0, cancelRecord1, cancelRecord2, cancelRecord16].map (fun d => (param (img d) 0).toNat) = [0, 1, 2, 16] ∧
    (s.slot 2).state = .pending ∧ (s.slot 1).state = .running ∧ (s.slot 15).state = .empty ∧ Phase.flipHeader.cancellable = true ∧
    Phase.flipSwitch.cancellable = false ∧ (enabled (running .sealed fullMap .flipHeader 0x51)).dir.queue = [1] ∧
    (enabled (running .sealed fullMap .flipHeader 0x51)).due = none :=
  ⟨reaches (fun a d hd => takes_program rfl rfl rfl rfl a hd) _ (by decide) (by decide +kernel) (by decide) (by decide) (by decide)
     (by decide +kernel), ⟨rfl, rfl⟩, by decide +kernel, rfl, by decide +kernel, by decide +kernel, by decide +kernel, by decide +kernel, by decide +kernel, rfl, rfl, rfl, by decide +kernel⟩

/-! ### Reads -/

theorem test_staging_read_is_met :
    let s := mapped .opened fullMap
    s.portA.link = .idle ∧ s.reading .t = none ∧ s.life.lifecycle = some .opened ∧
    findEntry s.entries (0x10FFE : Addr).toNat = some keyEntry ∧ keyEntry.cls = .key ∧
    (0x10FFE : Addr).toNat + 2 ≤ keyEntry.ubase + keyEntry.size ∧ (0x10FFE : Addr).toNat + 2 ≤ 0x2000000 :=
  ⟨rfl, rfl, rfl, by decide +kernel, rfl, by decide, by decide⟩

theorem test_erased_read_is_met :
    let s := mapped .sealed fullMap
    (findEntry s.entries (0x1FFFFFF : Addr).toNat = some directiveEntry ∧ s.ReadsErased .t .sealed directiveEntry ∧
      (0x1FFFFFF : Addr).toNat + 1 ≤ directiveEntry.ubase + directiveEntry.size) ∧
    s.ReadsErased .a .safe postedEntry ∧ s.ReadsErased .a .sealed { postedEntry with aRight := .none } ∧
    s.ReadsErased .t .sealed { settingsEntry with tRight := .none } ∧ s.ReadsErased .t .sealed keyEntry ∧
    s.ReadsErased .a .sealed keyEntry ∧ s.key.window = .none :=
  ⟨⟨by decide +kernel, .inl ⟨rfl, rfl⟩, by decide⟩, .inr (.inl ⟨by decide, rfl⟩), .inr (.inr (.inl ⟨rfl, rfl⟩)),
   .inr (.inr (.inr (.inl ⟨rfl, rfl, rfl⟩))), .inr (.inr (.inr (.inr (.inl ⟨rfl, rfl⟩)))),
   .inr (.inr (.inr (.inr (.inr ⟨rfl, by decide, by decide⟩)))), rfl⟩

/-- `mapped` with the bundle released. -/
def released : State := { mapped .sealed fullMap with key := releasedKey }

theorem test_flash_sources_are_met :
    let s := mapped .sealed fullMap
    s.ReadsFlash .sealed postedEntry .a .pass 0 ∧ s.ReadsFlash .sealed postedEntry .t .pass 0 ∧
    s.ReadsFlash .sealed settingsEntry .a .set 0x20000 ∧ s.ReadsFlash .sealed settingsEntry .t .set 0x20000 ∧
    s.ReadsFlash .sealed uniformityEntry .a .uni 0x80000 ∧ s.ReadsFlash .closed uniformityEntry .a .uni 0x40000 ∧
    released.ReadsFlash .sealed keyEntry .a .sys 0x10000 ∧
    findEntry released.entries (0x10FFF : Addr).toNat = some keyEntry ∧ released.entriesOf .sys = [] ∧ released.engine.read = none :=
  ⟨.passA (by decide) rfl (by decide), .passT (by decide) rfl (by decide), .settingsA (by decide) rfl,
   .settingsT (by decide) rfl (by decide), .shadow (by decide) (by decide) rfl, .live rfl rfl, .key (by decide) (by decide) rfl rfl,
   by decide +kernel, rfl, rfl⟩

theorem test_overlay_fixes_is_met :
    let s : State := { mapped .opened fullMap with
      queues := { State.reset.queues with pass := { Queue.reset with entries := [queuedErase] } } }
    s.ReadsFlash .opened postedEntry .a .pass 0 ∧ findEntry s.entries (0xFE : Addr).toNat = some postedEntry ∧
    (∀ i < 2, (overlayByte (s.entriesOf .pass) (0xFE + i)).fixed = true) ∧ 2 ≤ 256 - 0xFE % 256 ∧
    (∀ k, entryOfClass s.life.fields.map .key = some k → 0xFE + 2 ≤ k.pbase ∨ k.pbase + k.size ≤ 0xFE) := by
  refine ⟨.passA (by decide) rfl (by decide), by decide +kernel, by decide +kernel, by decide, fun k hk => ?_⟩
  have e : entryOfClass fullMap .key = some keyEntry := by decide +kernel
  cases hk.symm.trans e
  exact .inl (by decide)

/-- The uniformity window with an open pass on bank 0, and the read-ahead buffer. -/
def passing (slots : List AheadSlot) (position : Option Nat) : State :=
  { mapped .sealed fullMap with uni := openPass, ahead := { slots := slots, position := position } }

theorem test_pass_reads_are_met :
    let s := mapped .sealed fullMap
    (s.uniformity = some uniformityEntry ∧ findEntry s.entries (0x401FE : Addr).toNat = some uniformityEntry ∧
      s.entriesOf .uni = [] ∧ s.dir.running ≠ some .flipSwitch ∧ s.uni.pass.isOpen = false ∧
      s.ahead.slots = List.replicate 8 .empty ∧ s.engine.claims = PerClaimant.all none ∧ uniformityEntry.bankBase s.live % 256 = 0 ∧
      uniformityEntry.ubase % 256 = 0) ∧
    (let bytes := List.replicate 256 0x00#8
     let t := passing (.held 0x40100 bytes :: List.replicate 7 .empty) (some 0)
     t.uni.pass.isOpen = true ∧ uniformityEntry.bankBase t.uni.pass.bank = 0x40000 ∧ t.aheadSlot 0x40100 = some (.held 0x40100 bytes) ∧
       bytes.length = 256 ∧ 2 ≤ 256 - (0x401FE : Addr).toNat % 256 ∧
       entryOfClass t.life.fields.map .key = some keyEntry ∧ keyEntry.pbase + keyEntry.size ≤ 0x40100) ∧
    let t := passing (.filling 0x40100 :: List.replicate 7 .empty) (some 1)
    t.ahead.position = some 1 ∧ t.aheadSlot 0x40100 = some (.filling 0x40100) ∧ t.claim .prefetch = none :=
  ⟨⟨by decide +kernel, by decide +kernel, rfl, by decide, rfl, rfl, rfl, by decide +kernel, by decide⟩,
   ⟨rfl, rfl, by decide +kernel, by decide +kernel, by decide, by decide +kernel, by decide⟩, rfl, by decide +kernel, rfl⟩

/-- A page read of a port's claim is granted while the head of Q-UNI is suspended under it, with a claim of the other port. -/
def suspendedUnder (claim : Option Claim) : State :=
  { heldState with
    queues := (writing .eraseSector .suspended).queues
    engine := { heldState.engine with write := some .uni, claims := { PerClaimant.all none with aRead := claim } } }

theorem test_page_read_grants_are_met :
    let x : ReadRange := { page := 0, lo := 0, hi := 7 }
    (let s : State := { heldState with engine := { heldState.engine with claims := { PerClaimant.all none with
        aRead := some { range := some x, aged := 0, due := 20 }, qUni := some { range := none, aged := 0, due := 20 } } } }
     s.engine.write = none ∧ s.highest claimants = some .aRead ∧ s.claim .aRead = some { range := some x, aged := 0, due := 20 } ∧
       claimQueue .aRead = none) ∧
    (let s : State := { heldState with engine := { heldState.engine with claims := { PerClaimant.all none with
        qUni := some { range := none, aged := 0, due := 20 } } } }
     s.highest claimants = some .qUni ∧ claimQueue .qUni = some .uni) ∧
    heldState.highest claimants = none ∧
    (let s := suspendedUnder none
     s.engine.write = some .uni ∧ s.entriesOf .uni = [entry .eraseSector .suspended] ∧ s.claim .tRead = none ∧ s.claim .aRead = none) ∧
    (suspendedUnder (some { range := some x, aged := 0, due := 20 })).highest [.tRead, .aRead] = some .aRead :=
  ⟨⟨rfl, by decide +kernel, rfl, rfl⟩, ⟨by decide +kernel, rfl⟩, by decide +kernel, ⟨rfl, rfl, rfl, rfl⟩, by decide +kernel⟩

/-- A Port T read of the open pass that waits for the slot of page `0x40100`, whose page read is granted. -/
def waitingRead : Reading :=
  { addr := 0x401FF, want := 1, piece := .slot { page := 0x40100, lo := 255, hi := 255 }, inPass := true, passLast := false,
    keyLast := false
    seg := some { first := 0x401FF, last := 0x5FFFF, cls := some .uniformity, source := .flash, owner := .uni, phys := 0x401FF,
                  offset := 0x1FF, inPass := true } }

def fillingState : State :=
  { passing (.filling 0x40100 :: List.replicate 7 .empty) (some 1) with
    portT := { (idle .sealed).portT with link := .reading waitingRead }
    engine := { (idle .sealed).engine with
      read := some { claimant := .prefetch, range := { page := 0x40100, lo := 0, hi := 255 }, discard := false } } }

theorem test_prefetch_end_is_met :
    fillingState.Calm ∧ fillingState.reading .a = none ∧ fillingState.reading .t = some waitingRead ∧ waitingRead.addr ≤ 0x5FFFF ∧
    waitingRead.want = 255 + 1 - 255 ∧ waitingRead.want ≤ 0x5FFFF + 1 - waitingRead.addr ∧ fillingState.entriesOf .uni = [] ∧
    fillingState.aheadSlot 0x40100 = some (.filling 0x40100) ∧ fillingState.engine.deferred.get .prefetch = none := by
  exact ⟨⟨rfl, rfl, rfl, rfl, fun _ h => by cases h⟩, rfl, rfl, by decide, rfl, by decide, rfl, by decide +kernel, rfl⟩

/-- A segment of a PASS entry over what SET-MAP has since made the key sector, `0x10000` to `0x10FFF`. -/
def earlierSegment : Segment :=
  { first := 0x10000, last := 0x1FFFF, cls := some .pass, source := .flash, owner := .pass, phys := 0x10000, offset := 0,
    inPass := false }

/-- A read that was classified in a PASS entry before SET-MAP made its sector the key sector gets the sector's content until a SEAL has
carried a bundle there; from then on it is the free value whether it is barred (log entry 28). -/
theorem test_barred_read :
    (mapped .opened fullMap).keyBarred earlierSegment 0x10FFF = false ∧
    ({ mapped .opened fullMap with carried := some 0x10000 } : State).keyBarred earlierSegment 0x10FFF = Config.secrecyHolds ∧
    ({ mapped .opened fullMap with carried := some 0x10000 } : State).keyBarred earlierSegment 0x11000 = false := by
  have h : entryOfClass fullMap .key = some keyEntry := by decide +kernel
  unfold State.keyBarred
  refine ⟨?_, ?_, ?_⟩
  · rw [show (mapped .opened fullMap).life.fields.map = fullMap from rfl, h]
    rfl
  all_goals
    rw [show ({ mapped .opened fullMap with carried := some 0x10000 } : State).life.fields.map = fullMap from rfl, h]
    dsimp only
  · rw [decide_eq_true (by rfl), decide_eq_true (by decide), decide_eq_true (by decide), decide_eq_true (by decide)]
    rfl
  · rw [decide_eq_false (p := earlierSegment.physAt 0x11000 < keyEntry.pbase + keyEntry.size) (by decide), Bool.and_false]
    rfl

/-- A leaving of SEAL's key sector run notes the sector. -/
theorem test_bundle_carried :
    ({ mapped .opened fullMap with
      job := some { work := .keySector 0x10000 64, added := 2, unleft := 1, firstFailed := none } } : State).carryBundle.carried =
      some 0x10000 := by decide +kernel

theorem test_port_reset_leaves_is_met :
    let w : QueuedWrite := { queue := .pass, kind := .program, addr := 0, data := [(0, 0x00#8)], upstream := 0, posted := true }
    let s : State := { heldState with pool := [], portA := { heldState.portA with awaiting := some w, cause := .page } }
    let r : State := { nearlyFull with pool := [], portA := { nearlyFull.portA with cause := .room .pass } }
    (s.due = none ∧ s.dir.running ≠ some .flipArm ∧ s.reading .a = none) ∧ r.due = none ∧ r.reading .t = none :=
  ⟨⟨by decide +kernel, by decide, rfl⟩, by decide +kernel, rfl⟩

theorem test_open_write_is_met :
    ((idle .opened).port .a).link.collected .program 5 [] = some (5, []) ∧
    ({ idle .opened with portA := { (idle .opened).portA with link := .collecting .program 5 [0x01] } } : State).portA.link.collected
      .program 9 [0x02] = some (5, [0x01, 0x02]) ∧
    ((idle .opened).port .t).link.collected .eraseBlock 5 [] = some (5, []) := ⟨rfl, rfl, rfl⟩

/-! ### More of the directives that start -/

/-- The written image of a directive with these parameters. -/
def image (params : List Byte) : Mem := Mem.setAll [] 5 (covered 0 params)

theorem test_set_arbiter_suspends_is_met :
    let cl : Claim := { range := some { page := 0, lo := 0, hi := 0 }, aged := 0, due := 20 }
    let s : State := { starting .opened 0x40 arbiterParams with
      queues := (writing .eraseBlock (.active .wait)).queues
      engine := { (writing .eraseBlock (.active .wait)).engine with
        claims := { PerClaimant.all none with tRead := some cl }, suspendCount := 31 } }
    s.Starts 1 .setArbiter (image arbiterParams) 14 ∧ s.engine.write = some .uni ∧ s.engine.read = none ∧
    s.headState .uni = some (.active .wait) ∧ s.engine.suspendCount < 32 ∧ s.claim .tRead = some cl ∧
    (∀ d, d ≠ .tRead → d = .tRead ∨ d = .aRead → s.claim d = none) ∧ 900 ≤ 64 * 15 + min 63 cl.aged := by
  refine ⟨{ starts_starting .opened 0x40 arbiterParams (d := .setArbiter) (n := 14) rfl rfl with }, rfl, rfl, by decide, by decide, rfl,
    ?_, by decide⟩
  rintro d h (rfl | rfl)
  · exact absurd rfl h
  · rfl

theorem test_set_queue_levels_refusals_are_met :
    (starting .opened 0x30 [1]).Starts 1 .setQueueLevels (image [1]) 1 ∧
    ((param (image [1, 1, 1, 33]) 3).toNat = 33 ∧ ∀ j < 3, (param (image [1, 1, 1, 33]) j).toNat = 1) ∧
    (param (image [0, 1, 1, 1]) 0).toNat < 1 := ⟨starts_starting _ _ _ rfl rfl, by decide +kernel, by decide +kernel⟩

/-- `starting` with an entry in a queue. -/
def startingBusy (l : Lifecycle) (code : Byte) (params : List Byte) : State :=
  { starting l code params with queues := (writing .eraseSector .queued).queues }

theorem starts_busy (l : Lifecycle) (code : Byte) (params : List Byte) {d : Directive} {n : Nat} (hc : Directive.ofCode code = some d)
    (hn : (byte params.length).toNat = n) : (startingBusy l code params).Starts 1 d (image params) n :=
  { starts_starting l code params hc hn with }

theorem test_close_recover_starts_are_met :
    (startingBusy .sealed 0x11 []).Starts 1 .closes (image []) 0 ∧ (startingBusy .sealed 0x11 []).life.fields.code = none ∧
    ({ (startingBusy .sealed 0x11 []).life.fields with code := some (List.replicate 16 1) } : Fields).code ≠ none ∧
    (startingBusy .safe 0x12 []).Starts 1 .recover (image []) 0 ∧ (startingBusy .safe 0x12 []).entriesOf .uni ≠ [] ∧
    (startingBusy .safe 0x12 []).life.fuse = false ∧ (starting .safe 0x12 [0]).Starts 1 .recover (image [0]) 1 :=
  ⟨starts_busy _ _ _ rfl rfl, rfl, by decide, starts_busy _ _ _ rfl rfl, by decide, rfl, starts_starting _ _ _ rfl rfl⟩

theorem test_open_starts_is_met :
    (starting .blank 0x10 []).Starts 1 .opens (image []) 0 ∧ (starting .blank 0x10 []).life.lifecycle = some .blank ∧
    (starting .safe 0x10 [0]).Starts 1 .opens (image [0]) 1 := ⟨starts_starting _ _ _ rfl rfl, rfl, starts_starting _ _ _ rfl rfl⟩

theorem test_service_code_starts_are_met :
    let code : List Byte := List.replicate 15 0 ++ [1]
    (starting .opened 0x70 code).Starts 1 .setServiceCode (image code) 16 ∧ Mem.slice (image code) 5 16 = code ∧
    code ≠ List.replicate 16 0 ∧ code ≠ List.replicate 16 0xFF ∧
    Mem.slice (image (List.replicate 16 0)) 5 16 = List.replicate 16 0 ∧
    (starting .closed 0x71 code).Starts 1 .serviceOpen (image code) 16 ∧ (starting .closed 0x71 code).attempts = 3 ∧
    (starting .closed 0x71 code).life.fields.code ≠ some (Mem.slice (image code) 5 16) ∧
    (let s : State := { starting .closed 0x71 code with
        life := { (starting .closed 0x71 code).life with fields := { (starting .closed 0x71 code).life.fields with code := some code } }
        attempts := 1 }
     s.Starts 1 .serviceOpen (image code) 16 ∧ s.life.fields.code = some (Mem.slice (image code) 5 16) ∧ 0 < s.attempts) :=
  ⟨starts_starting _ _ _ rfl rfl, by decide +kernel, by decide, by decide, by decide +kernel, starts_starting _ _ _ rfl rfl, rfl,
   by decide, { starts_starting .closed 0x71 (List.replicate 15 0 ++ [1]) (d := .serviceOpen) (n := 16) rfl rfl with },
   by decide +kernel, by decide⟩

theorem test_seal_starts_is_met :
    let s : State := { starting .opened 0x61 [] with queues := { State.reset.queues with set := { Queue.reset with entries := [queuedErase] } } }
    s.Starts 1 .seals (image []) 0 ∧ entryOfClass s.life.fields.map .key = some keyEntry ∧
    entryOfClass s.life.fields.map .settings = some settingsEntry ∧ s.entriesOf .set ≠ [] ∧ (startingBusy .service 0x72 []).Starts 1 .serviceClose (image []) 0 ∧
    (startingBusy .service 0x72 []).entriesOf .uni ≠ [] ∧ entryOfClass (idle .opened).life.fields.map .key = none :=
  ⟨{ starts_starting .opened 0x61 [] (d := .seals) (n := 0) rfl rfl with }, by decide +kernel, by decide +kernel, by decide,
   starts_busy _ _ _ rfl rfl, by decide, by decide +kernel⟩

theorem test_flip_starts_is_met :
    (startingBusy .sealed 0x51 [1, 1]).Starts 1 .flip (image [1, 1]) 2 ∧ (startingBusy .sealed 0x51 [1, 1]).uniformity ≠ none ∧
    (startingBusy .sealed 0x51 [1, 1]).entriesOf .uni ≠ [] ∧ (param (image [1, 1]) 0).toNat = 1 ∧ (param (image [1, 1]) 1).toNat = 1 ∧
    1 < (param (image [2, 2]) 0).toNat ∧ 1 < (param (image [0, 2]) 1).toNat ∧ (param (image [0, 2]) 0).toNat = 0 :=
  ⟨starts_busy _ _ _ rfl rfl, by decide +kernel, by decide, by decide +kernel⟩

theorem test_sync_discard_starts_are_met :
    (startingBusy .closed 0x32 [0, 0, 0, 1]).Starts 1 .sync (image [0, 0, 0, 1]) 4 ∧ (∀ i < 4, (param (image [0, 0, 0, 1]) i).toNat ≤ 1) ∧
    param (image [0, 0, 0, 1]) QueueId.uni.num = 1 ∧ (startingBusy .closed 0x32 [0, 0, 0, 1]).entriesOf .uni ≠ [] ∧
    (∀ i < 4, param (image [0, 0, 0, 0]) i = 0) ∧ 1 < (param (image [1, 1, 1, 2]) 3).toNat ∧
    (startingBusy .opened 0x31 [3]).Starts 1 .discard (image [3]) 1 ∧ (param (image [3]) 0).toNat = QueueId.uni.num ∧
    (startingBusy .opened 0x31 [3]).headState .uni = some .queued ∧
    (param (image [4]) 0 ≠ 1 ∧ param (image [4]) 0 ≠ 2 ∧ param (image [4]) 0 ≠ 3) :=
  ⟨starts_busy _ _ _ rfl rfl, by decide +kernel, by decide +kernel, by decide, by decide +kernel, by decide +kernel,
   starts_busy _ _ _ rfl rfl, by decide +kernel, by decide, by decide +kernel⟩

/-- SET-MAP's parameters for entry 14: a PASS entry, one sector at `0x30000`; and one that lies over entry 0. -/
def mapParams : List Byte := [14, 1, 1, 2, 1, 1, 0, 0] ++ leBytes 4 0x30000 ++ leBytes 4 4096 ++ leBytes 4 0x30000 ++ leBytes 4 0
def overParams : List Byte := [14, 1, 1, 2, 1, 1, 0, 0] ++ leBytes 4 0xF000 ++ leBytes 4 4096 ++ leBytes 4 0x3F000 ++ leBytes 4 0

theorem test_set_map_starts_is_met :
    (startingBusy .opened 0x20 mapParams).Starts 1 .setMap (image mapParams) 24 ∧
    (RawEntry.read (image mapParams) 5).badOffset = none ∧
    (RawEntry.read (image mapParams) 5).entry =
      some { cls := .pass, ubase := 0x30000, size := 4096, pbase := 0x30000, pbase2 := 0, aRight := .readWrite, tRight := .read,
             posted := true } ∧
    (match (RawEntry.read (image mapParams) 5).entry with
      | some e => conflict 14 e (startingBusy .opened 0x20 mapParams).entries | none => some 0) = none ∧
    (match (RawEntry.read (image overParams) 5).entry with
      | some e => (conflict 14 e (startingBusy .opened 0x20 mapParams).entries).isSome | none => false) = true ∧
    (RawEntry.read (image (15 :: mapParams.tail)) 5).badOffset = some 0 ∧ (startingBusy .opened 0x20 mapParams).entriesOf .uni ≠ [] :=
  ⟨starts_busy _ _ _ rfl rfl, by decide +kernel, by decide +kernel, by decide +kernel, by decide +kernel, by decide +kernel, by decide⟩

/-! ### More of the moments -/

/-- Region records that pass R164's check: region 1 DUAL, region 2 F50. -/
def regionRecord (code family lo hi : Byte) : List Byte :=
  [0x52, 0x45, 0x47, 0x31, 1, 0, code, 0, family] ++ List.replicate 21 0 ++ [lo, hi]

def regionFlash (r : List Byte) : Mem := Mem.setAll [] 0x20000 (covered 0 r)

theorem test_bundle_tests_are_met :
    let t := Mem.set sealedBundle 16 9
    (∀ i < 4, Mem.get t i = bundleMarker.getD i 0) ∧ leNat (Mem.slice t 4 2) = 1 ∧ leNat (Mem.slice t 6 2) = 64 ∧ Mem.get t 8 = 1 ∧
    Mem.get t 9 = 1 ∧ scopeFault t 64 12 = none ∧ entryFault t 64 (bundleEntryAt t 16 0) = some 16 ∧
    bundleEntryAt sealedBundle 16 1 = 60 ∧ bundleScopes sealedBundle = [{ code := 1, families := 7 }] ∧
    Mem.get (Mem.set sealedBundle 3 0) 3 ≠ bundleMarker.getD 3 0 ∧ scopeFault (Mem.set sealedBundle 14 8) 64 12 = some 14 := by
  decide +kernel

/-- A directive that waits for the region record, whose page read is granted. -/
def regionRead (l : Lifecycle) (ph : Phase) (code : Byte) (scopes : List Scope) (f : Mem) : State :=
  { running l fullMap ph code with
    flash := f
    life := { (mapped l fullMap).life with fields := { (mapped l fullMap).life.fields with scopes := scopes } }
    key := { State.reset.key with window := .staging, staging := sealedBundle, sealCount := 1 }
    engine := { (idle l).engine with
      read := some { claimant := .sysRead, range := { page := 0x20000, lo := 0, hi := 31 }, discard := false } } }

theorem alone_region (l : Lifecycle) (ph : Phase) (code : Byte) (scopes : List Scope) (f : Mem) :
    (regionRead l ph code scopes f).Alone 1 ph := { alone_running l fullMap ph code with }

theorem test_region_reads_are_met :
    let x : ReadRange := { page := 0x20000, lo := 0, hi := 31 }
    let one := regionFlash (regionRecord 1 3 0x21 0xBA)
    let two := regionFlash (regionRecord 2 1 0x94 0x38)
    let scopes : List Scope := [{ code := 1, families := 4 }]
    checkRegion (combine one [] x) = some { code := 1, family := .dual } ∧
    checkRegion (combine two [] x) = some { code := 2, family := .f50 } ∧ checkRegion (combine [] [] x) = none ∧
    inScope { code := 1, family := .dual } (bundleScopes sealedBundle) = true ∧
    inScope { code := 2, family := .f50 } (bundleScopes sealedBundle) = false ∧ inScope { code := 1, family := .dual } scopes = true ∧
    inScope { code := 2, family := .f50 } scopes = false ∧
    (let s := regionRead .opened (.sealValidate 64) 0x61 [] one
     s.Alone 1 (.sealValidate 64) ∧ s.job = none ∧ (s.slot 1).directive = some .seals ∧ s.entriesOf .set = [] ∧
       entryOfClass s.life.fields.map .key = some keyEntry ∧ s.engine.deferred.get .sysRead = none) ∧
    (let s := regionRead .service .serviceCloseCheck 0x72 scopes two
     s.Alone 1 .serviceCloseCheck ∧ (s.slot 1).directive = some .serviceClose ∧ s.life.fields.scopes = scopes) :=
  ⟨by decide +kernel, by decide +kernel, by decide +kernel, by decide +kernel, by decide +kernel, by decide +kernel, by decide +kernel,
   ⟨alone_region _ _ _ _ _, rfl, by decide, rfl, by decide +kernel, rfl⟩, alone_region _ _ _ _ _, by decide, rfl⟩

/-- A FLIP in CHECK over a shadow bank, whose page read is granted. -/
def tableRead (ph : Phase) (lo : Nat) (f : Mem) : State :=
  { running .sealed fullMap ph 0x51 with
    flash := f
    uni := { State.reset.uni with pass := { State.reset.uni.pass with isOpen := true } }
    engine := { (idle .sealed).engine with
      read := some { claimant := .sysRead, range := { page := 0x80000, lo := lo, hi := 16 }, discard := false } } }

theorem test_table_reads_are_met :
    let table := Mem.setAll [] 0x80000 (covered 0 ([0x55, 0x43, 0x54, 0x31, 1, 0, 0, 0, 1, 0, 0, 0, 0, 0, 0, 0, 0xAA]))
    let s := tableRead .flipHeader 0 table
    (s.Alone 1 .flipHeader ∧ s.job = none ∧ (s.slot 1).directive = some .flip ∧ s.engine.write = none ∧
      s.engine.claims = PerClaimant.all none ∧ s.engine.deferred.get .sysRead = none ∧ s.shadowBase = 0x80000) ∧
    (Mem.slice table 0x80000 4 = [0x55, 0x43, 0x54, 0x31] ∧ leNat (Mem.slice table 0x80004 2) = 1 ∧ leNat (Mem.slice table 0x80008 4) = 1 ∧
      1 + 16 ≤ bankSize s.life.fields.map ∧ Mem.slice [] 0x80000 4 ≠ [0x55, 0x43, 0x54, 0x31]) ∧
    ((tableRead (.flipCrc 1 0 16 0xFFFFFFFF#32) 16 table).Alone 1 (.flipCrc 1 0 16 0xFFFFFFFF#32) ∧ 15 + 1 < pageOf 16 + 256 ∧
      (~~~ crc32Over 0xFFFFFFFF#32 (Mem.slice table (0x80000 + 16) (16 + 1 - 16))).toNat ≠ 0 ∧ pageOf 16 + 256 ≤ 15 + 241) :=
  ⟨⟨{ alone_running .sealed fullMap _ 0x51 with }, rfl, by decide, rfl, rfl, rfl, by decide +kernel⟩, by decide +kernel,
   { alone_running .sealed fullMap _ 0x51 with }, by decide, by decide +kernel, by decide⟩

/-! ### More of the record writes -/

/-- A record that changes the live bank alone. -/
def flipped : ControlRecord :=
  { lifecycle := .sealed, fields := { (mapped .sealed fullMap).life.fields with live := .bank1 } }

/-- A FLIP whose record write has ended, with a Port T read held by SWITCH. -/
def holdingRead : Reading :=
  { addr := 0x40000, want := 1, piece := .fresh, inPass := false, passLast := false, keyLast := false
    seg := some (plainSegment 0x40000 0x5FFFF (some .uniformity) .held 0) }

def switching (k : Nat) (f : Option Nat) : State :=
  { working .flipSwitch 0x51 (endedJob (.record flipped k) f) with
    portT := { (idle .sealed).portT with link := .reading holdingRead } }

theorem test_flip_ends_are_met :
    (let j := endedJob (.record flipped 1) none
     let s := working .flipSwitch 0x51 j
     s.Alone 1 .flipSwitch ∧ s.job = some j ∧ j.ended = true ∧ j.firstFailed = none ∧ (s.slot 1).directive = some .flip ∧
       flipped.fields = { s.life.fields with live := s.live.other }) ∧
    (∀ k f, (switching k f).Holds 1 holdingRead (plainSegment 0x40000 0x5FFFF (some .uniformity) .held 0) ∧
      (switching k f).life.lifecycle = some .sealed) ∧
    findEntry (switching 3 (some 0)).entries holdingRead.addr = some uniformityEntry :=
  ⟨⟨alone_working _ _ _, rfl, rfl, rfl, by decide, by decide +kernel⟩,
   fun _ _ => ⟨{ running := rfl, queue := rfl, low := by decide, high := Nat.le_add_left .., awaiting := rfl,
                 noRoom := fun _ h => (by cases h), linkA := rfl, linkT := rfl, segment := rfl, held := rfl, wants := by decide,
                 closed := rfl }, rfl⟩, by decide +kernel⟩

/-! ### More of the engine -/

/-- A verified program of Q-UNI leaves, in a state with this port cause, awaiting write and free pages. -/
def leaving (cause : BusyCause) (w : Option QueuedWrite) (pool : List Nat) : State :=
  { mapped .opened fullMap with
    queues := { State.reset.queues with uni := { Queue.reset with entries := [{ entry .program (.active .verify) with image := some [] }] } }
    engine := { (idle .opened).engine with write := some .uni }
    portA := { (idle .opened).portA with cause := cause, awaiting := w }
    pool := pool }

theorem test_leaving_makes_due_is_met :
    let e : Entry := { entry .program (.active .verify) with image := some [] }
    let w : QueuedWrite := { queue := .pass, kind := .program, addr := 0, data := [(0, 0x00#8)], upstream := 0, posted := true }
    (∀ c w p, (leaving c w p).NoReads ∧ (leaving c w p).entriesOf .uni = [e] ∧ (leaving c w p).dir.queue = [] ∧
      (leaving c w p).dir.running = none ∧ (leaving c w p).job = none) ∧
    (leaving (.room .uni) none []).inPhase .verify = some (.uni, e) ∧ e.image = some (Mem.cut [] e.addr 256) ∧
    (leaving .page (some w) []).portA.awaiting = some w ∧ w.kind = .program ∧ e.page = some 9 := by
  refine ⟨fun _ _ _ => ⟨⟨rfl, rfl⟩, rfl, rfl, rfl, rfl⟩, ?_, ?_, ?_⟩
  all_goals decide +kernel

theorem test_leaving_under_directives_is_met :
    let names : PerQueue Bool := ⟨false, false, false, true⟩
    let e : Entry := { entry .program (.active .verify) with image := some [] }
    (let s : State := { running .sealed fullMap (.syncWait names) 0x32 with
        queues := (leaving .none none [0]).queues, engine := (leaving .none none [0]).engine }
     s.Alone 1 (.syncWait names) ∧ s.job = none ∧ (s.slot 1).directive = some .sync ∧ s.entriesOf .uni = [e] ∧
       s.inPhase .verify = some (.uni, e) ∧ names.get .uni = true ∧ (∀ r, r ≠ .uni → names.get r = true → s.entriesOf r = []) ∧
       (s.queues.get .uni).level ≠ 0) ∧
    (let j : Job := { work := .eraseAll, added := 512, unleft := 2, firstFailed := none }
     let x : Entry := { e with origin := .slot 1 }
     let s : State := { working .recoverErase 0x12 j with
        queues := { State.reset.queues with sys := { Queue.reset with entries := [x] } }
        engine := { (idle .sealed).engine with write := some .sys } }
     s.Alone 1 .recoverErase ∧ s.job = some j ∧ j.wants = false ∧ 1 < j.unleft ∧ x.origin = .slot 1 ∧
       s.inPhase .verify = some (.sys, x)) :=
  ⟨⟨{ alone_running .sealed fullMap (.syncWait ⟨false, false, false, true⟩) 0x32 with }, rfl, by decide, rfl, by decide +kernel, rfl,
     fun r h _ => by cases r <;> first | rfl | exact absurd rfl h, by decide⟩,
   { alone_working .recoverErase 0x12 { work := .eraseAll, added := 512, unleft := 2, firstFailed := none } with }, rfl, by decide, by decide, rfl,
    by decide +kernel⟩

theorem test_broken_record_erase_is_met (k : WriteKind) (h : k ≠ .program) :
    let e : Entry := { entry k (.active .wait) with addr := if k = .eraseSector then 0x1FFF000 else 0x1FF0000 }
    let s : State := { writing k (.active .wait) with queues := { State.reset.queues with uni := { Queue.reset with entries := [e] } } }
    s.memoryOk ∧ s.engine.write = some .uni ∧ (s.entriesOf .uni).head? = some e ∧ e.state = .active .wait ∧ e.addr ≤ 0x1FFF000 ∧
    0x2000000 ≤ e.addr + e.kind.range := by
  cases k
  · exact absurd rfl h
  all_goals exact ⟨⟨rfl, rfl⟩, rfl, rfl, rfl, by decide, by decide⟩

/-! ### The clock -/

/-- `writing` in WAIT with the wait limit's count. -/
def waiting (k : WriteKind) (n : Nat) : State :=
  { writing k (.active .wait) with engine := { (writing k (.active .wait)).engine with waited := n } }

theorem wait_goes_on {s : State} {q : QueueId} {e : Entry} (h : s.inPhase .wait = some (q, e))
    (hn : s.engine.waited + 1 < (match e.kind with | .program => 10000 | .eraseSector => 1000000 | .eraseBlock => 4000000)) :
    s.waitGoesOn := by
  intro r x hx
  cases h.symm.trans hx
  exact hn

theorem test_clock_is_met :
    (waiting .program 9998).waitGoesOn ∧ ¬ (waiting .program 9999).waitGoesOn ∧ (waiting .eraseSector 999998).waitGoesOn ∧
    ¬ (waiting .eraseSector 999999).waitGoesOn ∧ (waiting .eraseBlock 3999998).waitGoesOn ∧ ¬ (waiting .eraseBlock 3999999).waitGoesOn := by
  have h : ∀ k n, (waiting k n).inPhase .wait = some (.uni, entry k (.active .wait)) := fun k n => by
    show (writing k (.active .wait)).inPhase .wait = _
    cases k <;> decide +kernel
  refine ⟨wait_goes_on (h _ _) (by decide), fun x => absurd (x _ _ (h _ _)) (by decide), wait_goes_on (h _ _) (by decide),
    fun x => absurd (x _ _ (h _ _)) (by decide), wait_goes_on (h _ _) (by decide), fun x => absurd (x _ _ (h _ _)) (by decide)⟩

theorem test_timers_on_the_clock_are_met :
    let cl : Claim := { range := some { page := 0, lo := 0, hi := 0 }, aged := 0, due := 1 }
    let s : State := { idle .sealed with
      key := { State.reset.key with window := .released, stageTimer := .running 2, releaseTimer := .running 1 }
      engine := { (idle .sealed).engine with claims := { PerClaimant.all none with prefetch := some cl } } }
    s.pending = [] ∧ s.key.stageTimer.goesOn ∧ s.uni.pass.idle.goesOn ∧ s.waitGoesOn ∧ s.claimsGoOn (some .prefetch) ∧
    s.claim .prefetch = some cl ∧ (idle .sealed).claimsGoOn none := by
  refine ⟨rfl, Nat.le_refl 2, trivial, fun q e h => ?_, fun c x hc hx => ?_, rfl, fun c x _ hx => ?_⟩
  · cases h
  · cases c <;> first | exact absurd rfl hc | cases hx
  · cases c <;> cases hx

/-! ### Requests that find the queues empty -/

/-- `starting` with the fuse intact or blown, and with a service code or none. -/
def startingQuiet (l : Lifecycle) (code : Byte) (fuse : Bool) (service : Option (List Byte)) : State :=
  { starting l code [] with
    life := { (starting l code []).life with fuse := fuse, fields := { (starting l code []).life.fields with code := service } } }

theorem test_requests_on_empty_queues_are_met :
    (let s := startingQuiet .sealed 0x11 false (some (List.replicate 16 1))
     s.Starts 1 .closes (image []) 0 ∧ s.life.lifecycle = some .sealed ∧ s.life.fields.code ≠ none ∧ ∀ q, s.entriesOf q = []) ∧
    ∀ fuse, let s := startingQuiet .safe 0x12 fuse none
      s.Starts 1 .recover (image []) 0 ∧ s.life.lifecycle = some .safe ∧ s.life.fuse = fuse ∧ ∀ q, s.entriesOf q = [] :=
  ⟨⟨{ starts_starting .sealed 0x11 [] (d := .closes) (n := 0) rfl rfl with }, rfl, by decide, fun q => by cases q <;> rfl⟩,
   fun _ => ⟨{ starts_starting .safe 0x12 [] (d := .recover) (n := 0) rfl rfl with }, rfl, rfl, fun q => by cases q <;> rfl⟩⟩

/-! ### The directive window's pages -/

/-- A directive runs, with a failure and a refused write on record and result data in its slot. -/
def reporting : State :=
  { running .sealed fullMap .flipArm 0x51 with
    life := { (mapped .sealed fullMap).life with
      fields := { (mapped .sealed fullMap).life.fields with region := some { code := 0x123, family := .f60 } } }
    firstFailure := some { queue := .uni, seq := 7, kind := .eraseSector, addr := 0x40000, origin := .slot 3, upstream := none,
                           reason := .flashError }
    dir := { (running .sealed fullMap .flipArm 0x51).dir with
      slots := { Slot.reset with state := .running, code := 0x51, result := some .fuseFailed, data := [0x11, 0x22] } ::
        List.replicate 14 Slot.reset
      refusedWrite := some { port := .t, kind := .program, addr := 0x1FFF100, reason := .slotBusy } } }

theorem test_status_page_is_met :
    (State.reset.life.lifecycle = none ∧ State.reset.life.fields.region = none ∧ State.reset.dir.queue.head? = none ∧
      State.reset.firstFailure = none ∧ State.reset.dir.refusedWrite = none) ∧
    reporting.life.lifecycle = some .sealed ∧ reporting.life.fields.region ≠ none ∧ reporting.dir.queue.head? = some 1 ∧
    (reporting.slot 1).state = .running ∧ reporting.firstFailure ≠ none ∧ reporting.dir.refusedWrite ≠ none :=
  ⟨⟨rfl, rfl, rfl, rfl, rfl⟩, rfl, by decide, rfl, by decide, by decide, by decide⟩

theorem test_status_page :
    (reporting.windowPage 0).take 11 = [0x08, 0x26, 0x01, 2, 0, 0, 0, 0, 0x23, 0x01, 2] ∧
    ((reporting.windowPage 0).drop 56).take 28 = [1, 3, 2, 3, 7, 0, 0, 0, 0, 0, 4, 0, 0xFF, 0xFF, 0xFF, 0xFF, 2, 0, 0, 0,
      1, 1, 1, 8, 0x00, 0xF1, 0xFF, 0x01] := by decide +kernel

theorem test_slot_page : (1 ≠ 0 ∧ (reporting.slot 1).data.length ≤ 250 ∧ (State.reset.slot 15).data.length ≤ 250) ∧
    (reporting.windowPage 1).take 9 = [2, 0x51, 0, 0, byte (resultCodes.idxOf .fuseFailed), 2, 0x11, 0x22, 0x00] := by decide +kernel

/-! ### Claims that meet an operation -/

/-- Q-UNI's head in WAIT, with this suspend count, page read and claim of Port A. -/
def waitingUnder (k : WriteKind) (count : Nat) (r : Option PageRead) (cl : Option Claim) : State :=
  { writing k (.active .wait) with
    engine := { (writing k (.active .wait)).engine with
      suspendCount := count, read := r, claims := { PerClaimant.all none with aRead := cl } } }

theorem test_claims_in_wait_are_met :
    let x : ReadRange := { page := 0, lo := 0, hi := 7 }
    let s := waitingUnder .eraseBlock 0 none none
    (s.portT.link = .idle ∧ s.portA.link = .idle ∧ s.reading .a = none ∧ s.reading .t = none ∧ s.life.lifecycle = some .opened ∧
      findEntry s.entries 0 = some postedEntry ∧ s.ReadsFlash .opened postedEntry .t .pass 0 ∧
      s.ReadsFlash .opened postedEntry .a .pass 0 ∧ s.entriesOf .pass = [] ∧ s.engine.write = some .uni ∧
      s.headState .uni = some (.active .wait) ∧ s.engine.read = none ∧ s.claim .aRead = none ∧
      s.engine.suspendCount < s.engine.limit ∧ s.engine.bar ≤ 64 * s.engine.weights.get .tRead) ∧
    64 * s.engine.weights.get .aRead < s.engine.bar ∧
    (let t := waitingUnder .eraseBlock s.engine.limit none none
     t.headState .uni = some (.active .wait) ∧ ¬ t.engine.suspendCount < t.engine.limit) ∧
    (let t : State := { waitingUnder .program 0 (some { claimant := .aRead, range := x, discard := false }) none with
        queues := State.reset.queues, engine := { (waitingUnder .program 0 none none).engine with
          write := none, read := some { claimant := .aRead, range := x, discard := false } } }
     t.entriesOf .pass = [] ∧ t.engine.read ≠ none ∧ t.engine.write = none ∧
       ∀ y, t.engine.read = some y → y.claimant = portClaimant .t → y.discard = false) :=
  ⟨⟨rfl, rfl, rfl, rfl, rfl, by decide +kernel, .passT (by decide) rfl (by decide), .passA (by decide) rfl (by decide), rfl, rfl,
     by decide, rfl, rfl, by decide, by decide⟩, by decide, ⟨by decide, by decide⟩, rfl, by decide, rfl,
   fun y h _ => by cases h; rfl⟩

/-- Q-UNI's head in PROGRAM, with this suspend count and claim of Port T. -/
def issuing (count : Nat) (cl : Option Claim) : State :=
  { writing .program (.active .program) with
    engine := { (writing .program (.active .program)).engine with
      suspendCount := count, claims := { PerClaimant.all none with tRead := cl } } }

theorem test_command_issued_is_met :
    let x : ReadRange := { page := 0, lo := 0, hi := 7 }
    let cl : Claim := { range := some x, aged := 0, due := 20 }
    (∀ n c, (issuing n c).inPhase .program = some (.uni, entry .program (.active .program)) ∧ (issuing n c).claim .tRead = c ∧
      (issuing n c).claim .aRead = none ∧ (issuing n c).engine.read = none) ∧
    (let s := issuing 0 (some cl)
     s.engine.bar ≤ 64 * s.engine.weights.get .tRead + min 63 cl.aged ∧ s.engine.suspendCount < s.engine.limit ∧
       s.highest [.tRead, .aRead] = some .tRead ∧ (issuing s.engine.limit (some cl)).engine.limit ≤ s.engine.limit) ∧
    (let s : State := { issuing 0 (some cl) with engine := { (issuing 0 (some cl)).engine with bar := 1023 } }
     64 * s.engine.weights.get .tRead + min 63 cl.aged < s.engine.bar) := by
  refine ⟨fun n c => ⟨?_, rfl, rfl, rfl⟩, by decide +kernel, by decide⟩
  show (writing .program (.active .program)).inPhase .program = _
  decide +kernel

/-! ### Entries of Q-SYS with more to follow -/

theorem test_sys_entries_are_met :
    let j : Job := { work := .eraseAll, added := 0, unleft := 0, firstFailed := none }
    let k : Job := { work := .keySector 0x10000 600, added := 1, unleft := 1, firstFailed := none }
    let s := working .recoverErase 0x12 j
    let t := working (.sealProgram 600 someRegion) 0x61 k
    (s.Alone 1 .recoverErase ∧ Phase.recoverErase.stays = true ∧ j.wants = true ∧ (s.entriesOf .sys).length < 32 ∧ j.unleft < 32 ∧
      (j.work.entry [] 0).1 ≠ .program ∧ j.added + 1 < j.work.total) ∧
    t.Alone 1 (.sealProgram 600 someRegion) ∧ (Phase.sealProgram 600 someRegion).stays = true ∧ k.wants = true ∧
    (k.work.entry [] 1).1 = .program ∧ t.pool ≠ [] ∧ k.added + 1 < k.work.total :=
  ⟨⟨alone_working _ _ _, rfl, by decide, by decide, by decide, by decide, by decide⟩, alone_working _ _ _, rfl, by decide, rfl,
   by decide, by decide⟩

/-! ### What is no record -/

/-- A sector with these bytes from an offset on, erased elsewhere. -/
def sectorWith (o : Nat) (l : List Byte) : Mem := Mem.setAll [] o (covered 0 l)

theorem test_no_record_is_met :
    let w := fun (m : Mem) (i : Nat) => (Mem.get m i).toNat + 256 * (Mem.get m (i + 1)).toNat
    (Mem.slice [] 0 4 ≠ recordMarker ∧ Mem.slice [] 256 4 ≠ recordMarker ∧ w [] 4 ≠ 1) ∧
    ((Mem.get (sectorWith 6 [0]) 6).toNat = 0 ∧ 4 < (Mem.get [] 6).toNat) ∧ 1 < (Mem.get [] 7).toNat ∧
    ((0 < w (sectorWith 8 [63, 0]) 8 ∧ w (sectorWith 8 [63, 0]) 8 < 64) ∧ 4096 < w [] 8) ∧ 8 < (Mem.get [] 10).toNat ∧
    (4095 < w [] 35 ∧ (0 < w (sectorWith 35 [1, 0, 0]) 35 ∧ (Mem.get (sectorWith 35 [1, 0, 0]) 37).toNat = 0) ∧
      (0 < w (sectorWith 35 [1, 0]) 35 ∧ 3 < (Mem.get (sectorWith 35 [1, 0]) 37).toNat) ∧
      w (sectorWith 35 [0, 0]) 35 = 0 ∧ (Mem.get (sectorWith 35 [0, 0]) 37).toNat ≠ 0) ∧
    (w (sectorWith 38 [99, 0]) 38 < 100 ∧ 10000 < w [] 38) ∧
    (RawEntry.read [] 64).badOffset ≠ none ∧ (Mem.get (sectorWith 260 [7]) 260).toNat ≠ 8 := by decide +kernel

/-- Two sectors that differ in the stored check code alone: it is wrong in one of them. -/
theorem test_wrong_check_code_is_met :
    ∃ m : Mem, (crc32 (Mem.slice m 0 508)).toNat ≠
      (Mem.get m 508).toNat + 256 * (Mem.get m 509).toNat + 65536 * ((Mem.get m 510).toNat + 256 * (Mem.get m 511).toNat) := by
  have h : Mem.slice [(508, 0x00#8)] 0 508 = Mem.slice [] 0 508 := by
    unfold Mem.slice
    refine List.map_congr_left fun i hi => ?_
    have := List.mem_range.1 hi
    simp only [Mem.get]
    rw [if_neg (by omega)]
  by_cases hc : (crc32 (Mem.slice [] 0 508)).toNat = 0xFFFFFFFF
  · refine ⟨[(508, 0x00#8)], ?_⟩
    rw [h, hc]
    decide
  · exact ⟨[], hc⟩

theorem test_conflicting_record_is_met :
    let m := sectorWith 64 (mapBytes 0 [some postedEntry, some postedEntry])
    let map := (List.range 15).map fun i => (RawEntry.read m (if i < 8 then 64 + 24 * i else 260 + 24 * (i - 8))).entry
    map[1]? = some (some postedEntry) ∧ conflict 1 postedEntry (mapEntries map) ≠ none := by decide +kernel

/-! ### Reads that meet a head in PRE-READ -/

/-- A program of offset 0 of a page in PRE-READ at the head of its queue, for Q-PASS and Q-SET. -/
def preReading (addr : Nat) : Entry := { entry .program (.active .preRead) with addr := addr }

def passPreRead (rd : Option Reading) : State :=
  { mapped .opened fullMap with
    queues := { State.reset.queues with pass := { Queue.reset with entries := [preReading 0] } }
    engine := { (idle .opened).engine with write := some .pass }
    portT := { (idle .opened).portT with link := match rd with | some rd => .reading rd | none => .idle } }

/-- `heldRead` where it waits for the image. -/
def imageRead : Reading := { heldRead with piece := .image { page := 0, lo := 16, hi := 17 } }

theorem test_reads_of_the_image_are_met :
    (let s := passPreRead none
     s.portT.link = .idle ∧ s.reading .a = none ∧ s.life.lifecycle = some .opened ∧ findEntry s.entries 0x10 = some postedEntry ∧
       s.ReadsFlash .opened postedEntry .t .pass 0 ∧ s.entriesOf .pass = [preReading 0] ∧ (preReading 0).kind = .program ∧
       (preReading 0).state = .active .preRead ∧ (preReading 0).addr = pageOf 0x10 ∧
       ∃ i < 1, (overlayByte (s.entriesOf .pass) (0x10 + i)).fixed = false) ∧
    (let s := passPreRead (some imageRead)
     s.Calm ∧ s.memoryOk ∧ s.inPhase .preRead = some (.pass, preReading 0) ∧ s.entriesOf .pass = [preReading 0] ∧
       OffsetBytes.ok 256 (preReading 0).data = true ∧ s.life.lifecycle = some .opened ∧ s.reading .a = none ∧
       s.reading .t = some imageRead ∧ imageRead.addr ≤ 0x11 ∧ imageRead.want = 17 + 1 - 16 ∧ imageRead.want ≤ 0x11 + 1 - imageRead.addr) :=
  ⟨⟨rfl, rfl, rfl, by decide +kernel, .passT (by decide) rfl (by decide), rfl, rfl, rfl, by decide, 0, by decide, by decide +kernel⟩,
   ⟨rfl, rfl, rfl, rfl, fun _ h => by cases h⟩, ⟨rfl, rfl⟩, by decide +kernel, rfl, by decide, rfl, rfl, rfl, by decide, rfl, by decide⟩

/-- The head of Q-SET over the region record's page: it covers the last byte of the page. -/
def regionHead : Entry := { preReading 0x20000 with data := [(255, 0x0F#8)] }

/-- A directive that waits for the region record under that head. -/
def regionPreRead (l : Lifecycle) (ph : Phase) (code : Byte) (scopes : List Scope) (f : Mem) : State :=
  { regionRead l ph code scopes f with
    queues := { State.reset.queues with set := { Queue.reset with entries := [regionHead] } }
    engine := { (idle l).engine with write := some .set } }

/-- The image that the head forms over a flash. -/
def regionImage (f : Mem) : Mem := Mem.set (Mem.cut f 0x20000 256) 255 0x0F

theorem test_region_images_are_met :
    let one := regionFlash (regionRecord 1 3 0x21 0xBA)
    let two := regionFlash (regionRecord 2 1 0x94 0x38)
    let record := fun f => checkRegion ((List.range 32).map fun o => (overlayByte [regionHead.formed (regionImage f)] (0x20000 + o)).value)
    (regionHead.Forms one (regionImage one) ∧ regionHead.Forms two (regionImage two) ∧ regionHead.Forms [] (regionImage [])) ∧
    (record one = some { code := 1, family := .dual } ∧ record two = some { code := 2, family := .f50 } ∧ record [] = none) ∧
    (∀ f ∈ [one, two, []],
      (regionPreRead .opened (.sealValidate 64) 0x61 [] f).memoryOk ∧
      (regionPreRead .opened (.sealValidate 64) 0x61 [] f).inPhase .preRead = some (.set, regionHead)) ∧
    (∀ l ph code scopes f, let s := regionPreRead l ph code scopes f
      s.Alone 1 ph ∧ s.job = none ∧ s.entriesOf .set = [regionHead] ∧ s.claim .sysRead = none ∧
        s.engine.deferred.get .sysRead = none ∧ s.engine.read = none ∧ s.life.fields.map = fullMap ∧ s.life.fields.scopes = scopes) ∧
    OffsetBytes.ok 256 regionHead.data = true ∧ entryOfClass fullMap .settings = some settingsEntry ∧
    settingsEntry.pbase = regionHead.addr ∧ entryOfClass fullMap .key = some keyEntry ∧
    ((regionPreRead .opened (.sealValidate 64) 0x61 [] []).slot 1).directive = some .seals ∧
    ((regionPreRead .service .serviceCloseCheck 0x72 [] []).slot 1).directive = some .serviceClose := by
  refine ⟨⟨⟨?_, ?_⟩, ⟨?_, ?_⟩, ?_, ?_⟩, ⟨?_, ?_, ?_⟩, ?_, fun l ph code scopes f =>
    ⟨{ alone_running l fullMap ph code with }, rfl, rfl, rfl, rfl, rfl, rfl, rfl⟩, ?_, ?_, ?_, ?_, ?_, ?_⟩
  all_goals first
    | decide +kernel
    | (unfold State.memoryOk; decide +kernel)

/-! ### A record that fails, and a key sector that moves -/

theorem test_record_page_fails_is_met (a : Nat) (h : a = 0x1FFF000 ∨ a = 0x1FFF100) :
    let e : Entry := { entry .program (.active .wait) with addr := a }
    let s : State := { writing .program .queued with queues := { State.reset.queues with sys := { Queue.reset with entries := [e] } }
                                                     engine := { (idle .opened).engine with write := some .sys } }
    e.HitsRecord ∧ s.Calm ∧ s.NoReads ∧ s.memoryOk ∧ s.entriesOf .sys = [e] ∧ s.inPhase .wait = some (.sys, e) ∧
    OffsetBytes.ok 256 e.data = true := by
  rcases h with rfl | rfl <;>
    exact ⟨⟨fun _ => by decide, fun x => absurd rfl x⟩, ⟨rfl, rfl, rfl, rfl, fun _ x => by cases x⟩, ⟨rfl, rfl⟩, ⟨rfl, rfl⟩, rfl,
      by decide +kernel, by decide⟩

theorem test_failed_record_leaves_no_marker :
    Mem.get (noMarker (sectorWith 0x1FFF100 recordMarker) { entry .program (.active .wait) with addr := 0x1FFF100 }) 0x1FFF100 = 0x00 ∧
    Mem.get (noMarker (sectorWith 0x1FFF200 recordMarker) { entry .program (.active .wait) with addr := 0x1FFF200 }) 0x1FFF200 = 0x44 ∧
    Mem.get (noRecord (sectorWith 0x1FFF1FF [0x00]) { entry .eraseSector (.active .wait) with addr := 0x1FFF000 }) 0x1FFF000 = 0x00 ∧
    noRecord (sectorWith 0x1FFF200 [0x00]) { entry .eraseSector (.active .wait) with addr := 0x1FFF000 } = sectorWith 0x1FFF200 [0x00] := by
  decide +kernel

theorem test_carried_note_follows_the_map :
    ({ mapped .opened fullMap with carried := some 0x10000 } : State).dropCarried.carried = some 0x10000 ∧
    ({ idle .opened with carried := some 0x10000 } : State).dropCarried.carried = none := by decide +kernel

end Sys2Proof.Tests
end

-- Proofs of the family 03: upstream links and the emulated flash status.
section
/-! PROOFS. Writes that a port turns away (R43 to R45): what a closed program or erase does before the Classifier sees it. -/

namespace Sys2Proof.Machine

/-! ### Rules of the operations -/

/-- Two changes of one port are one change. -/
theorem State.onPort_onPort (s : State) (p : Port) (f g : PortState → PortState) :
    (s.onPort p f).onPort p g = s.onPort p fun x => g (f x) := by cases p <;> rfl

@[simp] theorem State.port_freeLink (s : State) (p : Port) :
    (s.freeLink p).port p = { s.port p with link := .idle, returned := [] } := State.port_onPort ..

@[simp] theorem State.freeLink_life (s : State) (p : Port) : (s.freeLink p).life = s.life := State.onPort_life ..

/-- The link is freed and WEL is cleared for a write that goes to the Classifier (R43, step 3). -/
theorem State.clearWel_freeLink (s : State) (p : Port) : (s.freeLink p).clearWel p = s.onPort p PortState.taken :=
  State.onPort_onPort ..

/-- A refusal changes PROTECT-ERR of the port and the Directive Unit's record of it (R44, R46, R189). -/
theorem State.refuse_eq (s : State) (p : Port) (kind : WriteKind) (a : Nat) (r : RefusalReason) :
    s.refuse p kind a r =
      { s.onPort p fun x => { x with protectErr := true } with dir := s.dir.refusing p kind a r } := by
  cases p <;> rfl

/-- An ignored write changes IGNORED and the ignored count of the port, and raises IGNORED-BUSY (R45). -/
theorem State.ignore_eq (s : State) (p : Port) :
    s.ignore p =
      { s.onPort p fun x => { x with ignored := true, ignoredCount := min 255 (x.ignoredCount + 1) } with
        dir := { s.dir with events := s.dir.events ||| 0x0008#13 } } := by
  cases p <;> rfl

/-- A refusal that follows a change of the same port. -/
theorem State.refuse_onPort (s : State) (p : Port) (f : PortState → PortState) (kind : WriteKind) (a : Nat) (r : RefusalReason) :
    (s.onPort p f).refuse p kind a r =
      { s.onPort p fun x => { f x with protectErr := true } with dir := s.dir.refusing p kind a r } := by
  rw [State.refuse_eq, State.onPort_onPort, State.onPort_dir]

/-- An ignored write that follows a change of the same port. -/
theorem State.ignore_onPort (s : State) (p : Port) (f : PortState → PortState) :
    (s.onPort p f).ignore p =
      { s.onPort p fun x => { f x with ignored := true, ignoredCount := min 255 ((f x).ignoredCount + 1) } with
        dir := { s.dir with events := s.dir.events ||| 0x0008#13 } } := by
  rw [State.ignore_eq, State.onPort_onPort, State.onPort_dir]

theorem PortState.busy_iff (x : PortState) : x.busy = true ↔ x.cause ≠ .none := decide_eq_true_iff

/-- Test 1 of R27: no write of Port T has the right. -/
theorem State.classify_t (s : State) (l : Lifecycle) (kind : WriteKind) (a : Nat) : s.classify .t l kind a = .refuse .noRight :=
  if_pos rfl

/-! ### The three tests of R43 -/

theorem State.takeWrite_of_not_wel {s : State} {p : Port} (hw : (s.port p).wel = false) (kind : WriteKind) (a : Nat)
    (mask : OffsetBytes) : s.takeWrite p kind a mask = s.refuse p kind a .noEnable :=
  if_pos hw

theorem State.takeWrite_of_busy {s : State} {p : Port} (hw : (s.port p).wel = true) (hb : (s.port p).busy = true) (kind : WriteKind)
    (a : Nat) (mask : OffsetBytes) : s.takeWrite p kind a mask = s.ignore p := by
  simp [State.takeWrite, hw, hb]

theorem State.takeWrite_of_free {s : State} {p : Port} {l : Lifecycle} (hw : (s.port p).wel = true) (hb : (s.port p).busy = false)
    (hl : s.life.lifecycle = some l) (kind : WriteKind) (a : Nat) (mask : OffsetBytes) :
    s.takeWrite p kind a mask = (s.clearWel p).act p l kind a mask (s.classify p l kind a) := by
  simp [State.takeWrite, hw, hb, hl]

/-! ### A closed program or erase is taken (R39, R43) -/

/-- Whatever its kind, a closed write arrives with its data; an erase has none. -/
theorem exec_closedWrite (p : Port) (kind : WriteKind) (a : Addr) (data : List Byte) (s : State)
    (he : kind ≠ .program → data = []) : exec (closedWrite p kind a data) s = .next (s.arrive p kind a data true) := by
  cases kind with
  | program => rfl
  | eraseSector => rw [he (by decide)]; rfl
  | eraseBlock => rw [he (by decide)]; rfl

/-- A closed write on a link that can carry it frees the link and is taken with all that was collected. -/
theorem State.Closes.exec_eq {s : State} {p : Port} {kind : WriteKind} {a b : Addr} {data d : List Byte}
    (h : s.Closes p kind a data b d) :
    exec (closedWrite p kind a data) s = .next ((s.freeLink p).takeWrite p kind b.toNat (covered b.toNat d)) := by
  have hbyte : ¬ (kind = .program ∧ d = []) := fun ⟨hk, hd⟩ => h.byte hk hd
  rw [exec_closedWrite p kind a data s h.erase]
  simp [State.arrive, h.collected, State.close, hbyte]

/-- R44: without WEL a closed write is refused with NO-ENABLE, whatever the port, the kind and the lifecycle. -/
theorem State.Closes.exec_of_not_wel {s : State} {p : Port} {kind : WriteKind} {a b : Addr} {data d : List Byte}
    (h : s.Closes p kind a data b d) (hw : (s.port p).wel = false) :
    exec (closedWrite p kind a data) s = .next
      { s.setPort p { s.port p with protectErr := true, link := .idle, returned := [] } with
        dir := s.dir.refusing p kind b.toNat .noEnable } := by
  have hwel : ((s.freeLink p).port p).wel = false := by rw [State.port_freeLink]; exact hw
  rw [h.exec_eq, State.takeWrite_of_not_wel hwel, State.freeLink, State.refuse_onPort]
  rfl

/-- With WEL and not BUSY a closed write of Port T is refused by the Classifier with NO-RIGHT (R27, R44). -/
theorem State.Closes.exec_t_of_free {s : State} {kind : WriteKind} {a b : Addr} {data d : List Byte} {l : Lifecycle}
    (h : s.Closes .t kind a data b d) (hw : s.portT.wel = true) (hb : s.portT.busy = false) (hl : s.life.lifecycle = some l) :
    exec (closedWrite .t kind a data) s = .next
      { s with portT := { s.portT.taken with protectErr := true }, dir := s.dir.refusing .t kind b.toNat .noRight } := by
  have hwel : ((s.freeLink .t).port .t).wel = true := by rw [State.port_freeLink]; exact hw
  have hbusy : ((s.freeLink .t).port .t).busy = false := by rw [State.port_freeLink]; exact hb
  have hlife : (s.freeLink .t).life.lifecycle = some l := by rw [State.freeLink_life]; exact hl
  rw [h.exec_eq, State.takeWrite_of_free hwel hbusy hlife, State.classify_t, State.clearWel_freeLink, State.act, State.refuse_onPort]
  rfl

/-! ### The obligations -/

/-- Settles O12: WEL is the port's first test, and the Classifier's first test turns every write of Port T away. -/
theorem noEnableRefused : Obligations.NoEnableRefused :=
  ⟨fun _ _ _ _ _ _ _ h hw => h.exec_of_not_wel hw, fun _ _ _ _ _ _ _ h hw hb hl => h.exec_t_of_free hw hb hl⟩

/-- Settles O13: BUSY is the port's second test, and nothing else of the write is looked at. -/
theorem busyWriteIgnored : Obligations.BusyWriteIgnored := by
  intro p kind a b data d s h hw hc
  have hwel : ((s.freeLink p).port p).wel = true := by rw [State.port_freeLink]; exact hw
  have hbusy : ((s.freeLink p).port p).busy = true := by rw [State.port_freeLink, PortState.busy_iff]; exact hc
  rw [h.exec_eq, State.takeWrite_of_busy hwel hbusy, State.freeLink, State.ignore_onPort]
  rfl

end Sys2Proof.Machine
end

-- Proofs of the family 05: the Flash Engine and link arbitration.
section
/-! PROOFS. Bids and the winner among standing claims (R80). -/

namespace Sys2Proof.Machine

/-! ### Bids -/

/-- R80: the level stops at 63, whatever the aged steps and the queue's count. -/
theorem State.level_le (s : State) (c : Claimant) (cl : Claim) : s.level c cl ≤ 63 := by
  unfold State.level
  split <;> exact Nat.min_le_left ..

theorem State.bid_of_claim {s : State} {c : Claimant} {cl : Claim} (h : s.claim c = some cl) :
    s.bid c = some (64 * s.engine.weights.get c + s.level c cl) := by simp [State.bid, h]

/-- A bid is that of a standing claim. -/
theorem State.bid_eq_some {s : State} {c : Claimant} {n : Nat} :
    s.bid c = some n ↔ ∃ cl, s.claim c = some cl ∧ 64 * s.engine.weights.get c + s.level c cl = n := Option.map_eq_some_iff

@[simp] theorem State.bid_eq_none {s : State} {c : Claimant} : s.bid c = none ↔ s.claim c = none := Option.map_eq_none_iff

/-- R80: with a weight of at most 15 a bid is at most 1023. -/
theorem State.bid_le {s : State} {c : Claimant} {n : Nat} (h : s.bid c = some n) (hw : s.engine.weights.get c ≤ 15) : n ≤ 1023 := by
  obtain ⟨cl, -, rfl⟩ := State.bid_eq_some.1 h
  have hl := s.level_le c cl
  omega

/-! ### The better of two -/

theorem State.better_of_no_bid {s : State} {c : Claimant} (h : s.bid c = none) (best : Option Claimant) : s.better best c = best := by
  simp only [State.better, h]

theorem State.better_first {s : State} {c : Claimant} {n : Nat} (h : s.bid c = some n) : s.better none c = some c := by
  simp only [State.better, h]

/-- A later claimant takes the lead only with a higher bid (R80). -/
theorem State.better_second {s : State} {b c : Claimant} {m n : Nat} (hb : s.bid b = some m) (h : s.bid c = some n) :
    s.better (some b) c = if m < n then some c else some b := by simp only [State.better, h, hb, Option.getD_some]

/-! ### The winner -/

/-- `c` bids `n`, more than each claimant of `before` and no less than each of `after`. -/
structure State.Leads (s : State) (before : List Claimant) (c : Claimant) (after : List Claimant) (n : Nat) : Prop where
  bid : s.bid c = some n
  above : ∀ d ∈ before, ∀ m, s.bid d = some m → m < n
  atLeast : ∀ d ∈ after, ∀ m, s.bid d = some m → m ≤ n

/-- What is to hold of the winner among `cs` in this order: it leads those before and after it, and with no winner nobody bids. -/
def State.Wins (s : State) (cs : List Claimant) : Option Claimant → Prop
  | none => ∀ d ∈ cs, s.bid d = none
  | some c => ∃ before after n, cs = before ++ c :: after ∧ s.Leads before c after n

/-- A leader is overbid by none of the claimants, itself among them. -/
theorem State.Leads.le {s : State} {before after : List Claimant} {c d : Claimant} {m n : Nat} (h : s.Leads before c after n)
    (hd : d ∈ before ++ c :: after) (hm : s.bid d = some m) : m ≤ n := by
  rcases List.mem_append.1 hd with hd | hd
  · exact Nat.le_of_lt (h.above d hd m hm)
  rcases List.mem_cons.1 hd with rfl | hd
  · exact Nat.le_of_eq (Option.some.inj (hm.symm.trans h.bid))
  · exact h.atLeast d hd m hm

/-- A leader keeps the lead over one more claimant that bids no more. -/
theorem State.Leads.append {s : State} {before after : List Claimant} {b c : Claimant} {n : Nat} (h : s.Leads before b after n)
    (hc : ∀ m, s.bid c = some m → m ≤ n) : s.Leads before b (after ++ [c]) n where
  bid := h.bid
  above := h.above
  atLeast d hd := by
    rcases List.mem_append.1 hd with hd | hd
    · exact h.atLeast d hd
    · rw [List.mem_singleton.1 hd]; exact hc

/-- A claimant that bids more than the leader leads all that stood before it. -/
theorem State.Leads.overtaken {s : State} {before after : List Claimant} {b c : Claimant} {m n : Nat} (h : s.Leads before b after m)
    (hc : s.bid c = some n) (hlt : m < n) : s.Leads (before ++ b :: after) c [] n where
  bid := hc
  above _ hd _ hk := Nat.lt_of_le_of_lt (h.le hd hk) hlt
  atLeast _ hd := nomatch hd

/-- One more claimant is weighed against the winner so far. -/
theorem State.Wins.better {s : State} {cs : List Claimant} {best : Option Claimant} (h : s.Wins cs best) (c : Claimant) :
    s.Wins (cs ++ [c]) (s.better best c) := by
  cases hc : s.bid c with
  | none =>
    rw [State.better_of_no_bid hc]
    cases best with
    | none =>
      intro d hd
      rcases List.mem_append.1 hd with hd | hd
      · exact h d hd
      · rw [List.mem_singleton.1 hd]; exact hc
    | some b =>
      obtain ⟨before, after, m, rfl, hl⟩ := h
      exact ⟨before, after ++ [c], m, by simp, hl.append fun k hk => by simp [hc] at hk⟩
  | some n =>
    cases best with
    | none =>
      rw [State.better_first hc]
      exact ⟨cs, [], n, rfl, hc, fun d hd m hm => by simp [h d hd] at hm, fun _ hd => nomatch hd⟩
    | some b =>
      obtain ⟨before, after, m, rfl, hl⟩ := h
      rw [State.better_second hl.bid hc]
      split
      next hlt => exact ⟨before ++ b :: after, [], n, rfl, hl.overtaken hc hlt⟩
      next hle =>
        refine ⟨before, after ++ [c], m, by simp, hl.append fun k hk => ?_⟩
        cases hc.symm.trans hk
        exact Nat.le_of_not_lt hle

theorem State.Wins.foldl {s : State} (cs : List Claimant) {done : List Claimant} {best : Option Claimant} (h : s.Wins done best) :
    s.Wins (done ++ cs) (cs.foldl s.better best) := by
  induction cs generalizing done best with
  | nil => rw [List.append_nil]; exact h
  | cons c cs ih => rw [List.append_cons]; exact ih (h.better c)

/-- `highest` finds the winner of every list of claimants (R80). -/
theorem State.wins_highest (s : State) (cs : List Claimant) : s.Wins cs (s.highest cs) :=
  State.Wins.foldl cs (done := []) fun _ hd => nomatch hd

/-! ### The order of the claimants -/

theorem mem_claimants (c : Claimant) : c ∈ claimants := by cases c <;> decide

/-- What is found earlier in a list than one of its elements stands before that element. -/
theorem mem_before_of_findIdx_lt {c d : Claimant} {before after : List Claimant}
    (h : (before ++ c :: after).findIdx (fun x => decide (x = d)) < (before ++ c :: after).findIdx (fun x => decide (x = c))) :
    d ∈ before := by
  have hc : (c :: after).findIdx (fun x => decide (x = c)) = 0 := by simp [List.findIdx_cons]
  have hle : before.findIdx (fun x => decide (x = c)) ≤ before.length := List.findIdx_le_length
  have hfound : before.findIdx (fun x => decide (x = d)) < before.length := by
    rw [List.findIdx_append, List.findIdx_append, hc] at h
    split at h <;> split at h <;> omega
  obtain ⟨x, hx, hxd⟩ := List.findIdx_lt_length.1 hfound
  exact of_decide_eq_true hxd ▸ hx

/-! ### The obligation -/

/-- Settles O56: the winner leads the claimants of R80's order, and a claimant found earlier in that order stands before it. -/
theorem highestBidWins : Obligations.HighestBidWins := by
  intro s
  have hwins : s.Wins claimants (s.highest claimants) := s.wins_highest claimants
  refine ⟨fun c cl h => ?_, fun c n => State.bid_le, fun c h => ?_, fun h c => ?_, fun h => ?_⟩
  · rw [State.bid_of_claim h]
    cases c <;> rfl
  · rw [show s.highest claimants = some c from h] at hwins
    obtain ⟨before, after, n, hsplit, hl⟩ := hwins
    refine ⟨n, hl.bid, fun d m hm => ⟨hl.le (hsplit ▸ mem_claimants d) hm, fun hlt => ?_⟩⟩
    rw [hsplit] at hlt
    exact hl.above d (mem_before_of_findIdx_lt hlt) m hm
  · rw [show s.highest claimants = none from h] at hwins
    exact State.bid_eq_none.1 (hwins c (mem_claimants c))
  · cases hh : s.highest claimants with
    | none => exact hh
    | some c =>
      rw [hh] at hwins
      obtain ⟨_, _, n, -, hl⟩ := hwins
      exact absurd (State.bid_eq_none.2 (h c)) (by simp [hl.bid])

end Sys2Proof.Machine
end

-- Proofs of the family 07: uniformity banks, passes and the table flip.
section
/-! PROOFS. A directive that ends in the event in which it starts (R181, R182), and SET-PASS, which always does (R125, R126). -/

namespace Sys2Proof.Machine

/-! ### Slots and ends -/

/-- A slot that the Directive Unit has reads back what a change of it has made. -/
theorem State.slot_onSlot (s : State) {n : Nat} (low : 1 ≤ n) (high : n ≤ s.dir.slots.length) (f : Slot → Slot) :
    (s.onSlot n f).slot n = f (s.slot n) := by
  have hn : n - 1 < s.dir.slots.length := by omega
  simp [State.onSlot, State.setSlot, State.slot, List.getD, hn]

theorem State.uncount_of_directive {s : State} {n : Nat} {d : Directive} (h : (s.slot n).directive = some d) (hflip : d ≠ .flip)
    (hseal : d ≠ .seals) : s.uncount n = s := by
  unfold State.uncount
  rw [h]
  split
  · next e => exact absurd (Option.some.inj e) hflip
  · next e => exact absurd (Option.some.inj e) hseal
  · rfl

/-- The bits of R187 for the two ends of a directive. -/
theorem Event.bit_of_end (c : ResultCode) :
    1#13 <<< (if c = .done then Event.directiveDone else .directiveRefused).bit = if c = .done then 0x0001#13 else 0x0002#13 := by
  split <;> rfl

/-- R182, steps 1 to 3: the end of a directive that neither the Classifier nor the Key Store Controller counts changes the Directive
Unit alone. -/
theorem State.endDirective_eq {s : State} {n : Nat} {rest : List Nat} {d : Directive} (hqueue : s.dir.queue = n :: rest) (low : 1 ≤ n)
    (high : n ≤ s.dir.slots.length) (hcode : (s.slot n).directive = some d) (hflip : d ≠ .flip) (hseal : d ≠ .seals) (c : ResultCode)
    (data : List Byte) : s.endDirective c data = { s with dir := s.dir.ended n c data } := by
  have hhead : s.headSlot = n := by rw [State.headSlot, hqueue]; rfl
  have hfin : ((s.finishSlot n c data).slot n).directive = some d := by rw [State.finishSlot, State.slot_onSlot s low high]; exact hcode
  have hdir : ((s.finishSlot n c data).leaveHead.raise (if c = .done then .directiveDone else .directiveRefused)) =
      { s with dir := s.dir.ended n c data } := by
    simp only [State.raise, Event.bit_of_end]
    rfl
  rw [State.endDirective, hhead, ← hdir]
  exact State.uncount_of_directive hfin hflip hseal

/-! ### A directive that starts and ends in one event -/

/-- The slot is RUNNING (R181), and its directive has done nothing yet. -/
def State.started (s : State) (n : Nat) : State := s.onSlot n fun y => { y with state := .running }

@[simp] theorem State.started_life (s : State) (n : Nat) : (s.started n).life = s.life := State.onSlot_life ..

/-- The end of a directive sets its slot whole, whatever its start has made of the slot's state. -/
theorem State.started_dir_ended (s : State) {n : Nat} (low : 1 ≤ n) (high : n ≤ s.dir.slots.length) (c : ResultCode) (data : List Byte) :
    (s.started n).dir.ended n c data = s.dir.ended n c data := by
  have hslot : (s.started n).dir.slots.getD (n - 1) Slot.reset = { s.slot n with state := .running } := State.slot_onSlot s low high _
  have hslots : (s.started n).dir.slots = s.dir.slots.set (n - 1) { s.slot n with state := .running } := rfl
  rw [DirectiveUnit.ended, hslot, hslots, List.set_set]
  rfl

section
variable {s u : State} {n : Nat} {d : Directive} {img : Mem} {len : Nat}

/-- R181: the directive at the head of the queue starts, and the moments it makes due follow. -/
theorem State.Starts.exec_eq (h : s.Starts n d img len) :
    exec .directiveStart s = .next ((s.started n).startOf (some d) img len).finish := by
  have hstep : s.directiveStep = some ((s.started n).startOf (some d) img len) := by
    simp [State.directiveStep, State.started, h.running, h.queue, h.pending, h.code, h.image, h.len]
  show s.moment s.directiveStep = _
  rw [hstep]
  rfl

/-- R182, steps 1 to 3, for the directive that has just started: its end reads the Directive Unit as it was before the start. -/
theorem State.Starts.endDirective_eq (h : s.Starts n d img len) (hflip : d ≠ .flip) (hseal : d ≠ .seals)
    (hu : u.dir = (s.started n).dir) (c : ResultCode) (data : List Byte) :
    u.endDirective c data = { u with dir := s.dir.ended n c data } := by
  have hqueue : u.dir.queue = [n] := by rw [hu]; exact h.queue
  have hlen : u.dir.slots.length = s.dir.slots.length := by rw [hu]; exact List.length_set
  have hcode : (u.slot n).directive = some d := by
    have hslot : u.slot n = { s.slot n with state := .running } := by
      rw [State.slot, hu]; exact State.slot_onSlot s h.low h.high _
    rw [hslot]
    exact h.code
  rw [State.endDirective_eq hqueue h.low (hlen ▸ h.high) hcode hflip hseal, hu, State.started_dir_ended s h.low h.high]

/-- With the queue empty after the end no moment is due, and with no read in progress no byte is delivered. -/
theorem State.Starts.finish_ended (h : s.Starts n d img len) (hjob : u.job = s.job) (hA : u.portA = s.portA) (hT : u.portT = s.portT)
    (c : ResultCode) (data : List Byte) :
    State.finish { u with dir := s.dir.ended n c data } = { u with dir := s.dir.ended n c data } := by
  have hcalm : State.Calm { u with dir := s.dir.ended n c data } :=
    { queue := congrArg List.tail h.queue
      running := rfl
      job := hjob.trans h.job
      awaiting := (congrArg PortState.awaiting hA).trans h.awaiting
      noRoom := fun q hq => h.noRoom q ((congrArg PortState.cause hA).symm.trans hq) }
  have hreads : State.NoReads { u with dir := s.dir.ended n c data } :=
    { linkA := by rw [← h.linkA]; simp only [State.reading, State.port, hA]
      linkT := by rw [← h.linkT]; simp only [State.reading, State.port, hT] }
  exact hcalm.finish_eq hreads

/-- R182: a directive that neither the Classifier nor the Key Store Controller counts, and that ends in the event in which it starts
after a change `f` of the Uniformity Bank Controller, leaves the rest but for the Directive Unit as it was. -/
theorem State.Starts.finish_onUni (h : s.Starts n d img len) (hflip : d ≠ .flip) (hseal : d ≠ .seals)
    (f : UniformityUnit → UniformityUnit) (c : ResultCode) (data : List Byte) :
    (((s.started n).onUni f).endDirective c data).finish = { s with dir := s.dir.ended n c data, uni := f s.uni } := by
  rw [h.endDirective_eq (u := (s.started n).onUni f) hflip hseal rfl, h.finish_ended (u := (s.started n).onUni f) rfl rfl rfl]
  rfl

/-- R182: with nothing changed before its end, only the Directive Unit differs. -/
theorem State.Starts.finish_refused (h : s.Starts n d img len) (hflip : d ≠ .flip) (hseal : d ≠ .seals) (c : ResultCode)
    (data : List Byte) : ((s.started n).endDirective c data).finish = { s with dir := s.dir.ended n c data } :=
  h.finish_onUni hflip hseal id c data

end

/-! ### The parameters of SET-PASS -/

theorem byte_toNat_eq_zero {b : Byte} : b.toNat = 0 ↔ b = 0 := BitVec.toNat_inj (y := 0)

/-- A little-endian number is 0 exactly when each of its bytes is. -/
theorem leNat_eq_zero (l : List Byte) : leNat l = 0 ↔ ∀ b ∈ l, b = 0 := by
  induction l with
  | nil => simp [leNat]
  | cons b l ih =>
    rw [List.forall_mem_cons, ← ih, ← byte_toNat_eq_zero, leNat]
    omega

/-- R125, check 5: the three reserved bytes read as one number. -/
theorem paramNat_reserved_ne_zero (img : Mem) :
    paramNat img 5 3 ≠ 0 ↔ param img 5 ≠ 0 ∨ param img 6 ≠ 0 ∨ param img 7 ≠ 0 := by
  have hbytes : Mem.slice img (5 + 5) 3 = [param img 5, param img 6, param img 7] := rfl
  rw [Ne, paramNat, leNat_eq_zero, hbytes]
  simp only [List.forall_mem_cons, List.not_mem_nil, false_imp_iff, implies_true, and_true, not_and_or]

/-- R126: a parameter byte of 0 makes its setting none. -/
theorem noneIf0_toNat (b : Byte) : noneIf0 b.toNat = if b = 0 then none else some b.toNat := by
  simp only [noneIf0, byte_toNat_eq_zero]

/-- The lifecycles of SET-PASS in the table of R183. -/
theorem State.allows_setPass {s : State} {l : Lifecycle} (hl : s.life.lifecycle = some l) :
    s.allows .setPass = false ↔ l ≠ .opened ∧ l ≠ .sealed ∧ l ≠ .service := by
  simp [State.allows, hl, Directive.allowed, and_assoc]

/-! ### The obligation -/

/-- Settles O33: each check of R125 is one branch, and each branch ends the directive in its own event. -/
theorem setPassTakesEffect : Obligations.SetPassTakesEffect := by
  intro n img len s l h hl
  have refused := h.finish_refused (by decide) (by decide)
  have allowed := State.allows_setPass (s := s.started n) hl
  rw [h.exec_eq]
  congr 1
  simp only [State.startOf, State.startSetPass, State.uniformity, State.started_life, allowed, paramNat_reserved_ne_zero]
  split
  · exact refused .notInState []
  cases entryOfClass s.life.fields.map .uniformity with
  | none => exact refused .notInState []
  | some e =>
    dsimp only
    split
    · exact refused .badParameter [byte 0]
    split
    · exact refused .badParameter [byte 0]
    split
    · exact refused .badParameter [byte 5]
    rw [h.finish_onUni (by decide) (by decide), noneIf0_toNat]
    rfl

end Sys2Proof.Machine
end

-- Proofs of the family 10: the directive window, the status page and events.
section
/-! PROOFS. Writes of Port A into the directive window: the window erase (R180), and a program that is recognized as ACK (R178, R185). -/

namespace Sys2Proof.Machine

/-! ### The Classifier's verdict is carried out (R43 step 3) -/

/-- The Classifier reads the map, the lifecycle's fields and the Directive Unit, and nothing of a port (R27). -/
@[simp] theorem State.classify_freeLink (s : State) (q p : Port) (l : Lifecycle) (kind : WriteKind) (a : Nat) :
    (s.freeLink q).classify p l kind a = s.classify p l kind a := by cases q <;> rfl

/-- A write that goes to the Classifier frees the link, clears WEL, and the verdict on it is carried out (R43, R46, R47). -/
theorem State.Takes.exec_eq {s : State} {kind : WriteKind} {a b : Addr} {data d : List Byte} {l : Lifecycle}
    (h : s.Takes kind a data b d l) :
    exec (closedWrite .a kind a data) s = .next
      ((s.onPort .a PortState.taken).act .a l kind b.toNat (covered b.toNat d) (s.classify .a l kind b.toNat)) := by
  have hwel : ((s.freeLink .a).port .a).wel = true := by rw [State.port_freeLink]; exact h.wel
  have hbusy : ((s.freeLink .a).port .a).busy = false := by rw [State.port_freeLink]; exact h.free
  have hlife : (s.freeLink .a).life.lifecycle = some l := by rw [State.freeLink_life]; exact h.life
  rw [h.toCloses.exec_eq, State.takeWrite_of_free hwel hbusy hlife, State.clearWel_freeLink, State.classify_freeLink]

/-! ### The window erase (R180) -/

/-- R180, for one slot: a PENDING or RUNNING slot is kept, any other is emptied. -/
theorem Slot.erased_eq (x : Slot) :
    x.erased = if x.state = .pending ∨ x.state = .running then x
      else { state := .empty, code := 0, tag := 0, len := 0, result := none, data := [], image := none } := by
  cases hstate : x.state <;> simp [Slot.erased, Slot.reset, hstate]

/-! ### A program is taken into a slot (R177, R178) -/

/-- A slot that has been replaced and is then changed is replaced by the changed content. -/
theorem State.onSlot_setSlot (s : State) {n : Nat} (low : 1 ≤ n) (high : n ≤ s.dir.slots.length) (x : Slot) (f : Slot → Slot) :
    (s.setSlot n x).onSlot n f = s.setSlot n (f x) := by
  have hn : n - 1 < s.dir.slots.length := by omega
  simp [State.onSlot, State.setSlot, State.slot, State.onDir, List.getD, hn]

/-- The end of an immediate directive writes its result into the slot that its own program has just filled (R178, R179). -/
theorem State.finishSlot_setSlot_written (s : State) {n : Nat} (low : 1 ≤ n) (high : n ≤ s.dir.slots.length) (img : Mem)
    (c : ResultCode) (data : List Byte) :
    (s.setSlot n (Slot.written img)).finishSlot n c data =
      s.setSlot n (Slot.taken img (if c = .done then .done else .refused) (some c) data) :=
  s.onSlot_setSlot low high _ _

section
variable {s : State} {a b : Addr} {data d : List Byte} {l : Lifecycle} {n : Nat} {x : Directive}

/-- Slot `n` is neither page 0 nor PENDING or RUNNING, so that neither refusal of R177 applies. -/
theorem State.Reaches.programWindow_eq (h : s.Reaches a data b d l n) (mask : OffsetBytes) :
    (s.onPort .a PortState.taken).programWindow l b.toNat mask =
      (s.onPort .a PortState.taken).takeSlot l n (b.toNat % 256) mask := by
  have hpage : n ≠ 0 := Nat.one_le_iff_ne_zero.1 h.low
  have hopen : ¬ ((s.slot n).state = .pending ∨ (s.slot n).state = .running) := not_or.2 h.open_
  rw [State.programWindow, ← h.page]
  exact (if_neg hpage).trans (if_neg hopen)

/-- R178: a program that passes every test replaces the slot's content, and its directive is taken. -/
theorem State.Reaches.exec_of_recognized (h : s.Reaches a data b d l n)
    (hx : s.recognize l (b.toNat % 256) (covered b.toNat d) (slotImage b d) = .ok x) :
    exec (closedWrite .a .program a data) s = .next
      (((s.onPort .a PortState.taken).setSlot n (Slot.written (slotImage b d))).takeDirective n x (slotImage b d)
        (Mem.get (slotImage b d) 4).toNat) := by
  have hrec : (s.onPort .a PortState.taken).recognize l (b.toNat % 256) (covered b.toNat d) (Mem.setAll [] 0 (covered b.toNat d)) =
      .ok x := hx
  rw [h.toTakes.exec_eq, h.verdict, State.act, h.programWindow_eq, State.takeSlot, hrec]
  rfl

end

/-! ### ACK (R185) -/

/-- R185, given in the slot that its own program has just filled: the parameter is judged, then what it names is cleared. -/
theorem State.takeAck_setSlot_written (s : State) {n : Nat} (low : 1 ≤ n) (high : n ≤ s.dir.slots.length) (img : Mem) :
    (s.setSlot n (Slot.written img)).takeAck n img (Mem.get img 4).toNat =
      if Mem.get img 4 ≠ 2 ∨ 8192 ≤ paramNat img 0 2 then
        s.setSlot n (Slot.taken img .refused (some .badParameter) [0])
      else
        (s.acknowledge (BitVec.ofNat 13 (paramNat img 0 2))).setSlot n (Slot.taken img .done (some .done) []) := by
  have hlen : (Mem.get img 4).toNat ≠ 2 ↔ Mem.get img 4 ≠ 2 := not_congr (BitVec.toNat_inj (y := 2))
  have hack (m : BitVec 13) : (s.setSlot n (Slot.written img)).acknowledge m = (s.acknowledge m).setSlot n (Slot.written img) := rfl
  simp only [State.takeAck, hlen, hack]
  rw [State.finishSlot_setSlot_written s low high, State.finishSlot_setSlot_written (s.acknowledge _) low high]
  rfl

/-! ### The obligations -/

/-- Settles O19: the verdict empties the slots one by one, and touches nothing else of the Directive Unit. -/
theorem windowErase : Obligations.WindowErase := by
  intro a b data d s l h hverdict
  rw [h.exec_eq, hverdict, State.act, State.eraseWindow, funext Slot.erased_eq]
  rfl

/-- Settles O21: both ends of ACK write the slot that the program filled, and only DONE clears. -/
theorem ackClears : Obligations.AckClears := by
  intro a b data d s l n h hack
  have hslots : n ≤ (s.onPort .a PortState.taken).dir.slots.length := by rw [State.onPort_dir]; exact h.high
  rw [h.exec_of_recognized hack, State.takeDirective, State.takeAck_setSlot_written _ h.low hslots]
  split <;> rfl

end Sys2Proof.Machine
end

-- Proofs of the family 'other': every step answers, and what no step changes.
section
/-! PROOFS. Every step answers; what no step changes, said of every command by `Persists` and of DEVICE-RESET by its reset values. -/

namespace Sys2Proof.Machine

/-! ### Every command but DEVICE-RESET persists -/

/-- DEVICE-RESET apart, every command keeps what `Persists` lists. -/
theorem exec_persists {c : Instr} {s t : State} (hc : ∀ fixture left, c ≠ .deviceReset fixture left) (h : exec c s = .next t) :
    Persists s t := by
  cases c with
  | deviceReset fixture left => exact absurd rfl (hc fixture left)
  | read => exact execRead_persists h
  | readEnd => exact execReadEnd_persists h
  | program => exact execProgram_persists h
  | eraseSector => exact execEraseSector_persists h
  | eraseBlock => exact execEraseBlock_persists h
  | writeEnable => exact execWriteEnable_persists h
  | writeDisable => exact execWriteDisable_persists h
  | statusRead => exact execStatusRead_persists h
  | portReset => exact execPortReset_persists h
  | unknownCommand => exact execUnknownCommand_persists h
  | directiveStart => exact execDirectiveStart_persists h
  | setMapFenceEnd => exact execSetMapFenceEnd_persists h
  | closeFenceEnd => exact execCloseFenceEnd_persists h
  | recoverFenceEnd => exact execRecoverFenceEnd_persists h
  | recoverEraseEnd => exact execRecoverEraseEnd_persists h
  | sealFenceEnd => exact execSealFenceEnd_persists h
  | sealProgramEnd => exact execSealProgramEnd_persists h
  | sealFlashFailed => exact execSealFlashFailed_persists h
  | serviceCloseFenceEnd => exact execServiceCloseFenceEnd_persists h
  | flipDrainEnd => exact execFlipDrainEnd_persists h
  | flipSwitchBegin => exact execFlipSwitchBegin_persists h
  | syncWaitEnd => exact execSyncWaitEnd_persists h
  | controlRecordWriteEnd => exact execControlRecordWriteEnd_persists h
  | awaitingWriteEntryMade => exact execAwaitingWriteEntryMade_persists h
  | sysProgramEntryMade => exact execSysProgramEntryMade_persists h
  | pageReadEnd => exact execPageReadEnd_persists h
  | preReadEnd => exact execPreReadEnd_persists h
  | programCommandIssued => exact execProgramCommandIssued_persists h
  | flashReady => exact execFlashReady_persists h
  | waitLimitExpiry => exact execWaitLimitExpiry_persists h
  | verifyEnd => exact execVerifyEnd_persists h
  | eraseCheckEnd => exact execEraseCheckEnd_persists h
  | agingStep => exact execAgingStep_persists h
  | passIdleExpiry => exact execPassIdleExpiry_persists h
  | stageIdleExpiry => exact execStageIdleExpiry_persists h
  | releaseTimerExpiry => exact execReleaseTimerExpiry_persists h

/-- What one command does to the state: a device reset, or a change that `Persists` bounds. -/
theorem exec_cases {c : Instr} {s t : State} (h : exec c s = .next t) :
    (∃ fixture left, t = s.deviceReset fixture (s.flashAtReset left)) ∨ Persists s t := by
  by_cases hc : ∃ fixture left, c = .deviceReset fixture left
  · obtain ⟨fixture, left, rfl⟩ := hc
    exact .inl ⟨fixture, left, execDeviceReset_next h⟩
  · exact .inr (exec_persists (fun fixture left e => hc ⟨fixture, left, e⟩) h)

/-- What one step does: it takes the command at the front of the queue, if any, and then resets the device or persists. -/
theorem step_cases {s t : State} (h : step s = .next t) :
    (∃ fixture left, t = State.deviceReset { s with pending := s.pending.tail } fixture
      (State.flashAtReset { s with pending := s.pending.tail } left)) ∨
    Persists { s with pending := s.pending.tail } t := by
  unfold step at h
  split at h
  next c rest hp =>
    rw [hp]
    exact exec_cases h
  next hp =>
    cases h
    rw [show ({ s with pending := s.pending.tail } : State) = s by rw [hp, List.tail_nil, ← hp]]
    exact .inr (Persists.tick s)

/-- A property that says nothing of the waiting commands holds after a step where a device reset and every persisting change keep it. -/
theorem step_keeps {P : State → Prop} (hpending : ∀ s l, P s → P { s with pending := l })
    (hreset : ∀ s fixture left, P s → P (s.deviceReset fixture (s.flashAtReset left))) (hpersists : ∀ s t, Persists s t → P s → P t)
    {s t : State} (hs : P s) (h : step s = .next t) : P t := by
  have hs' := hpending s s.pending.tail hs
  obtain ⟨fixture, left, rfl⟩ | hp := step_cases h
  · exact hreset _ _ _ hs'
  · exact hpersists _ _ hp hs'

/-! ### Every command answers -/

theorem State.moment_answers (s : State) (o : Option State) : ∃ t, s.moment o = .next t := by
  unfold State.moment
  split <;> exact ⟨_, rfl⟩

/-- No command ends in a fault or a refusal. -/
theorem exec_answers (c : Instr) (s : State) : ∃ t, exec c s = .next t := by
  cases c
  case writeEnable p => change ∃ t, execWriteEnable p s = .next t; unfold execWriteEnable; split <;> exact ⟨_, rfl⟩
  case writeDisable p => change ∃ t, execWriteDisable p s = .next t; unfold execWriteDisable; split <;> exact ⟨_, rfl⟩
  case statusRead p => change ∃ t, execStatusRead p s = .next t; unfold execStatusRead; split <;> exact ⟨_, rfl⟩
  case unknownCommand p n => change ∃ t, execUnknownCommand p n s = .next t; unfold execUnknownCommand; split <;> exact ⟨_, rfl⟩
  case pageReadEnd => change ∃ t, execPageReadEnd s = .next t; unfold execPageReadEnd; split <;> exact ⟨_, rfl⟩
  case preReadEnd => change ∃ t, execPreReadEnd s = .next t; unfold execPreReadEnd; split <;> exact ⟨_, rfl⟩
  case programCommandIssued =>
    change ∃ t, execProgramCommandIssued s = .next t
    unfold execProgramCommandIssued
    split <;> exact ⟨_, rfl⟩
  case flashReady error left =>
    change ∃ t, execFlashReady error left s = .next t
    unfold execFlashReady
    split
    · split <;> exact ⟨_, rfl⟩
    · exact ⟨_, rfl⟩
  case verifyEnd =>
    change ∃ t, execVerifyEnd s = .next t
    unfold execVerifyEnd
    repeat' split
    all_goals exact ⟨_, rfl⟩
  case eraseCheckEnd =>
    change ∃ t, execEraseCheckEnd s = .next t
    unfold execEraseCheckEnd
    repeat' split
    all_goals exact ⟨_, rfl⟩
  case directiveStart | setMapFenceEnd | closeFenceEnd | recoverFenceEnd | recoverEraseEnd | sealFenceEnd | sealProgramEnd |
    sealFlashFailed | serviceCloseFenceEnd | flipDrainEnd | flipSwitchBegin | syncWaitEnd | controlRecordWriteEnd |
    awaitingWriteEntryMade | sysProgramEntryMade => exact State.moment_answers _ _
  all_goals exact ⟨_, rfl⟩

/-- No command takes another one from the queue, DEVICE-RESET included. -/
theorem exec_pending {c : Instr} {s t : State} (h : exec c s = .next t) : t.pending = s.pending := by
  obtain ⟨_, _, rfl⟩ | hp := exec_cases h
  · rfl
  · exact hp.pending

/-! ### The obligations -/

/-- Settles O1: by the definition of a step. -/
theorem stepRunsFrontCommand : Obligations.StepRunsFrontCommand := fun _ _ _ => rfl

/-- Settles O2: a step is a command on the queue's rest, or the tick on an empty queue. -/
theorem everyStepAnswers : Obligations.EveryStepAnswers := by
  constructor
  · intro s
    cases hp : s.pending with
    | nil => exact ⟨s.tick, by simp [step, hp], (Persists.tick s).pending.trans hp⟩
    | cons c rest =>
      obtain ⟨t, ht⟩ := exec_answers c { s with pending := rest }
      exact ⟨t, by rw [← ht]; simp [step, hp], exec_pending ht⟩
  · intro c s
    obtain ⟨t, ht⟩ := exec_answers c s
    exact ⟨t, ht, exec_pending ht⟩

/-- Settles O3: every operation on the flash and the staging buffer keeps the canonical form, a broken one at a reset too. -/
theorem memoryStaysCanonical : Obligations.MemoryStaysCanonical := fun _ _ hs h =>
  step_keeps (P := State.memoryOk) (fun _ _ h => h) (fun s _ left h => ⟨wf_flashAtReset s left h.1, Mem.wf_nil⟩)
    (fun _ _ hp h => ⟨hp.flash h.1, hp.staging h.2⟩) hs h

/-- Settles O4: the reset pool holds all 64 pages, and every other change keeps their number. -/
theorem pagesStaySixtyFour : Obligations.PagesStaySixtyFour := fun _ _ hs h =>
  step_keeps (P := fun s => s.pageCount = 64) (fun _ _ h => h) (fun _ _ _ _ => rfl) (fun _ _ hp h => hp.pages.trans h) hs h

/-- Settles O5: the fuse outlives a device reset, and nothing mends it. -/
theorem fuseStaysBlown : Obligations.FuseStaysBlown := fun _ _ hs h =>
  step_keeps (P := fun s => s.fuseCell = true) (fun _ _ h => h) (fun _ _ _ h => h) (fun _ _ hp h => hp.fuse h) hs h

/-- Settles O6: `PortState.Orderly` is what Port T is to keep, and every change keeps it. -/
theorem portTMakesNoEntries : Obligations.PortTMakesNoEntries := by
  rintro s t ⟨hcause, hawaiting, herr⟩ h
  have ht : t.portT.Orderly :=
    step_keeps (P := fun s => s.portT.Orderly) (fun _ _ h => h) (fun _ _ _ _ => ⟨.inl rfl, rfl, rfl⟩) (fun _ _ hp h => hp.portT h)
      ⟨hcause, hawaiting, herr⟩ h
  exact ⟨ht.cause, ht.awaiting, ht.programErr⟩

/-- Settles O7: no operation adds or removes a slot, and attempts are only restored to 3 or lowered. -/
theorem countsStayInRange : Obligations.CountsStayInRange := fun _ _ hs h =>
  step_keeps (P := fun s => s.attempts ≤ 3 ∧ s.dir.slots.length = 15 ∧ s.ahead.slots.length = 8) (fun _ _ h => h)
    (fun _ _ _ _ => ⟨Nat.le_refl 3, rfl, rfl⟩)
    (fun _ _ hp ⟨ha, hd, hr⟩ => ⟨hp.attempts ha, hp.slots.trans hd, hp.ahead.trans hr⟩) hs h

end Sys2Proof.Machine
end

-- Proofs of the family 'other': what keeps the Directive Unit in step.
section
/-! PROOFS. The slots and the directive queue stay in step through every operation of the Directive Unit and every moment (R181). -/

namespace Sys2Proof.Machine

/-! ### What stands of the slots and the queue -/

/-- The slots and the directive queue stand as they were. -/
structure SameSlots (s t : State) : Prop where
  slots : t.dir.slots = s.dir.slots
  queue : t.dir.queue = s.dir.queue

/-- And so does the running directive. -/
structure SameDirs (s t : State) : Prop extends SameSlots s t where
  running : t.dir.running = s.dir.running

theorem SameSlots.refl (s : State) : SameSlots s s := ⟨rfl, rfl⟩

theorem SameDirs.refl (s : State) : SameDirs s s := ⟨.refl s, rfl⟩

theorem SameSlots.trans {s t u : State} (h : SameSlots s t) (k : SameSlots t u) : SameSlots s u :=
  ⟨k.slots.trans h.slots, k.queue.trans h.queue⟩

theorem SameDirs.trans {s t u : State} (h : SameDirs s t) (k : SameDirs t u) : SameDirs s u :=
  ⟨h.toSameSlots.trans k.toSameSlots, k.running.trans h.running⟩

/-- An operation that touches no slot, nor the queue, nor the running directive. -/
theorem SameDirs.of_same {s t : State} (slots : t.dir.slots = s.dir.slots := by rfl) (queue : t.dir.queue = s.dir.queue := by rfl)
    (running : t.dir.running = s.dir.running := by rfl) : SameDirs s t := ⟨⟨slots, queue⟩, running⟩

theorem SameDirs.of_dir {s t : State} (h : t.dir = s.dir) : SameDirs s t := ⟨⟨by rw [h], by rw [h]⟩, by rw [h]⟩

theorem Apart.sameDirs {s t : State} (h : Apart s t) : SameDirs s t := .of_dir h.dir

theorem Made.sameDirs {s t : State} (h : Made s t) : SameDirs s t := ⟨⟨h.slots, h.queue⟩, h.running⟩

theorem SameSlots.slot {s t : State} (h : SameSlots s t) (n : Nat) : t.slot n = s.slot n := by
  unfold State.slot
  rw [h.slots]

/-! ### The two halves of `State.directivesOk` -/

/-- What holds of the slots and the queue whether a directive runs or is about to start or to end: a RUNNING slot stands at the
head. -/
structure State.SlotsOk (s : State) : Prop where
  nodup : s.dir.queue.Nodup
  range : ∀ n ∈ s.dir.queue, 1 ≤ n ∧ n ≤ s.dir.slots.length
  listed : ∀ n, 1 ≤ n → n ≤ s.dir.slots.length → (n ∈ s.dir.queue ↔ (s.slot n).state = .pending ∨ (s.slot n).state = .running)
  head : ∀ n, 1 ≤ n → n ≤ s.dir.slots.length → (s.slot n).state = .running → s.dir.queue.head? = some n

/-- The slot at the head of the queue is RUNNING. -/
structure State.HeadRuns (s : State) : Prop extends s.SlotsOk where
  runs : ∃ n l, s.dir.queue = n :: l ∧ (s.slot n).state = .running

theorem State.directivesOk.slotsOk {s : State} (h : s.directivesOk) : s.SlotsOk := by
  obtain ⟨nodup, range, -, slots⟩ := h
  exact ⟨nodup, range, fun n l u => (slots n l u).1, fun n l u hr => ((slots n l u).2.1 hr).2⟩

theorem State.directivesOk.live {s : State} (h : s.directivesOk) : s.Live := h.2.2.1

theorem State.directivesOk.headRuns {s : State} (h : s.directivesOk) (hr : s.dir.running.isSome = true) : s.HeadRuns := by
  refine ⟨h.slotsOk, ?_⟩
  obtain ⟨-, range, live, slots⟩ := h
  cases hq : s.dir.queue with
  | nil => exact absurd hq (live hr)
  | cons n l =>
    have hn := range n (by rw [hq]; exact List.mem_cons_self)
    exact ⟨n, l, rfl, (slots n hn.1 hn.2).2.2 ⟨hr, by rw [hq]; rfl⟩⟩

/-- With nothing running, no slot may be RUNNING. -/
theorem State.SlotsOk.idle {s : State} (h : s.SlotsOk) (hr : s.dir.running = none)
    (hn : ∀ n, 1 ≤ n → n ≤ s.dir.slots.length → (s.slot n).state ≠ .running) : s.directivesOk := by
  refine ⟨h.nodup, h.range, fun x => ?_, fun n l u => ⟨h.listed n l u, fun e => absurd e (hn n l u), fun e => ?_⟩⟩
  · rw [hr] at x; cases x
  · have := e.1; rw [hr] at this; cases this

/-- With a directive running, the RUNNING slot is the head. -/
theorem State.HeadRuns.directivesOk {s : State} (h : s.HeadRuns) (hr : s.dir.running.isSome = true) : s.directivesOk := by
  obtain ⟨m, l, hq, hm⟩ := h.runs
  refine ⟨h.nodup, h.range, fun _ => by rw [hq]; exact List.cons_ne_nil _ _, fun n lo hi => ⟨h.listed n lo hi, fun e => ⟨hr, h.head n lo hi e⟩, ?_⟩⟩
  rintro ⟨-, hn⟩
  rw [hq, List.head?_cons, Option.some.injEq] at hn
  exact hn ▸ hm

theorem SameSlots.slotsOk {s t : State} (h : SameSlots s t) (k : s.SlotsOk) : t.SlotsOk := by
  obtain ⟨a, b, c, d⟩ := k
  constructor <;> simp only [h.slots, h.queue, h.slot] <;> assumption

theorem SameSlots.headRuns {s t : State} (h : SameSlots s t) (k : s.HeadRuns) : t.HeadRuns :=
  ⟨h.slotsOk k.toSlotsOk, by simp only [h.queue, h.slot]; exact k.runs⟩

theorem SameDirs.directivesOk {s t : State} (h : SameDirs s t) (k : s.directivesOk) : t.directivesOk := by
  unfold State.directivesOk at *
  simp only [h.slots, h.queue, h.running, h.slot]
  exact k

/-! ### The end of a directive -/

theorem SameDirs.raise (s : State) (e : Event) : SameDirs s (s.raise e) := .of_same

theorem SameDirs.uncount (s : State) (n : Nat) : SameDirs s (s.uncount n) := by
  unfold State.uncount
  split <;> exact .of_same

/-- The state of a slot after one slot has been changed. -/
theorem State.slot_setSlot (s : State) {m : Nat} (n : Nat) (hm : 1 ≤ m) (hl : m ≤ s.dir.slots.length) (x : Slot) :
    (s.setSlot n x).slot m = if m - 1 = n - 1 then x else s.slot m := by
  have : m - 1 < s.dir.slots.length := by omega
  simp only [State.slot, State.setSlot, State.onDir, List.getD_eq_getElem?_getD, List.getElem?_set]
  split
  · next h => rw [if_pos h.symm]; simp [h, this]
  · next h => rw [if_neg (fun e => h e.symm)]

/-- The end of a directive, up to what the Classifier and the Key Store Controller count. -/
theorem SameDirs.endDirective (s : State) (c : ResultCode) (d : List Byte) :
    SameDirs (s.finishSlot s.headSlot c d).leaveHead (s.endDirective c d) := (SameDirs.raise _ _).trans (SameDirs.uncount _ _)

/-- R182: the head leaves the queue with its slot DONE or REFUSED, so that no slot is RUNNING. -/
theorem State.SlotsOk.endDirective {s : State} (h : s.SlotsOk) (c : ResultCode) (d : List Byte) : (s.endDirective c d).directivesOk := by
  refine (SameDirs.endDirective s c d).directivesOk ?_
  have hlen : (s.finishSlot s.headSlot c d).leaveHead.dir.slots.length = s.dir.slots.length := List.length_set
  have hqueue : (s.finishSlot s.headSlot c d).leaveHead.dir.queue = s.dir.queue.tail := rfl
  have hslot : ∀ m, 1 ≤ m → m ≤ s.dir.slots.length → (s.finishSlot s.headSlot c d).leaveHead.slot m =
      if m - 1 = s.headSlot - 1 then
        { s.slot s.headSlot with state := if c = .done then .done else .refused, result := some c, data := d }
      else s.slot m := fun m lo hi => s.slot_setSlot _ lo hi _
  have hends : ((if c = .done then .done else .refused : SlotState) ≠ .pending) ∧
      ((if c = .done then .done else .refused : SlotState) ≠ .running) := by split <;> exact ⟨by decide, by decide⟩
  have hnot : ∀ m, 1 ≤ m → m ≤ s.dir.slots.length → ((s.finishSlot s.headSlot c d).leaveHead.slot m).state ≠ .running := by
    intro m lo hi
    rw [hslot m lo hi]
    split
    · exact hends.2
    · next hne =>
      intro hr
      have hq := h.head m lo hi hr
      apply hne
      rw [State.headSlot, List.headD_eq_head?_getD, hq]
      rfl
  refine State.SlotsOk.idle ⟨?_, ?_, ?_, ?_⟩ rfl (fun m lo hi => hnot m lo (hlen ▸ hi))
  · exact h.nodup.sublist (List.tail_sublist _)
  · intro n hn
    rw [hlen]
    exact h.range n (List.mem_of_mem_tail hn)
  · intro m lo hi
    rw [hlen] at hi
    simp only [hnot m lo hi, or_false]
    rw [hqueue, hslot m lo hi]
    have hm := h.listed m lo hi
    cases hq : s.dir.queue with
    | nil =>
      rw [hq] at hm
      split
      · exact iff_of_false List.not_mem_nil hends.1
      · exact iff_of_false List.not_mem_nil fun e => List.not_mem_nil (hm.2 (.inl e))
    | cons n l =>
      have hhead : s.headSlot = n := by rw [State.headSlot, hq]; rfl
      have hn := h.range n (by rw [hq]; exact List.mem_cons_self)
      have hnl : n ∉ l := (List.nodup_cons.1 (hq ▸ h.nodup)).1
      rw [hhead, List.tail_cons]
      split
      · next e =>
        have : m = n := by omega
        exact iff_of_false (this ▸ hnl) hends.1
      · next e =>
        have hmn : m ≠ n := fun x => e (by rw [x])
        have hr : (s.slot m).state ≠ .running := fun x => hmn (by have := h.head m lo hi x; rw [hq] at this; exact (Option.some.inj this).symm)
        rw [hq, List.mem_cons] at hm
        simpa [hmn, hr] using hm
  · intro m lo hi hr
    exact absurd hr (hnot m lo (hlen ▸ hi))

/-! ### What the directive at the head can do -/

/-- The directive at the head of the queue has done something: it has ended, or it runs on in some phase. -/
inductive Proceeds (s t : State) : Prop where
  | ended (u : State) (c : ResultCode) (d : List Byte) (same : SameSlots s u) (eq : t = u.endDirective c d)
  | waits (same : SameSlots s t) (running : t.dir.running.isSome = true)

theorem Proceeds.directivesOk {s t : State} (h : Proceeds s t) (k : s.HeadRuns) : t.directivesOk := by
  cases h with
  | ended u c d same eq => exact eq ▸ (same.slotsOk k.toSlotsOk).endDirective c d
  | waits same running => exact (same.headRuns k).directivesOk running

theorem Proceeds.after {s t u : State} (h : SameSlots s t) (k : Proceeds t u) : Proceeds s u := by
  cases k with
  | ended v c d same eq => exact .ended v c d (h.trans same) eq
  | waits same running => exact .waits (h.trans same) running

theorem Proceeds.ends (s : State) (c : ResultCode) (d : List Byte) : Proceeds s (s.endDirective c d) := .ended s c d (.refl s) rfl

theorem Proceeds.refuses (s : State) : Proceeds s s.notInState := .ends ..

theorem Proceeds.bad (s : State) (o : Nat) : Proceeds s (s.badParam o) := .ends ..

theorem Proceeds.enter (s : State) (ph : Phase) : Proceeds s (s.enter ph) := .waits ⟨rfl, rfl⟩ rfl

theorem Proceeds.requests (s : State) (ph : Phase) (l : Lifecycle) (f : Fields) : Proceeds s ((s.enter ph).requestRecord l f) :=
  .waits ⟨rfl, rfl⟩ rfl

/-- A directive that only runs on, with the slots and the queue as they were. -/
theorem Proceeds.stays {s t : State} (h : SameDirs s t) (hr : s.dir.running.isSome = true) : Proceeds s t :=
  .waits h.toSameSlots (by rw [h.running]; exact hr)

/-! ### Starts -/

theorem Proceeds.startOpen (s : State) (n : Nat) : Proceeds s (s.startOpen n) := by
  unfold State.startOpen
  repeat' split
  · exact .refuses s
  · exact .bad s _
  · exact .after (t := s.blowFuse) ⟨rfl, rfl⟩ (.requests ..)
  · exact .after (t := s.blowFuse) ⟨rfl, rfl⟩ (.ends ..)

theorem Proceeds.startClose (s : State) (n : Nat) : Proceeds s (s.startClose n) := by
  unfold State.startClose
  repeat' split
  · exact .refuses s
  · exact .bad s _
  · exact .ends ..
  · exact .enter ..

theorem Proceeds.startRecover (s : State) (n : Nat) : Proceeds s (s.startRecover n) := by
  unfold State.startRecover
  repeat' split
  · exact .refuses s
  · exact .bad s _
  · exact .enter ..
  · exact .after (t := s.blowFuse) ⟨rfl, rfl⟩ (.enter ..)
  · exact .after (t := s.blowFuse) ⟨rfl, rfl⟩ (.ends ..)

theorem Proceeds.startSetMap (s : State) (img : Mem) (n : Nat) : Proceeds s (s.startSetMap img n) := by
  unfold State.startSetMap
  dsimp only
  repeat' split
  · exact .refuses s
  · exact .bad s _
  · exact .bad s _
  · exact .enter ..
  · exact .ends ..
  · exact .enter ..

theorem SameDirs.judgeHigh (s : State) (q : QueueId) : SameDirs s (s.judgeHigh q) := (Made.judgeHigh s q).sameDirs

theorem SameDirs.setLevel (s : State) (q : QueueId) (n : Nat) : SameDirs s (s.setLevel q n) :=
  (SameDirs.of_same (t := s.setQueue q _)).trans (.judgeHigh _ q)

theorem Proceeds.startSetLevels (s : State) (img : Mem) (n : Nat) : Proceeds s (s.startSetLevels img n) := by
  unfold State.startSetLevels
  repeat' split
  · exact .refuses s
  · exact .bad s _
  · exact .bad s _
  · exact .after ((((SameDirs.setLevel s _ _).trans (.setLevel ..)).trans (.setLevel ..)).trans (.setLevel ..)).toSameSlots (.ends ..)

theorem SameDirs.discard (s : State) (q : QueueId) : SameDirs s (s.discard q) := by
  have htold : ∀ (l : List Entry) (u : State), SameDirs u (l.foldl State.tellRemoved u) := by
    intro l
    induction l with
    | nil => exact SameDirs.refl
    | cons e l ih =>
      intro u
      refine SameDirs.trans ?_ (ih _)
      unfold State.tellRemoved
      split <;> exact .of_same
  have hhead : SameDirs s (s.withdrawHead q) := by
    unfold State.withdrawHead
    split <;> exact .of_same
  exact ((hhead.trans (Made.setEntries _ q _).sameDirs).trans (SameDirs.of_same (t := State.setPool _ _))).trans (htold _ _)

theorem Proceeds.startDiscard (s : State) (img : Mem) (n : Nat) : Proceeds s (s.startDiscard img n) := by
  unfold State.startDiscard
  repeat' split
  · exact .refuses s
  · exact .bad s _
  · exact .bad s _
  · exact .after (SameDirs.discard s _).toSameSlots (.ends ..)

theorem Proceeds.startSync (s : State) (img : Mem) (n : Nat) : Proceeds s (s.startSync img n) := by
  unfold State.startSync
  repeat' split
  · exact .refuses s
  · exact .bad s _
  · exact .bad s _
  · exact .bad s _
  · exact .enter ..

theorem Proceeds.startSetArbiter (s : State) (img : Mem) (n : Nat) : Proceeds s (s.startSetArbiter img n) := by
  unfold State.startSetArbiter
  dsimp only
  split
  · exact .refuses s
  split
  · exact .bad s _
  split
  · exact .bad s _
  split
  · exact .bad s _
  split
  · exact .bad s _
  split
  · exact .bad s _
  split
  · exact .bad s _
  · exact .after ((SameDirs.of_same (t := s.onEngine _)).trans (Apart.judgePreempt _).sameDirs).toSameSlots (.ends ..)

theorem Proceeds.startSetPass (s : State) (img : Mem) (n : Nat) : Proceeds s (s.startSetPass img n) := by
  unfold State.startSetPass
  dsimp only
  split
  · exact .refuses s
  split
  · exact .refuses s
  split
  · exact .bad s _
  split
  · exact .bad s _
  split
  · exact .bad s _
  · exact .after (t := s.onUni _) ⟨rfl, rfl⟩ (.ends ..)

theorem Proceeds.startFlip (s : State) (img : Mem) (n : Nat) : Proceeds s (s.startFlip img n) := by
  unfold State.startFlip
  repeat' split
  · exact .refuses s
  · exact .refuses s
  · exact .bad s _
  · exact .bad s _
  · exact .bad s _
  · exact .enter ..

theorem Proceeds.startSetKeyTimers (s : State) (img : Mem) (n : Nat) : Proceeds s (s.startSetKeyTimers img n) := by
  unfold State.startSetKeyTimers
  dsimp only
  split
  · exact .refuses s
  split
  · exact .bad s _
  split
  · exact .bad s _
  split
  · exact .bad s _
  split
  · exact .bad s _
  · exact .after (t := s.onKey _) ⟨rfl, rfl⟩ (.ends ..)

theorem Proceeds.startSeal (s : State) (n : Nat) : Proceeds s (s.startSeal n) := by
  unfold State.startSeal
  repeat' split
  · exact .refuses s
  · exact .refuses s
  · exact .bad s _
  · exact .enter ..

theorem Proceeds.startSetCode (s : State) (img : Mem) (n : Nat) : Proceeds s (s.startSetCode img n) := by
  unfold State.startSetCode
  dsimp only
  repeat' split
  · exact .refuses s
  · exact .bad s _
  · exact .bad s _
  · exact .requests ..

theorem Proceeds.startServiceOpen (s : State) (img : Mem) (n : Nat) : Proceeds s (s.startServiceOpen img n) := by
  unfold State.startServiceOpen
  repeat' split
  · exact .refuses s
  · exact .bad s _
  · exact .ends ..
  · exact .after (t := s.setAttempts 3) ⟨rfl, rfl⟩ (.requests ..)
  · exact .after (t := (s.setAttempts (s.attempts - 1)).raise .codeRejected) ⟨rfl, rfl⟩ (.ends ..)

theorem Proceeds.startServiceClose (s : State) (n : Nat) : Proceeds s (s.startServiceClose n) := by
  unfold State.startServiceClose
  repeat' split
  · exact .refuses s
  · exact .refuses s
  · exact .bad s _
  · exact .enter ..

theorem Proceeds.startOf (s : State) (d : Option Directive) (img : Mem) (n : Nat) : Proceeds s (s.startOf d img n) := by
  unfold State.startOf
  split
  · exact .startOpen ..
  · exact .startClose ..
  · exact .startRecover ..
  · exact .startSetMap ..
  · exact .startSetLevels ..
  · exact .startDiscard ..
  · exact .startSync ..
  · exact .startSetArbiter ..
  · exact .startSetPass ..
  · exact .startFlip ..
  · exact .startSetKeyTimers ..
  · exact .startSeal ..
  · exact .startSetCode ..
  · exact .startServiceOpen ..
  · exact .startServiceClose ..
  all_goals exact .ends ..

/-! ### The moments -/

/-- A moment that is due keeps the slots and the queue in step. -/
def KeepsInStep (f : State → Option State) : Prop := ∀ s t, s.directivesOk → f s = some t → t.directivesOk

/-- R181: the PENDING slot at the head becomes RUNNING. -/
theorem State.SlotsOk.started {s : State} (h : s.directivesOk) {n : Nat} {l : List Nat} (hq : s.dir.queue = n :: l)
    (hr : s.dir.running = none) : (s.started n).HeadRuns := by
  have hrange := h.2.1 n (by rw [hq]; exact List.mem_cons_self)
  have hlen : (s.started n).dir.slots.length = s.dir.slots.length := List.length_set
  have hqueue : (s.started n).dir.queue = s.dir.queue := rfl
  have hslot : ∀ m, 1 ≤ m → m ≤ s.dir.slots.length → (s.started n).slot m =
      if m - 1 = n - 1 then { s.slot n with state := .running } else s.slot m := fun m lo hi => s.slot_setSlot _ lo hi _
  have hnot : ∀ m, 1 ≤ m → m ≤ s.dir.slots.length → (s.slot m).state ≠ .running := fun m lo hi e => by
    have := ((h.2.2.2 m lo hi).2.1 e).1
    rw [hr] at this
    cases this
  have hmem := fun m lo hi => h.slotsOk.listed m lo hi
  refine ⟨⟨h.1, hlen ▸ h.2.1, fun m lo hi => ?_, fun m lo hi e => ?_⟩, n, l, hq, ?_⟩
  · rw [hlen] at hi
    rw [hslot m lo hi, hqueue]
    split
    · next e =>
      have : m = n := by omega
      exact iff_of_true (this ▸ hq ▸ List.mem_cons_self) (.inr rfl)
    · exact hmem m lo hi
  · rw [hlen] at hi
    rw [hslot m lo hi] at e
    rw [hqueue, hq, List.head?_cons, Option.some.injEq]
    split at e
    · omega
    · exact absurd e (hnot m lo hi)
  · rw [hslot n hrange.1 hrange.2, if_pos rfl]

theorem KeepsInStep.directiveStep : KeepsInStep State.directiveStep := by
  intro s t h ht
  unfold State.directiveStep at ht
  split at ht
  · next n l hr hq =>
    dsimp only at ht
    split at ht
    · cases ht
      exact (Proceeds.startOf (s.started n) _ _ _).directivesOk (State.SlotsOk.started h hq hr)
    · cases ht
  · cases ht

theorem Proceeds.sealJudge (s : State) (n : Nat) (b : List Byte) : Proceeds s (s.sealJudge n b) := by
  unfold State.sealJudge
  split
  · exact .ends ..
  split
  · split
    · exact .waits ⟨rfl, rfl⟩ rfl
    · exact .refuses s
  · exact .ends ..

theorem Proceeds.serviceJudge (s : State) (b : List Byte) : Proceeds s (s.serviceJudge b) := by
  unfold State.serviceJudge
  split
  · exact .ends ..
  split
  · exact .requests ..
  · exact .ends ..

theorem Proceeds.regionJudge {s : State} (hr : s.dir.running.isSome = true) (b : List Byte) : Proceeds s (s.regionJudge b) := by
  unfold State.regionJudge
  split
  · exact .sealJudge ..
  · exact .serviceJudge ..
  · exact .stays (.refl s) hr

theorem Proceeds.readRegion {s : State} (hr : s.dir.running.isSome = true) : Proceeds s s.readRegion := by
  unfold State.readRegion
  split
  · exact .stays (.refl s) hr
  dsimp only
  split
  · exact .regionJudge hr _
  split
  · exact .stays (.refl s) hr
  · exact .stays (Apart.raiseClaim ..).sameDirs hr

theorem Proceeds.judgeCoverage (s : State) (f c : Bool) : Proceeds s (s.judgeCoverage f c) := by
  unfold State.judgeCoverage
  repeat' split
  · exact .ends ..
  · exact .ends ..
  · exact .after (t := s.enter .flipHeader) ⟨rfl, rfl⟩ (.stays (Apart.raiseClaim ..).sameDirs rfl)
  · exact .enter ..

/-- A moment of a running directive, which proceeds. -/
theorem State.directivesOk.proceeds {s t : State} (h : s.directivesOk) {ph : Phase} (hr : s.dir.running = some ph) (hp : Proceeds s t) :
    t.directivesOk := hp.directivesOk (h.headRuns (by rw [hr]; rfl))

theorem KeepsInStep.setMapFenceStep : KeepsInStep State.setMapFenceStep := by
  intro s t h ht
  unfold State.setMapFenceStep at ht
  split at ht
  · next hr => split at ht <;> cases ht; exact h.proceeds hr (.requests ..)
  · cases ht

theorem KeepsInStep.closeFenceStep : KeepsInStep State.closeFenceStep := by
  intro s t h ht
  unfold State.closeFenceStep at ht
  split at ht
  · next hr => split at ht <;> cases ht; exact h.proceeds hr (.requests ..)
  · cases ht

theorem KeepsInStep.recoverFenceStep : KeepsInStep State.recoverFenceStep := by
  intro s t h ht
  unfold State.recoverFenceStep at ht
  split at ht
  · next hr => split at ht <;> cases ht; exact h.proceeds hr (.waits ⟨rfl, rfl⟩ rfl)
  · cases ht

theorem KeepsInStep.recoverEraseStep : KeepsInStep State.recoverEraseStep := by
  intro s t h ht
  unfold State.recoverEraseStep at ht
  split at ht
  · next hr hj =>
    split at ht
    · split at ht <;> cases ht
      · exact h.proceeds hr (.after (t := s.setJob none) ⟨rfl, rfl⟩ (.ends ..))
      · exact h.proceeds hr (.waits ⟨rfl, rfl⟩ rfl)
    · cases ht
  · cases ht

theorem KeepsInStep.sealFenceStep : KeepsInStep State.sealFenceStep := by
  intro s t h ht
  unfold State.sealFenceStep at ht
  split at ht
  · next hr =>
    split at ht
    · split at ht <;> cases ht
      · exact h.proceeds hr (.ends ..)
      · exact h.proceeds hr (.after (t := s.enter _) ⟨rfl, rfl⟩ (.readRegion rfl))
    · cases ht
  · cases ht

theorem KeepsInStep.sealProgramStep : KeepsInStep State.sealProgramStep := by
  intro s t h ht
  unfold State.sealProgramStep at ht
  split at ht
  · next hr hj => split at ht <;> cases ht; exact h.proceeds hr (.waits ⟨rfl, rfl⟩ rfl)
  · cases ht

theorem KeepsInStep.sealFailedStep : KeepsInStep State.sealFailedStep := by
  intro s t h ht
  unfold State.sealFailedStep at ht
  split at ht
  · next hr hj =>
    split at ht
    · split at ht <;> cases ht; exact h.proceeds hr (.after (t := s.setJob none) ⟨rfl, rfl⟩ (.ends ..))
    · cases ht
  · cases ht

theorem KeepsInStep.serviceCloseFenceStep : KeepsInStep State.serviceCloseFenceStep := by
  intro s t h ht
  unfold State.serviceCloseFenceStep at ht
  split at ht
  · next hr =>
    split at ht <;> cases ht; exact h.proceeds hr (.after (t := s.enter _) ⟨rfl, rfl⟩ (.readRegion rfl))
  · cases ht

theorem KeepsInStep.flipDrainStep : KeepsInStep State.flipDrainStep := by
  intro s t h ht
  unfold State.flipDrainStep at ht
  split at ht
  · next hr => split at ht <;> cases ht; exact h.proceeds hr (.judgeCoverage ..)
  · cases ht

theorem KeepsInStep.syncStep : KeepsInStep State.syncStep := by
  intro s t h ht
  unfold State.syncStep at ht
  split at ht
  · next hr => split at ht <;> cases ht; exact h.proceeds hr (.ends ..)
  · cases ht

theorem KeepsInStep.flipSwitchStep : KeepsInStep State.flipSwitchStep := by
  intro s t h ht
  unfold State.flipSwitchStep at ht
  split at ht
  · next hr => split at ht <;> cases ht; exact h.proceeds hr (.requests ..)
  · cases ht

/-! ### The end of a control record write -/

/-- An end that the slots and the queue stand before. -/
theorem SameSlots.ends {s u : State} (h : SameSlots s u) (k : s.directivesOk) (c : ResultCode) (d : List Byte) :
    (u.endDirective c d).directivesOk := (h.slotsOk k.slotsOk).endDirective c d

theorem SameSlots.release (s : State) : SameSlots s s.release :=
  .trans (t := s.onDir fun x => { x with running := none }) ⟨rfl, rfl⟩ (Apart.runPort _ .t).sameDirs.toSameSlots

theorem SameSlots.switched (s : State) (n : Nat) : SameSlots s (s.switched n) := by
  have hu : SameSlots s (s.onUni fun x => { x with coverage := freshCoverage n }) := ⟨rfl, rfl⟩
  exact ((hu.trans (Apart.clearAhead _).sameDirs.toSameSlots).trans (.release _)).trans ⟨rfl, rfl⟩

theorem SameSlots.dropCarried (s : State) : SameSlots s s.dropCarried := by
  unfold State.dropCarried
  split <;> exact ⟨rfl, rfl⟩

theorem SameSlots.resetUniformity (s : State) : SameSlots s s.resetUniformity := by
  have hu : SameSlots s (s.onUni (UniformityUnit.afresh (bankSize s.life.fields.map))) := ⟨rfl, rfl⟩
  have hc := hu.trans (Apart.clearAhead _).sameDirs.toSameSlots
  exact (hc.trans (SameDirs.of_dir (State.onPort_dir _ .t PortState.outOfPass)).toSameSlots).trans (Apart.rejudgeSlot _).sameDirs.toSameSlots

theorem State.directivesOk.recordDone {s : State} (h : s.directivesOk) (r : ControlRecord) : (s.recordDone r).directivesOk := by
  have hf : SameSlots s (s.takeFields r.fields) := ⟨rfl, rfl⟩
  have hl : ∀ l, SameSlots s ((s.takeFields r.fields).changeLifecycle l) := fun _ => ⟨rfl, rfl⟩
  have hk : ∀ l f, SameSlots s (((s.takeFields r.fields).changeLifecycle l).onKey f) := fun _ _ => ⟨rfl, rfl⟩
  unfold State.recordDone
  split
  · exact (hl _).ends h _ _
  · exact (hl _).ends h _ _
  · exact (hl _).ends h _ _
  · split
    · exact ((hf.trans (.dropCarried _)).trans (.resetUniformity _)).ends h _ _
    · exact (hf.trans (.dropCarried _)).ends h _ _
  · exact (hf.trans (.switched _ _)).ends h _ _
  · exact (hk _ _).ends h _ _
  · exact hf.ends h _ _
  · exact (hl _).ends h _ _
  · exact (hl _).ends h _ _
  · exact h

theorem State.directivesOk.recordFailed {s : State} (h : s.directivesOk) : s.recordFailed.directivesOk := by
  have hr : SameSlots s (s.raise .controlFailed) := ⟨rfl, rfl⟩
  have hl : SameSlots s ((s.raise .controlFailed).changeLifecycle .safe) := ⟨rfl, rfl⟩
  unfold State.recordFailed
  split
  · exact (hl.trans (Apart.clearAhead _).sameDirs.toSameSlots).ends h _ _
  · exact (hr.trans (.release _)).ends h _ _
  · exact hr.ends h _ _

theorem KeepsInStep.recordStep : KeepsInStep State.recordStep := by
  intro s t h ht
  have hj : (s.setJob none).directivesOk := (SameDirs.of_same (s := s)).directivesOk h
  unfold State.recordStep at ht
  repeat' split at ht
  all_goals cases ht
  · exact hj.recordDone _
  · exact (SameDirs.of_same (s := s)).directivesOk h
  · exact hj.recordFailed

/-! ### The settling of an event -/

theorem State.directivesOk.due {s t : State} (h : s.directivesOk) (ht : s.due = some t) : t.directivesOk := by
  obtain ⟨f, hf, e⟩ := firstDue_some ht
  simp only [moments, List.mem_cons, List.not_mem_nil, or_false] at hf
  rcases hf with rfl | rfl | rfl | rfl | rfl | rfl | rfl | rfl | rfl | rfl | rfl | rfl | rfl | rfl | rfl | rfl
  · exact (Made.awaitingStep e).sameDirs.directivesOk h
  · exact (Made.sysStep e).sameDirs.directivesOk h
  · exact (Made.roomStep e).sameDirs.directivesOk h
  · exact KeepsInStep.recordStep s t h e
  · exact KeepsInStep.recoverEraseStep s t h e
  · exact KeepsInStep.sealProgramStep s t h e
  · exact KeepsInStep.sealFailedStep s t h e
  · exact KeepsInStep.setMapFenceStep s t h e
  · exact KeepsInStep.closeFenceStep s t h e
  · exact KeepsInStep.recoverFenceStep s t h e
  · exact KeepsInStep.sealFenceStep s t h e
  · exact KeepsInStep.serviceCloseFenceStep s t h e
  · exact KeepsInStep.flipDrainStep s t h e
  · exact KeepsInStep.syncStep s t h e
  · exact KeepsInStep.flipSwitchStep s t h e
  · exact KeepsInStep.directiveStep s t h e

theorem State.directivesOk.settleUpTo {s : State} (n : Nat) (h : s.directivesOk) : (settleUpTo n s).directivesOk := by
  induction n generalizing s with
  | zero => exact h
  | succ n ih =>
    unfold Machine.settleUpTo
    split
    · next t ht => exact ih (h.due ht)
    · exact h

theorem State.directivesOk.finish {s : State} (h : s.directivesOk) : s.finish.directivesOk :=
  (Apart.runReads _).sameDirs.directivesOk (h.settleUpTo settleBound)

end Sys2Proof.Machine
end

-- Proofs of the family 'other': the parts of an event that keep the directive queue in step.
section
/-! PROOFS. Every command keeps the slots and the directive queue in step and leaves no moment due (R181; log entry 2). -/

namespace Sys2Proof.Machine

/-! ### A part of an event, and a whole one -/

/-- A part of an event: the slots keep their number, and they stay in step with the queue. -/
structure InStep (s t : State) : Prop where
  length : t.dir.slots.length = s.dir.slots.length
  ok : s.directivesOk → t.directivesOk

/-- A whole event: no moment becomes due and stays so. -/
structure Settles (s t : State) : Prop extends InStep s t where
  due : s.dir.slots.length = 15 → s.directivesOk → s.due = none → t.due = none

theorem InStep.trans {s t u : State} (h : InStep s t) (k : InStep t u) : InStep s u := ⟨k.1.trans h.1, fun o => k.2 (h.2 o)⟩

theorem Settles.refl (s : State) : Settles s s := ⟨⟨rfl, id⟩, fun _ _ h => h⟩

theorem Settles.trans {s t u : State} (h : Settles s t) (k : Settles t u) : Settles s u :=
  ⟨h.toInStep.trans k.toInStep, fun l o d => k.due (h.length.trans l) (h.ok o) (h.due l o d)⟩

theorem SameDirs.inStep {s t : State} (h : SameDirs s t) : InStep s t := ⟨by rw [h.slots], h.directivesOk⟩

theorem Apart.inStep {s t : State} (h : Apart s t) : InStep s t := h.sameDirs.inStep

/-- The queue lists no slot twice, so that it is no longer than there are slots. -/
theorem State.directivesOk.queue_length_le {s : State} (h : s.directivesOk) : s.dir.queue.length ≤ s.dir.slots.length := by
  have hsub : s.dir.queue ⊆ (List.range s.dir.slots.length).map (· + 1) := fun n hn => by
    have := h.2.1 n hn
    exact List.mem_map.2 ⟨n - 1, List.mem_range.2 (by omega), by omega⟩
  have := (h.1.subperm hsub).length_le
  simpa using this

/-- What settles after a part of an event is a whole one. -/
theorem InStep.finish {s u : State} (h : InStep s u) : Settles s u.finish where
  length := (Keeps.finish u).slots.trans h.length
  ok o := (h.ok o).finish
  due l o _ := State.finish_due (h.ok o).live (by have := (h.ok o).queue_length_le; rw [h.length, l] at this; omega)

/-- Where no moment is due, a change that reads as none to the moments makes none due: no directive waits to start. -/
theorem SameDue.due_of_ok {s t : State} (h : SameDue s t) (o : s.directivesOk) (d : s.due = none) : t.due = none := by
  refine h.due d ?_
  unfold State.directiveStep
  rw [h.running, h.queue]
  cases hr : s.dir.running with
  | none => rw [State.queue_of_not_due o d hr]
  | some ph => rfl

theorem InStep.settles {s t : State} (h : InStep s t) (k : SameDue s t) : Settles s t := ⟨h, fun _ o d => k.due_of_ok o d⟩

theorem Apart.settles {s t : State} (h : Apart s t) : Settles s t := h.inStep.settles h.sameDue

/-! ### Changes that no moment reads -/

/-- A change that the moments, the slots and the queue do not see. -/
theorem Settles.of_same {s t : State} (slots : t.dir.slots = s.dir.slots := by rfl) (queue : t.dir.queue = s.dir.queue := by rfl)
    (running : t.dir.running = s.dir.running := by rfl) (job : t.job = s.job := by rfl) (queues : t.queues = s.queues := by rfl)
    (pool : t.pool = s.pool := by rfl) (awaiting : t.portA.awaiting = s.portA.awaiting := by rfl)
    (cause : t.portA.cause = s.portA.cause := by rfl) (uni : t.uni = s.uni := by rfl) : Settles s t :=
  (SameDirs.of_same slots queue running).inStep.settles
    ⟨running, queue, job, fun q => by unfold State.entriesOf; rw [queues], pool, awaiting, cause, fun o => by rw [uni]; exact o⟩

theorem Settles.onPort (s : State) (p : Port) (f : PortState → PortState) (ha : (f s.portA).awaiting = s.portA.awaiting)
    (hc : (f s.portA).cause = s.portA.cause) : Settles s (s.onPort p f) := by
  cases p
  · exact .of_same (awaiting := ha) (cause := hc)
  · exact .of_same

theorem Settles.onEngine (s : State) (f : Engine → Engine) : Settles s (s.onEngine f) := .of_same

theorem Settles.onKey (s : State) (f : KeyUnit → KeyUnit) : Settles s (s.onKey f) := .of_same

theorem Settles.setFlash (s : State) (m : Mem) : Settles s (s.setFlash m) := .of_same

theorem Settles.raise (s : State) (e : Event) : Settles s (s.raise e) := .of_same

theorem Settles.setHead (s : State) (q : QueueId) (f : Entry → Entry) : Settles s (s.setHead q f) := by
  refine (SameDirs.of_same (t := s.setHead q f)).inStep.settles ⟨rfl, rfl, rfl, fun r => ?_, rfl, rfl, rfl, id⟩
  have hlen : ∀ l, (onFirst f l).length = l.length := by intro l; cases l <;> rfl
  unfold State.setHead State.onQueue State.setQueue State.entriesOf
  cases q <;> cases r <;> simp only [PerQueue.put, PerQueue.get, hlen]

/-! ### Slots that no directive holds -/

/-- A slot that is neither PENDING nor RUNNING. -/
def Slot.Free (x : Slot) : Prop := x.state ≠ .pending ∧ x.state ≠ .running

/-- One slot that was free, and stays so, is changed. -/
theorem InStep.setSlot (s : State) {n : Nat} (h : 1 ≤ n → n ≤ s.dir.slots.length → (s.slot n).Free) (hn : 1 ≤ n) {x : Slot}
    (hx : x.Free) : InStep s (s.setSlot n x) := by
  refine ⟨List.length_set, fun o => ?_⟩
  have hlen : (s.setSlot n x).dir.slots.length = s.dir.slots.length := List.length_set
  refine ⟨o.1, fun m hm => hlen ▸ o.2.1 m hm, o.2.2.1, fun m lo hi => ?_⟩
  rw [hlen] at hi
  have hm := o.2.2.2 m lo hi
  rw [s.slot_setSlot n lo hi]
  split
  · next e =>
    have e : m = n := by omega
    subst e
    have hf := h lo hi
    exact ⟨hm.1.trans (iff_of_false (not_or.2 hf) (not_or.2 hx)), (iff_of_false hx.2 hf.2).trans hm.2⟩
  · exact hm

theorem SameDue.setSlot (s : State) (n : Nat) (x : Slot) : SameDue s (s.setSlot n x) := ⟨rfl, rfl, rfl, fun _ => rfl, rfl, rfl, rfl, id⟩

theorem Settles.setSlot (s : State) {n : Nat} (h : 1 ≤ n → n ≤ s.dir.slots.length → (s.slot n).Free) (hn : 1 ≤ n) {x : Slot}
    (hx : x.Free) : Settles s (s.setSlot n x) := (InStep.setSlot s h hn hx).settles (.setSlot ..)

theorem Slot.free_written (img : Mem) : (Slot.written img).Free := ⟨nofun, nofun⟩

/-- The result that an immediate directive writes into its own slot. -/
theorem Settles.finishSlot (s : State) {n : Nat} (h : 1 ≤ n → n ≤ s.dir.slots.length → (s.slot n).Free) (hn : 1 ≤ n) (c : ResultCode)
    (d : List Byte) : Settles s (s.finishSlot n c d) := by
  refine .setSlot s h hn ?_
  unfold Slot.Free
  split <;> exact ⟨nofun, nofun⟩

theorem Slot.erased_of_free {x : Slot} (h : x.Free) : x.erased = Slot.reset := by
  rw [Slot.erased_eq, if_neg (not_or.2 h)]
  rfl

theorem Slot.erased_of_held {x : Slot} (h : ¬ x.Free) : x.erased = x := by
  rw [Slot.erased_eq, if_pos (by unfold Slot.Free at h; tauto)]

theorem Slot.erased_state (x : Slot) : (x.erased.state = .pending ↔ x.state = .pending) ∧ (x.erased.state = .running ↔ x.state = .running) := by
  by_cases h : x.Free
  · rw [Slot.erased_of_free h]
    exact ⟨iff_of_false nofun h.1, iff_of_false nofun h.2⟩
  · rw [Slot.erased_of_held h]
    exact ⟨Iff.rfl, Iff.rfl⟩

/-- R180: the window erase keeps the state of every slot that a directive holds. -/
theorem Settles.eraseWindow (s : State) : Settles s s.eraseWindow := by
  have hlen : s.eraseWindow.dir.slots.length = s.dir.slots.length := List.length_map _
  refine InStep.settles ⟨hlen, fun o => ?_⟩ ⟨rfl, rfl, rfl, fun _ => rfl, rfl, rfl, rfl, id⟩
  refine ⟨o.1, fun m hm => hlen ▸ o.2.1 m hm, o.2.2.1, fun m lo hi => ?_⟩
  rw [hlen] at hi
  have hslot : s.eraseWindow.slot m = (s.slot m).erased := by
    have : m - 1 < s.dir.slots.length := by omega
    simp [State.slot, State.eraseWindow, State.onDir, List.getD, this]
  have he := (s.slot m).erased_state
  rw [hslot, he.1, he.2]
  exact o.2.2.2 m lo hi

/-! ### A directive joins the queue, or is cancelled -/

theorem SameDirs.count (s : State) (d : Directive) : SameDirs s (s.count d) := by
  unfold State.count
  split <;> exact .of_same

/-- R179: the slot that its program has just filled becomes PENDING and joins the tail of the queue. -/
theorem InStep.enqueue (s : State) {n : Nat} (hf : (s.slot n).Free) (low : 1 ≤ n) (high : n ≤ s.dir.slots.length) (d : Directive) :
    InStep s (s.enqueue n d) := by
  refine InStep.trans ⟨List.length_set, fun o => ?_⟩ (SameDirs.count _ d).inStep
  generalize ht : (s.onSlot n fun x => { x with state := .pending }).onDir (fun x => { x with queue := x.queue ++ [n] }) = t
  have hlen : t.dir.slots.length = s.dir.slots.length := ht ▸ List.length_set
  have hqueue : t.dir.queue = s.dir.queue ++ [n] := ht ▸ rfl
  have hrunning : t.dir.running = s.dir.running := ht ▸ rfl
  have hslot : ∀ m, 1 ≤ m → m ≤ s.dir.slots.length → t.slot m = if m - 1 = n - 1 then { s.slot n with state := .pending } else s.slot m :=
    fun m lo hi => ht ▸ s.slot_setSlot n lo hi _
  have hnot : n ∉ s.dir.queue := fun e => (not_or.2 hf) ((o.2.2.2 n low high).1.1 e)
  refine ⟨?_, fun m hm => ?_, fun _ => ?_, fun m lo hi => ?_⟩
  · rw [hqueue]
    exact List.nodup_append.2 ⟨o.1, List.nodup_singleton n, fun a ha b hb e => hnot (List.mem_singleton.1 hb ▸ e ▸ ha)⟩
  · rw [hlen]
    rw [hqueue] at hm
    rcases List.mem_append.1 hm with hm | hm
    · exact o.2.1 m hm
    · rw [List.mem_singleton.1 hm]; exact ⟨low, high⟩
  · rw [hqueue]
    exact List.append_ne_nil_of_right_ne_nil _ (List.cons_ne_nil _ _)
  · rw [hlen] at hi
    have hm := o.2.2.2 m lo hi
    rw [hslot m lo hi, hqueue, hrunning]
    split
    · next e =>
      have e : m = n := by omega
      subst e
      refine ⟨by simp, iff_of_false nofun ?_⟩
      rintro ⟨hr, hh⟩
      cases hq : s.dir.queue with
      | nil => exact o.2.2.1 hr hq
      | cons k l => rw [hq] at hh hnot; exact hnot (Option.some.inj hh ▸ List.mem_cons_self)
    · next e =>
      have e : m ≠ n := fun x => e (by rw [x])
      refine ⟨by simp [e, hm.1], hm.2.trans (and_congr_right fun hr => ?_)⟩
      cases hq : s.dir.queue with
      | nil => exact absurd hq (o.2.2.1 hr)
      | cons k l => simp

/-- R184: a PENDING slot leaves the queue, REFUSED; the head, where one runs, is not PENDING. -/
theorem InStep.cancelPending (s : State) {k : Nat} (hp : (s.slot k).state = .pending) (low : 1 ≤ k) (high : k ≤ s.dir.slots.length) :
    InStep s (s.cancelPending k) := by
  have hu := (SameDirs.raise ((s.onDir fun x => { x with queue := x.queue.filter (fun m => decide (m ≠ k)) }).finishSlot k .cancelled [])
    .directiveRefused).trans (SameDirs.uncount _ k)
  refine InStep.trans ⟨List.length_set, fun o => ?_⟩ hu.inStep
  generalize ht : (s.onDir fun x => { x with queue := x.queue.filter (fun m => decide (m ≠ k)) }).finishSlot k .cancelled [] = t
  have hlen : t.dir.slots.length = s.dir.slots.length := ht ▸ List.length_set
  have hqueue : t.dir.queue = s.dir.queue.filter (fun m => decide (m ≠ k)) := ht ▸ rfl
  have hrunning : t.dir.running = s.dir.running := ht ▸ rfl
  have hslot : ∀ m, 1 ≤ m → m ≤ s.dir.slots.length → t.slot m =
      if m - 1 = k - 1 then { s.slot k with state := .refused, result := some .cancelled, data := [] } else s.slot m :=
    fun m lo hi => ht ▸ State.slot_setSlot _ k lo hi _
  have hhead : s.dir.running.isSome = true → ∃ n l, s.dir.queue = n :: l ∧ n ≠ k := fun hr => by
    obtain ⟨n, l, hq, hn⟩ := (o.headRuns hr).runs
    exact ⟨n, l, hq, fun e => by rw [e, hp] at hn; cases hn⟩
  refine ⟨hqueue ▸ o.1.filter _, fun m hm => ?_, fun hr => ?_, fun m lo hi => ?_⟩
  · rw [hqueue] at hm
    rw [hlen]
    exact o.2.1 m (List.mem_of_mem_filter hm)
  · rw [hrunning] at hr
    obtain ⟨n, l, hq, hn⟩ := hhead hr
    rw [hqueue, hq]
    simp [hn]
  · rw [hlen] at hi
    have hm := o.2.2.2 m lo hi
    rw [hslot m lo hi, hqueue, hrunning]
    split
    · next e =>
      have e : m = k := by omega
      subst e
      refine ⟨by simp, iff_of_false nofun ?_⟩
      rintro ⟨hr, hh⟩
      have := List.mem_of_mem_filter (List.mem_of_head? hh)
      have hmem := List.mem_filter.1 (List.mem_of_head? hh)
      simp at hmem
    · next e =>
      have e : m ≠ k := fun x => e (by rw [x])
      refine ⟨by simp [e, hm.1], hm.2.trans (and_congr_right fun hr => ?_)⟩
      obtain ⟨n, l, hq, hn⟩ := hhead hr
      rw [hq]
      simp [hn]

/-! ### A program is taken into a slot (R178) -/

/-- A slot keeps its own content where another one is changed. -/
theorem State.slot_cancelPending_ne (s : State) {k m : Nat} (lo : 1 ≤ m) (hi : m ≤ s.dir.slots.length) (h : m - 1 ≠ k - 1) :
    (s.cancelPending k).slot m = s.slot m := by
  have hu := (SameDirs.raise ((s.onDir fun x => { x with queue := x.queue.filter (fun m => decide (m ≠ k)) }).finishSlot k .cancelled [])
    .directiveRefused).trans (SameDirs.uncount _ k)
  show (State.uncount _ k).slot m = _
  rw [hu.toSameSlots.slot]
  exact (State.slot_setSlot _ k lo hi _).trans (if_neg h)

section
variable {s : State} {n : Nat}

/-- The end of the head leaves every other slot as it was. -/
theorem State.slot_endDirective_ne (c : ResultCode) (d : List Byte) (lo : 1 ≤ n) (hi : n ≤ s.dir.slots.length)
    (h : n - 1 ≠ s.headSlot - 1) : (s.endDirective c d).slot n = s.slot n := by
  rw [(SameDirs.endDirective s c d).toSameSlots.slot]
  exact (State.slot_setSlot _ _ lo hi _).trans (if_neg h)

theorem InStep.endDirective (s : State) (c : ResultCode) (d : List Byte) : InStep s (s.endDirective c d) :=
  ⟨(Keeps.endDirective s c d).slots, fun o => o.slotsOk.endDirective c d⟩

/-- The end of the head leaves every slot free that was free. -/
theorem Slot.Free.endDirective (hf : (s.slot n).Free) (c : ResultCode) (d : List Byte) (lo : 1 ≤ n) (hi : n ≤ s.dir.slots.length) :
    ((s.endDirective c d).slot n).Free := by
  rw [(SameDirs.endDirective s c d).toSameSlots.slot]
  have := State.slot_setSlot s s.headSlot lo hi
    { s.slot s.headSlot with state := if c = .done then .done else .refused, result := some c, data := d }
  show (State.slot (s.setSlot s.headSlot _) n).Free
  rw [this]
  split
  · unfold Slot.Free
    split <;> exact ⟨nofun, nofun⟩
  · exact hf

/-- R184, given in a slot that its program has just filled. -/
theorem InStep.takeCancel (hf : (s.slot n).Free) (low : 1 ≤ n) (high : n ≤ s.dir.slots.length) (hlen : s.dir.slots.length = 15)
    (img : Mem) (len : Nat) : InStep s (s.takeCancel n img len) := by
  have own : ∀ c d, InStep s (s.finishSlot n c d) := fun c d => (Settles.finishSlot s (fun _ _ => hf) low c d).toInStep
  unfold State.takeCancel
  dsimp only
  split
  · exact own ..
  · next hk =>
    split
    · next hp =>
      refine (InStep.cancelPending s hp (by omega) (by omega)).trans (Settles.finishSlot _ (fun _ _ => ?_) low _ _).toInStep
      rw [State.slot_cancelPending_ne s low high]
      · exact hf
      · intro e
        have : n = (param img 0).toNat := by omega
        rw [← this] at hp
        exact hf.1 hp
    · split
      · split
        · refine InStep.trans ((Apart.dropRead s .sysRead).inStep.trans (.endDirective _ _ _))
            (Settles.finishSlot _ (fun _ _ => ?_) low _ _).toInStep
          exact Slot.Free.endDirective (s := s.dropRead .sysRead) hf _ _ low high
        · exact own ..
      · exact own ..
    · exact own ..

theorem Apart.hideKeySegment (s : State) : Apart s s.hideKeySegment := by
  unfold State.hideKeySegment
  split
  · split
    · split
      · exact (Apart.dropRead _ _).trans (Apart.setReading ..)
      · exact Apart.refl _
    · exact Apart.refl _
  · exact Apart.refl _

theorem Settles.closeRelease (s : State) : Settles s s.closeRelease := by
  unfold State.closeRelease
  split
  · exact ((Settles.onKey s _).trans (Settles.raise _ _)).trans (Apart.hideKeySegment _).settles
  · exact .refl s

theorem SameDirs.closeRelease (s : State) : SameDirs s s.closeRelease := by
  unfold State.closeRelease
  split
  · exact (SameDirs.of_same (t := State.raise (s.onKey _) _)).trans (Apart.hideKeySegment _).sameDirs
  · exact .refl s

/-- A directive that has been recognized is taken in a slot that its program has just filled (R179). -/
theorem Settles.takeDirective (hf : (s.slot n).Free) (low : 1 ≤ n) (high : n ≤ s.dir.slots.length) (hlen : s.dir.slots.length = 15)
    (d : Directive) (img : Mem) (len : Nat) : Settles s (s.takeDirective n d img len) := by
  have own : ∀ c r, Settles s (s.finishSlot n c r) := fun c r => .finishSlot s (fun _ _ => hf) low c r
  cases d
  case ack =>
    show Settles s (s.takeAck n img len)
    unfold State.takeAck
    dsimp only
    split
    · exact own ..
    · refine Settles.trans (t := s.acknowledge _) ?_ (.finishSlot (s.acknowledge _) (fun _ _ => hf) low _ _)
      exact InStep.settles (SameDirs.of_same).inStep ⟨rfl, rfl, rfl, fun q => by cases q <;> rfl, rfl, rfl, rfl, id⟩
  case setEventMask =>
    show Settles s (s.takeSetMask n img len)
    unfold State.takeSetMask
    dsimp only
    split
    · exact own ..
    · have hm : Settles s (s.onDir fun x => { x with mask := BitVec.ofNat 13 (paramNat img 0 2) }) := .of_same
      have hs : ((s.onDir fun x => { x with mask := BitVec.ofNat 13 (paramNat img 0 2) }).slot n).Free := hf
      exact hm.trans (.finishSlot _ (fun _ _ => hs) low _ _)
  case cancel => exact (InStep.takeCancel hf low high hlen img len).finish
  case keyHide =>
    show Settles s (s.takeKeyHide n len)
    unfold State.takeKeyHide
    split
    · exact own ..
    · split
      · exact (Settles.closeRelease s).trans (.finishSlot _ (fun _ _ => (SameDirs.closeRelease s).slot n ▸ hf) low _ _)
      · exact own ..
  all_goals exact (InStep.enqueue s hf low high _).finish

end

/-- R177, R178: a program to a slot that no directive holds. -/
theorem Settles.takeSlot (s : State) {n : Nat} (hf : (s.slot n).Free) (low : 1 ≤ n) (high : n ≤ s.dir.slots.length)
    (hlen : s.dir.slots.length = 15) (l : Lifecycle) (off : Nat) (mask : OffsetBytes) : Settles s (s.takeSlot l n off mask) := by
  unfold State.takeSlot
  dsimp only
  have hw : Settles s (s.setSlot n (Slot.written (Mem.setAll [] 0 mask))) := .setSlot s (fun _ _ => hf) low (Slot.free_written _)
  have hslot : ((s.setSlot n (Slot.written (Mem.setAll [] 0 mask))).slot n).Free := by
    rw [s.slot_setSlot n low high, if_pos rfl]
    exact Slot.free_written _
  split
  · exact (hw.trans (.finishSlot _ (fun _ _ => hslot) low _ _)).trans (.raise _ _)
  · exact hw.trans (.takeDirective hslot low (hw.length.symm ▸ high) (hw.length.trans hlen) _ _ _)

end Sys2Proof.Machine
end

-- Proofs of the family 'other': the reset state and every step keep the directive queue in step.
section
/-! PROOFS. The same for each command and for the tick, so for every step (R181; log entry 2). -/

namespace Sys2Proof.Machine

/-! ### The machine after a device reset -/

theorem State.reset_slot (n : Nat) : State.reset.slot n = Slot.reset := by
  unfold State.slot
  rw [show State.reset.dir.slots = List.replicate 15 Slot.reset from rfl, List.getD_eq_getElem?_getD, List.getElem?_replicate]
  split <;> rfl

theorem State.reset_directivesOk : State.reset.directivesOk := by
  have hq : State.reset.dir.queue = [] := rfl
  refine State.SlotsOk.idle ⟨List.nodup_nil, fun n hn => absurd hn List.not_mem_nil, fun n _ _ => ?_, fun n _ _ hn => ?_⟩ rfl
    fun n _ _ => ?_
  · rw [hq, State.reset_slot]
    exact iff_of_false List.not_mem_nil nofun
  · rw [State.reset_slot] at hn; cases hn
  · rw [State.reset_slot]; exact nofun

theorem State.deviceReset_directivesOk (s : State) (fixture : Bool) (flash : Mem) : (s.deviceReset fixture flash).directivesOk :=
  (SameDirs.of_dir (s := State.reset) rfl).directivesOk State.reset_directivesOk

/-- After a device reset nothing waits: Port A is busy with LOADING, no directive and no run of work stands. -/
theorem State.deviceReset_calm (s : State) (fixture : Bool) (flash : Mem) : (s.deviceReset fixture flash).Calm :=
  ⟨rfl, rfl, rfl, rfl, nofun⟩

theorem State.reset_calm : State.reset.Calm := ⟨rfl, rfl, rfl, rfl, nofun⟩

/-! ### Parts of events -/

theorem InStep.closePass (s : State) : InStep s s.closePass :=
  ((SameDirs.of_same (t := s.onPass _)).trans (Apart.clearAhead _).sameDirs).inStep

theorem InStep.reportRead (s : State) (p : Port) (r : Reading) : InStep s (s.reportRead p r) := by
  unfold State.reportRead
  repeat' split
  · exact .closePass s
  · exact (SameDirs.of_same (t := s.startIdle)).inStep
  · exact (SameDirs.refl s).inStep
  · exact (Settles.closeRelease s).toInStep
  · exact (SameDirs.refl s).inStep

theorem InStep.onPort (s : State) (p : Port) (f : PortState → PortState) : InStep s (s.onPort p f) :=
  (SameDirs.of_dir (State.onPort_dir s p f)).inStep

theorem InStep.endRead (s : State) (p : Port) : InStep s (s.endRead p) := by
  unfold State.endRead
  split
  · exact ((Apart.dropRead s _).inStep.trans (.onPort _ p _)).trans (.reportRead _ _ _)
  · exact (SameDirs.refl s).inStep

theorem InStep.takeQueued (s : State) (w : QueuedWrite) : InStep s (s.takeQueued w) := by
  unfold State.takeQueued
  split
  · exact .onPort ..
  · exact (Made.postWrite s w).sameDirs.inStep

theorem SameDirs.freePage (s : State) (p : Option Nat) : SameDirs s (s.freePage p) := by cases p <;> exact .of_same

theorem SameDirs.tellOrigin (s : State) (e : Entry) (b : Bool) : SameDirs s (s.tellOrigin e b) := by
  unfold State.tellOrigin State.carryBundle
  repeat' split
  all_goals exact .of_same

theorem SameDirs.coverage (s : State) (e : Entry) (b : Bool) : SameDirs s (s.coverage e b) := by
  unfold State.coverage
  dsimp only
  split
  · exact .refl s
  · split <;> exact .of_same

theorem SameDirs.tellCoverage (s : State) (q : QueueId) (e : Entry) (b : Bool) : SameDirs s (s.tellCoverage q e b) := by
  cases q
  case uni => exact .coverage ..
  all_goals exact .refl s

theorem SameDirs.bookFailure (s : State) (q : QueueId) (e : Entry) (o : Option FailReason) : SameDirs s (s.bookFailure q e o) := by
  unfold State.bookFailure State.recordFailure
  repeat' split
  all_goals exact .of_same

theorem SameDirs.leave (s : State) (q : QueueId) (o : Option FailReason) : SameDirs s (s.leave q o) := by
  unfold State.leave
  split
  · exact .refl s
  · next e rest _ =>
    exact (((((Made.setEntries s q rest).sameDirs.trans (Apart.claimHead _ q).sameDirs).trans (.freePage ..)).trans
      (.tellOrigin ..)).trans (.tellCoverage ..)).trans (.bookFailure ..)

theorem InStep.leave (s : State) (q : QueueId) (o : Option FailReason) : InStep s (s.leave q o) := (SameDirs.leave s q o).inStep

theorem Apart.endWrite (s : State) : Apart s s.endWrite := (Apart.onEngine s _ rfl).trans (Apart.grantPoint _)

theorem Settles.operationEnd (s : State) (q : QueueId) (o : Option FailReason) : Settles s (s.operationEnd q o) :=
  (InStep.leave s q o).finish.trans (Apart.endWrite _).settles

/-! ### Page reads -/

/-- A directive that proceeds keeps in step where one runs. -/
theorem Proceeds.inStep {s t : State} (h : Proceeds s t) (hr : s.dir.running.isSome = true) (hl : t.dir.slots.length = s.dir.slots.length) :
    InStep s t := ⟨hl, fun o => h.directivesOk (o.headRuns hr)⟩

theorem InStep.sysRead (s : State) (r : PageRead) : InStep s (s.sysRead r) := by
  have hl := (Keeps.sysRead s r).slots
  revert hl
  unfold State.sysRead
  split
  · intro _
    unfold State.loadPage
    split
    · exact (SameDirs.of_same).inStep
    · exact ((SameDirs.of_same (t := s.takeLoaded r)).trans (Apart.raiseClaim ..).sameDirs).inStep
  have claims : ∀ l st n c, Proceeds s (s.claimCrc l st n c) := fun l st n c =>
    .after (t := s.enter (.flipCrc l st n c)) ⟨rfl, rfl⟩ (.stays (Apart.raiseClaim ..).sameDirs rfl)
  split
  · next hr =>
    refine Proceeds.inStep ?_ (by rw [hr]; rfl)
    unfold State.headerRead
    dsimp only
    split
    · exact .ends ..
    · exact claims ..
  · next hr =>
    refine Proceeds.inStep ?_ (by rw [hr]; rfl)
    unfold State.crcRead
    dsimp only
    split
    · exact claims ..
    split
    · exact .enter ..
    · exact .ends ..
  · next hr => exact Proceeds.inStep (.regionJudge (by rw [hr]; rfl) _) (by rw [hr]; rfl)
  · next hr => exact Proceeds.inStep (.regionJudge (by rw [hr]; rfl) _) (by rw [hr]; rfl)
  · intro _
    exact (SameDirs.refl s).inStep

theorem InStep.handOver (s : State) (r : PageRead) : InStep s (s.handOver r) := by
  unfold State.handOver
  split
  · exact (Apart.completePiece s .t).inStep
  · exact (Apart.completePiece s .a).inStep
  · exact (((Apart.mapSlots s _).trans (Apart.rejudgeSlot _)).trans (Apart.judgePrefetch _)).inStep
  · exact (((Apart.mapSlots s _).trans (Apart.rejudgeSlot _)).trans (Apart.judgePrefetch _)).inStep
  · exact .sysRead s r
  · exact (SameDirs.refl s).inStep

theorem InStep.rejudgeRegion (s : State) (q : QueueId) : InStep s (s.rejudgeRegion q) := by
  unfold State.rejudgeRegion
  have reads : ∀ {ph}, s.dir.running = some ph → InStep s s.readRegion := fun hr =>
    Proceeds.inStep (.readRegion (by rw [hr]; rfl)) (by rw [hr]; rfl) (Keeps.readRegion s).slots
  split
  · next hr =>
    split
    · exact reads hr
    · exact (SameDirs.refl s).inStep
  · next hr =>
    split
    · exact reads hr
    · exact (SameDirs.refl s).inStep
  · exact (SameDirs.refl s).inStep

/-! ### Writes -/

theorem Settles.refuse (s : State) (p : Port) (k : WriteKind) (a : Nat) (r : RefusalReason) : Settles s (s.refuse p k a r) :=
  (Settles.onPort s p _ rfl rfl).trans .of_same

theorem Settles.ignore (s : State) (p : Port) : Settles s (s.ignore p) := (Settles.onPort s p _ rfl rfl).trans .of_same

/-- The directive window has 16 pages: the status page and 15 slots. -/
theorem windowPage_le {a : Nat} (h : a < 2 ^ 25) : (a - windowBase) / 256 ≤ 15 := by
  unfold windowBase
  omega

theorem Settles.programWindow (s : State) (hlen : s.dir.slots.length = 15) (l : Lifecycle) {a : Nat} (ha : a < 2 ^ 25) (mask : OffsetBytes) :
    Settles s (s.programWindow l a mask) := by
  have hn := windowPage_le ha
  unfold State.programWindow
  dsimp only
  split
  · exact .refuse ..
  · split
    · exact .refuse ..
    · next h0 hf => exact .takeSlot s (not_or.1 hf) (by omega) (by omega) hlen ..

theorem Settles.act (s : State) (hlen : s.dir.slots.length = 15) (p : Port) (l : Lifecycle) (k : WriteKind) {a : Nat} (ha : a < 2 ^ 25)
    (mask : OffsetBytes) (v : Verdict) : Settles s (s.act p l k a mask v) := by
  unfold State.act
  split
  · exact .refuse ..
  · split
    · exact .of_same
    · exact .refl s
  · exact .of_same
  · exact .programWindow s hlen l ha mask
  · exact .eraseWindow s
  · exact (InStep.takeQueued s _).finish

theorem Settles.takeWrite (s : State) (hlen : s.dir.slots.length = 15) (p : Port) (k : WriteKind) {a : Nat} (ha : a < 2 ^ 25)
    (mask : OffsetBytes) : Settles s (s.takeWrite p k a mask) := by
  have hw : Settles s (s.clearWel p) := .onPort s p _ rfl rfl
  unfold State.takeWrite
  split
  · exact .refuse ..
  split
  · exact .ignore ..
  split
  · exact hw.trans (.act _ (hw.length.trans hlen) _ _ _ ha _ _)
  · exact hw

theorem Settles.arrive (s : State) (hlen : s.dir.slots.length = 15) (p : Port) (k : WriteKind) (a : Addr) (data : List Byte) (c : Bool) :
    Settles s (s.arrive p k a data c) := by
  have hf : Settles s (s.freeLink p) := .onPort s p _ rfl rfl
  unfold State.arrive
  split
  · exact .refl s
  split
  · unfold State.close
    split
    · exact hf
    · exact hf.trans (.takeWrite _ (hf.length.trans hlen) _ _ (BitVec.isLt _) _)
  · exact .onPort s p _ rfl rfl

/-! ### Timers -/

theorem Settles.passExpired (s : State) : Settles s s.passExpired := by
  unfold State.passExpired
  split
  · exact ((InStep.closePass s).trans (Settles.raise _ _).toInStep).finish
  · exact .refl s

theorem Settles.stageExpired (s : State) : Settles s s.stageExpired := by
  unfold State.stageExpired
  split
  · exact ((Settles.onKey s _).trans (.raise _ _)).trans (Apart.runReads _).settles
  · exact .refl s

theorem Settles.releaseExpired (s : State) : Settles s s.releaseExpired := by
  unfold State.releaseExpired
  split
  · exact (Settles.closeRelease s).trans (Apart.runReads _).settles
  · exact .refl s

theorem Settles.waitExpired (s : State) (left : OffsetBytes) : Settles s (s.waitExpired left) := by
  unfold State.waitExpired
  split
  · exact (Settles.setFlash s _).trans (.operationEnd _ _ _)
  · exact .refl s

theorem Settles.tickRelease (s : State) : Settles s s.tickRelease := by
  unfold State.tickRelease
  dsimp only
  split
  · exact (Settles.onKey s _).trans (.releaseExpired _)
  · exact .onKey ..

theorem Settles.tickStage (s : State) : Settles s s.tickStage := by
  unfold State.tickStage
  dsimp only
  split
  · exact (Settles.onKey s _).trans (.stageExpired _)
  · exact .onKey ..

theorem Settles.tickPass (s : State) : Settles s s.tickPass := by
  have hp : ∀ f : PassRecord → PassRecord, (∀ x, (f x).isOpen = x.isOpen) → Settles s (s.onPass f) := fun f hf =>
    (SameDirs.of_same (t := s.onPass f)).inStep.settles ⟨rfl, rfl, rfl, fun _ => rfl, rfl, rfl, rfl, fun o => (hf _).trans o⟩
  unfold State.tickPass
  dsimp only
  split
  · exact (hp (fun x => { x with idle := x.idle.tick.1 }) fun _ => rfl).trans (.passExpired _)
  · exact hp _ fun _ => rfl

theorem Settles.tickWait (s : State) : Settles s s.tickWait := by
  unfold State.tickWait
  split
  · dsimp only
    split
    · exact Settles.trans ((Settles.onEngine s fun x => { x with waited := x.waited + 1 }).trans
        (Settles.of_same (t := State.countBreak _))) (.waitExpired _ _)
    · exact .onEngine ..
  · exact .refl s

theorem Settles.foldl_claims (f : State → Claimant → State) (h : ∀ s c, Settles s (f s c)) (l : List Claimant) (s : State) :
    Settles s (l.foldl f s) := by
  induction l generalizing s with
  | nil => exact .refl s
  | cons c l ih => exact (h s c).trans (ih _)

theorem Settles.countClaim (s : State) (c : Claimant) : Settles s (s.countClaim c) := by
  unfold State.countClaim
  split
  · exact (Apart.setClaim ..).settles
  · exact .refl s

theorem Settles.stepClaim (s : State) (c : Claimant) : Settles s (s.stepClaim c) := by
  unfold State.stepClaim
  split
  · split
    · exact (Apart.ageClaim ..).settles
    · exact .refl s
  · exact .refl s

theorem Settles.tick (s : State) : Settles s s.tick :=
  (((((Settles.foldl_claims _ Settles.countClaim claimants s).trans (.tickRelease _)).trans (.tickStage _)).trans (.tickPass _)).trans
    (.tickWait _)).trans (.foldl_claims _ Settles.stepClaim claimants _)

/-! ### The commands -/

theorem Settles.moment {s t : State} {f : State → Option State} (hf : ∀ u, f s = some u → InStep s u) (h : s.moment (f s) = .next t) :
    Settles s t := by
  unfold State.moment at h
  split at h
  · next u hu => cases h; exact (hf u hu).finish
  · cases h; exact .refl s

theorem KeepsInStep.moment {f : State → Option State} (hf : KeepsInStep f) (hk : StepKeeps f) {s t : State} (h : s.moment (f s) = .next t) :
    Settles s t := .moment (fun u hu => ⟨(hk s u hu).slots, fun o => hf s u o hu⟩) h

/-- DEVICE-RESET apart, every command settles. -/
theorem exec_settles {c : Instr} {s t : State} (hlen : s.dir.slots.length = 15) (hc : ∀ fixture left, c ≠ .deviceReset fixture left)
    (h : exec c s = .next t) : Settles s t := by
  cases c with
  | deviceReset fixture left => exact absurd rfl (hc fixture left)
  | read p start n =>
    cases h
    refine Settles.trans ?_ (Apart.runReads _).settles
    unfold State.clockRead
    split
    · exact (Apart.setReading ..).settles
    · exact .onPort s p _ rfl rfl
    · exact .refl s
  | readEnd p => cases h; exact (InStep.endRead s p).finish
  | program => cases h; exact .arrive s hlen ..
  | eraseSector => cases h; exact .arrive s hlen ..
  | eraseBlock => cases h; exact .arrive s hlen ..
  | writeEnable p =>
    change execWriteEnable p s = _ at h
    unfold execWriteEnable at h
    split at h <;> cases h
    · exact .refl s
    · exact .onPort s p _ rfl rfl
  | writeDisable p =>
    change execWriteDisable p s = _ at h
    unfold execWriteDisable at h
    split at h <;> cases h
    · exact .refl s
    · exact .onPort s p _ rfl rfl
  | statusRead p =>
    change execStatusRead p s = _ at h
    unfold execStatusRead at h
    split at h <;> cases h
    · exact .refl s
    · exact .onPort s p _ rfl rfl
  | portReset p => cases h; exact ((InStep.endRead s p).trans (.onPort _ p _)).finish
  | unknownCommand p n =>
    change execUnknownCommand p n s = _ at h
    unfold execUnknownCommand at h
    split at h <;> cases h
    · exact .refl s
    · exact .onPort s p _ rfl rfl
  | directiveStart => exact KeepsInStep.directiveStep.moment StepKeeps.directiveStep h
  | setMapFenceEnd => exact KeepsInStep.setMapFenceStep.moment StepKeeps.setMapFenceStep h
  | closeFenceEnd => exact KeepsInStep.closeFenceStep.moment StepKeeps.closeFenceStep h
  | recoverFenceEnd => exact KeepsInStep.recoverFenceStep.moment StepKeeps.recoverFenceStep h
  | recoverEraseEnd => exact KeepsInStep.recoverEraseStep.moment StepKeeps.recoverEraseStep h
  | sealFenceEnd => exact KeepsInStep.sealFenceStep.moment StepKeeps.sealFenceStep h
  | sealProgramEnd => exact KeepsInStep.sealProgramStep.moment StepKeeps.sealProgramStep h
  | sealFlashFailed => exact KeepsInStep.sealFailedStep.moment StepKeeps.sealFailedStep h
  | serviceCloseFenceEnd => exact KeepsInStep.serviceCloseFenceStep.moment StepKeeps.serviceCloseFenceStep h
  | flipDrainEnd => exact KeepsInStep.flipDrainStep.moment StepKeeps.flipDrainStep h
  | flipSwitchBegin => exact KeepsInStep.flipSwitchStep.moment StepKeeps.flipSwitchStep h
  | syncWaitEnd => exact KeepsInStep.syncStep.moment StepKeeps.syncStep h
  | controlRecordWriteEnd => exact KeepsInStep.recordStep.moment StepKeeps.recordStep h
  | awaitingWriteEntryMade => exact .moment (f := State.awaitingStep) (fun _ hu => (Made.awaitingStep hu).sameDirs.inStep) h
  | sysProgramEntryMade => exact .moment (f := State.sysStep) (fun _ hu => (Made.sysStep hu).sameDirs.inStep) h
  | pageReadEnd =>
    change execPageReadEnd s = _ at h
    unfold execPageReadEnd at h
    split at h <;> cases h
    · exact (((Settles.onEngine s _).toInStep.trans (.handOver _ _)).trans (Apart.raiseDeferred ..).inStep).finish.trans
        (Apart.endPageRead _).settles
    · exact .refl s
  | preReadEnd =>
    change execPreReadEnd s = _ at h
    unfold execPreReadEnd at h
    split at h <;> cases h
    · exact (((Settles.setHead s _ _).toInStep.trans (Apart.rejudgeFormed ..).inStep).trans (.rejudgeRegion _ _)).finish
    · exact .refl s
  | programCommandIssued =>
    change execProgramCommandIssued s = _ at h
    unfold execProgramCommandIssued at h
    split at h <;> cases h
    · exact ((Settles.setHead s _ _).trans (.onEngine _ _)).trans (Apart.judgePreempt _).settles
    · exact .refl s
  | flashReady error left =>
    change execFlashReady error left s = _ at h
    unfold execFlashReady at h
    split at h
    · split at h <;> cases h
      · exact (Settles.setFlash s _).trans (.operationEnd _ _ _)
      · exact (Settles.setFlash s _).trans (.setHead _ _ _)
    · cases h; exact .refl s
  | waitLimitExpiry left => cases h; exact .waitExpired s left
  | verifyEnd =>
    change execVerifyEnd s = _ at h
    unfold execVerifyEnd at h
    repeat' split at h
    all_goals cases h
    · exact .refl s
    · exact .operationEnd ..
    · exact .setHead ..
    · exact .operationEnd ..
    · exact .refl s
  | eraseCheckEnd =>
    change execEraseCheckEnd s = _ at h
    unfold execEraseCheckEnd at h
    split at h
    · split at h <;> cases h
      · exact .refl s
      · exact .operationEnd ..
    · cases h; exact .refl s
  | agingStep c => cases h; exact (Apart.ageClaim s c).settles
  | passIdleExpiry => cases h; exact .passExpired s
  | stageIdleExpiry => cases h; exact .stageExpired s
  | releaseTimerExpiry => cases h; exact .releaseExpired s

/-- A step settles, or it resets the device. -/
theorem step_settles {s t : State} (hlen : s.dir.slots.length = 15) (h : step s = .next t) :
    Settles { s with pending := s.pending.tail } t ∨ t.directivesOk ∧ t.due = none := by
  unfold step at h
  split at h
  next c rest hp =>
    rw [hp]
    by_cases hc : ∃ fixture left, c = .deviceReset fixture left
    · obtain ⟨fixture, left, rfl⟩ := hc
      rw [execDeviceReset_next h]
      exact .inr ⟨State.deviceReset_directivesOk .., (State.deviceReset_calm ..).due⟩
    · exact .inl (exec_settles hlen (fun fixture left e => hc ⟨fixture, left, e⟩) h)
  next hp =>
    cases h
    rw [show ({ s with pending := s.pending.tail } : State) = s by rw [hp, List.tail_nil, ← hp]]
    exact .inl (Settles.tick s)

/-! ### The obligations -/

/-- Settles O8: the reset state is calm, its slots are empty and its pages all free. -/
theorem resetHasInvariants : Obligations.ResetHasInvariants :=
  ⟨⟨rfl, rfl⟩, rfl, State.reset_directivesOk, ⟨rfl, rfl, rfl⟩, rfl, rfl, rfl, State.reset_calm.due⟩

/-- Settles O9: each event is a whole one, which settles after the last part that can make a moment due. -/
theorem directiveQueueStaysInStep : Obligations.DirectiveQueueStaysInStep := by
  constructor
  · intro s t hlen ok h
    obtain hs | ⟨ht, -⟩ := step_settles hlen h
    · exact hs.ok ok
    · exact ht
  · intro s t hlen ok hd h
    obtain hs | ⟨-, ht⟩ := step_settles hlen h
    · have hsame : SameDue s { s with pending := s.pending.tail } := ⟨rfl, rfl, rfl, fun _ => rfl, rfl, rfl, rfl, id⟩
      exact hs.due hlen ok (hsame.due_of_ok ok hd)
    · exact ht

end Sys2Proof.Machine
end

-- Proofs of the family 'other': writes that are turned away or taken without an entry, and the status commands.
section
/-! PROOFS. Writes of Port A that are turned away or taken without an entry, and the status commands (R39 to R43, R141, R142, R177). -/

namespace Sys2Proof.Machine

/-! ### What a link carries -/

theorem State.reading_of_idle {s : State} {p : Port} (h : (s.port p).link = .idle) : s.reading p = none := by
  unfold State.reading
  rw [h]

theorem State.reading_congr {s t : State} {p : Port} (h : (t.port p).link = (s.port p).link) : t.reading p = s.reading p := by
  unfold State.reading
  rw [h]

/-- A change after which Port A's link is free and Port T's is as it was begins no read. -/
theorem State.NoReads.of_idle {s t : State} (h : s.NoReads) (hA : t.portA.link = .idle) (hT : t.portT = s.portT) : t.NoReads :=
  ⟨State.reading_of_idle hA, by rw [← h.linkT]; exact State.reading_congr (congrArg PortState.link hT)⟩

/-- A change of neither link begins no read. -/
theorem State.NoReads.of_links {s t : State} (h : s.NoReads) (hA : t.portA.link = s.portA.link) (hT : t.portT.link = s.portT.link) :
    t.NoReads :=
  ⟨(State.reading_congr (s := s) (p := .a) hA).trans h.linkA, (State.reading_congr (s := s) (p := .t) hT).trans h.linkT⟩

theorem State.finish_of_not_due {s : State} (hd : s.due = none) (hr : s.NoReads) : s.finish = s := by
  rw [State.finish, State.settle_of_not_due hd, hr.runReads]

/-! ### The status commands -/

/-- The five flags of R192, from bit 0 up, and nothing above them. -/
theorem flags_getLsbD : ∀ b w p e i : Bool,
    let x := byte (b.toNat + 2 * w.toNat + 4 * p.toNat + 8 * e.toNat + 16 * i.toNat)
    x.getLsbD 0 = b ∧ x.getLsbD 1 = w ∧ x.getLsbD 2 = p ∧ x.getLsbD 3 = e ∧ x.getLsbD 4 = i ∧
    ∀ k < 8, 5 ≤ k → x.getLsbD k = false := by decide

theorem PortState.statusByte_bits (x : PortState) :
    x.statusByte.getLsbD 0 = x.busy ∧ x.statusByte.getLsbD 1 = x.wel ∧ x.statusByte.getLsbD 2 = x.protectErr ∧
    x.statusByte.getLsbD 3 = x.programErr ∧ x.statusByte.getLsbD 4 = x.ignored ∧
    ∀ k, 5 ≤ k → x.statusByte.getLsbD k = false := by
  obtain ⟨h0, h1, h2, h3, h4, h5⟩ := flags_getLsbD x.busy x.wel x.protectErr x.programErr x.ignored
  refine ⟨h0, h1, h2, h3, h4, fun k hk => ?_⟩
  by_cases hlt : k < 8
  · exact h5 k hlt hk
  · exact BitVec.getLsbD_of_ge _ _ (Nat.le_of_not_lt hlt)

theorem State.occupied_eq_false {s : State} {p : Port} (h : (s.port p).link = .idle) : s.occupied p = false := by
  simp [State.occupied, h]

theorem State.occupied_eq_true {s : State} {p : Port} (h : (s.port p).link ≠ .idle) : s.occupied p = true := decide_eq_true h

/-- Settles O11: the flags one by one, then each command on a free link and on an occupied one. -/
theorem statusCommands : Obligations.StatusCommands := by
  refine ⟨PortState.statusByte_bits, fun p s => ⟨fun h => ?_, fun h => ?_⟩⟩
  · have free : ¬ s.occupied p = true := by rw [State.occupied_eq_false h]; exact Bool.false_ne_true
    exact ⟨if_neg free, if_neg free, if_neg free, fun _ => if_neg free⟩
  · have busy := State.occupied_eq_true h
    exact ⟨if_pos busy, if_pos busy, if_pos busy, fun _ => if_pos busy⟩

/-! ### Programs to the status page and to a busy slot (R177) -/

/-- A write that the Classifier has taken and that is refused after all. -/
theorem State.refuse_taken (s : State) (kind : WriteKind) (a : Nat) (r : RefusalReason) :
    (s.onPort .a PortState.taken).refuse .a kind a r =
      { s with portA := { s.portA.taken with protectErr := true }, dir := s.dir.refusing .a kind a r } := State.refuse_onPort ..

/-- Settles O15: the two refusals of R177 are the first two branches of the directive window's program. -/
theorem slotProgramRefused : Obligations.SlotProgramRefused := by
  intro a b data d s l h hverdict
  have exec_eq : exec (closedWrite .a .program a data) s =
      .next ((s.onPort .a PortState.taken).programWindow l b.toNat (covered b.toNat d)) := by
    rw [h.exec_eq, hverdict, State.act]
  refine ⟨fun hpage => ?_, fun hpage hbusy => ?_⟩
  · have hrefuse : (s.onPort .a PortState.taken).programWindow l b.toNat (covered b.toNat d) =
        (s.onPort .a PortState.taken).refuse .a .program b.toNat .statusPage := if_pos hpage
    rw [exec_eq, hrefuse, State.refuse_taken]
  · have hrefuse : (s.onPort .a PortState.taken).programWindow l b.toNat (covered b.toNat d) =
        (s.onPort .a PortState.taken).refuse .a .program b.toNat .slotBusy := (if_neg hpage).trans (if_pos hbusy)
    rw [exec_eq, hrefuse, State.refuse_taken]

/-! ### A program that finds no page (R47, R49) -/

/-- Without a free page, a run or a directive, a busy cause PAGE waits: no moment is due. -/
theorem State.due_of_no_page {s : State} (hrun : s.dir.running = none) (hjob : s.job = none) (hqueue : s.dir.queue = [])
    (hpool : s.pool = []) (hroom : ∀ q, s.portA.cause ≠ .room q) : s.due = none := by
  have hawait : s.awaitingStep = none := by
    unfold State.awaitingStep
    split
    · exact if_pos hpool
    · rfl
  rw [State.due_of_idle hrun hjob, hawait, State.roomStep_none hroom, State.directiveStep_none hqueue]
  rfl

/-- Settles O17: the write waits, and with the pool empty nothing that an event looks for is due. -/
theorem programAwaitsPage : Obligations.ProgramAwaitsPage := by
  intro a b data d s l q phys posted h hverdict calm reads hpool
  rw [h.exec_eq, hverdict, State.act]
  have hwait (w : QueuedWrite) (hk : w.kind = .program) :
      (s.onPort .a PortState.taken).takeQueued w =
        { s with portA := { s.portA.taken with awaiting := some w, cause := .page } } := if_pos ⟨hk, hpool⟩
  rw [hwait _ rfl, State.finish_of_not_due]
  · exact State.due_of_no_page calm.running calm.job calm.queue hpool nofun
  · exact reads.of_idle rfl rfl

/-! ### The bytes of a program, by offset (R39) -/

theorem coveredByte_cons (c : Nat × Byte) (l : OffsetBytes) (o : Nat) :
    coveredByte (c :: l) o = if c.1 = o then some c.2 else coveredByte l o := by
  by_cases h : c.1 = o <;> simp [coveredByte, h]

theorem coveredByte_eq_none {l : OffsetBytes} {o : Nat} : coveredByte l o = none ↔ ∀ c ∈ l, c.1 ≠ o := by
  simp [coveredByte]

/-- With offsets that rise, a listed byte is the covered one. -/
theorem coveredByte_of_mem {l : OffsetBytes} (hl : l.Pairwise fun c d => c.1 < d.1) {c : Nat × Byte} (hc : c ∈ l) :
    coveredByte l c.1 = some c.2 := by
  induction l with
  | nil => nomatch hc
  | cons d l ih =>
    obtain ⟨hd, hl⟩ := List.pairwise_cons.1 hl
    rw [coveredByte_cons]
    rcases List.mem_cons.1 hc with rfl | hc
    · exact if_pos rfl
    · rw [if_neg (Nat.ne_of_lt (hd c hc)), ih hl hc]

theorem OffsetBytes.ok_iff (n : Nat) (l : OffsetBytes) :
    OffsetBytes.ok n l = true ↔ (l.Pairwise fun c d => c.1 < d.1) ∧ ∀ c ∈ l, c.1 < n := by
  induction l with
  | nil => simp [OffsetBytes.ok]
  | cons c l ih =>
    cases l with
    | nil => simp [OffsetBytes.ok]
    | cons d l =>
      rw [OffsetBytes.ok, Bool.and_eq_true, decide_eq_true_eq, ih, List.pairwise_cons (a := c)]
      constructor
      · rintro ⟨hcd, hl, hn⟩
        have hc : ∀ x ∈ d :: l, c.1 < x.1 := fun x hx => by
          rcases List.mem_cons.1 hx with rfl | hx
          · exact hcd
          · exact hcd.trans ((List.pairwise_cons.1 hl).1 x hx)
        exact ⟨⟨hc, hl⟩, List.forall_mem_cons.2 ⟨hcd.trans (hn d List.mem_cons_self), hn⟩⟩
      · rintro ⟨⟨hc, hl⟩, hn⟩
        exact ⟨hc d List.mem_cons_self, hl, (List.forall_mem_cons.1 hn).2⟩

/-- What a memory reads as after bytes at rising offsets have been ANDed in (R76, R141). -/
theorem Mem.get_andAll {m : Mem} (hm : Mem.wf m = true) (base : Nat) {l : OffsetBytes} (hl : l.Pairwise fun c d => c.1 < d.1) (o : Nat) :
    Mem.get (Mem.andAll m base l) o = match (if base ≤ o then coveredByte l (o - base) else none) with
      | some v => Mem.get m o &&& v
      | none => Mem.get m o := by
  by_cases h : ∃ c ∈ l, base + c.1 = o
  · obtain ⟨c, hc, rfl⟩ := h
    rw [if_pos (Nat.le_add_right ..), Nat.add_sub_cancel_left, coveredByte_of_mem hl hc]
    exact Mem.get_andAll_of_mem hm base l (hl.imp Nat.ne_of_lt) hc
  · have hnone : (if base ≤ o then coveredByte l (o - base) else none) = none := by
      split
      · exact coveredByte_eq_none.2 fun c hc he => h ⟨c, hc, by omega⟩
      · rfl
    rw [hnone]
    exact Mem.get_andAll_of_not_mem hm base o l fun c hc he => h ⟨c, hc, he⟩

/-- Placing a byte puts no other offset in. -/
theorem mem_placeByte {l : OffsetBytes} {o : Nat} {b : Byte} {c : Nat × Byte} (h : c ∈ placeByte l o b) : c = (o, b) ∨ c ∈ l := by
  induction l with
  | nil => exact .inl (List.mem_singleton.1 h)
  | cons d l ih =>
    rw [placeByte] at h
    split at h
    · exact List.mem_cons.1 h
    · split at h
      · exact (List.mem_cons.1 h).imp_right (List.mem_cons_of_mem _)
      · rcases List.mem_cons.1 h with rfl | h
        · exact .inr List.mem_cons_self
        · exact (ih h).imp_right (List.mem_cons_of_mem _)

theorem pairwise_placeByte {l : OffsetBytes} (hl : l.Pairwise fun c d => c.1 < d.1) (o : Nat) (b : Byte) :
    (placeByte l o b).Pairwise fun c d => c.1 < d.1 := by
  induction l with
  | nil => exact List.pairwise_singleton ..
  | cons d l ih =>
    obtain ⟨hd, hrest⟩ := List.pairwise_cons.1 hl
    rw [placeByte]
    split
    · next hlt =>
      refine List.pairwise_cons.2 ⟨fun c hc => ?_, hl⟩
      rcases List.mem_cons.1 hc with rfl | hc
      · exact hlt
      · exact hlt.trans (hd c hc)
    · next hge =>
      split
      · next heq => exact List.pairwise_cons.2 ⟨fun c hc => heq ▸ hd c hc, hrest⟩
      · next hne =>
        refine List.pairwise_cons.2 ⟨fun c hc => ?_, ih hrest⟩
        rcases mem_placeByte hc with rfl | hc
        · exact Nat.lt_of_le_of_ne (Nat.le_of_not_lt hge) (Ne.symm hne)
        · exact hd c hc

theorem pairwise_placeFrom {acc : OffsetBytes} (h : acc.Pairwise fun c d => c.1 < d.1) (o : Nat) (data : List Byte) :
    (placeFrom acc o data).Pairwise fun c d => c.1 < d.1 := by
  induction data generalizing acc o with
  | nil => exact h
  | cons b data ih => exact ih (pairwise_placeByte h _ b) _

/-- The offsets that a program covers rise. -/
theorem pairwise_covered (a : Nat) (data : List Byte) : (covered a data).Pairwise fun c d => c.1 < d.1 :=
  pairwise_placeFrom .nil _ data

/-! ### Staging writes (R141, R142, R144) -/

/-- An emptied staging buffer has no idle timer (R144). -/
theorem State.stageErase_eq (s : State) : s.stageErase = { s with key := { s.key with staging := [], stageTimer := .stopped } } := by
  simp [State.stageErase, State.judgeStage, State.onKey]

/-- Settles O18: a staging write changes the staging buffer, then its idle timer is judged. -/
theorem stagingWrites : Obligations.StagingWrites := by
  refine ⟨fun a b data d s l e h hverdict hkey hmem => ?_, fun a b data d s l h hverdict => ?_⟩
  · refine ⟨_, by rw [h.exec_eq, hverdict, State.act, State.onPort_life, hkey], fun o => ?_, rfl⟩
    exact Mem.get_andAll hmem.2 _ (pairwise_covered _ _) o
  · rw [h.exec_eq, hverdict, State.act, State.stageErase_eq]
    rfl

end Sys2Proof.Machine
end

-- Proofs of the family 'other': programs to the directive window.
section
/-! PROOFS. Programs to the directive window: the tests of R178 in their order, and the immediate directives SET-EVENT-MASK (R186) and
KEY-HIDE (R159). -/

namespace Sys2Proof.Machine

/-! ### The tests of R178 -/

theorem coversBelow_eq_false {mask : OffsetBytes} {n : Nat} : coversBelow mask n = false ↔ ∃ i < n, covers mask i = false := by
  simp [coversBelow]

theorem malformed_iff (off : Nat) (mask : OffsetBytes) (img : Mem) :
    malformed off mask img = true ↔ off ≠ 0 ∨ (∃ i < 7, covers mask i = false) ∨ Mem.get img 0 ≠ 0x5A ∨ Mem.get img 1 ≠ 0xD7 ∨
      240 < (Mem.get img 4).toNat ∨ (∃ i < 7 + (Mem.get img 4).toNat, covers mask i = false) ∨
      (crc16 (Mem.slice img 0 (5 + (Mem.get img 4).toNat))).toNat ≠ leNat (Mem.slice img (5 + (Mem.get img 4).toNat) 2) := by
  simp only [malformed, Bool.or_eq_true, decide_eq_true_eq, Bool.not_eq_true', coversBelow_eq_false, or_assoc]

/-- The codes of R183 stand for the directives of the table. -/
theorem ofCode_of_mem_table : ∀ x ∈ directiveTable, Directive.ofCode x.1 = some x.2.1 := by decide

theorem ofCode_of_not_mem_table : ∀ c : Byte, (∀ x ∈ directiveTable, x.1 ≠ c) → Directive.ofCode c = none := by decide

/-- The lifecycles of the table of R183 are those in which a directive is allowed. -/
theorem allowed_of_mem_table : ∀ x ∈ directiveTable, ∀ l, x.2.1.allowed l = decide (l ∈ x.2.2) := by
  intro x hx l
  cases l <;> revert x <;> decide

theorem Directive.needsFixture_iff (d : Directive) : d.needsFixture = true ↔ d = .opens ∨ d = .recover := by
  cases d <;> decide

section
variable {s : State} {l : Lifecycle} {off : Nat} {mask : OffsetBytes} {img : Mem}

theorem State.recognize_of_malformed (h : malformed off mask img = true) : s.recognize l off mask img = .error .malformed := if_pos h

theorem State.recognize_of_unknown (h : malformed off mask img = false) (hc : Directive.ofCode (Mem.get img 2) = none) :
    s.recognize l off mask img = .error .unknownCode := by
  simp [State.recognize, h, hc]

/-- A well-formed program with a known code is judged by the lifecycle, then by FIXTURE (R4, R178, R183). -/
theorem State.recognize_of_known {d : Directive} (h : malformed off mask img = false) (hc : Directive.ofCode (Mem.get img 2) = some d) :
    s.recognize l off mask img =
      if d.allowed l = false then .error .notInState
      else if d.needsFixture && !s.life.fixture then .error .fixtureRequired else .ok d := by
  simp [State.recognize, h, hc]

end

/-- Settles O20: the refusal is written into the slot that the program has just filled; the tests are the branches of the recognition. -/
theorem unrecognizedProgram : Obligations.UnrecognizedProgram := by
  refine ⟨fun a b data d s l n c h hc hrec => ?_, fun s l off mask img => ⟨fun hbad => ?_, fun hgood => ?_⟩⟩
  · have hrec' : (s.onPort .a PortState.taken).recognize l (b.toNat % 256) (covered b.toNat d) (Mem.setAll [] 0 (covered b.toNat d)) =
        .error c := hrec
    have hslots : n ≤ (s.onPort .a PortState.taken).dir.slots.length := by rw [State.onPort_dir]; exact h.high
    rw [h.toTakes.exec_eq, h.verdict, State.act, h.programWindow_eq, State.takeSlot, hrec']
    dsimp only
    rw [State.finishSlot_setSlot_written _ h.low hslots, if_neg hc]
    rfl
  · exact State.recognize_of_malformed ((malformed_iff ..).2 hbad)
  · have hwell : malformed off mask img = false := Bool.eq_false_iff.2 fun h => hgood ((malformed_iff ..).1 h)
    refine ⟨fun hx => State.recognize_of_unknown hwell (ofCode_of_not_mem_table _ hx), fun x hx hcode => ?_⟩
    have hknown : Directive.ofCode (Mem.get img 2) = some x.2.1 := hcode ▸ ofCode_of_mem_table x hx
    have hallowed := allowed_of_mem_table x hx l
    have hfixture := x.2.1.needsFixture_iff
    rw [State.recognize_of_known hwell hknown, hallowed]
    refine ⟨fun hl => ?_, fun hl hneeds hlow => ?_, fun hl hneeds => ?_⟩
    · simp [hl]
    · simp [hl, hfixture.2 hneeds, hlow]
    · cases hn : x.2.1.needsFixture with
      | false => simp [hl]
      | true => simp [hl, hneeds (hfixture.1 hn)]

/-! ### SET-EVENT-MASK (R186) -/

/-- R186, given in the slot that its own program has just filled: the parameter is judged, then the mask is set. -/
theorem State.takeSetMask_setSlot_written (s : State) {n : Nat} (low : 1 ≤ n) (high : n ≤ s.dir.slots.length) (img : Mem) :
    (s.setSlot n (Slot.written img)).takeSetMask n img (Mem.get img 4).toNat =
      if Mem.get img 4 ≠ 2 ∨ 8192 ≤ paramNat img 0 2 then
        s.setSlot n (Slot.taken img .refused (some .badParameter) [0])
      else
        (s.onDir fun x => { x with mask := BitVec.ofNat 13 (paramNat img 0 2) }).setSlot n (Slot.taken img .done (some .done) []) := by
  have hlen : (Mem.get img 4).toNat ≠ 2 ↔ Mem.get img 4 ≠ 2 := not_congr (BitVec.toNat_inj (y := 2))
  have hmask (m : BitVec 13) : (s.setSlot n (Slot.written img)).onDir (fun x => { x with mask := m }) =
      (s.onDir fun x => { x with mask := m }).setSlot n (Slot.written img) := rfl
  simp only [State.takeSetMask, hlen, hmask]
  rw [State.finishSlot_setSlot_written s low high,
    State.finishSlot_setSlot_written (s.onDir fun x => { x with mask := BitVec.ofNat 13 (paramNat img 0 2) }) low high]
  rfl

/-- EVENT is low exactly when the event set and the mask share a member (R187). -/
theorem State.eventLow_iff (s : State) :
    s.eventLow = true ↔ ∃ i < 13, s.dir.events.getLsbD i = true ∧ s.dir.mask.getLsbD i = true := by
  have hzero : s.dir.events &&& s.dir.mask = 0 ↔ ∀ i < 13, ¬ (s.dir.events.getLsbD i = true ∧ s.dir.mask.getLsbD i = true) := by
    rw [BitVec.eq_of_getLsbD_eq_iff]
    simp
  simp only [State.eventLow, decide_eq_true_eq, Ne, hzero, not_forall, not_not, exists_prop]

/-- Settles O22: both ends of SET-EVENT-MASK write the slot that the program filled, and only DONE sets the mask. -/
theorem eventMaskSet : Obligations.EventMaskSet := by
  refine ⟨fun a b data d s l n h hrec => ?_, fun s => ⟨s.eventLow_iff, fun hmask => ?_⟩⟩
  · have hslots : n ≤ (s.onPort .a PortState.taken).dir.slots.length := by rw [State.onPort_dir]; exact h.high
    rw [h.exec_of_recognized hrec, State.takeDirective, State.takeSetMask_setSlot_written _ h.low hslots]
    split <;> rfl
  · simp [State.eventLow, hmask]

/-! ### KEY-HIDE (R159) -/

theorem State.hideKeySegment_of_no_read {s : State} (h : s.reading .a = none) : s.hideKeySegment = s := by
  unfold State.hideKeySegment
  rw [h]

/-- R158: release closes; with no read of Port A in progress nothing else comes of it. -/
theorem State.closeRelease_of_released {s : State} (hw : s.key.window = .released) (hr : s.reading .a = none) :
    s.closeRelease = { s with
      key := { s.key with window := .hidden, releaseTimer := .stopped }
      dir := { s.dir with events := s.dir.events ||| 0x0200#13 } } :=
  (if_pos hw).trans (State.hideKeySegment_of_no_read hr)

/-- R159, given in the slot that its own program has just filled. -/
theorem State.takeKeyHide_setSlot_written (s : State) {n : Nat} (low : 1 ≤ n) (high : n ≤ s.dir.slots.length)
    (hr : s.reading .a = none) (img : Mem) :
    (s.setSlot n (Slot.written img)).takeKeyHide n (Mem.get img 4).toNat =
      if Mem.get img 4 ≠ 0 then s.setSlot n (Slot.taken img .refused (some .badParameter) [0])
      else if s.key.window = .released then s.closeRelease.setSlot n (Slot.taken img .done (some .done) [1])
      else s.setSlot n (Slot.taken img .done (some .done) [0]) := by
  have hlen : (Mem.get img 4).toNat ≠ 0 ↔ Mem.get img 4 ≠ 0 := not_congr (BitVec.toNat_inj (y := 0))
  have hkey : (s.setSlot n (Slot.written img)).key = s.key := rfl
  simp only [State.takeKeyHide, hlen, hkey]
  rw [State.finishSlot_setSlot_written s low high, State.finishSlot_setSlot_written s low high]
  by_cases hw : s.key.window = .released
  · have hcommute : (s.setSlot n (Slot.written img)).closeRelease = s.closeRelease.setSlot n (Slot.written img) := by
      rw [State.closeRelease_of_released (s := s.setSlot n _) hw hr, State.closeRelease_of_released hw hr]
      rfl
    have hslots : n ≤ s.closeRelease.dir.slots.length := by rw [State.closeRelease_of_released hw hr]; exact high
    rw [hcommute, State.finishSlot_setSlot_written _ low hslots]
    rfl
  · rw [if_neg hw, if_neg hw]
    rfl

/-- Settles O23: release closes before the slot is written, and the link that carried the program is free. -/
theorem keyHideCloses : Obligations.KeyHideCloses := by
  intro a b data d s l n h hrec
  have hslots : n ≤ (s.onPort .a PortState.taken).dir.slots.length := by rw [State.onPort_dir]; exact h.high
  have hread : (s.onPort .a PortState.taken).reading .a = none := State.reading_of_idle rfl
  rw [h.exec_of_recognized hrec, State.takeDirective, State.takeKeyHide_setSlot_written _ h.low hslots hread]
  split
  · rfl
  · rw [State.onPort_key]
    split
    next hw => rw [State.closeRelease_of_released (s := s.onPort .a _) hw hread]; rfl
    · rfl

end Sys2Proof.Machine
end

-- Proofs of the family 'other': how directives start, wait and end.
section
/-! PROOFS. How a directive ends, whatever it is (R182), how one starts and waits (R181), and what an event brings about then. -/

namespace Sys2Proof.Machine

/-! ### Ends that are counted (R30, R144, R182) -/

theorem State.uncount_flip {s : State} {n : Nat} (h : (s.slot n).directive = some .flip) :
    s.uncount n = { s with dir := { s.dir with flipCount := s.dir.flipCount - 1 } } := by
  unfold State.uncount
  rw [h]
  rfl

theorem State.uncount_seals {s : State} {n : Nat} (h : (s.slot n).directive = some .seals) :
    s.uncount n = { s with key := s.key.unsealed } := by
  unfold State.uncount
  rw [h]
  rfl

theorem State.uncount_other {s : State} {n : Nat} (hflip : (s.slot n).directive ≠ some .flip) (hseals : (s.slot n).directive ≠ some .seals) :
    s.uncount n = s := by
  unfold State.uncount
  split
  · next h => exact absurd h hflip
  · next h => exact absurd h hseals
  · rfl

/-- Slot `n` stands at the head of the directive queue. -/
structure State.Heads (s : State) (n : Nat) : Prop where
  queue : s.dir.queue.head? = some n
  low : 1 ≤ n
  high : n ≤ s.dir.slots.length

/-- The directive of the slot at the head ends (R182, steps 1 to 3). -/
def State.ended (s : State) (n : Nat) (c : ResultCode) (data : List Byte) : State := { s with dir := s.dir.ended n c data }

section
variable {s : State} {n : Nat}

theorem State.Heads.slot_ended (h : s.Heads n) (c : ResultCode) (data : List Byte) :
    ((s.ended n c data).slot n).directive = (s.slot n).directive := by
  have := h.low
  have := h.high
  have hn : n - 1 < s.dir.slots.length := by omega
  simp [State.ended, DirectiveUnit.ended, State.slot, List.getD, hn, Slot.directive]

/-- R182: the end, and then the count that the directive leaves. -/
theorem State.Heads.endDirective (h : s.Heads n) (c : ResultCode) (data : List Byte) :
    s.endDirective c data = (s.ended n c data).uncount n := by
  have hhead : s.headSlot = n := by rw [State.headSlot, List.headD_eq_head?_getD, h.queue]; rfl
  rw [State.endDirective, hhead, State.ended]
  congr 1
  simp only [State.raise, Event.bit_of_end]
  rfl

theorem State.Heads.endDirective_other (h : s.Heads n) (hflip : (s.slot n).directive ≠ some .flip)
    (hseals : (s.slot n).directive ≠ some .seals) (c : ResultCode) (data : List Byte) : s.endDirective c data = s.ended n c data := by
  rw [h.endDirective, State.uncount_other] <;> rwa [h.slot_ended]

theorem State.Heads.endDirective_flip (h : s.Heads n) (hd : (s.slot n).directive = some .flip) (c : ResultCode) (data : List Byte) :
    s.endDirective c data = { s with dir := { s.dir.ended n c data with flipCount := s.dir.flipCount - 1 } } := by
  rw [h.endDirective, State.uncount_flip ((h.slot_ended c data).trans hd)]
  rfl

theorem State.Heads.endDirective_seals (h : s.Heads n) (hd : (s.slot n).directive = some .seals) (c : ResultCode) (data : List Byte) :
    s.endDirective c data = { s with dir := s.dir.ended n c data, key := s.key.unsealed } := by
  rw [h.endDirective, State.uncount_seals ((h.slot_ended c data).trans hd)]
  rfl

end

/-! ### The moments of a directive that waits -/

/-- The moment at which the directive goes on from a phase that waits for queues or for a pass. -/
def State.fenceStep (s : State) : Phase → Option State
  | .setMapFence _ _ => s.setMapFenceStep
  | .closeFence => s.closeFenceStep
  | .recoverFence => s.recoverFenceStep
  | .sealFence => s.sealFenceStep
  | .serviceCloseFence => s.serviceCloseFenceStep
  | .flipDrain _ _ => s.flipDrainStep
  | .syncWait _ => s.syncStep
  | .flipArm => s.flipSwitchStep
  | _ => none

/-- A directive runs in a phase without Q-SYS work, and Port A waits for nothing that a moment could bring about: only the phase's own
moment can be due. -/
structure State.Waits (s : State) (ph : Phase) : Prop where
  running : s.dir.running = some ph
  job : s.job = none
  awaiting : s.portA.awaiting = none
  noRoom : ∀ q, s.portA.cause ≠ .room q

theorem firstDue_cons (s : State) (f : State → Option State) (l : List (State → Option State)) :
    firstDue s (f :: l) = (f s).or (firstDue s l) := by
  rw [firstDue]
  cases f s <;> rfl

theorem State.Waits.due {s : State} {ph : Phase} (h : s.Waits ph) : s.due = s.fenceStep ph := by
  simp only [State.due, moments, firstDue_cons, State.awaitingStep_none h.awaiting, State.sysStep, State.roomStep_none h.noRoom,
    State.recordStep, State.recoverEraseStep, State.sealProgramStep, State.sealFailedStep, State.directiveStep, h.running, h.job,
    Option.none_or]
  cases ph <;>
    simp only [firstDue, State.fenceStep, State.setMapFenceStep, State.closeFenceStep, State.recoverFenceStep, State.sealFenceStep,
      State.serviceCloseFenceStep, State.flipDrainStep, State.syncStep, State.flipSwitchStep, h.running, Option.none_or, Option.or_none]

/-- A directive that goes on waiting brings nothing about. -/
theorem State.Waits.finish {s : State} {ph : Phase} (h : s.Waits ph) (hf : s.fenceStep ph = none) (hr : s.NoReads) : s.finish = s :=
  State.finish_of_not_due (h.due.trans hf) hr

/-- One due moment is carried out first, then the others. -/
theorem State.finish_of_due {s t : State} (h : s.due = some t) : s.finish = (settleUpTo 511 t).runReads := by
  rw [State.finish, State.settle, settleBound, settleUpTo, h]

/-- A moment that leads to a directive that waits for its run of work, and what follows it in the event. -/
theorem State.Steady.finish_due {s t : State} {ph : Phase} {w : Option Work} (ht : t.Steady ph w) (hd : s.due = some t) : Made t s.finish := by
  rw [State.finish_of_due hd]
  exact (ht.settleUpTo 511).1.trans (Apart.runReads _).made

/-- A moment that ends the last directive ends the event. -/
theorem State.Calm.finish_due {s t : State} (ht : t.Calm) (hr : t.NoReads) (hd : s.due = some t) : s.finish = t := by
  rw [State.finish, State.settle_of_due hd ht.due, hr.runReads]

/-! ### Fences (R69) -/

/-- A queue that holds an entry holds a fence over it. -/
theorem State.fenceClear_eq_false {s : State} {qs : List QueueId} (h : ∃ q ∈ qs, s.entriesOf q ≠ []) : s.fenceClear qs = false := by
  obtain ⟨q, hq, he⟩ := h
  refine Bool.eq_false_iff.2 fun hc => he ?_
  have := List.all_eq_true.1 hc q hq
  simp only [State.fenceEmpty, Bool.and_eq_true, List.isEmpty_iff] at this
  exact this.1

/-- Empty queues and no awaiting write let a fence end. -/
theorem State.fenceClear_eq_true {s : State} {qs : List QueueId} (h : ∀ q ∈ qs, s.entriesOf q = []) (ha : s.portA.awaiting = none) :
    s.fenceClear qs = true :=
  List.all_eq_true.2 fun q hq => by simp [State.fenceEmpty, h q hq, ha]

theorem QueueId.mem_all (q : QueueId) : q ∈ [QueueId.sys, .pass, .set, .uni] := by cases q <;> decide

theorem QueueId.mem_of_ne_sys {q : QueueId} (h : q ≠ .sys) : q ∈ [QueueId.pass, .set, .uni] := by
  cases q with
  | sys => exact absurd rfl h
  | pass | set | uni => decide

/-! ### A directive that starts (R181) -/

section
variable {s u : State} {n : Nat} {d : Directive} {img : Mem} {len : Nat}

theorem State.Starts.heads (h : s.Starts n d img len) (hq : u.dir.queue = s.dir.queue)
    (hslots : u.dir.slots = (s.started n).dir.slots) : u.Heads n where
  queue := by rw [hq, h.queue]; rfl
  low := h.low
  high := by rw [hslots]; exact Nat.le_trans h.high (Nat.le_of_eq List.length_set.symm)

theorem State.Starts.slot_directive (h : s.Starts n d img len) (hslots : u.dir.slots = (s.started n).dir.slots) :
    (u.slot n).directive = some d := by
  have hslot : u.slot n = { s.slot n with state := .running } := by
    rw [State.slot, hslots]
    exact State.slot_onSlot s h.low h.high _
  rw [hslot]
  exact h.code

/-- A change of neither port after which no directive stands in the queue leaves nothing to come about. -/
theorem State.Starts.finish_of_ended (h : s.Starts n d img len) (hq : u.dir.queue = []) (hr : u.dir.running = none) (hjob : u.job = s.job)
    (hA : u.portA = s.portA) (hT : u.portT = s.portT) : u.finish = u := by
  have calm : u.Calm :=
    { queue := hq
      running := hr
      job := hjob.trans h.job
      awaiting := (congrArg PortState.awaiting hA).trans h.awaiting
      noRoom := fun q hc => h.noRoom q ((congrArg PortState.cause hA).symm.trans hc) }
  exact calm.finish_eq (h.toNoReads.of_links (congrArg PortState.link hA) (congrArg PortState.link hT))

/-- R182: a directive that no count follows, that raises events `ev` and ends in the event in which it starts. -/
theorem State.Starts.finish_events (h : s.Starts n d img len) (hflip : d ≠ .flip) (hseals : d ≠ .seals) {ev : BitVec 13}
    (hdir : u.dir = { (s.started n).dir with events := ev }) (hjob : u.job = s.job) (hA : u.portA = s.portA) (hT : u.portT = s.portT)
    (c : ResultCode) (data : List Byte) :
    (u.endDirective c data).finish =
      { u with dir := { s.dir.ended n c data with events := ev ||| (if c = .done then 0x0001#13 else 0x0002#13) } } := by
  have hd : (u.slot n).directive = some d := h.slot_directive (by rw [hdir])
  have hend : u.endDirective c data =
      { u with dir := { s.dir.ended n c data with events := ev ||| (if c = .done then 0x0001#13 else 0x0002#13) } } := by
    rw [(h.heads (by rw [hdir]; rfl) (by rw [hdir])).endDirective_other (by rw [hd]; exact fun e => hflip (Option.some.inj e))
      (by rw [hd]; exact fun e => hseals (Option.some.inj e)), State.ended, hdir, ← State.started_dir_ended s h.low h.high]
    rfl
  rw [hend]
  exact h.finish_of_ended (congrArg List.tail h.queue) rfl hjob hA hT

/-- R182: a directive that no count follows and that ends in the event in which it starts. -/
theorem State.Starts.finish_end (h : s.Starts n d img len) (hflip : d ≠ .flip) (hseals : d ≠ .seals)
    (hdir : u.dir = (s.started n).dir) (hjob : u.job = s.job) (hA : u.portA = s.portA) (hT : u.portT = s.portT)
    (c : ResultCode) (data : List Byte) : (u.endDirective c data).finish = { u with dir := s.dir.ended n c data } := by
  rw [h.endDirective_eq hflip hseals hdir]
  exact h.finish_ended hjob hA hT c data

/-- A FLIP that is refused as it starts leaves the Classifier's count (R30). -/
theorem State.Starts.finish_flip (h : s.Starts n .flip img len) (c : ResultCode) (data : List Byte) :
    ((s.started n).endDirective c data).finish = { s with dir := { s.dir.ended n c data with flipCount := s.dir.flipCount - 1 } } := by
  rw [(h.heads (u := s.started n) rfl rfl).endDirective_flip (h.slot_directive rfl), State.started_dir_ended s h.low h.high]
  exact h.finish_of_ended (congrArg List.tail h.queue) rfl rfl rfl rfl

/-- A SEAL that is refused as it starts leaves the Key Store Controller's count (R144). -/
theorem State.Starts.finish_seals (h : s.Starts n .seals img len) (c : ResultCode) (data : List Byte) :
    ((s.started n).endDirective c data).finish = { s with dir := s.dir.ended n c data, key := s.key.unsealed } := by
  rw [(h.heads (u := s.started n) rfl rfl).endDirective_seals (h.slot_directive rfl), State.started_dir_ended s h.low h.high]
  exact h.finish_of_ended (congrArg List.tail h.queue) rfl rfl rfl rfl

/-- A directive that has started and has entered a phase. -/
theorem State.started_enter (s : State) (n : Nat) (ph : Phase) : (s.started n).enter ph = { s with dir := s.dir.begun n ph } := rfl

theorem State.Starts.waits (h : s.Starts n d img len) (hr : u.dir.running = some ph) (hjob : u.job = s.job) (hA : u.portA = s.portA) :
    u.Waits ph where
  running := hr
  job := hjob.trans h.job
  awaiting := (congrArg PortState.awaiting hA).trans h.awaiting
  noRoom := fun q hc => h.noRoom q ((congrArg PortState.cause hA).symm.trans hc)

/-- A directive that has started and waits in a phase that does not end in the same event. -/
theorem State.Starts.finish_begun (h : s.Starts n d img len) {ph : Phase}
    (hf : State.fenceStep { s with dir := s.dir.begun n ph } ph = none) :
    State.finish ((s.started n).enter ph) = { s with dir := s.dir.begun n ph } :=
  State.Waits.finish (h.waits rfl rfl rfl) hf (h.toNoReads.of_links rfl rfl)

end

/-! ### The first parameter that fails a test -/

theorem firstBad_eq_some {img : Mem} {bad : Nat → Bool} {n k i : Nat} (hi : i < n) (hbad : bad (param img (k + i)).toNat = true)
    (hgood : ∀ j < i, bad (param img (k + j)).toNat = false) : firstBad img bad n k = some (k + i) := by
  induction n generalizing k i with
  | zero => exact absurd hi (Nat.not_lt_zero i)
  | succ n ih =>
    cases i with
    | zero => exact if_pos hbad
    | succ i =>
      have hk := hgood 0 (Nat.succ_pos i)
      rw [Nat.add_zero] at hk
      have hrec := ih (k := k + 1) (i := i) (Nat.lt_of_succ_lt_succ hi) (by rw [Nat.add_right_comm]; exact hbad)
        fun j hj => by rw [Nat.add_right_comm]; exact hgood (j + 1) (Nat.succ_lt_succ hj)
      rw [firstBad, hk, if_neg Bool.false_ne_true, hrec, Nat.add_right_comm]
      rfl

theorem firstBad_eq_none {img : Mem} {bad : Nat → Bool} {n k : Nat} (hgood : ∀ j < n, bad (param img (k + j)).toNat = false) :
    firstBad img bad n k = none := by
  induction n generalizing k with
  | zero => rfl
  | succ n ih =>
    have hk := hgood 0 (Nat.succ_pos n)
    rw [Nat.add_zero] at hk
    rw [firstBad, hk, if_neg Bool.false_ne_true]
    exact ih fun j hj => by rw [Nat.add_right_comm]; exact hgood (j + 1) (Nat.succ_lt_succ hj)

end Sys2Proof.Machine
end

-- Proofs of the family 'other': preemption and aging.
section
/-! PROOFS. Preemption (R90 to R92): when a port's read suspends the operation in flight and what is granted then; the aging step (R81), the
issue of a command (R85) and a failed verify (R86). -/

namespace Sys2Proof.Machine

/-! ### Bids of the port reads -/

theorem claimQueue_of_port {c : Claimant} (h : c = .tRead ∨ c = .aRead) : claimQueue c = none := by
  rcases h with rfl | rfl <;> rfl

theorem isPortRead_iff (c : Claimant) : isPortRead c = true ↔ c = .tRead ∨ c = .aRead := by cases c <;> decide

/-- R80: the bid of a port's read is its weight and its aged steps. -/
theorem State.bid_port {s : State} {c : Claimant} (h : c = .tRead ∨ c = .aRead) :
    s.bid c = (s.claim c).map fun cl => 64 * s.engine.weights.get c + min 63 cl.aged := by
  simp only [State.bid, State.level, claimQueue_of_port h]

/-- The bid of a port's read is the Arbiter's own. -/
theorem State.bid_port_congr {s t : State} {c : Claimant} (h : c = .tRead ∨ c = .aRead) (hclaims : t.engine.claims = s.engine.claims)
    (hweights : t.engine.weights = s.engine.weights) : t.bid c = s.bid c := by
  rw [State.bid_port h, State.bid_port h, State.claim, State.claim, hclaims, hweights]

theorem State.highest_ports_congr {s t : State} (hclaims : t.engine.claims = s.engine.claims)
    (hweights : t.engine.weights = s.engine.weights) : t.highest [.tRead, .aRead] = s.highest [.tRead, .aRead] := by
  have hT := State.bid_port_congr (c := .tRead) (.inl rfl) hclaims hweights
  have hA := State.bid_port_congr (c := .aRead) (.inr rfl) hclaims hweights
  cases eT : s.bid .tRead <;> cases eA : s.bid .aRead <;> simp [State.highest, State.better, hT, hA, eT, eA]

/-- The winner stands among the claimants asked. -/
theorem State.mem_of_highest {s : State} {cs : List Claimant} {c : Claimant} (h : s.highest cs = some c) : c ∈ cs := by
  have hwins := s.wins_highest cs
  rw [h] at hwins
  obtain ⟨before, after, -, rfl, -⟩ := hwins
  exact List.mem_append_right _ List.mem_cons_self

/-- A port's read that claims alone wins. -/
theorem State.highest_of_only {s : State} {c : Claimant} {cl : Claim} (hc : c = .tRead ∨ c = .aRead) (hcl : s.claim c = some cl)
    (honly : ∀ d, d ≠ c → d = .tRead ∨ d = .aRead → s.claim d = none) : s.highest [.tRead, .aRead] = some c := by
  have hbid := State.bid_of_claim hcl
  rcases hc with rfl | rfl
  · have hA : s.bid .aRead = none := State.bid_eq_none.2 (honly .aRead (by decide) (.inr rfl))
    simp [State.highest, State.better, hbid, hA]
  · have hT : s.bid .tRead = none := State.bid_eq_none.2 (honly .tRead (by decide) (.inl rfl))
    simp [State.highest, State.better, hbid, hT]

/-! ### Grants and suspensions -/

/-- R82: a read claim that is granted starts its page read. -/
theorem State.grant_read {s : State} {c : Claimant} {cl : Claim} {x : ReadRange} (hq : claimQueue c = none) (hc : s.claim c = some cl)
    (hx : cl.range = some x) :
    s.grant c = { s with engine := { s.engine with
      claims := s.engine.claims.put c none, read := some { claimant := c, range := x, discard := false } } } := by
  simp only [State.grant, hc, hq, PageRead.of, hx]
  rfl

theorem State.headState_setHead (s : State) (q : QueueId) (f : Entry → Entry) :
    (s.setHead q f).headState q = ((s.entriesOf q).head?.map f).map Entry.state := by
  rw [State.headState, State.entriesOf, State.setHead, State.onQueue_get]
  show ((onFirst f (s.entriesOf q)).head?).map Entry.state = _
  cases s.entriesOf q <;> rfl

/-- A head that is given a state has it. -/
theorem State.headState_setHead_state {s : State} {q : QueueId} (h : s.headState q ≠ none) {f : Entry → Entry} {st : EntryState}
    (hf : ∀ e, (f e).state = st) : (s.setHead q f).headState q = some st := by
  rw [State.headState_setHead]
  rw [State.headState] at h
  cases he : (s.entriesOf q).head? with
  | none => simp [he] at h
  | some e => simp [hf]

/-- R92: during a suspension the grant point goes to the port reads. -/
theorem State.grantPoint_of_suspended {s : State} {q : QueueId} {d : Claimant} (hread : s.engine.read = none)
    (hwrite : s.engine.write = some q) (hhead : s.headState q = some .suspended) (hd : s.highest [.tRead, .aRead] = some d) :
    s.grantPoint = s.grant d := by
  have hsusp : s.suspended = true := by simp [State.suspended, hwrite, hhead]
  simp [State.grantPoint, hread, hwrite, hsusp, hd]

/-- The operation in flight is suspended, before the grant point of R92. -/
def State.halted (s : State) (q : QueueId) : State :=
  (s.setHead q fun e => { e with state := .suspended }).onEngine fun x => { x with suspendCount := x.suspendCount + 1 }

/-- R91, R92: the operation is suspended and Port F goes to the winner of the port reads. -/
theorem State.suspend_eq {s : State} {q : QueueId} {d : Claimant} {cl : Claim} {x : ReadRange} (hread : s.engine.read = none)
    (hwrite : s.engine.write = some q) (hhead : s.headState q ≠ none) (hd : s.highest [.tRead, .aRead] = some d)
    (hcl : s.claim d = some cl) (hx : cl.range = some x) :
    s.suspend q =
      { s.setHead q (fun e => { e with state := .suspended }) with
        engine := { s.engine with
          claims := s.engine.claims.put d none
          read := some { claimant := d, range := x, discard := false }
          suspendCount := s.engine.suspendCount + 1 } } := by
  have hport : d = .tRead ∨ d = .aRead := by simpa using State.mem_of_highest hd
  have hsusp : (s.halted q).headState q = some .suspended := State.headState_setHead_state hhead fun _ => rfl
  have hwins : (s.halted q).highest [.tRead, .aRead] = some d := hd ▸ State.highest_ports_congr rfl rfl
  have hgrant : s.suspend q = (s.halted q).grant d := State.grantPoint_of_suspended (s := s.halted q) hread hwrite hsusp hwins
  rw [hgrant, State.grant_read (s := s.halted q) (claimQueue_of_port hport) hcl hx]
  rfl

/-- R90: nothing preempts where no operation is in WAIT, at the suspend limit, or with no port read at the bar. -/
theorem State.judgePreempt_of_not {s : State} (h : ∀ q, s.engine.write = some q →
    s.headState q ≠ some (.active .wait) ∨ s.engine.limit ≤ s.engine.suspendCount ∨
    ∀ c cl, c = .tRead ∨ c = .aRead → s.claim c = some cl → 64 * s.engine.weights.get c + min 63 cl.aged < s.engine.bar) :
    s.judgePreempt = s := by
  unfold State.judgePreempt
  split
  · next q hq =>
    refine if_neg ?_
    rintro ⟨hwait, hlimit, hover⟩
    rcases h q hq with hn | hn | hn
    · exact hn hwait
    · omega
    · have below (c : Claimant) (hc : c = .tRead ∨ c = .aRead) : s.overBar c = false := by
        rw [State.overBar, State.bid_port hc]
        cases hcl : s.claim c with
        | none => rfl
        | some cl => exact decide_eq_false (Nat.not_le.2 (hn c cl hc hcl))
      rw [below _ (.inl rfl), below _ (.inr rfl)] at hover
      exact Bool.false_ne_true hover
  · rfl

theorem State.overBar_of_claim {s : State} {c : Claimant} {cl : Claim} (hc : c = .tRead ∨ c = .aRead) (hcl : s.claim c = some cl)
    (hbar : s.engine.bar ≤ 64 * s.engine.weights.get c + min 63 cl.aged) : s.overBar c = true := by
  rw [State.overBar, State.bid_port hc, hcl]
  exact decide_eq_true hbar

/-- R90: a port's read at the bar preempts an operation in WAIT below the suspend limit. -/
theorem State.judgePreempt_of_bar {s : State} {q : QueueId} {c : Claimant} {cl : Claim} (hwrite : s.engine.write = some q)
    (hwait : s.headState q = some (.active .wait)) (hlimit : s.engine.suspendCount < s.engine.limit) (hc : c = .tRead ∨ c = .aRead)
    (hcl : s.claim c = some cl) (hbar : s.engine.bar ≤ 64 * s.engine.weights.get c + min 63 cl.aged) :
    s.judgePreempt = s.suspend q := by
  have hover : (s.overBar .tRead || s.overBar .aRead) = true := by
    have := State.overBar_of_claim hc hcl hbar
    rcases hc with rfl | rfl <;> simp [this]
  rw [State.judgePreempt, hwrite]
  exact if_pos ⟨hwait, hlimit, hover⟩

/-! ### The aging step (R81) -/

/-- Settles O57: the step is the claim's own, and preemption is judged only for a port's read. -/
theorem agingStepRaisesBid : Obligations.AgingStepRaisesBid := by
  intro s c
  refine ⟨fun hnone => ?_, fun cl hcl hquiet => ?_, fun cl q x hcl hc hwrite hwait hread hlimit hx honly hbar => ?_⟩
  · change Host.Outcome.next (s.ageClaim c) = _
    simp [State.ageClaim, hnone]
  · change Host.Outcome.next (s.ageClaim c) = _
    rw [State.ageClaim, hcl]
    dsimp only
    split
    · next hport =>
      rcases hquiet with hn | hw
      · exact absurd ((isPortRead_iff c).1 hport) (by simp [hn])
      · rw [State.judgePreempt_of_not fun q hq => ?_]
        · rfl
        · rw [show (s.setClaim c _).engine.write = s.engine.write from rfl, hw] at hq
          nomatch hq
    · rfl
  · let older : Claim := { cl with aged := cl.aged + 1, due := s.engine.interval }
    have hage : s.ageClaim c = (s.setClaim c (some older)).judgePreempt := by
      simp [State.ageClaim, hcl, (isPortRead_iff c).2 hc, older]
    have hself : (s.setClaim c (some older)).claim c = some older := State.claim_setClaim ..
    have hothers : ∀ d, d ≠ c → d = .tRead ∨ d = .aRead → (s.setClaim c (some older)).claim d = none := fun d hd hp =>
      (PerClaimant.get_put_ne _ _ hd).trans (honly d hd hp)
    have hsusp : s.ageClaim c = (s.setClaim c (some older)).suspend q :=
      hage.trans (State.judgePreempt_of_bar (s := s.setClaim c (some older)) (cl := older) hwrite hwait hlimit hc hself hbar)
    have hne : (s.setClaim c (some older)).headState q ≠ none := by
      show s.headState q ≠ none
      rw [hwait]
      exact nofun
    refine ⟨s.ageClaim c, rfl, ?_, ?_, ?_, ?_, Apart.ageClaim ..⟩ <;>
      rw [hsusp, State.suspend_eq (s := s.setClaim c (some older)) hread hwrite hne (State.highest_of_only hc hself hothers) hself hx]
    · exact State.headState_setHead_state hne fun _ => rfl
    · rfl
    · exact PerClaimant.get_put ..

/-! ### The issue of a command (R85, R87) -/

/-- An operation in a phase occupies Port F, and its entry is the head of its queue. -/
theorem State.inPhase_eq_some {s : State} {ph : WorkPhase} {q : QueueId} {e : Entry} (h : s.inPhase ph = some (q, e)) :
    s.engine.write = some q ∧ (s.entriesOf q).head? = some e ∧ e.state = .active ph := by
  unfold State.inPhase State.operation at h
  split at h
  · next q' e' hop =>
    split at h
    · next hst =>
      cases h
      split at hop
      · next q'' hw =>
        obtain ⟨e'', he, heq⟩ := Option.map_eq_some_iff.1 hop
        cases heq
        exact ⟨hw, he, hst⟩
      · nomatch hop
    · nomatch h
  · nomatch h

theorem State.headState_of_head {s : State} {q : QueueId} {e : Entry} (h : (s.entriesOf q).head? = some e) :
    s.headState q = some e.state := by rw [State.headState, h]; rfl

/-- The entry of an issued command, in WAIT with its count at 0 (R85). -/
def State.issued (s : State) (q : QueueId) : State :=
  (s.setHead q fun e => { e with state := .active .wait }).onEngine fun x => { x with waited := 0 }

theorem exec_programCommandIssued {s : State} {q : QueueId} {e : Entry} (h : s.inPhase .program = some (q, e)) :
    exec .programCommandIssued s = .next (s.issued q).judgePreempt := by
  change execProgramCommandIssued s = _
  rw [execProgramCommandIssued, h]
  rfl

theorem State.headState_issued {s : State} {q : QueueId} {e : Entry} (h : s.inPhase .program = some (q, e)) :
    (s.issued q).headState q = some (.active .wait) := by
  obtain ⟨-, hhead, -⟩ := State.inPhase_eq_some h
  exact State.headState_setHead_state (by rw [State.headState_of_head hhead]; exact nofun) fun _ => rfl

/-- Settles O52: the entry is in WAIT, and preemption is judged on the claims that stood. -/
theorem commandIssuedEntersWait : Obligations.CommandIssuedEntersWait := by
  intro s q e h
  have hwait := State.headState_issued h
  obtain ⟨hwrite, -, -⟩ := State.inPhase_eq_some h
  have hkept : (s.engine.limit ≤ s.engine.suspendCount ∨
      (∀ c cl, c = .tRead ∨ c = .aRead → s.claim c = some cl → 64 * s.engine.weights.get c + min 63 cl.aged < s.engine.bar)) →
      exec .programCommandIssued s = .next
        { s.setHead q (fun x => { x with state := .active .wait }) with engine := { s.engine with waited := 0 } } := by
    intro hn
    rw [exec_programCommandIssued h, State.judgePreempt_of_not (s := s.issued q) fun _ _ => .inr hn]
    rfl
  refine ⟨fun hT hA => hkept (.inr fun c cl hc hcl => ?_), hkept, fun c cl d dl x hc hcl hbar hlimit hread hd hdl hx => ?_⟩
  · rcases hc with rfl | rfl
    · rw [hT] at hcl; nomatch hcl
    · rw [hA] at hcl; nomatch hcl
  · have hne : (s.issued q).headState q ≠ none := by rw [hwait]; exact nofun
    have hd' : (s.issued q).highest [.tRead, .aRead] = some d := hd ▸ State.highest_ports_congr rfl rfl
    have hsusp : (s.issued q).judgePreempt = (s.issued q).suspend q :=
      State.judgePreempt_of_bar (s := s.issued q) hwrite hwait hlimit hc hcl hbar
    have hapart : Apart s (s.issued q).judgePreempt :=
      ((Apart.setHead s q (fun e => { e with state := .active .wait }) fun _ => rfl).trans (Apart.onEngine _ _ rfl)).trans
        (Apart.judgePreempt _)
    refine ⟨_, exec_programCommandIssued h, ?_, ?_, ?_, ?_, ?_, ?_, fun o ho => ?_, hapart⟩ <;>
      rw [hsusp, State.suspend_eq (s := s.issued q) hread hwrite hne hd' hdl hx]
    · exact State.headState_setHead_state hne fun _ => rfl
    · exact hwrite
    · rfl
    · rfl
    · exact PerClaimant.get_put ..
    · exact PerClaimant.get_put_ne _ _ ho

/-! ### A verify that finds a difference (R86) -/

/-- Settles O55: with retries left, VERIFY-END only sends the entry back to PROGRAM. -/
theorem verifyRetries : Obligations.VerifyRetries := by
  intro s q e h hkind himage hretries
  have hbad : s.verified e = false := decide_eq_false himage
  change execVerifyEnd s = _
  simp [execVerifyEnd, h, hkind, hbad, hretries]

end Sys2Proof.Machine
end

-- Proofs of the family 'other': directives that set something.
section
/-! PROOFS. Directives that set something and end in the event in which they start: SET-KEY-TIMERS (R161, R162), SET-QUEUE-LEVELS (R67, R68)
and SET-ARBITER (R97, R98). -/

namespace Sys2Proof.Machine

theorem State.allows_eq {s : State} {l : Lifecycle} (h : s.life.lifecycle = some l) (d : Directive) : s.allows d = d.allowed l := by
  rw [State.allows, h]

/-! ### SET-KEY-TIMERS -/

/-- Settles O32: each check of R161 is one branch, and each branch ends the directive in its own event. -/
theorem setKeyTimersTakesEffect : Obligations.SetKeyTimersTakesEffect := by
  intro n img len s l h hl
  have refused := h.finish_refused (by decide) (by decide)
  have allowed : (s.started n).allows .setKeyTimers = false ↔ l = .closed ∨ l = .safe := by
    rw [State.allows_eq (s := s.started n) hl]
    cases l <;> decide
  rw [h.exec_eq]
  congr 1
  simp only [State.startOf, State.startSetKeyTimers, allowed]
  split
  · exact refused .notInState []
  split
  · exact refused .badParameter [byte 0]
  split
  · exact refused .badParameter [byte 0]
  split
  · exact refused .badParameter [byte 2]
  split
  · exact refused .badParameter [byte 3]
  exact h.finish_end (u := (s.started n).onKey _) (by decide) (by decide) rfl rfl rfl rfl .done []

/-! ### SET-QUEUE-LEVELS -/

/-- QUEUE-HIGH where it is raised (R67, R187). -/
def highEvent (b : Bool) : BitVec 13 := if b then 0x0020#13 else 0

theorem highEvent_or (a b : Bool) : highEvent a ||| highEvent b = highEvent (a || b) := by cases a <;> cases b <;> rfl

/-- A queue with a level and its flag judged (R67, R68). -/
def Queue.leveled (x : Queue) (n : Nat) : Queue := { x with level := n, high := decide (n ≤ x.entries.length) }

/-- The flag passes from clear to set at a level. -/
def Queue.rises (x : Queue) (n : Nat) : Bool := decide (n ≤ x.entries.length) && !x.high

theorem PerQueue.put_put {α : Type} (x : PerQueue α) (q : QueueId) (v w : α) : (x.put q v).put q w = x.put q w := by cases q <;> rfl

/-- A queue's level, its flag and the event of its rising (R67, R68). -/
theorem State.setLevel_eq (s : State) (q : QueueId) (n : Nat) :
    s.setLevel q n =
      { s with
        queues := s.queues.put q ((s.queues.get q).leveled n)
        dir := { s.dir with events := s.dir.events ||| highEvent ((s.queues.get q).rises n) } } := by
  have hset : (s.setQueue q { s.queues.get q with level := n }).queues.get q = { s.queues.get q with level := n } :=
    PerQueue.get_put ..
  have hjudged : (s.setQueue q { s.queues.get q with level := n }).onQueue q Queue.judged =
      { s with queues := s.queues.put q ((s.queues.get q).leveled n) } := by
    rw [State.onQueue, hset, State.setQueue, State.setQueue, PerQueue.put_put]
    rfl
  rw [State.setLevel, State.judgeHigh, hset, hjudged]
  have hcond : (Queue.isHigh { s.queues.get q with level := n } && !(s.queues.get q).high) = (s.queues.get q).rises n := rfl
  rw [hcond]
  cases (s.queues.get q).rises n with
  | true => rfl
  | false => simp [highEvent]

/-- SET-QUEUE-LEVELS is allowed but in CLOSED and SAFE. -/
theorem State.allows_setQueueLevels {s : State} {l : Lifecycle} (hl : s.life.lifecycle = some l) :
    s.allows .setQueueLevels = false ↔ l = .closed ∨ l = .safe := by
  rw [State.allows_eq hl]
  cases l <;> decide

/-- The four levels at once, as SET-QUEUE-LEVELS sets them. -/
def State.setLevels (s : State) (img : Mem) : State :=
  (((s.setLevel .sys (param img 0).toNat).setLevel .pass (param img 1).toNat).setLevel .set (param img 2).toNat).setLevel .uni
    (param img 3).toNat

/-- The queues after SET-QUEUE-LEVELS. -/
def PerQueue.leveled (x : PerQueue Queue) (img : Mem) : PerQueue Queue :=
  ⟨x.sys.leveled (param img 0).toNat, x.pass.leveled (param img 1).toNat, x.set.leveled (param img 2).toNat,
   x.uni.leveled (param img 3).toNat⟩

theorem State.setLevels_eq (s : State) (img : Mem) :
    s.setLevels img =
      { s with
        queues := s.queues.leveled img
        dir := { s.dir with
          events := s.dir.events ||| highEvent (s.queues.sys.rises (param img 0).toNat || s.queues.pass.rises (param img 1).toNat ||
            s.queues.set.rises (param img 2).toNat || s.queues.uni.rises (param img 3).toNat) } } := by
  rw [State.setLevels, State.setLevel_eq s]
  rw [State.setLevel_eq, State.setLevel_eq, State.setLevel_eq]
  simp only [← highEvent_or, ← BitVec.or_assoc]
  rfl

/-- Settles O34: the checks in their order, then the four levels with their flags. -/
theorem setQueueLevelsTakesEffect : Obligations.SetQueueLevelsTakesEffect := by
  intro n img len s l h hl level high
  have refused := h.finish_refused (by decide) (by decide)
  have allowed := State.allows_setQueueLevels (s := s.started n) hl
  have start_eq : exec .directiveStart s = .next ((s.started n).startSetLevels img len).finish := h.exec_eq
  refine ⟨fun hc => ?_, fun h1 h2 hlen => ?_, fun i hi h1 h2 hlen hbad hgood => ?_, fun h1 h2 hlen hgood => ?_⟩
  · rw [start_eq, State.startSetLevels, if_pos (allowed.2 hc)]
    exact congrArg _ (refused ..)
  · rw [start_eq, State.startSetLevels, if_neg (by simp [allowed, h1, h2]), if_pos hlen]
    exact congrArg _ (refused ..)
  · have hfirst : firstBad img (fun v => decide (v < 1) || decide (32 < v)) 4 0 = some (0 + i) :=
      firstBad_eq_some hi (by simpa using hbad) fun j hj => by
        obtain ⟨hlo, hhi⟩ := hgood j hj
        rw [Nat.zero_add]
        simp only [Bool.or_eq_false_iff, decide_eq_false_iff_not]
        omega
    rw [start_eq, State.startSetLevels, if_neg (by simp [allowed, h1, h2]), if_neg (not_not.2 hlen), hfirst, Nat.zero_add]
    exact congrArg _ (refused ..)
  · have hfirst : firstBad img (fun v => decide (v < 1) || decide (32 < v)) 4 0 = none :=
      firstBad_eq_none fun j hj => by
        obtain ⟨hlo, hhi⟩ := hgood j hj
        rw [Nat.zero_add]
        simp only [Bool.or_eq_false_iff, decide_eq_false_iff_not]
        omega
    have hset := State.setLevels_eq (s.started n) img
    have hstart : (s.started n).startSetLevels img len = ((s.started n).setLevels img).endDirective .done [] := by
      rw [State.startSetLevels, if_neg (by simp [allowed, h1, h2]), if_neg (not_not.2 hlen), hfirst]
      rfl
    have hends := h.finish_events (u := (s.started n).setLevels img) (by decide) (by decide) (by rw [hset]) (by rw [hset]; rfl)
      (by rw [hset]; rfl) (by rw [hset]; rfl) .done []
    rw [← hstart] at hends
    refine ⟨_, start_eq.trans (congrArg _ hends), fun q => ?_, ?_⟩ <;> rw [hset]
    · cases q <;> rfl
    · rw [if_pos rfl, BitVec.or_assoc, BitVec.or_comm (highEvent _), ← BitVec.or_assoc]
      rfl

/-! ### SET-ARBITER -/

/-- SET-ARBITER's parameters, once they have passed their checks, in effect (R97, R98). -/
def Engine.arranged (x : Engine) (img : Mem) : Engine :=
  { x with
    weights := { tRead := (param img 0).toNat, aRead := (param img 1).toNat, sysRead := (param img 2).toNat, qSys := (param img 3).toNat,
                 qPass := (param img 4).toNat, qSet := (param img 5).toNat, qUni := (param img 6).toNat, prefetch := (param img 7).toNat }
    bar := paramNat img 8 2
    interval := paramNat img 10 2
    limit := (param img 12).toNat
    claims := x.claims.map (Option.map fun c => { c with due := paramNat img 10 2 }) }

theorem PerClaimant.get_map {α β : Type} (f : α → β) (x : PerClaimant α) (c : Claimant) : (x.map f).get c = f (x.get c) := by
  cases c <;> rfl

/-- The claims keep their aged steps (R97). -/
theorem State.claim_arranged (s : State) (img : Mem) (c : Claimant) :
    (s.onEngine fun x => x.arranged img).claim c = (s.claim c).map fun cl => { cl with due := paramNat img 10 2 } :=
  PerClaimant.get_map ..

/-- SET-ARBITER is allowed but in CLOSED and SAFE. -/
theorem State.allows_setArbiter {s : State} {l : Lifecycle} (hl : s.life.lifecycle = some l) :
    s.allows .setArbiter = false ↔ l = .closed ∨ l = .safe := by
  rw [State.allows_eq hl]
  cases l <;> decide

section
variable {s : State} {n : Nat} {img : Mem} {len : Nat} {l : Lifecycle}

/-- SET-ARBITER past its lifecycle and its parameter length: the weights, and then the other checks (R98). -/
theorem State.startSetArbiter_of_len (hl : s.life.lifecycle = some l) (h1 : l ≠ .closed) (h2 : l ≠ .safe) (hlen : len = 14) :
    s.startSetArbiter img len =
      match firstBad img (fun v => decide (15 < v)) 8 0 with
      | some o => s.badParam o
      | none =>
        if 1023 < paramNat img 8 2 then s.badParam 8
        else if paramNat img 10 2 < 5 ∨ 1000 < paramNat img 10 2 then s.badParam 10
        else if 32 < (param img 12).toNat then s.badParam 12
        else if param img 13 ≠ 0 then s.badParam 13
        else (s.onEngine fun x => x.arranged img).judgePreempt.endDirective .done [] := by
  have allowed : ¬ s.allows .setArbiter = false := by simp [State.allows_setArbiter hl, h1, h2]
  rw [State.startSetArbiter, if_neg allowed, if_neg (not_not.2 hlen)]
  rfl

/-- SET-ARBITER takes effect: the settings, then preemption judged, then the end. -/
theorem State.Starts.exec_arranged (h : s.Starts n .setArbiter img len)
    (hstart : (s.started n).startSetArbiter img len = ((s.started n).onEngine fun x => x.arranged img).judgePreempt.endDirective .done []) :
    exec .directiveStart s = .next
      { ((s.started n).onEngine fun x => x.arranged img).judgePreempt with dir := s.dir.ended n .done [] } := by
  have only := ArbiterOnly.judgePreempt ((s.started n).onEngine fun x => x.arranged img)
  rw [h.exec_eq, show (s.started n).startOf (some .setArbiter) img len = (s.started n).startSetArbiter img len from rfl, hstart,
    h.finish_end (by decide) (by decide) only.dir only.job only.portA only.portT]

end

/-- Settles O31: the checks in their order; then the settings take effect and preemption is judged by them. -/
theorem setArbiterTakesEffect : Obligations.SetArbiterTakesEffect := by
  intro n img len s l h hl weights bar interval limit engine refused
  have ends := h.finish_refused (by decide) (by decide)
  have hlife : (s.started n).life.lifecycle = some l := hl
  have start_eq : exec .directiveStart s = .next ((s.started n).startSetArbiter img len).finish := h.exec_eq
  refine ⟨fun hc => ?_, fun h1 h2 hlen => ?_, fun i hi h1 h2 hlen hbad hgood => ?_, fun h1 h2 hlen hweights => ?_⟩
  · rw [start_eq, State.startSetArbiter, if_pos ((State.allows_setArbiter hlife).2 hc)]
    exact congrArg _ (ends ..)
  · show exec .directiveStart s = _
    rw [start_eq, State.startSetArbiter, if_neg (by simp [State.allows_setArbiter hlife, h1, h2]), if_pos hlen]
    exact congrArg _ (ends ..)
  · have hfirst : firstBad img (fun v => decide (15 < v)) 8 0 = some (0 + i) :=
      firstBad_eq_some hi (by simpa using hbad) fun j hj => by simpa using hgood j hj
    show exec .directiveStart s = _
    rw [start_eq, State.startSetArbiter_of_len hlife h1 h2 hlen, hfirst, Nat.zero_add]
    exact congrArg _ (ends ..)
  · have hfirst : firstBad img (fun v => decide (15 < v)) 8 0 = none :=
      firstBad_eq_none fun j hj => by simpa using hweights j hj
    have hstart := State.startSetArbiter_of_len (img := img) hlife h1 h2 hlen
    rw [hfirst] at hstart
    refine ⟨fun hb => ?_, fun hb hi => ?_, fun hb hi1 hi2 hm => ?_, fun hb hi1 hi2 hm hz => ?_, fun hb hi1 hi2 hm hz => ?_⟩
    · show exec .directiveStart s = _
      rw [start_eq, hstart, if_pos hb]
      exact congrArg _ (ends ..)
    · show exec .directiveStart s = _
      rw [start_eq, hstart, if_neg (Nat.not_lt.2 hb), if_pos hi]
      exact congrArg _ (ends ..)
    · show exec .directiveStart s = _
      rw [start_eq, hstart, if_neg (Nat.not_lt.2 hb), if_neg (by omega), if_pos hm]
      exact congrArg _ (ends ..)
    · show exec .directiveStart s = _
      rw [start_eq, hstart, if_neg (Nat.not_lt.2 hb), if_neg (by omega), if_neg (Nat.not_lt.2 hm), if_pos hz]
      exact congrArg _ (ends ..)
    · rw [if_neg (Nat.not_lt.2 hb), if_neg (by omega), if_neg (Nat.not_lt.2 hm), if_neg (not_not.2 hz)] at hstart
      rw [h.exec_arranged hstart]
      refine ⟨fun hquiet => ?_, fun q c cl x hwrite hread hwait hlt hc hcl hx honly hbar => ?_⟩
      · rw [State.judgePreempt_of_not (s := (s.started n).onEngine fun x => x.arranged img) fun q hq => ?_]
        · rfl
        · rcases hquiet q hq with hn | hn | hn
          · exact .inl hn
          · exact .inr (.inl hn)
          · refine .inr (.inr fun c cl hc hcl => ?_)
            rw [State.claim_arranged] at hcl
            obtain ⟨old, hold, rfl⟩ := Option.map_eq_some_iff.1 hcl
            exact hn c old hc hold
      · have hclaim : ((s.started n).onEngine fun x => x.arranged img).claim c = some { cl with due := interval } := by
          rw [State.claim_arranged, show (s.started n).claim c = some cl from hcl]
          rfl
        have hothers : ∀ d, d ≠ c → d = .tRead ∨ d = .aRead → ((s.started n).onEngine fun x => x.arranged img).claim d = none := by
          intro d hd hp
          rw [State.claim_arranged, show (s.started n).claim d = none from honly d hd hp]
          rfl
        have hne : ((s.started n).onEngine fun x => x.arranged img).headState q ≠ none := by
          show s.headState q ≠ none
          rw [hwait]
          exact nofun
        rw [State.judgePreempt_of_bar (s := (s.started n).onEngine fun x => x.arranged img) hwrite hwait hlt hc hclaim hbar,
          State.suspend_eq (s := (s.started n).onEngine fun x => x.arranged img) hread hwrite hne
            (State.highest_of_only hc hclaim hothers) hclaim hx]
        rfl

end Sys2Proof.Machine
end

-- Proofs of the family 'other': fences, and runs of Q-SYS work.
section
/-! PROOFS. The moments of running directives: fences that request their work (R18, R19, R36, R37, R133, R134), and runs of Q-SYS work that
end (R19, R152 to R154). -/

namespace Sys2Proof.Machine

/-! ### Runs of work that begin -/

/-- A run that begins has not ended. -/
theorem Work.fresh_not_ended (w : Work) : Job.ended { work := w, added := 0, unleft := 0, firstFailed := none } = false := by
  have : 0 < w.total := by cases w <;> simp [Work.total]
  simp [Job.ended, Job.wants, this]

/-- A directive that has begun a run waits for it. -/
theorem State.steady_startJob {s : State} {ph : Phase} (hs : ph.stays = true) (w : Work) (hr : s.dir.running = some ph) :
    (s.startJob w).Steady ph (some w) :=
  ⟨hr, hs, rfl, fun j hj => by cases hj; exact w.fresh_not_ended⟩

theorem State.moment_of_some {s t : State} {o : Option State} (h : o = some t) : s.moment o = .next t.finish := by rw [h]; rfl

theorem State.moment_of_none {s : State} {o : Option State} (h : o = none) : s.moment o = .next s := by rw [h]; rfl

/-! ### The moments of the fences, one by one -/

section
variable {s : State}

theorem State.setMapFenceStep_of_clear {n : Nat} {e : Option MapEntry} (hr : s.dir.running = some (.setMapFence n e))
    (hf : s.fenceClear [.sys, .pass, .set, .uni] = true) :
    s.setMapFenceStep = some ((s.enter (.setMapRecord n e)).requestRecord s.lifecycleNow (s.life.fields.withEntry n e)) := by
  simp only [State.setMapFenceStep, hr, hf, if_true]

theorem State.setMapFenceStep_of_held (hf : s.fenceClear [.sys, .pass, .set, .uni] = false) : s.setMapFenceStep = none := by
  unfold State.setMapFenceStep
  split
  · rw [hf]; rfl
  · rfl

theorem State.closeFenceStep_of_clear (hr : s.dir.running = some .closeFence) (hf : s.fenceClear [.sys, .pass, .set, .uni] = true) :
    s.closeFenceStep = some ((s.enter .closeRecord).requestRecord .closed s.life.fields) := by
  simp only [State.closeFenceStep, hr, hf, if_true]

theorem State.closeFenceStep_of_held (hf : s.fenceClear [.sys, .pass, .set, .uni] = false) : s.closeFenceStep = none := by
  unfold State.closeFenceStep
  split
  · rw [hf]; rfl
  · rfl

theorem State.recoverFenceStep_of_clear (hr : s.dir.running = some .recoverFence) (hf : s.fenceClear [.pass, .set, .uni] = true) :
    s.recoverFenceStep = some ((s.enter .recoverErase).startJob .eraseAll) := by
  simp only [State.recoverFenceStep, hr, hf, if_true]

theorem State.recoverFenceStep_of_held (hf : s.fenceClear [.pass, .set, .uni] = false) : s.recoverFenceStep = none := by
  unfold State.recoverFenceStep
  split
  · rw [hf]; rfl
  · rfl

theorem State.flipSwitchStep_of_closed (hr : s.dir.running = some .flipArm) (hp : s.uni.pass.isOpen = false) :
    s.flipSwitchStep = some ((s.enter .flipSwitch).requestRecord s.lifecycleNow { s.life.fields with live := s.live.other }) := by
  simp [State.flipSwitchStep, hr, hp]

theorem State.flipSwitchStep_of_open (hp : s.uni.pass.isOpen = true) : s.flipSwitchStep = none := by
  unfold State.flipSwitchStep
  split
  · rw [hp]; rfl
  · rfl

end

/-! ### The start of CLOSE and of RECOVER (R18, R19) -/

/-- Whether the fuse reads blown after one more attempt (R3; whether the attempt takes is a free value). -/
def State.blown (s : State) : Bool := s.fuseCell || Config.fuseTakes s.fuseTries

theorem State.blown_of_fuseCell {s : State} (h : s.fuseCell = true) : s.blown = true := by rw [State.blown, h, Bool.true_or]

section
variable {s : State} {n : Nat} {img : Mem} {len : Nat} {l : Lifecycle}

/-- A directive that has started and enters a phase in which it waits for a run. -/
theorem State.Starts.completes_job {d : Directive} {ph : Phase} {w : Work} {u : State} (h : s.Starts n d img len) (hs : ph.stays = true)
    (hstart : (s.started n).startOf (some d) img len = (u.enter ph).startJob w) {P : State → Prop}
    (hP : ∀ t, Made ((u.enter ph).startJob w) t → P t) : Completes .directiveStart s P :=
  ⟨_, by rw [h.exec_eq, hstart], hP _ (State.steady_startJob hs w rfl).finish⟩

/-- A directive that has started and whose fence ends in the same event, with a run to wait for. -/
theorem State.Starts.completes_fence {d : Directive} {ph ph' : Phase} {w : Work} {u : State} (h : s.Starts n d img len)
    (hs : ph'.stays = true) (hstart : (s.started n).startOf (some d) img len = u.enter ph) (hjob : u.job = s.job) (hA : u.portA = s.portA)
    (hstep : (u.enter ph).fenceStep ph = some (((u.enter ph).enter ph').startJob w)) {P : State → Prop}
    (hP : ∀ t, Made (((u.enter ph).enter ph').startJob w) t → P t) : Completes .directiveStart s P := by
  have hdue : (u.enter ph).due = some (((u.enter ph).enter ph').startJob w) := (h.waits (u := u.enter ph) rfl hjob hA).due.trans hstep
  exact ⟨_, by rw [h.exec_eq, hstart], hP _ ((State.steady_startJob hs w rfl).finish_due hdue)⟩

/-- CLOSE's checks and its fence (R18). -/
theorem closeStarts (hl : s.life.lifecycle = some l) (h : s.Starts n .closes img len) :
    (l ≠ .sealed → exec .directiveStart s = .next { s with dir := s.dir.ended n .notInState [] }) ∧
    (l = .sealed → len ≠ 0 → exec .directiveStart s = .next { s with dir := s.dir.ended n .badParameter [0] }) ∧
    (l = .sealed → len = 0 → s.life.fields.code = none →
      exec .directiveStart s = .next { s with dir := s.dir.ended n .noServiceCode [] }) ∧
    (l = .sealed → len = 0 → s.life.fields.code ≠ none → (∃ q, s.entriesOf q ≠ []) →
      exec .directiveStart s = .next { s with dir := s.dir.begun n .closeFence }) ∧
    (l = .sealed → len = 0 → s.life.fields.code ≠ none → (∀ q, s.entriesOf q = []) →
      Completes .directiveStart s fun t =>
        t.dir.running = some .closeRecord ∧ t.life = s.life ∧
        t.job.map Job.work = some (.record { lifecycle := .closed, fields := s.life.fields } 1)) := by
  have refused := h.finish_refused (by decide) (by decide)
  have allowed : (s.started n).allows .closes = false ↔ l ≠ .sealed := by
    rw [State.allows_eq (s := s.started n) hl]
    cases l <;> decide
  have start_eq : exec .directiveStart s = .next ((s.started n).startClose len).finish := h.exec_eq
  have hfence (h1 : l = .sealed) (h2 : len = 0) (h3 : s.life.fields.code ≠ none) :
      (s.started n).startClose len = (s.started n).enter .closeFence := by
    rw [State.startClose, if_neg (by simp [allowed, h1]), if_neg (not_not.2 h2)]
    exact if_neg h3
  refine ⟨fun h1 => ?_, fun h1 h2 => ?_, fun h1 h2 h3 => ?_, fun h1 h2 h3 h4 => ?_, fun h1 h2 h3 h4 => ?_⟩
  · rw [start_eq, State.startClose, if_pos (allowed.2 h1)]
    exact congrArg _ (refused ..)
  · rw [start_eq, State.startClose, if_neg (by simp [allowed, h1]), if_pos h2]
    exact congrArg _ (refused ..)
  · have hcode : (s.started n).startClose len = (s.started n).endDirective .noServiceCode [] := by
      rw [State.startClose, if_neg (by simp [allowed, h1]), if_neg (not_not.2 h2)]
      exact if_pos h3
    rw [start_eq, hcode]
    exact congrArg _ (refused ..)
  · obtain ⟨q, hq⟩ := h4
    rw [start_eq, hfence h1 h2 h3]
    exact congrArg _ (h.finish_begun (State.closeFenceStep_of_held (s := { s with dir := s.dir.begun n .closeFence })
      (State.fenceClear_eq_false (s := s) ⟨q, q.mem_all, hq⟩)))
  · refine h.completes_fence (ph := .closeFence) (ph' := .closeRecord) rfl (hfence h1 h2 h3) rfl rfl
      (State.closeFenceStep_of_clear (s := (s.started n).enter .closeFence) rfl
        (State.fenceClear_eq_true (s := s) (fun q _ => h4 q) h.awaiting)) fun t ht => ?_
    exact ⟨ht.running, ht.life, ht.work⟩

/-- RECOVER's checks, its attempt at the fuse and its fence (R19). -/
theorem recoverStarts (hl : s.life.lifecycle = some l) (h : s.Starts n .recover img len) :
    (l ≠ .safe → exec .directiveStart s = .next { s with dir := s.dir.ended n .notInState [] }) ∧
    (l = .safe → len ≠ 0 → exec .directiveStart s = .next { s with dir := s.dir.ended n .badParameter [0] }) ∧
    (l = .safe → len = 0 → s.life.fuse = true → (∃ q, q ≠ .sys ∧ s.entriesOf q ≠ []) →
      exec .directiveStart s = .next { s with dir := s.dir.begun n .recoverFence }) ∧
    (l = .safe → len = 0 → s.life.fuse = false → (∃ q, q ≠ .sys ∧ s.entriesOf q ≠ []) →
      Completes .directiveStart s fun t =>
        (s.fuseCell = true → t.fuseCell = true) ∧
        t = { s with
          fuseCell := t.fuseCell
          fuseTries := t.fuseTries
          life := { s.life with fuse := t.fuseCell }
          dir := if t.fuseCell then s.dir.begun n .recoverFence else s.dir.ended n .fuseFailed [] }) ∧
    (l = .safe → len = 0 → s.life.fuse = true → (∀ q, q ≠ .sys → s.entriesOf q = []) →
      Completes .directiveStart s fun t =>
        t.dir.running = some .recoverErase ∧ t.life = s.life ∧ t.job.map Job.work = some .eraseAll) ∧
    (l = .safe → len = 0 → s.life.fuse = false → (∀ q, q ≠ .sys → s.entriesOf q = []) →
      Completes .directiveStart s fun t =>
        (s.fuseCell = true → t.fuseCell = true) ∧ t.life = { s.life with fuse := t.fuseCell } ∧
        (t.fuseCell = false → t.dir = s.dir.ended n .fuseFailed [] ∧ t.job = none) ∧
        (t.fuseCell = true → t.dir.running = some .recoverErase ∧ t.job.map Job.work = some .eraseAll)) := by
  have refused := h.finish_refused (by decide) (by decide)
  have allowed : (s.started n).allows .recover = false ↔ l ≠ .safe := by
    rw [State.allows_eq (s := s.started n) hl]
    cases l <;> decide
  have start_eq : exec .directiveStart s = .next ((s.started n).startRecover len).finish := h.exec_eq
  have hstart (h1 : l = .safe) (h2 : len = 0) : (s.started n).startRecover len =
      if s.life.fuse then (s.started n).enter .recoverFence
      else if s.blown then (s.started n).blowFuse.enter .recoverFence else (s.started n).blowFuse.endDirective .fuseFailed [] := by
    rw [State.startRecover, if_neg (by simp [allowed, h1]), if_neg (not_not.2 h2)]
    rfl
  have hblown (h1 : l = .safe) (h2 : len = 0) (h3 : s.life.fuse = false) (hb : s.blown = true) :
      (s.started n).startRecover len = (s.started n).blowFuse.enter .recoverFence := by
    rw [hstart h1 h2, h3, hb]
    rfl
  have hintact (h1 : l = .safe) (h2 : len = 0) (h3 : s.life.fuse = false) (hb : s.blown = false) :
      exec .directiveStart s = .next { (s.started n).blowFuse with dir := s.dir.ended n .fuseFailed [] } := by
    rw [start_eq, hstart h1 h2, h3, hb]
    exact congrArg _ (h.finish_end (u := (s.started n).blowFuse) (by decide) (by decide) rfl rfl rfl rfl _ _)
  refine ⟨fun h1 => ?_, fun h1 h2 => ?_, fun h1 h2 h3 h4 => ?_, fun h1 h2 h3 h4 => ?_, fun h1 h2 h3 h4 => ?_, fun h1 h2 h3 h4 => ?_⟩
  · rw [start_eq, State.startRecover, if_pos (allowed.2 h1)]
    exact congrArg _ (refused ..)
  · rw [start_eq, State.startRecover, if_neg (by simp [allowed, h1]), if_pos h2]
    exact congrArg _ (refused ..)
  · obtain ⟨q, hsys, hq⟩ := h4
    rw [start_eq, hstart h1 h2, if_pos h3]
    exact congrArg _ (h.finish_begun (State.recoverFenceStep_of_held (s := { s with dir := s.dir.begun n .recoverFence })
      (State.fenceClear_eq_false (s := s) ⟨q, QueueId.mem_of_ne_sys hsys, hq⟩)))
  · obtain ⟨q, hsys, hq⟩ := h4
    cases hb : s.blown with
    | false =>
      refine ⟨_, hintact h1 h2 h3 hb, fun hc => State.blown_of_fuseCell hc, ?_⟩
      have hdir : (if s.blown then s.dir.begun n .recoverFence else s.dir.ended n .fuseFailed []) = s.dir.ended n .fuseFailed [] := by
        rw [hb]; rfl
      exact congrArg (fun d => ({ (s.started n).blowFuse with dir := d } : State)) hdir.symm
    | true =>
      have hwait : ((s.started n).blowFuse.enter .recoverFence).finish = (s.started n).blowFuse.enter .recoverFence :=
        State.Waits.finish (h.waits rfl rfl rfl)
          (State.recoverFenceStep_of_held (s := (s.started n).blowFuse.enter .recoverFence)
            (State.fenceClear_eq_false (s := s) ⟨q, QueueId.mem_of_ne_sys hsys, hq⟩))
          (h.toNoReads.of_links rfl rfl)
      refine ⟨_, by rw [start_eq, hblown h1 h2 h3 hb, hwait], fun hc => State.blown_of_fuseCell hc, ?_⟩
      have hdir : (if s.blown then s.dir.begun n .recoverFence else s.dir.ended n .fuseFailed []) = s.dir.begun n .recoverFence := by
        rw [hb]; rfl
      exact congrArg (fun d => ({ (s.started n).blowFuse with dir := d } : State)) hdir.symm
  · refine h.completes_fence (ph := .recoverFence) (ph' := .recoverErase) rfl ((hstart h1 h2).trans (if_pos h3)) rfl rfl
      (State.recoverFenceStep_of_clear (s := (s.started n).enter .recoverFence) rfl
        (State.fenceClear_eq_true (s := s) (fun q hq => h4 q ?_) h.awaiting)) fun t ht => ?_
    · rintro rfl; exact absurd hq (by decide)
    · exact ⟨ht.running, ht.life, ht.work⟩
  · cases hb : s.blown with
    | false =>
      have hcell : (s.started n).blowFuse.fuseCell = false := hb
      exact ⟨_, hintact h1 h2 h3 hb, fun hc => State.blown_of_fuseCell hc, rfl, fun _ => ⟨rfl, h.job⟩,
        fun hc => absurd (hcell.symm.trans hc) Bool.false_ne_true⟩
    | true =>
      refine h.completes_fence (u := (s.started n).blowFuse) (ph := .recoverFence) (ph' := .recoverErase) rfl (hblown h1 h2 h3 hb) rfl rfl
        (State.recoverFenceStep_of_clear (s := (s.started n).blowFuse.enter .recoverFence) rfl
          (State.fenceClear_eq_true (s := s) (fun q hq => h4 q ?_) h.awaiting)) fun t ht => ?_
      · rintro rfl; exact absurd hq (by decide)
      · have hcell : t.fuseCell = s.blown := ht.fuseCell
        refine ⟨fun hc => hcell.trans hb, ?_, fun hc => ?_, fun _ => ⟨ht.running, ht.work⟩⟩
        · rw [ht.life, hcell]
          rfl
        · rw [hcell, hb] at hc
          nomatch hc

end

/-! ### A moment that leads to a run -/

/-- A moment that is due and leads to a directive that waits for a run of work. -/
theorem completes_moment {c : Instr} {s u : State} {o : Option State} {ph : Phase} {w : Work} (hc : exec c s = s.moment o)
    (ho : o = some (u.startJob w)) (hs : ph.stays = true) (hr : u.dir.running = some ph) {P : State → Prop}
    (hP : ∀ t, Made (u.startJob w) t → P t) : Completes c s P :=
  ⟨_, hc.trans (State.moment_of_some ho), hP _ (State.steady_startJob hs w hr).finish⟩

/-- Settles O35: each fence that ends requests its work, and the run of it is waited for. -/
theorem fencesRequestWork : Obligations.FencesRequestWork := by
  refine ⟨fun n img len s l hl => ⟨closeStarts hl, recoverStarts hl⟩, fun s => ⟨fun n e hr hq ha => ?_, fun hr hq ha => ?_,
    fun hr hq ha => ?_, fun hr hp => ?_, fun hq => ?_, fun hq => ?_, fun hp => ?_⟩⟩
  · refine completes_moment rfl (State.setMapFenceStep_of_clear hr (State.fenceClear_eq_true (fun q _ => hq q) ha))
      (ph := .setMapRecord n e) rfl rfl fun t ht => ⟨ht.running, ht.life, ?_, ht.work⟩
    rw [State.writeLock, ht.running]
    rfl
  · exact completes_moment rfl (State.closeFenceStep_of_clear hr (State.fenceClear_eq_true (fun q _ => hq q) ha))
      (ph := .closeRecord) rfl rfl fun t ht => ⟨ht.running, ht.life, ht.work⟩
  · refine completes_moment rfl (State.recoverFenceStep_of_clear hr (State.fenceClear_eq_true (fun q hm => hq q ?_) ha))
      (ph := .recoverErase) rfl rfl fun t ht => ⟨ht.running, ht.life, ht.work⟩
    rintro rfl
    exact absurd hm (by decide)
  · exact completes_moment rfl (State.flipSwitchStep_of_closed hr hp) (ph := .flipSwitch) rfl rfl
      fun t ht => ⟨ht.running, ht.life, ht.work⟩
  · obtain ⟨q, hq⟩ := hq
    have held := State.fenceClear_eq_false ⟨q, q.mem_all, hq⟩
    exact ⟨State.moment_of_none (State.setMapFenceStep_of_held held), State.moment_of_none (State.closeFenceStep_of_held held)⟩
  · obtain ⟨q, hsys, hq⟩ := hq
    exact State.moment_of_none (State.recoverFenceStep_of_held (State.fenceClear_eq_false ⟨q, QueueId.mem_of_ne_sys hsys, hq⟩))
  · exact State.moment_of_none (State.flipSwitchStep_of_open hp)

/-! ### Runs that have ended -/

section
variable {s : State} {j : Job}

theorem State.recoverEraseStep_of_done (hr : s.dir.running = some .recoverErase) (hj : s.job = some j) (he : j.ended = true)
    (hf : j.firstFailed = none) :
    s.recoverEraseStep = some (((s.setJob none).enter .recoverRecord).requestRecord .opened s.firstFields) := by
  simp only [State.recoverEraseStep, hr, hj, he, hf, if_true]

theorem State.sealProgramStep_of_done {len : Nat} {r : Region} (hr : s.dir.running = some (.sealProgram len r)) (hj : s.job = some j)
    (he : j.ended = true) (hf : j.firstFailed = none) :
    s.sealProgramStep = some (((s.setJob none).enter (.sealRecord len r)).requestRecord .sealed
      { s.life.fields with bundleLen := len, scopes := bundleScopes s.key.staging, region := some r, releaseTime := s.key.releaseTime }) := by
  simp [State.sealProgramStep, hr, hj, he, hf]

theorem State.recoverEraseStep_of_failed {a : Nat} (hr : s.dir.running = some .recoverErase) (hj : s.job = some j)
    (he : j.ended = true) (hf : j.firstFailed = some a) :
    s.recoverEraseStep = some ((s.setJob none).endDirective .flashFailed (leBytes 4 a)) := by
  simp only [State.recoverEraseStep, hr, hj, he, hf, if_true]

theorem State.sealFailedStep_of_failed {len a : Nat} {r : Region} (hr : s.dir.running = some (.sealProgram len r)) (hj : s.job = some j)
    (he : j.ended = true) (hf : j.firstFailed = some a) :
    s.sealFailedStep = some ((s.setJob none).endDirective .flashFailed (leBytes 4 a)) := by
  simp only [State.sealFailedStep, hr, hj, he, hf, if_true]

end

/-- Settles O36: the run that has ended makes place for the record's run, which is waited for. -/
theorem runsEndInRecord : Obligations.RunsEndInRecord := by
  intro s j hj he hf
  refine ⟨fun hr => ?_, fun len r hr => ?_⟩
  · exact completes_moment rfl (State.recoverEraseStep_of_done hr hj he hf) (ph := .recoverRecord) rfl rfl
      fun t ht => ⟨ht.running, ht.life, ht.work⟩
  · refine completes_moment rfl (State.sealProgramStep_of_done hr hj he hf) (ph := .sealRecord len r) rfl rfl
      fun t ht => ⟨ht.running, ht.life, ?_, ht.work⟩
    rw [State.sealLock, ht.running]
    rfl

/-! ### A directive that runs alone and ends -/

section
variable {s u : State} {n : Nat} {ph : Phase}

theorem State.Alone.heads (h : s.Alone n ph) (hq : u.dir.queue = s.dir.queue) (hslots : u.dir.slots = s.dir.slots) : u.Heads n where
  queue := by rw [hq, h.queue]; rfl
  low := h.low
  high := by rw [hslots]; exact h.high

theorem State.Alone.queue_tail (h : s.Alone n ph) (hq : u.dir.queue = s.dir.queue) : u.dir.queue.tail = [] := by
  rw [hq, h.queue]
  rfl

theorem State.slot_congr {s t : State} (h : t.dir.slots = s.dir.slots) (n : Nat) : t.slot n = s.slot n := by
  rw [State.slot, State.slot, h]

/-- After the only directive has ended, and with the ports as they were, nothing comes about. -/
theorem State.Alone.finish_of_ended (h : s.Alone n ph) (hq : u.dir.queue = []) (hr : u.dir.running = none) (hjob : u.job = none)
    (hA : u.portA = s.portA) (hT : u.portT = s.portT) : u.finish = u := by
  have calm : u.Calm :=
    { queue := hq
      running := hr
      job := hjob
      awaiting := (congrArg PortState.awaiting hA).trans h.awaiting
      noRoom := fun q hc => h.noRoom q ((congrArg PortState.cause hA).symm.trans hc) }
  exact calm.finish_eq (h.toNoReads.of_links (congrArg PortState.link hA) (congrArg PortState.link hT))

/-- The only directive ends, and its event with it; no count follows it. -/
theorem State.Alone.finish_end (h : s.Alone n ph) (hq : u.dir.queue = s.dir.queue) (hslots : u.dir.slots = s.dir.slots)
    (hjob : u.job = none) (hA : u.portA = s.portA) (hT : u.portT = s.portT) (hflip : (s.slot n).directive ≠ some .flip)
    (hseals : (s.slot n).directive ≠ some .seals) (c : ResultCode) (data : List Byte) :
    (u.endDirective c data).finish = u.ended n c data := by
  rw [(h.heads hq hslots).endDirective_other (by rwa [State.slot_congr hslots]) (by rwa [State.slot_congr hslots])]
  exact h.finish_of_ended (h.queue_tail hq) rfl hjob hA hT

/-- The only directive, a FLIP, ends, and its event with it. -/
theorem State.Alone.finish_flip (h : s.Alone n ph) (hq : u.dir.queue = s.dir.queue) (hslots : u.dir.slots = s.dir.slots)
    (hjob : u.job = none) (hA : u.portA = s.portA) (hT : u.portT = s.portT) (hd : (s.slot n).directive = some .flip) (c : ResultCode)
    (data : List Byte) :
    (u.endDirective c data).finish = { u with dir := { u.dir.ended n c data with flipCount := u.dir.flipCount - 1 } } := by
  rw [(h.heads hq hslots).endDirective_flip (by rwa [State.slot_congr hslots])]
  exact h.finish_of_ended (h.queue_tail hq) rfl hjob hA hT

/-- The only directive, a SEAL, ends, and its event with it. -/
theorem State.Alone.finish_seals (h : s.Alone n ph) (hq : u.dir.queue = s.dir.queue) (hslots : u.dir.slots = s.dir.slots)
    (hjob : u.job = none) (hA : u.portA = s.portA) (hT : u.portT = s.portT) (hd : (s.slot n).directive = some .seals) (c : ResultCode)
    (data : List Byte) :
    (u.endDirective c data).finish = { u with dir := u.dir.ended n c data, key := u.key.unsealed } := by
  rw [(h.heads hq hslots).endDirective_seals (by rwa [State.slot_congr hslots])]
  exact h.finish_of_ended (h.queue_tail hq) rfl hjob hA hT

end

/-- Settles O37: the failed run ends its directive, and nothing else comes of it. -/
theorem failedRunsEndRefused : Obligations.FailedRunsEndRefused := by
  intro s n ph j a h hj he hf
  refine ⟨fun hph hd => ?_, fun len r hph hd => ?_⟩
  · have hr : s.dir.running = some .recoverErase := hph ▸ h.running
    change s.moment s.recoverEraseStep = _
    rw [State.moment_of_some (State.recoverEraseStep_of_failed hr hj he hf)]
    exact congrArg _ (h.finish_end (u := s.setJob none) rfl rfl rfl rfl rfl (by simp [hd]) (by simp [hd]) _ _)
  · have hr : s.dir.running = some (.sealProgram len r) := hph ▸ h.running
    change s.moment s.sealFailedStep = _
    rw [State.moment_of_some (State.sealFailedStep_of_failed hr hj he hf)]
    exact congrArg _ (h.finish_seals (u := s.setJob none) rfl rfl rfl rfl rfl hd _ _)

end Sys2Proof.Machine
end

-- Proofs of the family 'other': control record writes that succeed.
section
/-! PROOFS. Control record writes that succeed (R8, R15, R18, R19, R154, R168, R171, R173), and the starts of the directives that request
them: OPEN (R15), SET-SERVICE-CODE (R167, R168) and SERVICE-OPEN (R170, R171). -/

namespace Sys2Proof.Machine

/-! ### Starts -/

section
variable {s : State} {n : Nat} {img : Mem} {len : Nat} {l : Lifecycle}

/-- OPEN's checks and its attempt at the fuse (R15). -/
theorem openStarts (hl : s.life.lifecycle = some l) (h : s.Starts n .opens img len) :
    (l ≠ .blank → exec .directiveStart s = .next { s with dir := s.dir.ended n .notInState [] }) ∧
    (l = .blank → len ≠ 0 → exec .directiveStart s = .next { s with dir := s.dir.ended n .badParameter [0] }) ∧
    (l = .blank → len = 0 →
      Completes .directiveStart s fun t =>
        (s.fuseCell = true → t.fuseCell = true) ∧ t.life = { s.life with fuse := t.fuseCell } ∧
        (t.fuseCell = false → t.dir = s.dir.ended n .fuseFailed [] ∧ t.job = none) ∧
        (t.fuseCell = true → t.dir.running = some .openRecord ∧
          t.job.map Job.work = some (.record { lifecycle := .opened, fields := s.firstFields } 1))) := by
  have refused := h.finish_refused (by decide) (by decide)
  have allowed : (s.started n).allows .opens = false ↔ l ≠ .blank := by
    rw [State.allows_eq (s := s.started n) hl]
    cases l <;> decide
  have start_eq : exec .directiveStart s = .next ((s.started n).startOpen len).finish := h.exec_eq
  have hstart (h1 : l = .blank) (h2 : len = 0) : (s.started n).startOpen len =
      if s.blown then ((s.started n).blowFuse.enter .openRecord).requestRecord .opened s.firstFields
      else (s.started n).blowFuse.endDirective .fuseFailed [] := by
    rw [State.startOpen, if_neg (by simp [allowed, h1]), if_neg (not_not.2 h2)]
    rfl
  refine ⟨fun h1 => ?_, fun h1 h2 => ?_, fun h1 h2 => ?_⟩
  · rw [start_eq, State.startOpen, if_pos (allowed.2 h1)]
    exact congrArg _ (refused ..)
  · rw [start_eq, State.startOpen, if_neg (by simp [allowed, h1]), if_pos h2]
    exact congrArg _ (refused ..)
  · cases hb : s.blown with
    | false =>
      have hcell : (s.started n).blowFuse.fuseCell = false := hb
      have hintact : exec .directiveStart s = .next { (s.started n).blowFuse with dir := s.dir.ended n .fuseFailed [] } := by
        rw [start_eq, hstart h1 h2, hb]
        exact congrArg _ (h.finish_end (u := (s.started n).blowFuse) (by decide) (by decide) rfl rfl rfl rfl _ _)
      refine ⟨_, hintact, fun hc => State.blown_of_fuseCell hc, rfl,
        fun _ => ⟨rfl, h.job⟩, fun hc => absurd (hcell.symm.trans hc) Bool.false_ne_true⟩
    | true =>
      refine h.completes_job (u := (s.started n).blowFuse) (ph := .openRecord) rfl ((hstart h1 h2).trans (if_pos hb)) fun t ht => ?_
      have hcell : t.fuseCell = s.blown := ht.fuseCell
      refine ⟨fun _ => hcell.trans hb, ?_, fun hc => ?_, fun _ => ⟨ht.running, ht.work⟩⟩
      · rw [ht.life, hcell]
        rfl
      · rw [hcell, hb] at hc
        nomatch hc

/-- SET-SERVICE-CODE's checks and its record (R167, R168). -/
theorem setServiceCodeStarts (hl : s.life.lifecycle = some l) (h : s.Starts n .setServiceCode img len) :
    (¬ (l = .opened ∨ l = .sealed ∨ l = .service) → exec .directiveStart s = .next { s with dir := s.dir.ended n .notInState [] }) ∧
    (l = .opened ∨ l = .sealed ∨ l = .service → len ≠ 16 →
      exec .directiveStart s = .next { s with dir := s.dir.ended n .badParameter [0] }) ∧
    (l = .opened ∨ l = .sealed ∨ l = .service → len = 16 →
      Mem.slice img 5 16 = List.replicate 16 0 ∨ Mem.slice img 5 16 = List.replicate 16 0xFF →
      exec .directiveStart s = .next { s with dir := s.dir.ended n .badParameter [0] }) ∧
    (l = .opened ∨ l = .sealed ∨ l = .service → len = 16 → Mem.slice img 5 16 ≠ List.replicate 16 0 →
      Mem.slice img 5 16 ≠ List.replicate 16 0xFF →
      Completes .directiveStart s fun t =>
        t.dir.running = some .codeRecord ∧ t.life = s.life ∧
        t.job.map Job.work = some (.record { lifecycle := l, fields := { s.life.fields with code := some (Mem.slice img 5 16) } } 1)) := by
  have refused := h.finish_refused (by decide) (by decide)
  have allowed : (s.started n).allows .setServiceCode = false ↔ ¬ (l = .opened ∨ l = .sealed ∨ l = .service) := by
    rw [State.allows_eq (s := s.started n) hl]
    cases l <;> decide
  have start_eq : exec .directiveStart s = .next ((s.started n).startSetCode img len).finish := h.exec_eq
  refine ⟨fun h1 => ?_, fun h1 h2 => ?_, fun h1 h2 h3 => ?_, fun h1 h2 h3 h4 => ?_⟩
  · rw [start_eq, State.startSetCode, if_pos (allowed.2 h1)]
    exact congrArg _ (refused ..)
  · rw [start_eq, State.startSetCode, if_neg (by simp only [allowed]; exact not_not.2 h1), if_pos h2]
    exact congrArg _ (refused ..)
  · rw [start_eq, State.startSetCode, if_neg (by simp only [allowed]; exact not_not.2 h1), if_neg (not_not.2 h2), if_pos h3]
    exact congrArg _ (refused ..)
  · have hnow : (s.started n).lifecycleNow = l := by rw [State.lifecycleNow, State.started_life, hl]; rfl
    refine h.completes_job (u := s.started n) (ph := .codeRecord)
      (w := .record { lifecycle := l, fields := { s.life.fields with code := some (Mem.slice img 5 16) } } 1) rfl ?_
      fun t ht => ⟨ht.running, ht.life, ht.work⟩
    show (s.started n).startSetCode img len = _
    rw [State.startSetCode, if_neg (by simp only [allowed]; exact not_not.2 h1), if_neg (not_not.2 h2), if_neg (not_or.2 ⟨h3, h4⟩), hnow]
    rfl

/-- SERVICE-OPEN's checks, its attempts and its record (R170, R171). -/
theorem serviceOpenStarts (hl : s.life.lifecycle = some l) (h : s.Starts n .serviceOpen img len) :
    (l ≠ .closed → exec .directiveStart s = .next { s with dir := s.dir.ended n .notInState [] }) ∧
    (l = .closed → len ≠ 16 → exec .directiveStart s = .next { s with dir := s.dir.ended n .badParameter [0] }) ∧
    (l = .closed → len = 16 → s.attempts = 0 →
      exec .directiveStart s = .next { s with dir := s.dir.ended n .attemptsExhausted [] }) ∧
    (l = .closed → len = 16 → 0 < s.attempts → s.life.fields.code ≠ some (Mem.slice img 5 16) →
      exec .directiveStart s = .next
        { s with
          attempts := s.attempts - 1
          dir := { s.dir.ended n .codeMismatch [byte (s.attempts - 1)] with events := s.dir.events ||| 0x0800#13 ||| 0x0002#13 } }) ∧
    (l = .closed → len = 16 → 0 < s.attempts → s.life.fields.code = some (Mem.slice img 5 16) →
      Completes .directiveStart s fun t =>
        t.attempts = 3 ∧ t.dir.running = some .serviceOpenRecord ∧ t.life = s.life ∧
        t.job.map Job.work = some (.record { lifecycle := .service, fields := s.life.fields } 1)) := by
  have refused := h.finish_refused (by decide) (by decide)
  have allowed : (s.started n).allows .serviceOpen = false ↔ l ≠ .closed := by
    rw [State.allows_eq (s := s.started n) hl]
    cases l <;> decide
  have start_eq : exec .directiveStart s = .next ((s.started n).startServiceOpen img len).finish := h.exec_eq
  have hstart (h1 : l = .closed) (h2 : len = 16) : (s.started n).startServiceOpen img len =
      if s.attempts = 0 then (s.started n).endDirective .attemptsExhausted []
      else if s.life.fields.code = some (Mem.slice img 5 16) then
        (((s.started n).setAttempts 3).enter .serviceOpenRecord).requestRecord .service s.life.fields
      else (((s.started n).setAttempts (s.attempts - 1)).raise .codeRejected).endDirective .codeMismatch [byte (s.attempts - 1)] := by
    rw [State.startServiceOpen, if_neg (by simp [allowed, h1]), if_neg (not_not.2 h2)]
    rfl
  refine ⟨fun h1 => ?_, fun h1 h2 => ?_, fun h1 h2 h3 => ?_, fun h1 h2 h3 h4 => ?_, fun h1 h2 h3 h4 => ?_⟩
  · rw [start_eq, State.startServiceOpen, if_pos (allowed.2 h1)]
    exact congrArg _ (refused ..)
  · rw [start_eq, State.startServiceOpen, if_neg (by simp [allowed, h1]), if_pos h2]
    exact congrArg _ (refused ..)
  · rw [start_eq, hstart h1 h2, if_pos h3]
    exact congrArg _ (refused ..)
  · rw [start_eq, hstart h1 h2, if_neg (Nat.ne_of_gt h3), if_neg h4]
    exact congrArg _ (h.finish_events (u := ((s.started n).setAttempts (s.attempts - 1)).raise .codeRejected) (by decide) (by decide)
      rfl rfl rfl rfl _ _)
  · refine h.completes_job (u := (s.started n).setAttempts 3) (ph := .serviceOpenRecord) rfl
      ((hstart h1 h2).trans ((if_neg (Nat.ne_of_gt h3)).trans (if_pos h4))) fun t ht => ⟨ht.attempts, ht.running, ht.life, ht.work⟩

end

/-! ### The end of a control record write (R8, R9) -/

section
variable {s : State} {j : Job} {r : ControlRecord} {k : Nat}

theorem State.recordStep_of_done (hj : s.job = some j) (he : j.ended = true) (hf : j.firstFailed = none) (hw : j.work = .record r k) :
    s.recordStep = some ((s.setJob none).recordDone r) := by
  simp only [State.recordStep, hj, hw, he, hf, if_true]

theorem State.recordStep_of_retry {a : Nat} (hj : s.job = some j) (he : j.ended = true) (hf : j.firstFailed = some a)
    (hw : j.work = .record r k) (hk : k < 3) : s.recordStep = some (s.startJob (.record r (k + 1))) := by
  simp only [State.recordStep, hj, hw, he, hf, hk, if_true]

theorem State.recordStep_of_failed {a : Nat} (hj : s.job = some j) (he : j.ended = true) (hf : j.firstFailed = some a)
    (hw : j.work = .record r k) (hk : 3 ≤ k) : s.recordStep = some (s.setJob none).recordFailed := by
  simp only [State.recordStep, hj, hw, he, hf, Nat.not_lt.2 hk, if_true, if_false]

/-- The write has succeeded: its directive's own part, and the rest of the event. -/
theorem exec_recordDone (hj : s.job = some j) (he : j.ended = true) (hf : j.firstFailed = none) (hw : j.work = .record r k) :
    exec .controlRecordWriteEnd s = .next ((s.setJob none).recordDone r).finish :=
  State.moment_of_some (State.recordStep_of_done hj he hf hw)

/-- The third try has failed. -/
theorem exec_recordFailed {a : Nat} (hj : s.job = some j) (he : j.ended = true) (hf : j.firstFailed = some a) (hw : j.work = .record r k)
    (hk : 3 ≤ k) : exec .controlRecordWriteEnd s = .next (s.setJob none).recordFailed.finish :=
  State.moment_of_some (State.recordStep_of_failed hj he hf hw hk)

end

/-- The run is over, and a record's fields and lifecycle are in effect (R2, R8). -/
def State.recorded (s : State) (l : Lifecycle) (f : Fields) : State := ((s.setJob none).takeFields f).changeLifecycle l

theorem State.recorded_eq (s : State) (l : Lifecycle) (f : Fields) :
    s.recorded l f =
      { s with
        job := none
        life := { s.life with lifecycle := some l, fields := f }
        key := s.key.atChange l
        dir := { s.dir with events := s.dir.events ||| 0x0400#13 } } := rfl

@[simp] theorem State.recorded_job (s : State) (l : Lifecycle) (f : Fields) : (s.recorded l f).job = none := by rw [State.recorded_eq]

@[simp] theorem State.recorded_portA (s : State) (l : Lifecycle) (f : Fields) : (s.recorded l f).portA = s.portA := by
  rw [State.recorded_eq]

@[simp] theorem State.recorded_portT (s : State) (l : Lifecycle) (f : Fields) : (s.recorded l f).portT = s.portT := by
  rw [State.recorded_eq]

@[simp] theorem State.recorded_dir (s : State) (l : Lifecycle) (f : Fields) :
    (s.recorded l f).dir = { s.dir with events := s.dir.events ||| 0x0400#13 } := by rw [State.recorded_eq]

theorem DirectiveUnit.ended_events (x : DirectiveUnit) (ev : BitVec 13) (n : Nat) (c : ResultCode) (data : List Byte) :
    DirectiveUnit.ended { x with events := ev } n c data =
      { x.ended n c data with events := ev ||| (if c = .done then 0x0001#13 else 0x0002#13) } := rfl

/-- The only directive ends after it has raised events `ev`; no count follows it. -/
theorem State.Alone.finish_events {s u : State} {n : Nat} {ph : Phase} (h : s.Alone n ph) {ev : BitVec 13}
    (hdir : u.dir = { s.dir with events := ev }) (hjob : u.job = none) (hA : u.portA = s.portA) (hT : u.portT = s.portT)
    (hflip : (s.slot n).directive ≠ some .flip) (hseals : (s.slot n).directive ≠ some .seals) (c : ResultCode) (data : List Byte) :
    (u.endDirective c data).finish =
      { u with dir := { s.dir.ended n c data with events := ev ||| (if c = .done then 0x0001#13 else 0x0002#13) } } := by
  rw [h.finish_end (by rw [hdir]) (by rw [hdir]) hjob hA hT hflip hseals, State.ended, hdir, DirectiveUnit.ended_events]

/-- The same for a SEAL, which leaves its count. -/
theorem State.Alone.finish_seals_events {s u : State} {n : Nat} {ph : Phase} (h : s.Alone n ph) {ev : BitVec 13}
    (hdir : u.dir = { s.dir with events := ev }) (hjob : u.job = none) (hA : u.portA = s.portA) (hT : u.portT = s.portT)
    (hd : (s.slot n).directive = some .seals) (c : ResultCode) (data : List Byte) :
    (u.endDirective c data).finish =
      { u with
        dir := { s.dir.ended n c data with events := ev ||| (if c = .done then 0x0001#13 else 0x0002#13) }
        key := u.key.unsealed } := by
  rw [h.finish_seals (by rw [hdir]) (by rw [hdir]) hjob hA hT hd, hdir, DirectiveUnit.ended_events]

/-- Settles O42: the starts one by one; then each phase's fields and lifecycle, and the end of its directive. -/
theorem recordWriteTakesEffect : Obligations.RecordWriteTakesEffect := by
  refine ⟨fun n img len s l hl => ⟨openStarts hl, setServiceCodeStarts hl, serviceOpenStarts hl⟩,
    fun s n ph j r k h hj he hf hw hflip hseals => ?_⟩
  have hexec := exec_recordDone hj he hf hw
  have changes (l : Lifecycle) {ph' : Phase} {data : List Byte} (hph : ph = ph') (hdone : s.dir.running = some ph' →
      (s.setJob none).recordDone r = (s.recorded l r.fields).endDirective .done data) :
      exec .controlRecordWriteEnd s = .next
        { s with
          job := none
          life := { s.life with lifecycle := some l, fields := r.fields }
          key := s.key.atChange l
          dir := { s.dir.ended n .done data with events := s.dir.events ||| 0x0400#13 ||| 0x0001#13 } } := by
    rw [hexec, hdone (hph ▸ h.running), h.finish_events (u := s.recorded l r.fields) rfl rfl rfl rfl hflip hseals, if_pos rfl]
    rfl
  intro done opened
  refine ⟨fun hph => ?_, fun hph => ?_, fun hph => ?_, fun hph => ?_, fun g hph => ?_, fun hph => ?_⟩
  · exact changes .opened hph fun hr => by simp only [State.recordDone, State.setJob_dir, hr, State.recorded]
  · exact changes .opened hph fun hr => by simp only [State.recordDone, State.setJob_dir, hr, State.recorded]
  · exact changes .closed hph fun hr => by simp only [State.recordDone, State.setJob_dir, hr, State.recorded]
  · exact changes .service hph fun hr => by simp only [State.recordDone, State.setJob_dir, hr, State.recorded]
  · exact changes .closed (data := regionData g) hph fun hr => by simp only [State.recordDone, State.setJob_dir, hr, State.recorded]
  · have hdone : (s.setJob none).recordDone r = ((s.setJob none).takeFields r.fields).endDirective .done [] := by
      simp only [State.recordDone, State.setJob_dir, h.running, hph]
    rw [hexec, hdone, h.finish_end (u := (s.setJob none).takeFields r.fields) rfl rfl rfl rfl rfl hflip hseals]
    rfl

/-! ### SEAL's record (R154) -/

/-- Outside STAGING the stage idle timer stops when a SEAL leaves its count (R144). -/
theorem KeyUnit.unsealed_of_not_staging {k : KeyUnit} (h : k.window ≠ .staging) :
    k.unsealed = { k with sealCount := k.sealCount - 1, stageTimer := .stopped } := by
  simp [KeyUnit.unsealed, h]

/-- The Key Store Controller after SEAL's record (R140, R154). -/
theorem KeyUnit.sealed_eq (k : KeyUnit) (len : Nat) :
    KeyUnit.unsealed { k.atChange .sealed with sealedLen := len } =
      { k with window := .hidden, staging := [], stageTimer := .stopped, releaseTimer := .stopped, sealedLen := len,
               sealCount := k.sealCount - 1 } := by
  rw [KeyUnit.unsealed_of_not_staging (k := { k.atChange .sealed with sealedLen := len })
    (show KeyWindow.hidden ≠ .staging by decide)]
  rfl

/-- Settles O43: the lifecycle and the sealed length, then the end of SEAL, which leaves its count. -/
theorem sealTakesEffect : Obligations.SealTakesEffect := by
  intro s n len g j r k h hj he hf hw hd
  have hdone : (s.setJob none).recordDone r =
      ((s.recorded .sealed r.fields).onKey fun k => { k with sealedLen := len }).endDirective .done (leBytes 2 len) := by
    simp only [State.recordDone, State.setJob_dir, h.running, State.recorded]
  have hdir : ((s.recorded .sealed r.fields).onKey fun k => { k with sealedLen := len }).dir =
      { s.dir with events := s.dir.events ||| 0x0400#13 } := by rw [State.onKey_dir, State.recorded_dir]
  rw [exec_recordDone hj he hf hw, hdone, h.finish_seals_events hdir (by simp) (by simp) (by simp) hd, if_pos rfl, State.recorded_eq]
  simp only [State.onKey, KeyUnit.sealed_eq]

end Sys2Proof.Machine
end

-- Proofs of the family 'other': coverage, the flash and device reset.
section
/-! PROOFS. Coverage (R117), what an operation of the flash leaves (R76, R85, R87), and device reset (R10, R11). -/

namespace Sys2Proof.Machine

/-! ### Coverage -/

theorem coverFrom_getElem? (i n k : Nat) (f : Coverage → Coverage) (l : List Coverage) :
    (coverFrom i n f l)[k]? = (l[k]?).map fun c => if i ≤ k ∧ k < i + n then f c else c := by
  rw [coverFrom, List.getElem?_mapIdx]

theorem State.coverage_of_above {s : State} {m : MapEntry} {e : Entry} (hm : s.uniformity = some m)
    (h : m.bankBase s.live.other ≤ e.addr) (failed : Bool) :
    (s.coverage e failed).uni.coverage = coverFrom ((e.addr - m.bankBase s.live.other) / 4096) (if e.kind = .eraseBlock then 16 else 1)
      (fun c => c.after e.kind failed) s.uni.coverage := by
  simp only [State.coverage, hm, if_pos h, State.onUni_self]
  cases e.kind <;> rfl

/-- Settles O58: the table by its cases, and the list of sectors index by index. -/
theorem coverageTable : Obligations.CoverageTable := by
  refine ⟨fun c k => ⟨fun hk => ?_, rfl⟩, rfl, rfl, rfl, rfl, fun s m e failed i hm h => ?_⟩
  · cases k with
    | program => exact absurd rfl hk
    | eraseSector => rfl
    | eraseBlock => rfl
  · show (s.coverage e failed).uni.coverage[i]? = _
    rw [State.coverage_of_above hm h, coverFrom_getElem?]

/-! ### What an operation leaves outside its range (R76, R85, R87) -/

section
variable {s : State} {e : Entry}

theorem leftIn_lt {n : Nat} {left : OffsetBytes} {c : Nat × Byte} (h : c ∈ leftIn n left) : c.1 < n := by
  simpa using (List.mem_filter.1 h).2

theorem State.get_flashBroken_outside (hm : Mem.wf s.flash = true) (left : OffsetBytes) {a : Nat}
    (ha : a < e.addr ∨ e.addr + e.kind.range ≤ a) : Mem.get (s.flashBroken e left) a = Mem.get s.flash a := by
  have hgiven : ∀ c ∈ leftIn e.kind.range left, e.addr + c.1 ≠ a := fun c hc => by
    have := leftIn_lt hc
    omega
  have herase : Mem.get (noRecord (Mem.setAll s.flash e.addr (leftIn e.kind.range left)) e) a = Mem.get s.flash a := by
    rw [get_noRecord (Mem.wf_setAll hm _ _) e ha, Mem.get_setAll_of_not_mem hm _ _ _ hgiven]
  rw [State.flashBroken]
  split
  · exact Mem.get_andAll_of_not_mem hm _ _ _ hgiven
  · exact herase

theorem State.get_flashDone_outside (hm : Mem.wf s.flash = true) (hdata : OffsetBytes.ok 256 e.data = true) (left : OffsetBytes) {a : Nat}
    (ha : a < e.addr ∨ e.addr + e.kind.range ≤ a) : Mem.get (s.flashDone e left) a = Mem.get s.flash a := by
  have hgiven : ∀ c ∈ leftIn e.kind.range left, e.addr + c.1 ≠ a := fun c hc => by
    have := leftIn_lt hc
    omega
  have herase : Mem.get (noRecord (Mem.setAll (Mem.erase s.flash e.addr e.kind.range) e.addr (leftIn e.kind.range left)) e) a =
      Mem.get s.flash a := by
    rw [get_noRecord (Mem.wf_setAll (Mem.wf_erase hm _ _) _ _) e ha, Mem.get_setAll_of_not_mem (Mem.wf_erase hm _ _) _ _ _ hgiven,
      Mem.get_erase, if_neg (by omega)]
  rw [State.flashDone]
  split
  · next hk =>
    have hrange : e.kind.range = 256 := by rw [hk]; rfl
    refine Mem.get_andAll_of_not_mem hm _ _ _ fun c hc => ?_
    rcases List.mem_append.1 hc with hc | hc
    · have := ((OffsetBytes.ok_iff 256 e.data).1 hdata).2 c (List.mem_of_mem_filter hc)
      omega
    · exact hgiven c hc
  · exact herase

/-- Where the command gives no byte otherwise, a program has ANDed in exactly its data. -/
theorem State.flashDone_program (hk : e.kind = .program) : s.flashDone e [] = Mem.andAll s.flash e.addr e.data := by
  simp [State.flashDone, hk, leftIn, covers]

/-- Where the command gives no byte otherwise, an erase has set its range to `0xFF`. -/
theorem State.flashDone_erase (hk : e.kind ≠ .program) : s.flashDone e [] = Mem.erase s.flash e.addr e.kind.range := by
  have herased := noRecord_erased s.flash e
  rw [State.flashDone]
  split
  · next h => exact absurd h hk
  · exact herased

/-- What the flash holds in the operation's range once it has ended as it should (R76). -/
theorem State.get_flashDone_inside (hm : Mem.wf s.flash = true) (hdata : OffsetBytes.ok 256 e.data = true) {o : Nat}
    (ho : o < e.kind.range) :
    Mem.get (s.flashDone e []) (e.addr + o) = match e.kind with
      | .program => (match coveredByte e.data o with
        | some b => Mem.get s.flash (e.addr + o) &&& b
        | none => Mem.get s.flash (e.addr + o))
      | _ => 0xFF#8 := by
  have herase (hk : e.kind ≠ .program) : Mem.get (s.flashDone e []) (e.addr + o) = 0xFF#8 := by
    rw [State.flashDone_erase hk, Mem.get_erase, if_pos (by omega)]
  cases hk : e.kind with
  | program =>
    have hand := Mem.get_andAll hm e.addr ((OffsetBytes.ok_iff 256 e.data).1 hdata).1 (e.addr + o)
    rw [if_pos (Nat.le_add_right ..), Nat.add_sub_cancel_left] at hand
    rw [State.flashDone_program hk]
    exact hand
  | eraseSector => exact herase (by rw [hk]; decide)
  | eraseBlock => exact herase (by rw [hk]; decide)

end

theorem exec_flashReady {s : State} {q : QueueId} {e : Entry} (h : s.inPhase .wait = some (q, e)) (left : OffsetBytes) :
    exec (.flashReady false left) s =
      .next ((s.setFlash (s.flashDone e left)).setHead q fun x => { x with state := .active .verify }) := by
  change execFlashReady false left s = _
  simp [execFlashReady, h]

/-- Settles O53: the entry's state and the flash change, the flash only in the operation's range. -/
theorem flashReadyChangesRange : Obligations.FlashReadyChangesRange := by
  intro s q e hm hphase hdata
  refine ⟨fun left => ⟨_, exec_flashReady hphase left, rfl, fun a ha => ?_⟩, ⟨_, exec_flashReady hphase [], fun o ho => ?_⟩⟩
  · exact State.get_flashDone_outside hm.1 hdata left ha
  · exact State.get_flashDone_inside hm.1 hdata ho

/-! ### A control sector without a valid record (R7, R9, R10) -/

theorem Mem.get_cut (m : Mem) (lo n o : Nat) : Mem.get (Mem.cut m lo n) o = if o < n then Mem.get m (lo + o) else erasedByte := by
  induction m with
  | nil => simp [Mem.cut, Mem.get]
  | cons c m ih =>
    have hcons : Mem.cut (c :: m) lo n = if lo ≤ c.1 ∧ c.1 < lo + n then (c.1 - lo, c.2) :: Mem.cut m lo n else Mem.cut m lo n := by
      by_cases h : lo ≤ c.1 ∧ c.1 < lo + n <;> simp [Mem.cut, h]
    rw [hcons]
    by_cases h : lo ≤ c.1 ∧ c.1 < lo + n
    · rw [if_pos h, Mem.get, Mem.get, ih]
      by_cases ho : c.1 - lo = o
      · rw [if_pos ho, if_pos (by omega), if_pos (by omega)]
      · rw [if_neg ho]
        by_cases hn : o < n
        · rw [if_pos hn, if_pos hn, if_neg (by omega)]
        · rw [if_neg hn, if_neg hn]
    · rw [if_neg h, ih, Mem.get]
      by_cases ho : o < n
      · rw [if_pos ho, if_pos ho, if_neg (by omega)]
      · rw [if_neg ho, if_neg ho]

theorem Mem.slice_cut (m : Mem) (lo : Nat) {n o k : Nat} (h : o + k ≤ n) : Mem.slice (Mem.cut m lo n) o k = Mem.slice m (lo + o) k := by
  refine List.map_congr_left fun i hi => ?_
  have := List.mem_range.1 hi
  rw [Mem.get_cut, if_pos (by omega), Nat.add_assoc]

theorem Mem.get_of_not_listed {m : Mem} {a : Nat} (h : ∀ c ∈ m, c.1 ≠ a) : Mem.get m a = erasedByte := by
  induction m with
  | nil => rfl
  | cons c m ih =>
    rw [Mem.get, if_neg (h c List.mem_cons_self)]
    exact ih fun d hd => h d (List.mem_cons_of_mem _ hd)

theorem readRecord_of_no_marker {m : Mem} (h : Mem.slice m 0 4 ≠ recordMarker ∨ Mem.slice m 256 4 ≠ recordMarker) :
    readRecord m = none := by
  rw [readRecord, if_neg]
  rintro ⟨h0, h256, -⟩
  exact h.elim (· h0) (· h256)

/-- A page that does not begin with the marker's first byte carries no marker. -/
theorem slice_ne_marker {m : Mem} {a : Nat} (h : Mem.get m a ≠ 0x44) : Mem.slice m a 4 ≠ recordMarker := by
  intro hs
  have : (Mem.slice m a 4)[0]? = recordMarker[0]? := by rw [hs]
  exact h (by simpa [Mem.slice, recordMarker] using this)

/-- Without the marker of either page the control sector holds no valid record. -/
theorem readRecord_cut_of_no_marker {m : Mem}
    (h : Mem.slice m controlSector 4 ≠ recordMarker ∨ Mem.slice m (controlSector + 256) 4 ≠ recordMarker) :
    readRecord (Mem.cut m 0x1FFF000 4096) = none := by
  refine readRecord_of_no_marker ?_
  rw [Mem.slice_cut m _ (by omega), Mem.slice_cut m _ (by omega)]
  exact h

/-- An erase of the whole control sector leaves no marker on its first page, whatever bytes are given (R10). -/
theorem slice_noRecord {m : Mem} (hm : Mem.wf m = true) {e : Entry} (hlo : e.addr ≤ controlSector)
    (hhi : 0x2000000 ≤ e.addr + e.kind.range) : Mem.slice (noRecord m e) controlSector 4 ≠ recordMarker := by
  have hsector : controlSector = 0x1FFF000 := rfl
  have hlow : e.touches controlSector = true := by
    simp only [Entry.touches, Bool.and_eq_true, decide_eq_true_eq]
    omega
  have hhigh : e.touches (controlSector + 511) = true := by
    simp only [Entry.touches, Bool.and_eq_true, decide_eq_true_eq]
    omega
  refine slice_ne_marker ?_
  rw [noRecord, hlow, hhigh]
  cases hr : Mem.erasedIn m controlSector 512 with
  | false =>
    rw [if_pos (by rfl), Mem.get_set hm, if_pos rfl]
    decide
  | true =>
    have hget : Mem.get m controlSector = erasedByte := by
      have : ∀ c ∈ m, c.1 ≠ controlSector := fun c hc => by
        have := List.all_eq_true.1 hr c hc
        simp only [Bool.or_eq_true, decide_eq_true_eq] at this
        omega
      exact Mem.get_of_not_listed this
    rw [if_neg (by simp), hget]
    decide

/-- A failed program of a page of the record leaves no marker on that page (R9). -/
theorem slice_noMarker {m : Mem} (hm : Mem.wf m = true) {e : Entry} (hk : e.kind = .program)
    (ha : e.addr = controlSector ∨ e.addr = controlSector + 256) : Mem.slice (noMarker m e) e.addr 4 ≠ recordMarker := by
  rw [noMarker]
  split
  · refine slice_ne_marker ?_
    rw [Mem.get_set hm, if_pos rfl]
    decide
  · next h => exact fun hs => h ⟨hk, ha, hs⟩

theorem noMarker_of_erase (m : Mem) {e : Entry} (hk : e.kind ≠ .program) : noMarker m e = m := if_neg fun h => hk h.1

/-- An erase of the whole control sector that has been broken off leaves no valid record there (R10). -/
theorem State.readRecord_flashBroken_erase {s : State} {e : Entry} (hm : Mem.wf s.flash = true) (hk : e.kind ≠ .program)
    (hlo : e.addr ≤ controlSector) (hhi : 0x2000000 ≤ e.addr + e.kind.range) (left : OffsetBytes) :
    readRecord (Mem.cut (s.flashBroken e left) 0x1FFF000 4096) = none := by
  have hslice := slice_noRecord (Mem.wf_setAll hm e.addr (leftIn e.kind.range left)) hlo hhi
  refine readRecord_cut_of_no_marker (.inl ?_)
  rw [State.flashBroken]
  split
  · next h => exact absurd h hk
  · exact hslice

/-! ### Device reset -/

section
variable {s : State} {q : QueueId} {e : Entry}

theorem State.flashAtReset_of_idle (h : s.engine.write = none) (left : OffsetBytes) : s.flashAtReset left = s.flash := by
  rw [State.flashAtReset, State.operation, h]

theorem State.flashAtReset_of_empty (h : s.engine.write = some q) (hq : (s.entriesOf q).head? = none) (left : OffsetBytes) :
    s.flashAtReset left = s.flash := by
  rw [State.flashAtReset, State.operation, h]
  simp only [hq, Option.map_none]

theorem State.flashAtReset_of_head (h : s.engine.write = some q) (hq : (s.entriesOf q).head? = some e) (left : OffsetBytes) :
    s.flashAtReset left = if e.state = .active .wait ∨ e.state = .suspended then s.flashBroken e left else s.flash := by
  rw [State.flashAtReset, State.operation, h]
  simp only [hq, Option.map_some]

theorem State.get_flashAtReset_outside (hm : Mem.wf s.flash = true) (h : s.engine.write = some q)
    (hq : (s.entriesOf q).head? = some e) (left : OffsetBytes) {a : Nat} (ha : a < e.addr ∨ e.addr + e.kind.range ≤ a) :
    Mem.get (s.flashAtReset left) a = Mem.get s.flash a := by
  rw [State.flashAtReset_of_head h hq]
  split
  · exact State.get_flashBroken_outside hm left ha
  · rfl

end

/-- Settles O10: the reset values stand in `State.reset`; the flash is as it was but for the operation that was broken off. -/
theorem deviceResetValues : Obligations.DeviceResetValues := by
  intro fixture left s
  refine ⟨s.deviceReset fixture (s.flashAtReset left), rfl, rfl, rfl, rfl, rfl, rfl, fun p => ?_, fun q => ?_, rfl, rfl, rfl, rfl, rfl,
    rfl, rfl, rfl, rfl, rfl, rfl, rfl, rfl, rfl, rfl, rfl, rfl, rfl, rfl, fun q hw hidle => ?_, fun hw => ?_, fun q e hm hw hq => ⟨fun a ha => ?_, ?_⟩⟩
  · cases p <;> rfl
  · cases q <;> rfl
  · show s.flashAtReset left = s.flash
    cases hq : (s.entriesOf q).head? with
    | none => exact State.flashAtReset_of_empty hw hq left
    | some e =>
      obtain ⟨hwait, hsusp⟩ := hidle e hq
      rw [State.flashAtReset_of_head hw hq, if_neg (not_or.2 ⟨hwait, hsusp⟩)]
  · exact State.flashAtReset_of_idle hw left
  · exact State.get_flashAtReset_outside hm.1 hw hq left ha
  · intro hk hstate hlo hhi
    show readRecord (Mem.cut (s.flashAtReset left) 0x1FFF000 4096) = none
    rw [State.flashAtReset_of_head hw hq, if_pos hstate]
    exact State.readRecord_flashBroken_erase hm.1 hk hlo hhi left

end Sys2Proof.Machine
end

-- Proofs of the family 'other': rules of the read path.
section
/-! PROOFS. The rules of the read path that the statements about reads share: what judging a piece leaves alone, and what the read-ahead
buffer's clearing leaves (R104, R109, R112, R113). -/

namespace Sys2Proof.Machine

/-! ### A port's read -/

@[simp] theorem State.reading_onPort (s : State) (p : Port) (f : PortState → PortState) :
    (s.onPort p f).reading p = match (f (s.port p)).link with | .reading r => some r | _ => none := by
  cases p <;> rfl

@[simp] theorem State.reading_setReading (s : State) (p : Port) (rd : Reading) : (s.setReading p rd).reading p = some rd := by
  cases p <;> rfl

theorem State.port_setReading_ne (s : State) {p r : Port} (rd : Reading) (h : r ≠ p) : (s.setReading p rd).port r = s.port r :=
  State.port_onPort_ne s _ h

theorem State.reading_of_port {s t : State} {p : Port} (h : t.port p = s.port p) : t.reading p = s.reading p :=
  State.reading_congr (congrArg PortState.link h)

theorem State.setPiece_of_reading {s : State} {p : Port} {rd : Reading} (h : s.reading p = some rd) (x : Piece) :
    s.setPiece p x = s.setReading p { rd with piece := x } := by
  rw [State.setPiece, h]

theorem State.setPiece_of_none {s : State} {p : Port} (h : s.reading p = none) (x : Piece) : s.setPiece p x = s := by
  rw [State.setPiece, h]

/-! ### What judging a piece leaves alone -/

/-- `t` differs from `s` at most in the engine, the queues' states, the read-ahead buffer and the piece of port `p`'s read. -/
structure PieceOnly (p : Port) (s t : State) : Prop where
  apart : Apart s t
  uni : t.uni = s.uni
  other : ∀ r, r ≠ p → t.port r = s.port r
  returned : (t.port p).returned = (s.port p).returned
  idle : s.reading p = none → t.reading p = none
  reads : ∀ rd, s.reading p = some rd → ∃ pc, t.reading p = some { rd with piece := pc }

section
variable {p : Port} {s t u : State}

theorem PieceOnly.of_ports (h : Apart s t) (huni : t.uni = s.uni) (hA : t.portA = s.portA) (hT : t.portT = s.portT) :
    PieceOnly p s t := by
  have hport (r : Port) : t.port r = s.port r := by cases r <;> assumption
  have hread : t.reading p = s.reading p := State.reading_of_port (hport p)
  exact ⟨h, huni, fun r _ => hport r, by rw [hport], hread.trans, fun rd hr => ⟨rd.piece, hread.trans hr⟩⟩

theorem PieceOnly.refl (p : Port) (s : State) : PieceOnly p s s := PieceOnly.of_ports (Apart.refl s) rfl rfl rfl

theorem PieceOnly.trans (h : PieceOnly p s t) (k : PieceOnly p t u) : PieceOnly p s u := by
  refine ⟨h.apart.trans k.apart, k.uni.trans h.uni, fun r hr => (k.other r hr).trans (h.other r hr), k.returned.trans h.returned,
    fun hn => k.idle (h.idle hn), fun rd hr => ?_⟩
  obtain ⟨pc, hpc⟩ := h.reads rd hr
  obtain ⟨pc', hpc'⟩ := k.reads _ hpc
  exact ⟨pc', hpc'⟩

theorem PieceOnly.of_arbiter (h : ArbiterOnly s t) (ha : Apart s t) : PieceOnly p s t := PieceOnly.of_ports ha h.uni h.portA h.portT

theorem PieceOnly.raiseClaim (p : Port) (s : State) (c : Claimant) (r : Option ReadRange) : PieceOnly p s (s.raiseClaim c r) :=
  PieceOnly.of_arbiter (ArbiterOnly.raiseClaim s c r) (Apart.raiseClaim s c r)

theorem PieceOnly.withdraw (p : Port) (s : State) (c : Claimant) : PieceOnly p s (s.withdraw c) :=
  PieceOnly.of_arbiter (ArbiterOnly.withdraw s c) (Apart.withdraw s c)

theorem PieceOnly.discardGranted (p : Port) (s : State) (c : Claimant) : PieceOnly p s (s.discardGranted c) :=
  PieceOnly.of_arbiter (ArbiterOnly.discardGranted s c) (Apart.discardGranted s c)

theorem PieceOnly.onAhead (p : Port) (s : State) (f : ReadAhead → ReadAhead) : PieceOnly p s (s.onAhead f) :=
  PieceOnly.of_ports (Apart.onAhead s f) rfl rfl rfl

theorem PieceOnly.dropFilling (p : Port) (s : State) : PieceOnly p s s.dropFilling := by
  rw [State.dropFilling]
  split
  · exact (PieceOnly.withdraw p s _).trans (PieceOnly.onAhead p _ _)
  · exact PieceOnly.discardGranted ..

theorem PieceOnly.mapSlots (p : Port) (s : State) (f : AheadSlot → AheadSlot) : PieceOnly p s (s.mapSlots f) := PieceOnly.onAhead p s _

theorem PieceOnly.dropOutside (p : Port) (s : State) (base i : Nat) : PieceOnly p s (s.dropOutside base i) := by
  rw [State.dropOutside]
  split
  · exact PieceOnly.dropFilling ..
  · exact PieceOnly.refl ..

theorem PieceOnly.movePosition (p : Port) (s : State) (i : Nat) : PieceOnly p s (s.movePosition i) := by
  unfold State.movePosition
  exact ((PieceOnly.mapSlots p s _).trans (PieceOnly.dropOutside p _ _ _)).trans (PieceOnly.onAhead p _ _)

theorem PieceOnly.judgePrefetch (p : Port) (s : State) : PieceOnly p s s.judgePrefetch := by
  rw [State.judgePrefetch]
  split
  · exact (PieceOnly.onAhead p s _).trans (PieceOnly.raiseClaim ..)
  · exact PieceOnly.refl ..

theorem PieceOnly.setPiece (p : Port) (s : State) (x : Piece) : PieceOnly p s (s.setPiece p x) := by
  cases hr : s.reading p with
  | none =>
    rw [State.setPiece_of_none hr]
    exact PieceOnly.refl p s
  | some rd =>
    rw [State.setPiece_of_reading hr]
    refine ⟨Apart.setReading s p _, State.setReading_uni .., fun r h => State.port_setReading_ne s _ h, ?_, fun h => ?_, fun rd' h => ?_⟩
    · cases p <;> rfl
    · rw [hr] at h
      nomatch h
    · rw [hr] at h
      cases h
      exact ⟨x, State.reading_setReading ..⟩

theorem PieceOnly.claimPiece (p : Port) (s : State) (l : List Entry) (r : ReadRange) : PieceOnly p s (s.claimPiece p l r) :=
  (PieceOnly.setPiece p s _).trans (PieceOnly.raiseClaim ..)

theorem PieceOnly.judgePiece (p : Port) (s : State) (seg : Segment) (r : ReadRange) : PieceOnly p s (s.judgePiece p seg r) := by
  unfold State.judgePiece
  dsimp only
  split
  · exact PieceOnly.setPiece ..
  · split
    · exact PieceOnly.setPiece ..
    · split
      · exact PieceOnly.setPiece ..
      · split
        · exact (PieceOnly.dropFilling p s).trans (PieceOnly.claimPiece ..)
        · exact PieceOnly.setPiece ..
      · exact PieceOnly.claimPiece ..

theorem PieceOnly.preparePiece (p : Port) (s : State) (rd : Reading) (seg : Segment) : PieceOnly p s (s.preparePiece p rd seg) := by
  unfold State.preparePiece
  split
  · exact PieceOnly.setPiece ..
  · dsimp only
    split
    · refine PieceOnly.trans ?_ ((PieceOnly.judgePiece p _ seg _).trans (PieceOnly.judgePrefetch p _))
      split
      · exact PieceOnly.refl ..
      · exact PieceOnly.movePosition ..
    · exact PieceOnly.judgePiece ..
  · exact PieceOnly.refl ..

theorem PieceOnly.reachPiece (p : Port) (s : State) : PieceOnly p s (s.reachPiece p) := by
  unfold State.reachPiece
  split
  · split
    · split
      · exact PieceOnly.preparePiece ..
      · exact PieceOnly.refl ..
    · exact PieceOnly.refl ..
  · exact PieceOnly.refl ..

end

/-! ### Clearing the read-ahead buffer (R113) -/

theorem State.dropFilling_eq (s : State) :
    s.dropFilling = { s with engine := s.dropFilling.engine, ahead := s.dropFilling.ahead } := by
  rw [State.dropFilling]
  split <;> rfl

/-- Clearing the buffer changes nothing but the buffer and what the engine holds of its claim. -/
theorem State.clearAhead_eq (s : State) : s.clearAhead = { s with engine := s.clearAhead.engine, ahead := s.clearAhead.ahead } := by
  have h := s.dropFilling_eq
  rw [State.clearAhead]
  rw [h]
  rfl

theorem State.clearAhead_position (s : State) : s.clearAhead.ahead.position = none := rfl

theorem State.clearAhead_not_held (s : State) (p : Nat) (b : List Byte) : .held p b ∉ s.clearAhead.ahead.slots := by
  intro h
  obtain ⟨x, -, hx⟩ := List.mem_map.1 (show AheadSlot.held p b ∈ s.dropFilling.ahead.slots.map _ from h)
  cases x <;> nomatch hx

end Sys2Proof.Machine
end

-- Proofs of the family 'other': control record writes that fail, and held reads.
section
/-! PROOFS. Control record writes: retries and failure (R8, R9, R17, R136), FLIP's switch (R119, R135) and SET-MAP's record (R34, R35, R37,
R113, R118, R124). -/

namespace Sys2Proof.Machine

/-! ### A FLIP that ends alone -/

theorem DirectiveUnit.ended_events_running (x : DirectiveUnit) (ev : BitVec 13) (ph : Option Phase) (n : Nat) (c : ResultCode)
    (data : List Byte) :
    DirectiveUnit.ended { x with events := ev, running := ph } n c data =
      { x.ended n c data with events := ev ||| (if c = .done then 0x0001#13 else 0x0002#13) } := rfl

section
variable {s u : State} {n : Nat} {ph : Phase}

/-- The only directive, a FLIP, ends after it has raised events `ev` and has left its phase. -/
theorem State.Alone.finish_flip_events (h : s.Alone n ph) {ev : BitVec 13} {ph' : Option Phase}
    (hdir : u.dir = { s.dir with events := ev, running := ph' }) (hjob : u.job = none) (hA : u.portA = s.portA) (hT : u.portT = s.portT)
    (hd : (s.slot n).directive = some .flip) (c : ResultCode) (data : List Byte) :
    (u.endDirective c data).finish =
      { u with dir := { s.dir.ended n c data with
          events := ev ||| (if c = .done then 0x0001#13 else 0x0002#13), flipCount := s.dir.flipCount - 1 } } := by
  rw [h.finish_flip (by rw [hdir]) (by rw [hdir]) hjob hA hT hd, hdir, DirectiveUnit.ended_events_running]

end

/-! ### A control record write that fails (R9) -/

section
variable {s : State} {j : Job} {r : ControlRecord} {k a n : Nat} {ph : Phase}

/-- Without a read of Port T, SWITCH releases nothing (R136). -/
theorem State.release_of_no_read {s : State} (h : s.reading .t = none) : s.release = { s with dir := { s.dir with running := none } } :=
  State.runPort_of_none (p := .t) (s := { s with dir := { s.dir with running := none } }) h

theorem State.raise_controlFailed (s : State) :
    s.raise .controlFailed = { s with dir := { s.dir with events := s.dir.events ||| 0x1000#13 } } := rfl

theorem State.recordFailed_of_other {s : State} (hr : s.dir.running = some ph) (hopen : ph ≠ .openRecord) (hflip : ph ≠ .flipSwitch) :
    s.recordFailed = (s.raise .controlFailed).endDirective .controlFailed [] := by
  rw [State.recordFailed, hr]
  split
  · next h => cases h; exact absurd rfl hopen
  · next h => cases h; exact absurd rfl hflip
  · rfl

theorem State.recordFailed_of_open {s : State} (hr : s.dir.running = some .openRecord) :
    s.recordFailed = (((s.raise .controlFailed).changeLifecycle .safe).clearAhead).endDirective .controlFailed [] := by
  rw [State.recordFailed, hr]

theorem State.recordFailed_of_flip {s : State} (hr : s.dir.running = some .flipSwitch) :
    s.recordFailed = (s.raise .controlFailed).release.endDirective .controlFailed [] := by
  rw [State.recordFailed, hr]

/-- The state in which OPEN's record write has ended CONTROL-FAILED (R17). -/
def State.openFailed (s : State) : State := (((s.setJob none).raise .controlFailed).changeLifecycle .safe).clearAhead

theorem State.openFailed_eq (s : State) :
    ∃ engine ahead, s.openFailed = { s with
      job := none
      life := { s.life with lifecycle := some .safe }
      key := { s.key with window := .none, stageTimer := .stopped, releaseTimer := .stopped }
      dir := { s.dir with events := s.dir.events ||| 0x1000#13 ||| 0x0400#13 }
      engine := engine
      ahead := ahead } := by
  have hchanged : ((s.setJob none).raise .controlFailed).changeLifecycle .safe =
      { s with
        job := none
        life := { s.life with lifecycle := some .safe }
        key := { s.key with window := .none, stageTimer := .stopped, releaseTimer := .stopped }
        dir := { s.dir with events := s.dir.events ||| 0x1000#13 ||| 0x0400#13 } } := rfl
  refine ⟨s.openFailed.engine, s.openFailed.ahead, (State.clearAhead_eq _).trans ?_⟩
  rw [State.openFailed, hchanged]

/-- The retries and the failure of a record write without a held read. -/
theorem recordWriteFailsAlone (h : s.Alone n ph) (hj : s.job = some j) (he : j.ended = true) (hf : j.firstFailed = some a)
    (hw : j.work = .record r k) :
    (k < 3 → ph.stays = true →
      Completes .controlRecordWriteEnd s fun t =>
        t.dir.running = some ph ∧ t.job.map Job.work = some (.record r (k + 1)) ∧ t.life = s.life) ∧
    (3 ≤ k → ph ≠ .openRecord → ph ≠ .flipSwitch → (s.slot n).directive ≠ some .flip → (s.slot n).directive ≠ some .seals →
      exec .controlRecordWriteEnd s = .next
        { s with
          job := none
          dir := { s.dir.ended n .controlFailed [] with events := s.dir.events ||| 0x1000#13 ||| 0x0002#13 } }) ∧
    (∀ len g, 3 ≤ k → ph = .sealRecord len g → (s.slot n).directive = some .seals →
      exec .controlRecordWriteEnd s = .next
        { s with
          job := none
          key := s.key.unsealed
          dir := { s.dir.ended n .controlFailed [] with events := s.dir.events ||| 0x1000#13 ||| 0x0002#13 } }) ∧
    (3 ≤ k → ph = .flipSwitch → (s.slot n).directive = some .flip →
      exec .controlRecordWriteEnd s = .next
        { s with
          job := none
          dir := { s.dir.ended n .controlFailed [] with
            events := s.dir.events ||| 0x1000#13 ||| 0x0002#13, flipCount := s.dir.flipCount - 1 } }) ∧
    (3 ≤ k → ph = .openRecord → (s.slot n).directive = some .opens →
      Completes .controlRecordWriteEnd s fun t =>
        t.life = { s.life with lifecycle := some .safe } ∧ t.job = none ∧
        t.dir = { s.dir.ended n .controlFailed [] with events := s.dir.events ||| 0x1000#13 ||| 0x0400#13 ||| 0x0002#13 } ∧
        t.key = { s.key with window := .none, stageTimer := .stopped, releaseTimer := .stopped }) := by
  have hexec (hk : 3 ≤ k) := exec_recordFailed hj he hf hw hk
  have hdir : ((s.setJob none).raise .controlFailed).dir = { s.dir with events := s.dir.events ||| 0x1000#13 } := rfl
  refine ⟨fun hk hs => ?_, fun hk hopen hsw hflip hseals => ?_, fun len g hk hph hd => ?_, fun hk hph hd => ?_, fun hk hph hd => ?_⟩
  · exact completes_moment rfl (State.recordStep_of_retry hj he hf hw hk) hs h.running
      fun t ht => ⟨ht.running.trans h.running, ht.work, ht.life⟩
  · rw [hexec hk, State.recordFailed_of_other (s := s.setJob none) h.running hopen hsw,
      h.finish_events (u := (s.setJob none).raise .controlFailed) hdir rfl rfl rfl hflip hseals]
    rfl
  · rw [hexec hk, State.recordFailed_of_other (s := s.setJob none) h.running (by rw [hph]; exact nofun) (by rw [hph]; exact nofun),
      h.finish_seals_events (u := (s.setJob none).raise .controlFailed) hdir rfl rfl rfl hd]
    rfl
  · have hrelease : ((s.setJob none).raise .controlFailed).release =
        { (s.setJob none).raise .controlFailed with
          dir := { s.dir with events := s.dir.events ||| 0x1000#13, running := none } } :=
      State.release_of_no_read (s := (s.setJob none).raise .controlFailed) h.linkT
    rw [hexec hk, State.recordFailed_of_flip (s := s.setJob none) (by rw [State.setJob_dir, h.running, hph]), 
      h.finish_flip_events (u := ((s.setJob none).raise .controlFailed).release) (by rw [hrelease]) (by rw [hrelease]; rfl)
        (by rw [hrelease]; rfl) (by rw [hrelease]; rfl) hd, hrelease]
    rfl
  · obtain ⟨engine, ahead, heq⟩ := s.openFailed_eq
    have hend : (s.openFailed.endDirective .controlFailed []).finish =
        { s.openFailed with
          dir := { s.dir.ended n .controlFailed [] with events := s.dir.events ||| 0x1000#13 ||| 0x0400#13 ||| 0x0002#13 } } :=
      h.finish_events (by rw [heq]) (by rw [heq]) (by rw [heq]) (by rw [heq]) (by rw [hd]; exact nofun) (by rw [hd]; exact nofun)
        .controlFailed []
    rw [heq] at hend
    have hfail : (s.setJob none).recordFailed.finish = _ :=
      (congrArg State.finish (State.recordFailed_of_open (s := s.setJob none) (by rw [State.setJob_dir, h.running, hph]))).trans
        ((congrArg (fun u : State => (u.endDirective .controlFailed []).finish) heq).trans hend)
    exact ⟨_, (hexec hk).trans (congrArg _ hfail), rfl, rfl, rfl, rfl⟩

end

/-! ### Delivery to one port leaves the other as it is -/

section
variable {p r : Port} (s : State)

theorem State.takePass_eq : s.takePass = { s with uni := { s.uni with pass := s.takePass.uni.pass } } := by
  rw [State.takePass]
  split <;> rfl

theorem State.port_takePass : s.takePass.port r = s.port r := by rw [State.takePass_eq]; cases r <;> rfl

theorem State.port_formSegment_ne (h : r ≠ p) (rd : Reading) (l : Lifecycle) : (s.formSegment p rd l).port r = s.port r := by
  unfold State.formSegment
  split
  · exact State.port_setReading_ne s _ h
  · split
    · split
      · exact State.port_setReading_ne s _ h
      · exact (State.port_setReading_ne _ _ h).trans s.port_takePass
    · exact State.port_setReading_ne s _ h

theorem State.port_reachSegment_ne (h : r ≠ p) (rd : Reading) (l : Lifecycle) : (s.reachSegment p rd l).port r = s.port r := by
  unfold State.reachSegment
  split
  · exact s.port_formSegment_ne h rd l
  · split
    · exact s.port_formSegment_ne h rd l
    · rfl

theorem State.port_handByte_ne (h : r ≠ p) : (s.handByte p).1.port r = s.port r := by
  unfold State.handByte
  split
  · split
    · split
      · exact State.port_onPort_ne s _ h
      · rfl
    · rfl
  · rfl

theorem State.port_deliverByte_ne (h : r ≠ p) : (s.deliverByte p).1.port r = s.port r := by
  unfold State.deliverByte
  split
  · split
    · rfl
    · rw [State.port_handByte_ne _ h, (PieceOnly.reachPiece p _).other r h, State.port_reachSegment_ne s h]
  · rfl

theorem State.port_deliver_ne (h : r ≠ p) (n : Nat) : (deliver n p s).port r = s.port r := by
  induction n generalizing s with
  | zero => rfl
  | succ n ih =>
    have hbyte := s.port_deliverByte_ne h
    rw [deliver]
    split
    · next s' heq => rw [ih s', ← hbyte, heq]
    · next s' heq => rw [← hbyte, heq]

theorem State.port_runPort_ne (h : r ≠ p) : (s.runPort p).port r = s.port r := by
  unfold State.runPort
  split
  · exact s.port_deliver_ne h _
  · rfl

end

/-! ### A held segment is released (R119, R135, R136) -/

/-- A pass is open on bank `b`, no directive runs, and Port T's read stands in no held segment. -/
structure State.Opened (b : Bank) (s : State) : Prop where
  running : s.dir.running = none
  isOpen : s.uni.pass.isOpen = true
  bank : s.uni.pass.bank = b
  unheld : ∀ rd seg, s.reading .t = some rd → rd.seg = some seg → seg.source ≠ .held

theorem State.segmentOf_not_held (s : State) (p : Port) (l : Lifecycle) (e : MapEntry) (a : Nat) :
    (s.segmentOf p l e a).source ≠ .held := by
  unfold State.segmentOf
  dsimp only [plainSegment]
  repeat' split
  all_goals nofun

section
variable {b : Bank} {s t : State}

theorem State.Opened.of_piece (h : s.Opened b) (k : PieceOnly .t s t) : t.Opened b where
  running := by rw [k.apart.dir, h.running]
  isOpen := by rw [k.uni, h.isOpen]
  bank := by rw [k.uni, h.bank]
  unheld rd seg hr hseg := by
    cases hs : s.reading .t with
    | none =>
      rw [k.idle hs] at hr
      nomatch hr
    | some rd' =>
      obtain ⟨pc, hpc⟩ := k.reads rd' hs
      rw [hpc] at hr
      cases hr
      exact h.unheld rd' seg hs hseg

/-- A read of Port T that is put into a segment that is not held, beside an open pass. -/
theorem State.Opened.of_setReading {u : State} {rd : Reading} {seg : Segment} (hr : u.dir.running = none)
    (ho : u.uni.pass.isOpen = true) (hb : u.uni.pass.bank = b) (hseg : rd.seg = some seg) (hsrc : seg.source ≠ .held) :
    (u.setReading .t rd).Opened b where
  running := hr
  isOpen := ho
  bank := hb
  unheld rd' seg' hrd' hseg' := by
    rw [State.reading_setReading] at hrd'
    cases hrd'
    rw [hseg] at hseg'
    cases hseg'
    exact hsrc

theorem State.takePass_of_open (h : s.uni.pass.isOpen = true) :
    s.takePass.uni.pass = { s.uni.pass with idle := .stopped } := by rw [State.takePass, if_pos h]; rfl

theorem State.takePass_of_closed (h : s.uni.pass.isOpen = false) :
    s.takePass.uni.pass = { s.uni.pass with isOpen := true, bank := s.live, length := s.passLength } := by
  rw [State.takePass, if_neg (by simp [h])]
  rfl

theorem State.Opened.formSegment (h : s.Opened b) (rd : Reading) (l : Lifecycle) : (s.formSegment .t rd l).Opened b := by
  have hsw : s.switching = false := decide_eq_false (by rw [h.running]; exact nofun)
  have hpass := State.takePass_of_open h.isOpen
  unfold State.formSegment
  split
  · exact .of_setReading h.running h.isOpen h.bank rfl nofun
  · split
    · rw [hsw, if_neg Bool.false_ne_true]
      refine .of_setReading ((congrArg DirectiveUnit.running (Apart.takePass s).dir).trans h.running) ?_ ?_ rfl ?_
      · rw [hpass]; exact h.isOpen
      · rw [hpass]; exact h.bank
      · exact State.segmentOf_not_held _ _ _ _ _
    · exact .of_setReading h.running h.isOpen h.bank rfl (State.segmentOf_not_held _ _ _ _ _)

/-- The segment of the uniformity window that Port T reaches with no pass open opens one on the live bank (R119). -/
theorem State.opened_formSegment {rd : Reading} {l : Lifecycle} {e : MapEntry} (hr : s.dir.running = none)
    (hp : s.uni.pass.isOpen = false) (hl : l ≠ .safe) (he : findEntry s.entries rd.addr = some e) (hcls : e.cls = .uniformity) :
    (s.formSegment .t rd l).Opened s.live := by
  have hsw : s.switching = false := decide_eq_false (by rw [hr]; exact nofun)
  have hpass := State.takePass_of_closed hp
  unfold State.formSegment
  rw [he]
  dsimp only
  rw [if_pos ⟨rfl, hcls, hl⟩, hsw, if_neg Bool.false_ne_true]
  refine .of_setReading ((congrArg DirectiveUnit.running (Apart.takePass s).dir).trans hr) ?_ ?_ rfl ?_
  · rw [hpass]
  · rw [hpass]
  · exact State.segmentOf_not_held _ _ _ _ _

theorem State.Opened.reachSegment (h : s.Opened b) (rd : Reading) (l : Lifecycle) : (s.reachSegment .t rd l).Opened b := by
  unfold State.reachSegment
  split
  · exact h.formSegment rd l
  · split
    · exact h.formSegment rd l
    · exact h

theorem State.nextByte_of_held {rd : Reading} {seg : Segment} (h : seg.source = .held) : s.nextByte rd seg = none := by
  rw [State.nextByte, h]

theorem State.Opened.handByte (h : s.Opened b) : (s.handByte .t).1.Opened b := by
  unfold State.handByte
  split
  · next rd hrd =>
    split
    · next seg hseg =>
      split
      · refine ⟨h.running, h.isOpen, h.bank, fun rd' seg' hrd' hseg' => ?_⟩
        cases hrd'
        simp only [State.afterByte] at hseg'
        split at hseg'
        · nomatch hseg'
        · cases hseg'
          exact h.unheld rd seg hrd hseg
      · exact h
    · exact h
  · exact h

theorem State.Opened.deliverByte (h : s.Opened b) : (s.deliverByte .t).1.Opened b := by
  unfold State.deliverByte
  split
  · split
    · exact h
    · exact ((h.reachSegment _ _).of_piece (PieceOnly.reachPiece .t _)).handByte
  · exact h

theorem State.Opened.deliver (h : s.Opened b) (n : Nat) : (Machine.deliver n .t s).Opened b := by
  induction n generalizing s with
  | zero => exact h
  | succ n ih =>
    have hbyte := h.deliverByte
    rw [Machine.deliver]
    split
    · next s' heq => rw [heq] at hbyte; exact ih hbyte
    · next s' heq => rw [heq] at hbyte; exact hbyte

theorem State.Opened.runPort (h : s.Opened b) : (s.runPort .t).Opened b := by
  unfold State.runPort
  split
  · exact h.deliver _
  · exact h

theorem State.Opened.deliver_succ (h : (s.deliverByte .t).1.Opened b) (n : Nat) : (Machine.deliver (n + 1) .t s).Opened b := by
  rw [Machine.deliver]
  split
  · next s' heq => rw [heq] at h; exact h.deliver n
  · next s' heq => rw [heq] at h; exact h

/-- A held segment that SWITCH has let go of opens a pass on the live bank, and the read goes on in it. -/
theorem State.opened_runPort {rd : Reading} {seg : Segment} {l : Lifecycle} {e : MapEntry} (hr : s.dir.running = none)
    (hread : s.reading .t = some rd) (hseg : rd.seg = some seg) (hheld : seg.source = .held) (hwant : 0 < rd.want)
    (hl : s.life.lifecycle = some l) (hsafe : l ≠ .safe) (he : findEntry s.entries rd.addr = some e) (hcls : e.cls = .uniformity)
    (hp : s.uni.pass.isOpen = false) : (s.runPort .t).Opened s.live := by
  have hsw : s.switching = false := decide_eq_false (by rw [hr]; exact nofun)
  have hreach : s.reachSegment .t rd l = s.formSegment .t rd l := by
    rw [State.reachSegment, hseg]
    exact if_pos ⟨hheld, hsw⟩
  have hfirst : (s.deliverByte .t).1.Opened s.live := by
    rw [State.deliverByte, hread, hl]
    dsimp only
    rw [if_neg (Nat.ne_of_gt hwant), hreach]
    exact ((State.opened_formSegment hr hp hsafe he hcls).of_piece (PieceOnly.reachPiece .t _)).handByte
  rw [State.runPort, hread]
  dsimp only
  rw [← Nat.succ_pred_eq_of_pos hwant]
  exact State.Opened.deliver_succ hfirst _

end

section
variable {s u : State} {n : Nat} {rd : Reading} {seg : Segment} {b : Bank}

/-- SWITCH lets go of the held segment of a FLIP that is about to end. -/
theorem State.Holds.release {l : Lifecycle} {e : MapEntry} (h : s.Holds n rd seg) (hT : u.portT = s.portT) (hl : u.life.lifecycle = some l)
    (hsafe : l ≠ .safe) (he : findEntry u.entries rd.addr = some e) (hcls : e.cls = .uniformity) (hp : u.uni.pass = s.uni.pass) :
    u.release.Opened u.live :=
  State.opened_runPort (s := { u with dir := { u.dir with running := none } }) rfl
    ((State.reading_of_port (s := s) (p := .t) hT).trans h.linkT) h.segment h.held h.wants hl hsafe he hcls (by rw [hp, h.closed])

theorem State.release_portA (u : State) : u.release.portA = u.portA :=
  State.port_runPort_ne (p := .t) (r := .a) { u with dir := { u.dir with running := none } } nofun

theorem State.release_apart (u : State) : Apart { u with dir := { u.dir with running := none } } u.release := Apart.runPort ..

/-- The FLIP ends; the read that was held goes on in its pass. -/
theorem State.Holds.end_opened (h : s.Holds n rd seg) (hu : u.Opened b) (hq : u.dir.queue = s.dir.queue)
    (hslots : u.dir.slots = s.dir.slots) (hjob : u.job = none) (hA : u.portA = s.portA) (hd : (s.slot n).directive = some .flip)
    (c : ResultCode) (data : List Byte) :
    (u.endDirective c data).finish.Opened b ∧ (u.endDirective c data).finish.life = u.life ∧
      (u.endDirective c data).finish.uni.coverage = u.uni.coverage := by
  have heads : u.Heads n := ⟨by rw [hq, h.queue]; rfl, h.low, by rw [hslots]; exact h.high⟩
  have hw := heads.endDirective_flip (by rwa [State.slot_congr hslots]) c data
  have hopened : (u.endDirective c data).Opened b := by
    rw [hw]
    exact ⟨rfl, hu.isOpen, hu.bank, hu.unheld⟩
  have calm : (u.endDirective c data).Calm := by
    rw [hw]
    exact ⟨by show u.dir.queue.tail = []; rw [hq, h.queue]; rfl, rfl, hjob, (congrArg PortState.awaiting hA).trans h.awaiting,
      fun q hc => h.noRoom q ((congrArg PortState.cause hA).symm.trans hc)⟩
  have hidle : ((u.endDirective c data).runPort .t).reading .a = none := by
    rw [State.reading_of_port (s := s) (p := .a), h.linkA]
    rw [State.port_runPort_ne _ (by decide), hw]
    exact hA
  have hfinish : (u.endDirective c data).finish = (u.endDirective c data).runPort .t := by
    rw [calm.finish, State.runReads, State.runPort_of_none hidle]
  have hapart := Apart.runPort (u.endDirective c data) .t
  rw [hfinish]
  refine ⟨hopened.runPort, hapart.life.trans ?_, hapart.coverage.trans ?_⟩ <;> rw [hw]

end

/-- Settles O46: the retries and failures of a write without a held read, and the failure that lets go of one. -/
theorem recordWriteRetriesThenFails : Obligations.RecordWriteRetriesThenFails := by
  refine ⟨fun s n ph j r k a h hj he hf hw => recordWriteFailsAlone h hj he hf hw,
    fun s n rd seg j r k a l e h hj he hf hw hk hd hl hsafe hentry hcls => ?_⟩
  have hopened := h.release (u := (s.setJob none).raise .controlFailed) rfl hl hsafe hentry hcls rfl
  have hapart := State.release_apart ((s.setJob none).raise .controlFailed)
  obtain ⟨hend, hlife, hcov⟩ := h.end_opened hopened (by rw [hapart.dir]; rfl) (by rw [hapart.dir]; rfl) hapart.job
    (State.release_portA _) hd .controlFailed []
  refine ⟨_, ?_, hlife.trans hapart.life, hcov.trans hapart.coverage, hend.isOpen, hend.bank, hend.running, hend.unheld⟩
  rw [exec_recordFailed hj he hf hw hk, State.recordFailed_of_flip (s := s.setJob none) h.running]

end Sys2Proof.Machine
end

-- Proofs of the family 'other': FLIP's and SET-MAP's records.
section
/-! PROOFS. FLIP's switch (R119, R135) and SET-MAP's record and checks (R34, R35, R37, R113, R118, R124). -/

namespace Sys2Proof.Machine

/-! ### FLIP's record (R135) -/

/-- The banks have been switched, and nothing else waits for it yet. -/
def State.banksSwitched (s : State) (f : Fields) : State :=
  ((s.setJob none).takeFields f).onUni fun x => { x with coverage := freshCoverage (bankSize f.map) }

theorem State.recordDone_of_flip {s : State} {r : ControlRecord} (hr : s.dir.running = some .flipSwitch) :
    (s.setJob none).recordDone r =
      (((s.banksSwitched r.fields).clearAhead.release).raise .flipDone).endDirective .done
        (byte r.fields.live.num :: leBytes 2 s.uni.pass.count.toNat) := by
  rw [State.recordDone, State.setJob_dir, hr]
  rfl

/-- What the switch leaves without a read of Port T. -/
theorem State.switched_eq {s : State} (hT : s.reading .t = none) (f : Fields) :
    ∃ engine ahead, ahead.position = none ∧ (∀ p b, .held p b ∉ ahead.slots) ∧
      ((s.banksSwitched f).clearAhead.release).raise .flipDone =
        { s with
          job := none
          life := { s.life with fields := f }
          uni := { s.uni with coverage := freshCoverage (bankSize f.map) }
          engine := engine
          ahead := ahead
          dir := { s.dir with events := s.dir.events ||| 0x0040#13, running := none } } := by
  have hread : (s.banksSwitched f).clearAhead.reading .t = none := by
    rw [State.clearAhead_eq]
    exact hT
  refine ⟨(s.banksSwitched f).clearAhead.engine, (s.banksSwitched f).clearAhead.ahead, State.clearAhead_position _, State.clearAhead_not_held _, ?_⟩
  rw [State.release_of_no_read hread, State.clearAhead_eq]
  rfl

/-- FLIP's record takes effect where no read is held. -/
theorem flipSwitchesAlone {s : State} {n : Nat} {j : Job} {r : ControlRecord} {k : Nat} (h : s.Alone n .flipSwitch) (hj : s.job = some j)
    (he : j.ended = true) (hf : j.firstFailed = none) (hw : j.work = .record r k) (hd : (s.slot n).directive = some .flip) :
    ∃ engine ahead, ahead.position = none ∧ (∀ p b, .held p b ∉ ahead.slots) ∧
      exec .controlRecordWriteEnd s = .next
        { s with
          job := none
          life := { s.life with fields := r.fields }
          uni := { s.uni with coverage := freshCoverage (bankSize r.fields.map) }
          engine := engine
          ahead := ahead
          dir := { s.dir.ended n .done (byte r.fields.live.num :: leBytes 2 s.uni.pass.count.toNat) with
            events := s.dir.events ||| 0x0040#13 ||| 0x0001#13, flipCount := s.dir.flipCount - 1 } } := by
  obtain ⟨engine, ahead, hpos, hheld, heq⟩ := State.switched_eq h.linkT r.fields
  refine ⟨engine, ahead, hpos, hheld, ?_⟩
  rw [exec_recordDone hj he hf hw, State.recordDone_of_flip h.running,
    h.finish_flip_events (u := ((s.banksSwitched r.fields).clearAhead.release).raise .flipDone) (by rw [heq]) (by rw [heq]) (by rw [heq])
      (by rw [heq]) hd, heq, if_pos rfl]

/-- Settles O44: the switch without a held read, and the release of a held one. -/
theorem flipSwitchesBanks : Obligations.FlipSwitchesBanks := by
  refine ⟨fun s n j r k h hj he hf hw hfields hd => ?_, fun s n rd seg j r k l e h hj he hf hw hfields hd hl hsafe hentry hcls => ?_⟩
  · obtain ⟨engine, ahead, hpos, hheld, hexec⟩ := flipSwitchesAlone h hj he hf hw hd
    rw [hfields] at hexec
    exact ⟨_, hexec, rfl, rfl, rfl, rfl, rfl, hpos, hheld, rfl, rfl, rfl, rfl⟩
  · have hclear := State.clearAhead_eq (s.banksSwitched r.fields)
    have hopened := h.release (u := (s.banksSwitched r.fields).clearAhead) (by rw [hclear]; rfl) (by rw [hclear]; exact hl) hsafe
      (by rw [hclear]; show findEntry (mapEntries r.fields.map) rd.addr = _; rw [hfields]; exact hentry) hcls (by rw [hclear]; rfl)
    have hapart := State.release_apart (s.banksSwitched r.fields).clearAhead
    have hdir : (s.banksSwitched r.fields).clearAhead.release.dir = { s.dir with running := none } := by
      rw [hapart.dir, hclear]
      rfl
    have hlive : (s.banksSwitched r.fields).clearAhead.live = s.live.other := by
      rw [hclear]
      show r.fields.live = _
      rw [hfields]
    rw [hlive] at hopened
    have hraised : (((s.banksSwitched r.fields).clearAhead.release).raise .flipDone).Opened s.live.other :=
      ⟨hopened.running, hopened.isOpen, hopened.bank, hopened.unheld⟩
    obtain ⟨hend, hlife, -⟩ := h.end_opened hraised (by rw [State.raise_queue, hdir]) (by rw [State.raise_slots, hdir])
      (by rw [State.raise_job, hapart.job, hclear]; rfl) (by rw [State.raise_portA, State.release_portA, hclear]; rfl) hd .done
      (byte r.fields.live.num :: leBytes 2 s.uni.pass.count.toNat)
    refine ⟨_, ?_, ?_, hend.isOpen, hend.bank, hend.running, hend.unheld⟩
    · rw [exec_recordDone hj he hf hw, State.recordDone_of_flip h.running]
    · rw [State.live, hlife]
      show (s.banksSwitched r.fields).clearAhead.release.live = _
      rw [← hlive]
      exact congrArg (fun x : LifecycleUnit => x.fields.live) hapart.life

/-! ### SET-MAP's record (R37) -/

/-- The new map is in effect, with the note of a carried bundle judged. -/
def State.remapped (s : State) (f : Fields) : State := ((s.setJob none).takeFields f).dropCarried

theorem State.remapped_eq (s : State) (f : Fields) :
    s.remapped f = { s with
      job := none
      life := { s.life with fields := f }
      carried := if (entryOfClass f.map .key).map MapEntry.pbase = s.carried then s.carried else none } := by
  rw [State.remapped, State.dropCarried]
  by_cases h : (entryOfClass f.map .key).map MapEntry.pbase = s.carried
  · rw [if_pos h]
    exact if_pos h
  · rw [if_neg h]
    exact if_neg h

/-- Without a read of Port T the change of the UNIFORMITY entry changes only the controller and the read-ahead buffer. -/
theorem State.resetUniformity_of_no_read {s : State} (h : s.reading .t = none) :
    s.resetUniformity = (s.onUni (UniformityUnit.afresh (bankSize s.life.fields.map))).clearAhead := by
  have hread : (s.onUni (UniformityUnit.afresh (bankSize s.life.fields.map))).clearAhead.reading .t = none := by
    rw [State.clearAhead_eq]
    exact h
  have hpass : (s.onUni (UniformityUnit.afresh (bankSize s.life.fields.map))).clearAhead.onPort .t PortState.outOfPass =
      (s.onUni (UniformityUnit.afresh (bankSize s.life.fields.map))).clearAhead := by
    have : (s.onUni (UniformityUnit.afresh (bankSize s.life.fields.map))).clearAhead.portT.outOfPass =
        (s.onUni (UniformityUnit.afresh (bankSize s.life.fields.map))).clearAhead.portT := by
      unfold State.reading State.port at hread
      unfold PortState.outOfPass
      split
      · next rd hrd =>
        rw [hrd] at hread
        nomatch hread
      · rfl
    rw [State.onPort, State.port, this]
    rfl
  rw [State.resetUniformity, hpass, State.rejudgeSlot, hread]

theorem State.recordDone_of_setMap {s : State} {r : ControlRecord} {i : Nat} {e : Option MapEntry}
    (hr : s.dir.running = some (.setMapRecord i e)) :
    (s.setJob none).recordDone r =
      (if changesUniformity s.life.fields.map i e then (s.remapped r.fields).resetUniformity else s.remapped r.fields).endDirective .done
        [byte i] := by
  rw [State.recordDone, State.setJob_dir, hr]
  show (if changesUniformity s.life.fields.map i e then _ else _) = _
  split <;> rfl

/-- SET-MAP's record takes effect. -/
theorem setMapRecorded {s : State} {n i : Nat} {e : Option MapEntry} {j : Job} {r : ControlRecord} {k : Nat}
    (h : s.Alone n (.setMapRecord i e)) (hj : s.job = some j) (he : j.ended = true) (hf : j.firstFailed = none)
    (hw : j.work = .record r k) (hd : (s.slot n).directive = some .setMap) {u : State} (hu : (if changesUniformity s.life.fields.map i e
      then (s.remapped r.fields).resetUniformity else s.remapped r.fields) = u) (hdir : u.dir = s.dir) (hjob : u.job = none)
    (hA : u.portA = s.portA) (hT : u.portT = s.portT) :
    exec .controlRecordWriteEnd s = .next { u with dir := s.dir.ended n .done [byte i] } := by
  rw [exec_recordDone hj he hf hw, State.recordDone_of_setMap h.running, hu,
    h.finish_end (by rw [hdir]) (by rw [hdir]) hjob hA hT (by rw [hd]; exact nofun) (by rw [hd]; exact nofun), State.ended, hdir]

theorem setMapRecordTakesEffect (s : State) (n i : Nat) (e : Option MapEntry) (j : Job) (r : ControlRecord) (k : Nat)
    (h : s.Alone n (.setMapRecord i e)) (hj : s.job = some j) (he : j.ended = true) (hf : j.firstFailed = none)
    (hw : j.work = .record r k) (hd : (s.slot n).directive = some .setMap) :
    Completes .controlRecordWriteEnd s fun t =>
      t.life = { s.life with fields := r.fields } ∧ t.job = none ∧ t.dir = s.dir.ended n .done [byte i] ∧ t.writeLock = false ∧
      t.uni = (if changesUniformity s.life.fields.map i e then
        { s.uni with
          coverage := List.replicate (bankSize r.fields.map / 4096) .stale
          lengthSetting := none
          pass := { s.uni.pass with isOpen := false, bank := .bank0, length := bankSize r.fields.map, idle := .stopped } }
        else s.uni) ∧
      (changesUniformity s.life.fields.map i e = true → t.ahead.position = none ∧ ∀ p b, .held p b ∉ t.ahead.slots) ∧
      (changesUniformity s.life.fields.map i e = false → t.ahead = s.ahead) ∧
      t.carried = (if (entryOfClass r.fields.map .key).map MapEntry.pbase = s.carried then s.carried else none) ∧
      t.key = s.key ∧ t.queues = s.queues := by
  have hmap := s.remapped_eq r.fields
  cases hc : changesUniformity s.life.fields.map i e with
  | false =>
    have hexec := setMapRecorded h hj he hf hw hd (u := s.remapped r.fields) (by rw [hc]; rfl) (by rw [hmap]) (by rw [hmap])
      (by rw [hmap]) (by rw [hmap])
    rw [hmap] at hexec
    exact ⟨_, hexec, rfl, rfl, rfl, rfl, rfl, nofun, fun _ => rfl, rfl, rfl, rfl⟩
  | true =>
    have hread : (s.remapped r.fields).reading .t = none := by
      rw [hmap]
      exact h.linkT
    have hreset : (s.remapped r.fields).resetUniformity =
        { (s.remapped r.fields).onUni (UniformityUnit.afresh (bankSize r.fields.map)) with
          engine := (s.remapped r.fields).resetUniformity.engine
          ahead := (s.remapped r.fields).resetUniformity.ahead } := by
      have hmaps : (s.remapped r.fields).life.fields.map = r.fields.map := by rw [hmap]
      rw [State.resetUniformity_of_no_read hread, hmaps]
      exact State.clearAhead_eq _
    have hahead : (s.remapped r.fields).resetUniformity.ahead.position = none ∧
        ∀ p b, .held p b ∉ (s.remapped r.fields).resetUniformity.ahead.slots := by
      rw [State.resetUniformity_of_no_read hread]
      exact ⟨State.clearAhead_position _, State.clearAhead_not_held _⟩
    have hexec := setMapRecorded h hj he hf hw hd (u := (s.remapped r.fields).resetUniformity) (by rw [hc]; rfl)
      (by rw [hreset, hmap]; rfl) (by rw [hreset, hmap]; rfl) (by rw [hreset, hmap]; rfl) (by rw [hreset, hmap]; rfl)
    refine ⟨_, hexec, ?_, ?_, rfl, rfl, ?_, fun _ => hahead, nofun, ?_, ?_, ?_⟩ <;> rw [hreset, hmap] <;> rfl

/-! ### SET-MAP's checks (R34, R35) -/

theorem classOf_eq_none {n : Nat} (h : n < 1 ∨ 4 < n) : classOf n = none := by
  unfold classOf
  split <;> first | omega | rfl

theorem baseOk_eq_false {u n b : Nat} :
    baseOk u n b = false ↔ ¬ (b % 4096 = 0 ∧ b + n ≤ 0x2000000 ∧ b % 65536 = u % 65536) := by
  rw [← Bool.not_eq_true, not_iff_not, baseOk, Bool.and_eq_true, Bool.and_eq_true, decide_eq_true_eq, decide_eq_true_eq,
    decide_eq_true_eq, and_assoc]
  rfl

/-- R34, steps 3 to 13, in the parameters' numbers. -/
theorem RawEntry.badOffset_eq (r : RawEntry) :
    r.badOffset =
      if 14 < r.number then some 0
      else if 1 < r.enabled then some 1
      else if r.enabled = 0 then none
      else if r.cls < 1 ∨ 4 < r.cls then some 2
      else if 2 < r.aRight ∨ (r.aRight ≠ 0 ∧ r.cls ≠ 1) then some 3
      else if 1 < r.tRight ∨ (r.tRight ≠ 0 ∧ (r.cls = 2 ∨ r.cls = 3)) then some 4
      else if 1 < r.posted ∨ (r.posted ≠ 0 ∧ r.cls ≠ 1) then some 5
      else if r.reserved ≠ 0 then some 6
      else if r.ubase % 4096 ≠ 0 then some 8
      else if r.size % 4096 ≠ 0 ∨ ¬ ((r.cls = 1 ∧ 4096 ≤ r.size ∧ r.size ≤ 0x1FFF000) ∨ (r.cls = 2 ∧ 4096 ≤ r.size ∧ r.size ≤ 0x800000) ∨
          (r.cls = 3 ∧ r.size = 4096) ∨ (r.cls = 4 ∧ 4096 ≤ r.size ∧ r.size ≤ 65536)) ∨ 0x2000000 < r.ubase + r.size then some 12
      else if ¬ (r.pbase % 4096 = 0 ∧ r.pbase + r.size ≤ 0x2000000 ∧ r.pbase % 65536 = r.ubase % 65536) then some 16
      else if (r.cls = 2 ∧ ¬ (r.pbase2 % 4096 = 0 ∧ r.pbase2 + r.size ≤ 0x2000000 ∧ r.pbase2 % 65536 = r.ubase % 65536)) ∨
          (r.cls ≠ 2 ∧ r.pbase2 ≠ 0) then some 20
      else none := by
  unfold RawEntry.badOffset
  refine if_congr Iff.rfl rfl (if_congr Iff.rfl rfl (if_congr Iff.rfl rfl ?_))
  by_cases hcls : r.cls < 1 ∨ 4 < r.cls
  · rw [if_pos hcls, classOf_eq_none hcls]
  · rw [if_neg hcls]
    have : r.cls = 1 ∨ r.cls = 2 ∨ r.cls = 3 ∨ r.cls = 4 := by omega
    rcases this with h | h | h | h <;> simp [h, classOf, sizeOk, baseOk_eq_false, spaceSize]

theorem leNat_slice_two (m : Mem) (a : Nat) : leNat (Mem.slice m a 2) = (Mem.get m a).toNat + 256 * (Mem.get m (a + 1)).toNat := by
  simp [Mem.slice, leNat, List.range_succ]

theorem overlaps_eq_false {a n b m : Nat} : overlaps a n b m = false ↔ a + n ≤ b ∨ b + m ≤ a := by
  rw [← Bool.not_eq_true, overlaps, Bool.and_eq_true, decide_eq_true_eq, decide_eq_true_eq]
  omega

theorem physicalOverlap_eq_false {e f : MapEntry} :
    physicalOverlap e f = false ↔ ∀ a ∈ e.bases, ∀ b ∈ f.bases, a + e.size ≤ b ∨ b + f.size ≤ a := by
  simp only [physicalOverlap, List.any_eq_false, Bool.not_eq_true, overlaps_eq_false]

/-- R35's tests in their order. -/
theorem conflict_eq (n : Nat) (e : MapEntry) (es : List (Nat × MapEntry)) :
    conflict n e es =
      (((es.filter fun x => decide (x.1 ≠ n)).find? fun x => overlaps e.ubase e.size x.2.ubase x.2.size).map Prod.fst).or
        ((((es.filter fun x => decide (x.1 ≠ n)).find? fun x => physicalOverlap e x.2).map Prod.fst).or
          (if e.cls = .uniformity ∧ overlaps e.pbase e.size e.pbase2 e.size = true then some n
           else if e.bases.any (fun a => overlaps a e.size controlSector 4096) then some 255
           else ((es.filter fun x => decide (x.1 ≠ n)).find? fun x => e.cls.single && decide (x.2.cls = e.cls)).map Prod.fst)) := by
  unfold conflict
  dsimp only
  cases List.find? (fun x : Nat × MapEntry => overlaps e.ubase e.size x.2.ubase x.2.size) _ with
  | some x => rfl
  | none =>
    cases List.find? (fun x : Nat × MapEntry => physicalOverlap e x.2) _ with
    | some x => rfl
    | none => cases List.find? (fun x : Nat × MapEntry => e.cls.single && decide (x.2.cls = e.cls)) _ <;> rfl

theorem RegionClass.single_iff (c : RegionClass) : c.single = true ↔ c = .uniformity ∨ c = .key ∨ c = .settings := by
  cases c <;> decide

theorem ite_some_eq_none {c d : Prop} [Decidable c] [Decidable d] {m n : Nat} {x : Option Nat} :
    (if c then some m else if d then some n else x) = none ↔ ¬ c ∧ ¬ d ∧ x = none := by
  by_cases hc : c <;> by_cases hd : d <;> simp [hc, hd]

/-- The other entries of a list pass a test. -/
theorem find?_others_eq_none {n : Nat} {es : List (Nat × MapEntry)} {p : Nat × MapEntry → Bool} :
    (es.filter fun x => decide (x.1 ≠ n)).find? p = none ↔ ∀ x ∈ es, x.1 ≠ n → p x = false := by
  simp only [List.find?_eq_none, List.mem_filter, decide_eq_true_eq, and_imp, Bool.not_eq_true]

/-- No conflict is found exactly where every condition of R35 holds. -/
theorem conflict_eq_none_iff (n : Nat) (e : MapEntry) (es : List (Nat × MapEntry)) :
    conflict n e es = none ↔
      (∀ x ∈ es, x.1 ≠ n → (e.ubase + e.size ≤ x.2.ubase ∨ x.2.ubase + x.2.size ≤ e.ubase) ∧
        (∀ a ∈ e.bases, ∀ b ∈ x.2.bases, a + e.size ≤ b ∨ b + x.2.size ≤ a) ∧
        (e.cls = .uniformity ∨ e.cls = .key ∨ e.cls = .settings → x.2.cls ≠ e.cls)) ∧
      (e.cls = .uniformity → e.pbase + e.size ≤ e.pbase2 ∨ e.pbase2 + e.size ≤ e.pbase) ∧
      (∀ a ∈ e.bases, a + e.size ≤ 0x1FFF000 ∨ 0x2000000 ≤ a) := by
  have hbanks : ¬ (e.cls = .uniformity ∧ overlaps e.pbase e.size e.pbase2 e.size = true) ↔
      (e.cls = .uniformity → e.pbase + e.size ≤ e.pbase2 ∨ e.pbase2 + e.size ≤ e.pbase) := by
    rw [not_and, Bool.not_eq_true, overlaps_eq_false]
  have hcontrol : ¬ (e.bases.any (fun a => overlaps a e.size controlSector 4096) = true) ↔
      ∀ a ∈ e.bases, a + e.size ≤ 0x1FFF000 ∨ 0x2000000 ≤ a := by
    simp only [Bool.not_eq_true, List.any_eq_false, overlaps_eq_false, controlSector]
  have hsingle (x : Nat × MapEntry) : (e.cls.single && decide (x.2.cls = e.cls)) = false ↔
      (e.cls = .uniformity ∨ e.cls = .key ∨ e.cls = .settings → x.2.cls ≠ e.cls) := by
    rw [← Bool.not_eq_true, Bool.and_eq_true, RegionClass.single_iff, decide_eq_true_eq, not_and]
  rw [conflict_eq, Option.or_eq_none_iff, Option.or_eq_none_iff, Option.map_eq_none_iff, Option.map_eq_none_iff, ite_some_eq_none,
    Option.map_eq_none_iff, hbanks, hcontrol, find?_others_eq_none, find?_others_eq_none, find?_others_eq_none]
  simp only [overlaps_eq_false, physicalOverlap_eq_false, hsingle]
  constructor
  · rintro ⟨hup, hphys, hbank, hctl, hcls⟩
    exact ⟨fun x hx hn => ⟨hup x hx hn, hphys x hx hn, hcls x hx hn⟩, hbank, hctl⟩
  · rintro ⟨hall, hbank, hctl⟩
    exact ⟨fun x hx hn => (hall x hx hn).1, fun x hx hn => (hall x hx hn).2.1, hbank, hctl, fun x hx hn => (hall x hx hn).2.2⟩

/-! ### The start of SET-MAP -/

section
variable {s : State} {n : Nat} {img : Mem} {len : Nat} {l : Lifecycle}

/-- SET-MAP's checks, and its wait for the queues. -/
theorem setMapStarts (hl : s.life.lifecycle = some l) (h : s.Starts n .setMap img len) :
    (l ≠ .opened → exec .directiveStart s = .next { s with dir := s.dir.ended n .notInState [] }) ∧
    (l = .opened → len ≠ 24 → exec .directiveStart s = .next { s with dir := s.dir.ended n .badParameter [0] }) ∧
    (∀ o, l = .opened → len = 24 → (RawEntry.read img 5).badOffset = some o →
      exec .directiveStart s = .next { s with dir := s.dir.ended n .badParameter [byte o] }) ∧
    (∀ e o, l = .opened → len = 24 → (RawEntry.read img 5).badOffset = none → (RawEntry.read img 5).entry = some e →
      conflict (param img 0).toNat e s.entries = some o →
      exec .directiveStart s = .next { s with dir := s.dir.ended n .mapConflict [byte o] }) ∧
    (l = .opened → len = 24 → (RawEntry.read img 5).badOffset = none →
      (∀ e, (RawEntry.read img 5).entry = some e → conflict (param img 0).toNat e s.entries = none) → (∃ q, s.entriesOf q ≠ []) →
      exec .directiveStart s = .next
        { s with dir := s.dir.begun n (.setMapFence (param img 0).toNat (RawEntry.read img 5).entry) }) := by
  have refused := h.finish_refused (by decide) (by decide)
  have allowed : (s.started n).allows .setMap = false ↔ l ≠ .opened := by
    rw [State.allows_eq (s := s.started n) hl]
    cases l <;> decide
  have start_eq : exec .directiveStart s = .next ((s.started n).startSetMap img len).finish := h.exec_eq
  refine ⟨fun h1 => ?_, fun h1 h2 => ?_, fun o h1 h2 h3 => ?_, fun e o h1 h2 h3 h4 h5 => ?_, fun h1 h2 h3 h4 hq => ?_⟩
  · rw [start_eq, State.startSetMap, if_pos (allowed.2 h1)]
    exact congrArg _ (refused ..)
  · rw [start_eq, State.startSetMap, if_neg (by simp [allowed, h1]), if_pos h2]
    exact congrArg _ (refused ..)
  · rw [start_eq, State.startSetMap, if_neg (by simp [allowed, h1]), if_neg (not_not.2 h2)]
    simp only [h3]
    exact congrArg _ (refused ..)
  · have h5' : conflict (RawEntry.read img 5).number e (s.started n).entries = some o := h5
    rw [start_eq, State.startSetMap, if_neg (by simp [allowed, h1]), if_neg (not_not.2 h2)]
    simp only [h3, h4, h5']
    exact congrArg _ (refused ..)
  · have hstart : (s.started n).startSetMap img len =
        (s.started n).enter (.setMapFence (param img 0).toNat (RawEntry.read img 5).entry) := by
      rw [State.startSetMap, if_neg (by simp [allowed, h1]), if_neg (not_not.2 h2)]
      cases he : (RawEntry.read img 5).entry with
      | none =>
        simp only [h3, he]
        rfl
      | some e =>
        have h4' : conflict (RawEntry.read img 5).number e (s.started n).entries = none := h4 e he
        simp only [h3, he, h4']
        rfl
    obtain ⟨q, hq⟩ := hq
    rw [start_eq, hstart]
    exact congrArg _ (h.finish_begun (State.setMapFenceStep_of_held
      (s := { s with dir := s.dir.begun n (.setMapFence (param img 0).toNat (RawEntry.read img 5).entry) })
      (State.fenceClear_eq_false (s := s) ⟨q, q.mem_all, hq⟩)))

end

theorem RawEntry.reserved_ne_zero (img : Mem) :
    (RawEntry.read img 5).reserved ≠ 0 ↔ (param img 6).toNat ≠ 0 ∨ (param img 7).toNat ≠ 0 := by
  show leNat (Mem.slice img 11 2) ≠ 0 ↔ (Mem.get img 11).toNat ≠ 0 ∨ (Mem.get img 12).toNat ≠ 0
  rw [leNat_slice_two, show 11 + 1 = 12 from rfl]
  omega

/-- Settles O45: the checks of the start, the record's effects, and R35's conditions. -/
theorem setMapTakesEffect : Obligations.SetMapTakesEffect := by
  refine ⟨fun n img len s l h hl => ?_, setMapRecordTakesEffect, conflict_eq_none_iff⟩
  have hbad := (RawEntry.read img 5).badOffset_eq
  simp only [RawEntry.reserved_ne_zero] at hbad
  have hstarts := setMapStarts hl h
  rw [hbad] at hstarts
  exact hstarts

end Sys2Proof.Machine
end

-- Proofs of the family 'other': queues, SYNC and DISCARD.
section
/-! PROOFS. A queue's entries (R59, R67), SYNC (R69, R73, R74) and DISCARD (R61, R70, R71). -/

namespace Sys2Proof.Machine

/-! ### Replacing a queue's entries (R67) -/

/-- A queue with other entries and its flag judged (R67). -/
def Queue.filled (x : Queue) (l : List Entry) : Queue := { x with entries := l, high := decide (x.level ≤ l.length) }

/-- The flag passes from clear to set with these entries. -/
def Queue.fills (x : Queue) (l : List Entry) : Bool := decide (x.level ≤ l.length) && !x.high

/-- A queue's entries, its flag and the event of its rising (R67). -/
theorem State.setEntries_eq (s : State) (q : QueueId) (l : List Entry) :
    s.setEntries q l =
      { s with
        queues := s.queues.put q ((s.queues.get q).filled l)
        dir := { s.dir with events := s.dir.events ||| highEvent ((s.queues.get q).fills l) } } := by
  have hset : (s.onQueue q fun x => { x with entries := l }).queues.get q = { s.queues.get q with entries := l } := PerQueue.get_put ..
  have hjudged : (s.onQueue q fun x => { x with entries := l }).onQueue q Queue.judged =
      { s with queues := s.queues.put q ((s.queues.get q).filled l) } := by
    rw [State.onQueue, hset, State.setQueue, State.onQueue, State.setQueue, PerQueue.put_put]
    rfl
  rw [State.setEntries, State.judgeHigh, hset, hjudged]
  have hcond : (Queue.isHigh { s.queues.get q with entries := l } && !(s.queues.get q).high) = (s.queues.get q).fills l := rfl
  rw [hcond]
  cases (s.queues.get q).fills l with
  | true => rfl
  | false => simp [highEvent]

theorem State.entriesOf_setEntries (s : State) (q : QueueId) (l : List Entry) : (s.setEntries q l).entriesOf q = l := by
  rw [State.setEntries_eq, State.entriesOf, PerQueue.get_put]
  rfl

theorem State.queues_setEntries_ne (s : State) {q r : QueueId} (l : List Entry) (h : r ≠ q) :
    (s.setEntries q l).queues.get r = s.queues.get r := by
  rw [State.setEntries_eq]
  exact PerQueue.get_put_ne _ _ h

/-! ### SYNC -/

theorem PerQueue.mem_named {x : PerQueue Bool} {q : QueueId} : q ∈ x.named ↔ x.get q = true := by
  rw [PerQueue.named, List.mem_filter]
  exact and_iff_right q.mem_all

theorem State.syncStep_of_clear {s : State} {names : PerQueue Bool} (hr : s.dir.running = some (.syncWait names))
    (hf : s.fenceClear names.named = true) :
    s.syncStep = some (s.endDirective .done [byte s.queues.sys.failures, byte s.queues.pass.failures, byte s.queues.set.failures,
      byte s.queues.uni.failures]) := by
  simp only [State.syncStep, hr, hf, if_true]

theorem State.syncStep_of_held {s : State} {names : PerQueue Bool} (hr : s.dir.running = some (.syncWait names))
    (hf : s.fenceClear names.named = false) : s.syncStep = none := by
  simp [State.syncStep, hr, hf]

theorem State.Alone.syncStep_of_empty {s : State} {n : Nat} {names : PerQueue Bool} (h : s.Alone n (.syncWait names))
    (hq : ∀ q, names.get q = true → s.entriesOf q = []) :
    s.syncStep = some (s.endDirective .done [byte s.queues.sys.failures, byte s.queues.pass.failures, byte s.queues.set.failures,
      byte s.queues.uni.failures]) :=
  State.syncStep_of_clear h.running (State.fenceClear_eq_true (fun q hm => hq q (PerQueue.mem_named.1 hm)) h.awaiting)

theorem State.syncStep_of_entry {s : State} {names : PerQueue Bool} (hr : s.dir.running = some (.syncWait names))
    (hq : ∃ q, names.get q = true ∧ s.entriesOf q ≠ []) : s.syncStep = none := by
  obtain ⟨q, hn, he⟩ := hq
  exact State.syncStep_of_held hr (State.fenceClear_eq_false ⟨q, PerQueue.mem_named.2 hn, he⟩)

/-- The queues that SYNC's parameters name (R73). -/
def syncNames (img : Mem) : PerQueue Bool :=
  ⟨decide (param img 0 = 1), decide (param img 1 = 1), decide (param img 2 = 1), decide (param img 3 = 1)⟩

theorem get_syncNames (img : Mem) (q : QueueId) : (syncNames img).get q = decide (param img q.num = 1) := by cases q <;> rfl

theorem paramNat_eq_zero_iff (img : Mem) : paramNat img 0 4 = 0 ↔ ∀ i < 4, param img i = 0 := by
  have hbytes : Mem.slice img (5 + 0) 4 = (List.range 4).map (param img) := rfl
  rw [paramNat, leNat_eq_zero, hbytes, List.forall_mem_map]
  simp only [List.mem_range]

section
variable {s : State} {n : Nat} {img : Mem} {len : Nat} {l : Lifecycle}

/-- SYNC's checks and its wait (R73). -/
theorem syncStarts (hl : s.life.lifecycle = some l) (h : s.Starts n .sync img len) :
    (l = .safe → exec .directiveStart s = .next { s with dir := s.dir.ended n .notInState [] }) ∧
    (l ≠ .safe → len ≠ 4 → exec .directiveStart s = .next { s with dir := s.dir.ended n .badParameter [0] }) ∧
    (∀ i < 4, l ≠ .safe → len = 4 → 1 < (param img i).toNat → (∀ j < i, (param img j).toNat ≤ 1) →
      exec .directiveStart s = .next { s with dir := s.dir.ended n .badParameter [byte i] }) ∧
    (l ≠ .safe → len = 4 → (∀ i < 4, param img i = 0) →
      exec .directiveStart s = .next { s with dir := s.dir.ended n .badParameter [0] }) ∧
    (l ≠ .safe → len = 4 → (∀ i < 4, (param img i).toNat ≤ 1) → (∃ q, param img q.num = 1 ∧ s.entriesOf q ≠ []) →
      exec .directiveStart s = .next { s with dir := s.dir.begun n (.syncWait (syncNames img)) }) := by
  have refused := h.finish_refused (by decide) (by decide)
  have allowed : (s.started n).allows .sync = false ↔ l = .safe := by
    rw [State.allows_eq (s := s.started n) hl]
    cases l <;> decide
  have start_eq : exec .directiveStart s = .next ((s.started n).startSync img len).finish := h.exec_eq
  have hchecked (h1 : l ≠ .safe) (h2 : len = 4) (hgood : ∀ i < 4, (param img i).toNat ≤ 1) : (s.started n).startSync img len =
      if paramNat img 0 4 = 0 then (s.started n).badParam 0 else (s.started n).enter (.syncWait (syncNames img)) := by
    have hfirst : firstBad img (fun v => decide (1 < v)) 4 0 = none :=
      firstBad_eq_none fun j hj => by
        rw [Nat.zero_add]
        exact decide_eq_false (Nat.not_lt.2 (hgood j hj))
    rw [State.startSync, if_neg (by simp [allowed, h1]), if_neg (not_not.2 h2), hfirst]
    rfl
  refine ⟨fun h1 => ?_, fun h1 h2 => ?_, fun i hi h1 h2 hbad hgood => ?_, fun h1 h2 hzero => ?_, fun h1 h2 hgood hq => ?_⟩
  · rw [start_eq, State.startSync, if_pos (allowed.2 h1)]
    exact congrArg _ (refused ..)
  · rw [start_eq, State.startSync, if_neg (by simp [allowed, h1]), if_pos h2]
    exact congrArg _ (refused ..)
  · have hfirst : firstBad img (fun v => decide (1 < v)) 4 0 = some (0 + i) :=
      firstBad_eq_some hi (by simpa using hbad) fun j hj => by
        rw [Nat.zero_add]
        exact decide_eq_false (Nat.not_lt.2 (hgood j hj))
    rw [start_eq, State.startSync, if_neg (by simp [allowed, h1]), if_neg (not_not.2 h2), hfirst, Nat.zero_add]
    exact congrArg _ (refused ..)
  · have hgood (i : Nat) (hi : i < 4) : (param img i).toNat ≤ 1 := by simp [hzero i hi]
    rw [start_eq, hchecked h1 h2 hgood, if_pos ((paramNat_eq_zero_iff img).2 hzero)]
    exact congrArg _ (refused ..)
  · obtain ⟨q, hone, hne⟩ := hq
    have hnum : q.num < 4 := by cases q <;> decide
    have hzero : paramNat img 0 4 ≠ 0 := fun hz => by
      rw [(paramNat_eq_zero_iff img).1 hz q.num hnum] at hone
      exact absurd hone (by decide)
    rw [start_eq, hchecked h1 h2 hgood, if_neg hzero]
    exact congrArg _ (h.finish_begun (State.syncStep_of_entry (s := { s with dir := s.dir.begun n (.syncWait (syncNames img)) }) rfl
      ⟨q, by rw [get_syncNames, hone]; rfl, hne⟩))

end

/-! ### DISCARD -/

/-- What Port A hears of removed entries, all at once (R50, R51). -/
theorem foldl_tellRemoved_eq (l : List Entry) (s : State) :
    l.foldl State.tellRemoved s =
      s.onPort .a fun x => { x with
        cause := if (∃ e ∈ l, x.cause = .entry e.seq) then .none else x.cause
        programErr := x.programErr || decide (∃ e ∈ l, x.cause = .entry e.seq) } := by
  induction l generalizing s with
  | nil => simp [State.onPort, State.setPort, State.port]
  | cons e l ih =>
    rw [List.foldl_cons, ih]
    by_cases he : s.portA.cause = .entry e.seq
    · simp [State.tellRemoved, State.tellPort, he, State.onPort, State.setPort, State.port]
    · simp [State.tellRemoved, he, State.onPort, State.setPort, State.port]

theorem State.withdrawHead_eq (s : State) (q : QueueId) : s.withdrawHead q = { s with engine := (s.withdrawHead q).engine } := by
  rw [State.withdrawHead]
  split <;> rfl

/-- A queue's claim, where its head is QUEUED, is withdrawn (R61). -/
theorem State.claim_withdrawHead {s : State} {q : QueueId} (h : s.headState q = some .queued) :
    (s.withdrawHead q).claim q.claimant = none := by
  rw [State.withdrawHead, if_pos h]
  exact State.claim_setClaim s q.claimant none

/-- The entries of a queue that DISCARD removes. -/
def State.removed (s : State) (q : QueueId) : List Entry := (s.entriesOf q).filter fun e => decide (e.state = .queued)

/-- DISCARD on a queue (R71). -/
theorem State.discard_eq (s : State) (q : QueueId) :
    s.discard q =
      { s with
        engine := (s.withdrawHead q).engine
        queues := s.queues.put q ((s.queues.get q).filled ((s.entriesOf q).filter fun e => decide (e.state ≠ .queued)))
        dir := { s.dir with
          events := s.dir.events |||
            highEvent ((s.queues.get q).fills ((s.entriesOf q).filter fun e => decide (e.state ≠ .queued))) }
        pool := s.pool ++ (s.removed q).filterMap Entry.page
        portA := { s.portA with
          cause := if (∃ e ∈ s.removed q, s.portA.cause = .entry e.seq) then .none else s.portA.cause
          programErr := s.portA.programErr || decide (∃ e ∈ s.removed q, s.portA.cause = .entry e.seq) } } := by
  have hkept : (s.entriesOf q).filter (fun e => !e.isQueued) = (s.entriesOf q).filter fun e => decide (e.state ≠ .queued) :=
    List.filter_congr fun e _ => (decide_not ..).symm
  rw [State.discard, foldl_tellRemoved_eq, hkept, State.setEntries_eq, State.withdrawHead_eq]
  rfl

theorem State.discardData_eq (s : State) (q : QueueId) :
    s.discardData q = [byte (s.removed q).length, byte ((s.removed q).filterMap Entry.page).length] := by
  rw [← heldIn_eq_filterMap]
  rfl

theorem discardQueue_num {q : QueueId} (h : q ≠ .sys) : discardQueue q.num = some q := by
  cases q with
  | sys => exact absurd rfl h
  | pass => rfl
  | set => rfl
  | uni => rfl

theorem discardQueue_eq_none {n : Nat} (h1 : n ≠ 1) (h2 : n ≠ 2) (h3 : n ≠ 3) : discardQueue n = none := by
  unfold discardQueue
  split
  · exact absurd rfl h1
  · exact absurd rfl h2
  · exact absurd rfl h3
  · rfl

section
variable {s : State} {n : Nat} {img : Mem} {len : Nat} {l : Lifecycle}

/-- After DISCARD has ended its event ends. -/
theorem State.Starts.finish_discard (h : s.Starts n .discard img len) (q : QueueId) :
    (((s.started n).discard q).endDirective .done ((s.started n).discardData q)).finish =
      { (s.started n).discard q with
        dir := { s.dir.ended n .done [byte (s.removed q).length, byte ((s.removed q).filterMap Entry.page).length] with
          events := ((s.started n).discard q).dir.events ||| 0x0001#13 } } := by
  have heq := (s.started n).discard_eq q
  have hdata : (s.started n).discardData q =
      [byte (s.removed q).length, byte ((s.removed q).filterMap Entry.page).length] := (s.started n).discardData_eq q
  have hslot : (((s.started n).discard q).slot n).directive = some .discard := h.slot_directive (by rw [heq])
  have heads : ((s.started n).discard q).Heads n := h.heads (by rw [heq]; rfl) (by rw [heq])
  have hend : ((s.started n).discard q).endDirective .done ((s.started n).discardData q) =
      { (s.started n).discard q with
        dir := { s.dir.ended n .done [byte (s.removed q).length, byte ((s.removed q).filterMap Entry.page).length] with
          events := ((s.started n).discard q).dir.events ||| 0x0001#13 } } := by
    rw [heads.endDirective_other (by rw [hslot]; exact nofun) (by rw [hslot]; exact nofun), hdata, State.ended,
      ← State.started_dir_ended s h.low h.high, heq]
    rfl
  rw [hend]
  refine State.Calm.finish_eq ⟨congrArg List.tail h.queue, rfl, ?_, ?_, fun r => ?_⟩ (h.toNoReads.of_links ?_ ?_)
  · rw [heq]; exact h.job
  · rw [heq]; exact h.awaiting
  · rw [heq]
    show (if _ then BusyCause.none else s.portA.cause) ≠ _
    split
    · nofun
    · exact h.noRoom r
  · rw [heq]; rfl
  · rw [heq]; rfl

/-- DISCARD's checks and its effect (R70, R71). -/
theorem discardStarts (hl : s.life.lifecycle = some l) (h : s.Starts n .discard img len) :
    (l = .closed ∨ l = .safe → exec .directiveStart s = .next { s with dir := s.dir.ended n .notInState [] }) ∧
    (l ≠ .closed → l ≠ .safe → len ≠ 1 → exec .directiveStart s = .next { s with dir := s.dir.ended n .badParameter [0] }) ∧
    (l ≠ .closed → l ≠ .safe → len = 1 → param img 0 ≠ 1 → param img 0 ≠ 2 → param img 0 ≠ 3 →
      exec .directiveStart s = .next { s with dir := s.dir.ended n .badParameter [0] }) ∧
    (∀ q, l ≠ .closed → l ≠ .safe → len = 1 → q ≠ .sys → (param img 0).toNat = q.num →
      exec .directiveStart s = .next
        { (s.started n).discard q with
          dir := { s.dir.ended n .done [byte (s.removed q).length, byte ((s.removed q).filterMap Entry.page).length] with
            events := ((s.started n).discard q).dir.events ||| 0x0001#13 } }) := by
  have refused := h.finish_refused (by decide) (by decide)
  have allowed : (s.started n).allows .discard = false ↔ l = .closed ∨ l = .safe := by
    rw [State.allows_eq (s := s.started n) hl]
    cases l <;> decide
  have start_eq : exec .directiveStart s = .next ((s.started n).startDiscard img len).finish := h.exec_eq
  refine ⟨fun h1 => ?_, fun h1 h2 h3 => ?_, fun h1 h2 h3 p1 p2 p3 => ?_, fun q h1 h2 h3 hsys hq => ?_⟩
  · rw [start_eq, State.startDiscard, if_pos (allowed.2 h1)]
    exact congrArg _ (refused ..)
  · rw [start_eq, State.startDiscard, if_neg (by simp [allowed, h1, h2]), if_pos h3]
    exact congrArg _ (refused ..)
  · have hnone : discardQueue (param img 0).toNat = none :=
      discardQueue_eq_none (fun h => p1 (BitVec.eq_of_toNat_eq h)) (fun h => p2 (BitVec.eq_of_toNat_eq h))
        (fun h => p3 (BitVec.eq_of_toNat_eq h))
    rw [start_eq, State.startDiscard, if_neg (by simp [allowed, h1, h2]), if_neg (not_not.2 h3), hnone]
    exact congrArg _ (refused ..)
  · rw [start_eq, State.startDiscard, if_neg (by simp [allowed, h1, h2]), if_neg (not_not.2 h3), hq, discardQueue_num hsys]
    exact congrArg _ (h.finish_discard q)

end

/-- Settles O41: SYNC's wait, the starts of both directives, and what DISCARD leaves. -/
theorem syncEndsWithCounts : Obligations.SyncEndsWithCounts := by
  refine ⟨fun s n names h hj hd => ⟨fun hq => ?_, fun hq => ?_⟩, fun n img len s l hl => ⟨syncStarts hl, fun h => ?_⟩⟩
  · change s.moment s.syncStep = _
    rw [State.moment_of_some (h.syncStep_of_empty hq)]
    exact congrArg _ (h.finish_end rfl rfl hj rfl rfl (by rw [hd]; exact nofun) (by rw [hd]; exact nofun) _ _)
  · exact State.moment_of_none (State.syncStep_of_entry h.running hq)
  · obtain ⟨hstate, hlen, hparam, hdone⟩ := discardStarts hl h
    refine ⟨hstate, hlen, hparam, fun q h1 h2 h3 hsys hq => ?_⟩
    have heq := (s.started n).discard_eq q
    refine ⟨_, hdone q h1 h2 h3 hsys hq, ?_, fun r hr => ?_, ?_, rfl, congrArg List.tail h.queue, rfl, fun hhead => ?_, ?_, ?_, ?_, ?_, ?_,
      ?_, ?_⟩
    · rw [heq]
      exact congrArg Queue.entries (PerQueue.get_put ..)
    · rw [heq]
      exact PerQueue.get_put_ne _ _ hr
    · rw [heq]; rfl
    · rw [heq]
      exact State.claim_withdrawHead (s := s.started n) hhead
    · rw [heq]; rfl
    · rw [heq]; rfl
    · rw [heq]; rfl
    · rw [heq]; rfl
    · rw [heq]; rfl
    · rw [heq]; rfl
    · rw [heq]; rfl

end Sys2Proof.Machine
end

-- Proofs of the family 'other': SYS-READs that end, and FLIP's DRAIN and CHECK.
section
/-! PROOFS. SYS-READs that end (R83, R95), and FLIP's DRAIN, COVERAGE and CHECK (R127, R129 to R133). -/

namespace Sys2Proof.Machine

/-! ### SYS-READ claims -/

section
variable {s : State}

/-- A claim raised while Port F is free is granted at once (R82). -/
theorem State.raiseClaim_of_free (h : s.portFree = true) {c : Claimant} (hc : claimQueue c = none) (x : ReadRange) :
    s.raiseClaim c (some x) =
      { s with engine := { s.engine with
          claims := s.engine.claims.put c none, read := some { claimant := c, range := x, discard := false } } } := by
  have hread : s.engine.read = none := by
    rw [State.portFree, Bool.and_eq_true] at h
    exact Option.isNone_iff_eq_none.1 h.2
  have hdisc : s.discarding c = false := by rw [State.discarding, hread]
  rw [State.raiseClaim, hdisc, if_neg Bool.false_ne_true, if_pos h,
    State.grant_read hc (State.claim_setClaim s c _) rfl]
  have hput (y : PerClaimant (Option Claim)) (v w : Option Claim) : (y.put c v).put c w = y.put c w := by cases c <;> rfl
  rw [State.setClaim]
  simp only [State.onEngine, hput]

/-- A SYS-READ claim raised while a page read is in flight whose bytes are wanted stands (R79, R81). -/
theorem State.raiseClaim_sysRead_of_read {y : PageRead} (h : s.engine.read = some y) (hd : y.discard = false) (x : ReadRange) :
    s.raiseClaim .sysRead (some x) = s.setClaim .sysRead (some (s.newClaim (some x))) := by
  have hdisc : s.discarding .sysRead = false := by
    rw [State.discarding, h]
    simp [hd]
  have hfree : s.portFree = false := by simp [State.portFree, h]
  rw [State.raiseClaim, hdisc, if_neg Bool.false_ne_true, hfree, if_neg Bool.false_ne_true]
  exact if_neg Bool.false_ne_true

/-- The only standing claim has the highest bid. -/
theorem State.highest_of_single {c : Claimant} {cl : Claim} (hc : s.claim c = some cl) (honly : ∀ d, d ≠ c → s.claim d = none) :
    s.highest claimants = some c := by
  obtain ⟨-, -, hwins, hnone⟩ := highestBidWins s
  change (∀ d, s.highest claimants = some d → _) at hwins
  change (s.highest claimants = none ↔ _) at hnone
  cases hh : s.highest claimants with
  | none =>
    rw [hnone.1 hh c] at hc
    nomatch hc
  | some d =>
    obtain ⟨n, hbid, -⟩ := hwins d hh
    by_cases hd : d = c
    · rw [hd]
    · rw [State.bid_eq_none.2 (honly d hd)] at hbid
      nomatch hbid

/-- With Port F free the highest bid is granted (R82). -/
theorem State.grantPoint_of_free {c : Claimant} (hread : s.engine.read = none) (hwrite : s.engine.write = none)
    (hh : s.highest claimants = some c) : s.grantPoint = s.grant c := by
  rw [State.grantPoint, hread, hwrite]
  dsimp only
  rw [hh]

/-- A page read ends with one claim standing, Port F otherwise free: that claim is granted (R82, R83). -/
theorem State.endPageRead_of_single {c : Claimant} {cl : Claim} {x : ReadRange} (hwrite : s.engine.write = none)
    (hq : claimQueue c = none) (hc : s.claim c = some cl) (hx : cl.range = some x) (honly : ∀ d, d ≠ c → s.claim d = none) :
    s.endPageRead.engine.read = some { claimant := c, range := x, discard := false } := by
  rw [State.endPageRead, State.grantPoint_of_free (s := s.onEngine fun y => { y with read := none }) rfl hwrite
      (State.highest_of_single (s := s.onEngine fun y => { y with read := none }) hc honly),
    State.grant_read (s := s.onEngine fun y => { y with read := none }) hq hc hx]

end

/-! ### The end of a SYS-READ -/

section
variable {s : State} {x : ReadRange} {l : Lifecycle}

/-- A page read whose bytes are wanted discards none. -/
theorem State.keepNoDiscard_of_wanted {y : PageRead} (h : s.engine.read = some y) (hd : y.discard = false) : s.keepNoDiscard = s := by
  have hy : ({ y with discard := false } : PageRead) = y := by rw [← hd]
  rw [State.keepNoDiscard, State.onEngine, h, Option.map_some, hy, ← h]

theorem State.raiseDeferred_of_none {c : Claimant} (h : s.engine.deferred.get c = none) : s.raiseDeferred c = s := by
  rw [State.raiseDeferred, h]

/-- Outside LOADING a SYS-READ that ends hands its bytes to the running directive, which then ends its event (R83, R95). -/
theorem exec_sysReadEnd {u : State} (hread : s.engine.read = some { claimant := .sysRead, range := x, discard := false })
    (hu : s.sysRead { claimant := .sysRead, range := x, discard := false } = u) (hdef : u.engine.deferred.get .sysRead = none) :
    exec .pageReadEnd s = .next u.finish.endPageRead := by
  change execPageReadEnd s = _
  simp only [execPageReadEnd, hread]
  rw [State.keepNoDiscard_of_wanted hread rfl]
  show Host.Outcome.next ((s.sysRead _).raiseDeferred .sysRead).finish.endPageRead = _
  rw [hu, State.raiseDeferred_of_none hdef]

theorem State.not_loading (hl : s.life.lifecycle = some l) : s.loading = false := by rw [State.loading, hl]; rfl

theorem State.sysRead_of_header (hl : s.life.lifecycle = some l) (hr : s.dir.running = some .flipHeader) (y : PageRead) :
    s.sysRead y = s.headerRead := by
  rw [State.sysRead, State.not_loading hl, if_neg Bool.false_ne_true, hr]

theorem State.sysRead_of_crc (hl : s.life.lifecycle = some l) {len stored next : Nat} {crc : BitVec 32}
    (hr : s.dir.running = some (.flipCrc len stored next crc)) (y : PageRead) : s.sysRead y = s.crcRead y.range len stored next crc := by
  rw [State.sysRead, State.not_loading hl, if_neg Bool.false_ne_true, hr]

theorem State.sysRead_of_validate (hl : s.life.lifecycle = some l) {len : Nat} (hr : s.dir.running = some (.sealValidate len))
    (y : PageRead) : s.sysRead y = s.sealJudge len (combine s.flash (s.entriesOf .set) y.range) := by
  simp only [State.sysRead, State.not_loading hl, hr, State.regionJudge, Bool.false_eq_true, if_false]

theorem State.sysRead_of_check (hl : s.life.lifecycle = some l) (hr : s.dir.running = some .serviceCloseCheck) (y : PageRead) :
    s.sysRead y = s.serviceJudge (combine s.flash (s.entriesOf .set) y.range) := by
  simp only [State.sysRead, State.not_loading hl, hr, State.regionJudge, Bool.false_eq_true, if_false]

end

/-! ### FLIP's start and DRAIN -/

/-- A directive that runs alone and waits on in a phase whose moment is not due. -/
theorem State.Alone.finish_waits {s u : State} {n : Nat} {ph ph' : Phase} (h : s.Alone n ph) (hr : u.dir.running = some ph')
    (hjob : u.job = none) (hA : u.portA = s.portA) (hT : u.portT = s.portT) (hf : u.fenceStep ph' = none) : u.finish = u :=
  State.Waits.finish
    { running := hr
      job := hjob
      awaiting := (congrArg PortState.awaiting hA).trans h.awaiting
      noRoom := fun q hc => h.noRoom q ((congrArg PortState.cause hA).symm.trans hc) }
    hf (h.toNoReads.of_links (congrArg PortState.link hA) (congrArg PortState.link hT))

/-- FLIP's checks and its wait for Q-UNI (R127). -/
theorem flipStarts {s : State} {n : Nat} {img : Mem} {len : Nat} {l : Lifecycle} (hl : s.life.lifecycle = some l)
    (h : s.Starts n .flip img len) :
    let ends := fun (c : ResultCode) (r : List Byte) =>
      exec .directiveStart s = .next { s with dir := { s.dir.ended n c r with flipCount := s.dir.flipCount - 1 } }
    let allowed := (l = .opened ∨ l = .sealed ∨ l = .service) ∧ s.uniformity ≠ none
    (¬ allowed → ends .notInState []) ∧
    (allowed → len ≠ 2 → ends .badParameter [0]) ∧
    (allowed → len = 2 → 1 < (param img 0).toNat → ends .badParameter [0]) ∧
    (allowed → len = 2 → (param img 0).toNat ≤ 1 → 1 < (param img 1).toNat → ends .badParameter [1]) ∧
    (allowed → len = 2 → (param img 0).toNat ≤ 1 → (param img 1).toNat ≤ 1 → s.entriesOf .uni ≠ [] →
      exec .directiveStart s = .next
        { s with dir := s.dir.begun n (.flipDrain (decide (param img 0 = 0)) (decide (param img 1 = 1))) }) := by
  intro ends allowed
  have hends {c : ResultCode} {r : List Byte} (hu : (s.started n).startFlip img len = (s.started n).endDirective c r) : ends c r := by
    show exec .directiveStart s = _
    have start_eq : exec .directiveStart s = .next ((s.started n).startFlip img len).finish := h.exec_eq
    rw [start_eq, hu, h.finish_flip]
  have hstate : (s.started n).allows .flip = false ↔ ¬ (l = .opened ∨ l = .sealed ∨ l = .service) := by
    rw [State.allows_eq (s := s.started n) hl]
    cases l <;> decide
  have huni : (s.started n).uniformity = s.uniformity := rfl
  have hpass (ha : allowed) (hlen : len = 2) : (s.started n).startFlip img len =
      if 1 < (param img 0).toNat then (s.started n).badParam 0
      else if 1 < (param img 1).toNat then (s.started n).badParam 1
      else (s.started n).enter (.flipDrain (decide (param img 0 = 0)) (decide (param img 1 = 1))) := by
    rw [State.startFlip, if_neg (by simp only [hstate]; exact not_not.2 ha.1), if_neg (by rw [huni]; exact ha.2),
      if_neg (not_not.2 hlen)]
  refine ⟨fun ha => ?_, fun ha hlen => ?_, fun ha hlen h0 => ?_, fun ha hlen h0 h1 => ?_, fun ha hlen h0 h1 hq => ?_⟩
  · by_cases hs : l = .opened ∨ l = .sealed ∨ l = .service
    · have hnone : s.uniformity = none := not_not.1 fun hne => ha ⟨hs, hne⟩
      exact hends (by rw [State.startFlip, if_neg (by simp only [hstate]; exact not_not.2 hs), huni, if_pos hnone]; rfl)
    · exact hends (by rw [State.startFlip, if_pos (hstate.2 hs)]; rfl)
  · exact hends (by
      rw [State.startFlip, if_neg (by simp only [hstate]; exact not_not.2 ha.1), if_neg (by rw [huni]; exact ha.2), if_pos hlen]
      rfl)
  · exact hends (by rw [hpass ha hlen, if_pos h0]; rfl)
  · exact hends (by rw [hpass ha hlen, if_neg (Nat.not_lt.2 h0), if_pos h1]; rfl)
  · have start_eq : exec .directiveStart s = .next ((s.started n).startFlip img len).finish := h.exec_eq
    rw [start_eq, hpass ha hlen, if_neg (Nat.not_lt.2 h0), if_neg (Nat.not_lt.2 h1)]
    refine congrArg _ (h.finish_begun ?_)
    have hheld : s.fenceClear [.uni] = false := State.fenceClear_eq_false ⟨.uni, List.mem_singleton_self _, hq⟩
    show (if s.fenceClear [.uni] = true then _ else none) = none
    rw [hheld]
    rfl

theorem State.flipDrainStep_of_empty {s : State} {n : Nat} {full check : Bool} (h : s.Alone n (.flipDrain full check))
    (hq : s.entriesOf .uni = []) : s.flipDrainStep = some (s.judgeCoverage full check) := by
  have hf : s.fenceClear [.uni] = true :=
    State.fenceClear_eq_true (fun q hm => by rw [List.mem_singleton.1 hm, hq]) h.awaiting
  simp only [State.flipDrainStep, h.running, hf, if_true]

theorem State.coverageCount_pos {s : State} {c : Coverage} : 0 < s.coverageCount c ↔ c ∈ s.uni.coverage := by
  rw [State.coverageCount, List.countP_pos_iff]
  simp

/-- The end of DRAIN, with the judgement of COVERAGE (R129, R130, R133). -/
theorem flipDrainEnds {s : State} {n : Nat} {full check : Bool} (h : s.Alone n (.flipDrain full check)) (hq : s.entriesOf .uni = [])
    (hj : s.job = none) (hd : (s.slot n).directive = some .flip) :
    (.failed ∈ s.uni.coverage →
      exec .flipDrainEnd s = .next { s with
        dir := { s.dir.ended n .shadowFailed (s.coverageData .failed) with flipCount := s.dir.flipCount - 1 } }) ∧
    (.failed ∉ s.uni.coverage → full = true → .stale ∈ s.uni.coverage →
      exec .flipDrainEnd s = .next { s with
        dir := { s.dir.ended n .coverageIncomplete (s.coverageData .stale) with flipCount := s.dir.flipCount - 1 } }) ∧
    (.failed ∉ s.uni.coverage → (full = false ∨ .stale ∉ s.uni.coverage) → check = true → s.portFree = true →
      Completes .flipDrainEnd s fun t =>
        t.dir = { s.dir with running := some .flipHeader } ∧ t.uni = s.uni ∧
        t.engine.read = some { claimant := .sysRead, range := { page := s.shadowBase, lo := 0, hi := 15 }, discard := false }) ∧
    (.failed ∉ s.uni.coverage → (full = false ∨ .stale ∉ s.uni.coverage) → check = false → s.uni.pass.isOpen = true →
      exec .flipDrainEnd s = .next { s with dir := { s.dir with running := some .flipArm } }) := by
  have hexec : exec .flipDrainEnd s = .next (s.judgeCoverage full check).finish :=
    State.moment_of_some (State.flipDrainStep_of_empty h hq)
  have hgood (h1 : .failed ∉ s.uni.coverage) (h2 : full = false ∨ .stale ∉ s.uni.coverage) : s.judgeCoverage full check =
      if check then (s.enter .flipHeader).raiseClaim .sysRead (some { page := s.shadowBase, lo := 0, hi := 15 })
      else s.enter .flipArm := by
    rw [State.judgeCoverage, if_neg (State.coverageCount_pos.not.2 h1), if_neg]
    rintro ⟨hfull, hstale⟩
    rcases h2 with h2 | h2
    · rw [hfull] at h2
      nomatch h2
    · exact h2 (State.coverageCount_pos.1 hstale)
  refine ⟨fun h1 => ?_, fun h1 hfull h2 => ?_, fun h1 h2 hcheck hfree => ?_, fun h1 h2 hcheck hopen => ?_⟩
  · rw [hexec, State.judgeCoverage, if_pos (State.coverageCount_pos.2 h1), h.finish_flip rfl rfl hj rfl rfl hd]
  · rw [hexec, State.judgeCoverage, if_neg (State.coverageCount_pos.not.2 h1), if_pos ⟨hfull, State.coverageCount_pos.2 h2⟩,
      h.finish_flip rfl rfl hj rfl rfl hd]
  · have hclaim := State.raiseClaim_of_free (s := s.enter .flipHeader) hfree (c := .sysRead) rfl
      { page := s.shadowBase, lo := 0, hi := 15 }
    rw [Completes, hexec, hgood h1 h2, hcheck, if_pos rfl, hclaim]
    exact ⟨_, congrArg _ (h.finish_waits (ph' := .flipHeader) rfl hj rfl rfl rfl), rfl, rfl, rfl⟩
  · rw [hexec, hgood h1 h2, hcheck, if_neg Bool.false_ne_true]
    exact congrArg _ (h.finish_waits (u := s.enter .flipArm) (ph' := .flipArm) rfl hj rfl rfl (State.flipSwitchStep_of_open (s := s.enter .flipArm) hopen))

/-! ### FLIP's CHECK (R131, R132) -/

section
variable {s : State} {n : Nat} {ph : Phase} {x : ReadRange}

/-- A SYS-READ of a FLIP whose bytes end it (R131, R132). -/
theorem State.Alone.sysReadEnd_fails (h : s.Alone n ph) (hj : s.job = none) (hd : (s.slot n).directive = some .flip)
    (hread : s.engine.read = some { claimant := .sysRead, range := x, discard := false })
    (hdef : s.engine.deferred.get .sysRead = none) {c : ResultCode} {r : List Byte}
    (hsys : s.sysRead { claimant := .sysRead, range := x, discard := false } = s.endDirective c r) :
    Completes .pageReadEnd s fun t =>
      t.dir = { s.dir.ended n c r with flipCount := s.dir.flipCount - 1 } ∧ t.life = s.life ∧ t.uni = s.uni := by
  have hend := (h.heads (u := s) rfl rfl).endDirective_flip hd c r
  have hexec := exec_sysReadEnd hread hsys (by rw [hend]; exact hdef)
  rw [h.finish_flip rfl rfl hj rfl rfl hd] at hexec
  have hport := ArbiterOnly.endPageRead { s with dir := { s.dir.ended n c r with flipCount := s.dir.flipCount - 1 } }
  exact ⟨_, hexec, hport.dir, hport.life, hport.uni⟩

/-- A SYS-READ of a FLIP whose bytes lead to the claim for the next page of the table (R132). -/
theorem State.Alone.sysReadEnd_reads (h : s.Alone n ph) (hj : s.job = none) (hwrite : s.engine.write = none)
    (hclaims : s.engine.claims = PerClaimant.all none)
    (hread : s.engine.read = some { claimant := .sysRead, range := x, discard := false })
    (hdef : s.engine.deferred.get .sysRead = none) {len stored next : Nat} {crc : BitVec 32}
    (hsys : s.sysRead { claimant := .sysRead, range := x, discard := false } = s.claimCrc len stored next crc) :
    Completes .pageReadEnd s fun t =>
      t.dir = { s.dir with running := some (.flipCrc len stored next crc) } ∧ t.life = s.life ∧
      t.engine.read = some
        { claimant := .sysRead
          range := { page := s.shadowBase + pageOf next, lo := next % 256, hi := min 255 (15 + len - pageOf next) }
          discard := false } := by
  have hclaim : s.claimCrc len stored next crc = (s.enter (.flipCrc len stored next crc)).setClaim .sysRead
      (some (s.newClaim (some { page := s.shadowBase + pageOf next, lo := next % 256, hi := min 255 (15 + len - pageOf next) }))) :=
    State.raiseClaim_sysRead_of_read (s := s.enter (.flipCrc len stored next crc)) hread rfl _
  have hexec := exec_sysReadEnd hread (hsys.trans hclaim) hdef
  rw [h.finish_waits (u := (s.enter (.flipCrc len stored next crc)).setClaim .sysRead
      (some (s.newClaim (some { page := s.shadowBase + pageOf next, lo := next % 256, hi := min 255 (15 + len - pageOf next) }))))
      (ph' := .flipCrc len stored next crc) rfl hj rfl rfl rfl] at hexec
  have hport := ArbiterOnly.endPageRead ((s.enter (.flipCrc len stored next crc)).setClaim .sysRead
      (some (s.newClaim (some { page := s.shadowBase + pageOf next, lo := next % 256, hi := min 255 (15 + len - pageOf next) }))))
  refine ⟨_, hexec, hport.dir, hport.life, State.endPageRead_of_single hwrite rfl (State.claim_setClaim ..) rfl fun d hd => ?_⟩
  show (s.engine.claims.put .sysRead _).get d = none
  rw [PerClaimant.get_put_ne _ _ hd, hclaims]
  cases d <;> rfl

/-- The table's last page has been read, its CRC agrees, and ARM waits for the open pass (R132, R133). -/
theorem State.Alone.sysReadEnd_arms (h : s.Alone n ph) (hj : s.job = none) (hopen : s.uni.pass.isOpen = true)
    (hread : s.engine.read = some { claimant := .sysRead, range := x, discard := false })
    (hdef : s.engine.deferred.get .sysRead = none)
    (hsys : s.sysRead { claimant := .sysRead, range := x, discard := false } = s.enter .flipArm) :
    Completes .pageReadEnd s fun t => t.dir = { s.dir with running := some .flipArm } ∧ t.life = s.life ∧ t.uni = s.uni := by
  have hexec := exec_sysReadEnd hread hsys hdef
  rw [h.finish_waits (u := s.enter .flipArm) (ph' := .flipArm) rfl hj rfl rfl (State.flipSwitchStep_of_open (s := s.enter .flipArm) hopen)] at hexec
  have hport := ArbiterOnly.endPageRead (s.enter .flipArm)
  exact ⟨_, hexec, hport.dir, hport.life, hport.uni⟩

end

theorem State.headerRead_of_fault {s : State} {c : Nat}
    (h : headerFault s.flash s.shadowBase (bankSize s.life.fields.map) = some c) :
    s.headerRead = s.endDirective .tableCheckFailed [byte c] := by
  simp only [State.headerRead, h]

theorem State.headerRead_of_good {s : State} (h : headerFault s.flash s.shadowBase (bankSize s.life.fields.map) = none) :
    s.headerRead = s.claimCrc (leNat (Mem.slice s.flash (s.shadowBase + 8) 4)) (leNat (Mem.slice s.flash (s.shadowBase + 12) 4)) 16
      crc32Start := by
  simp only [State.headerRead, h]

/-- Settles O40: the start, the end of DRAIN, and the page reads of CHECK. -/
theorem flipDrainJudgesCoverage : Obligations.FlipDrainJudgesCoverage := by
  refine ⟨fun n img len s l h hl => flipStarts hl h, fun s n full check h hq hj hd => flipDrainEnds h hq hj hd,
    fun s n l x ph h hj hd hl hwrite hclaims hread hdef => ?_⟩
  intro base word fails reads marked
  refine ⟨fun hph => ?_, fun len stored next crc hph => ?_⟩
  · have hsys := State.sysRead_of_header hl (hph ▸ h.running) { claimant := .sysRead, range := x, discard := false }
    have hfails {c : Nat} (hc : headerFault s.flash s.shadowBase (bankSize s.life.fields.map) = some c) : fails [byte c] :=
      h.sysReadEnd_fails hj hd hread hdef (hsys.trans (State.headerRead_of_fault hc))
    refine ⟨fun h1 => hfails (c := 1) ?_, fun h1 h2 => hfails (c := 2) ?_, fun h1 h2 h3 => hfails (c := 3) ?_,
      fun h1 h2 h3 h4 => h.sysReadEnd_reads hj hwrite hclaims hread hdef (hsys.trans (State.headerRead_of_good ?_))⟩
    · rw [headerFault]
      exact if_pos h1
    · rw [headerFault]
      exact (if_neg (not_not.2 h1)).trans (if_pos h2)
    · rw [headerFault]
      exact (if_neg (not_not.2 h1)).trans ((if_neg (not_not.2 h2)).trans (if_pos h3))
    · rw [headerFault]
      exact (if_neg (not_not.2 h1)).trans ((if_neg (not_not.2 h2)).trans
        (if_neg (not_or.2 ⟨Nat.not_lt.2 h3, Nat.not_lt.2 h4⟩)))
  · intro crc'
    have hsys := State.sysRead_of_crc hl (hph ▸ h.running) { claimant := .sysRead, range := x, discard := false }
    refine ⟨fun h1 => h.sysReadEnd_reads hj hwrite hclaims hread hdef (hsys.trans ?_),
      fun h1 h2 => h.sysReadEnd_fails hj hd hread hdef (hsys.trans ?_),
      fun h1 h2 h3 => h.sysReadEnd_arms hj h3 hread hdef (hsys.trans ?_)⟩
    · rw [State.crcRead]
      exact if_pos h1
    · rw [State.crcRead]
      exact (if_neg (Nat.not_le.2 h1)).trans (if_neg h2)
    · rw [State.crcRead]
      exact (if_neg (Nat.not_le.2 h1)).trans (if_pos h2)

end Sys2Proof.Machine
end

-- Proofs of the family 'other': the region record and SERVICE-CLOSE.
section
/-! PROOFS. The region record: how it is read and judged (R150, R151, R163 to R165), and SERVICE-CLOSE (R172, R173). -/

namespace Sys2Proof.Machine

/-! ### The record's check and its scope (R164, R165) -/

theorem familyOf_eq_some {k : Nat} {f : Family} : familyOf k = some f ↔ k = f.num := by
  unfold familyOf
  split <;> cases f <;> simp_all [Family.num]

theorem checkRegion_eq_some (b : List Byte) (r : Region) :
    let n := fun i => (b.getD i 0).toNat + 256 * (b.getD (i + 1) 0).toNat
    checkRegion b = some r ↔
      b.take 4 = [0x52, 0x45, 0x47, 0x31] ∧ n 4 = 1 ∧ (crc16 (b.take 30)).toNat = n 30 ∧ 1 ≤ r.code ∧ r.code ≤ 4095 ∧ r.code = n 6 ∧
      (b.getD 8 0).toNat = r.family.num ∧ (b.getD 9 0).toNat ≤ 31 ∧ (b.getD 10 0).toNat ≤ 7 ∧ n 12 ≤ 1023 ∧ b.getD 11 0 = 0 ∧
      (b.drop 14).take 16 = List.replicate 16 0 := by
  intro n
  have hzero : (b.getD 11 0).toNat = 0 ↔ b.getD 11 0 = 0 := by rw [← BitVec.toNat_inj]; rfl
  rw [checkRegion]
  constructor
  · intro h
    split at h
    · next hc =>
      obtain ⟨hmark, hver, hcrc, hlow, hhigh, h9, h10, h12, h11, hrest⟩ := hc
      obtain ⟨f, hf, rfl⟩ := Option.map_eq_some_iff.1 h
      exact ⟨hmark, hver, hcrc, hlow, hhigh, rfl, familyOf_eq_some.1 hf, h9, h10, h12, hzero.1 h11, hrest⟩
    · nomatch h
  · rintro ⟨hmark, hver, hcrc, hlow, hhigh, hcode, hfam, h9, h10, h12, h11, hrest⟩
    have hr : ({ code := n 6, family := r.family } : Region) = r := by rw [← hcode]
    rw [if_pos ⟨hmark, hver, hcrc, hlow.trans_eq hcode, hcode.symm.trans_le hhigh, h9, h10, h12, hzero.2 h11, hrest⟩, familyOf_eq_some.2 hfam]
    exact congrArg some hr

theorem inScope_iff (r : Region) (l : List Scope) :
    inScope r l = true ↔ ∃ x ∈ l, x.code = r.code ∧ x.families.getLsbD r.family.bit = true := by
  simp only [inScope, List.any_eq_true, Bool.and_eq_true, decide_eq_true_eq]

/-! ### The claim for the record (R150) -/

theorem State.regionRange_of_settings {s : State} {e : MapEntry} (h : entryOfClass s.life.fields.map .settings = some e) :
    s.regionRange = some { page := e.pbase, lo := 0, hi := 31 } := by
  rw [State.regionRange, h]
  rfl

/-- With no entry in Q-SET the record is read from the flash. -/
theorem State.readRegion_of_empty {s : State} {e : MapEntry} (h : entryOfClass s.life.fields.map .settings = some e)
    (hq : s.entriesOf .set = []) : s.readRegion = s.raiseClaim .sysRead (some { page := e.pbase, lo := 0, hi := 31 }) := by
  simp only [State.readRegion, State.regionRange_of_settings h, hq]
  rfl

/-- The first page of the settings window is granted at once, and the directive waits for it (R150, R172). -/
theorem State.Alone.readRegion_waits {s : State} {n : Nat} {ph ph' : Phase} {e : MapEntry} (h : s.Alone n ph) (hj : s.job = none)
    (he : entryOfClass s.life.fields.map .settings = some e) (hq : s.entriesOf .set = []) (hfree : s.portFree = true)
    (hstep : State.fenceStep ((s.enter ph').raiseClaim .sysRead (some { page := e.pbase, lo := 0, hi := 31 })) ph' = none) :
    ∃ t, (s.enter ph').readRegion.finish = t ∧ t.dir = { s.dir with running := some ph' } ∧
      t.engine.read = some { claimant := .sysRead, range := { page := e.pbase, lo := 0, hi := 31 }, discard := false } ∧
      t.life = s.life ∧ t.key = s.key := by
  have hclaim := State.raiseClaim_of_free (s := s.enter ph') hfree (c := .sysRead) rfl { page := e.pbase, lo := 0, hi := 31 }
  rw [hclaim] at hstep
  rw [State.readRegion_of_empty (s := s.enter ph') he hq, hclaim]
  exact ⟨_, h.finish_waits (ph' := ph') rfl hj rfl rfl hstep, rfl, rfl, rfl, rfl⟩

/-! ### The judgement (R151, R173) -/

section
variable {s : State} {b : List Byte}

theorem State.serviceJudge_of_none (h : checkRegion b = none) : s.serviceJudge b = s.endDirective .regionInvalid [] := by
  rw [State.serviceJudge, h]

theorem State.serviceJudge_of_outside {r : Region} (h : checkRegion b = some r) (hs : inScope r s.life.fields.scopes = false) :
    s.serviceJudge b = s.endDirective .regionOutOfScope (regionData r) := by
  simp [State.serviceJudge, h, hs]

theorem State.serviceJudge_of_inside {r : Region} (h : checkRegion b = some r) (hs : inScope r s.life.fields.scopes = true) :
    s.serviceJudge b = (s.enter (.serviceCloseRecord r)).requestRecord .closed { s.life.fields with region := some r } := by
  simp [State.serviceJudge, h, hs]

theorem State.sealJudge_of_none {len : Nat} (h : checkRegion b = none) : s.sealJudge len b = s.endDirective .regionInvalid [] := by
  rw [State.sealJudge, h]

theorem State.sealJudge_of_outside {len : Nat} {r : Region} (h : checkRegion b = some r)
    (hs : inScope r (bundleScopes s.key.staging) = false) :
    s.sealJudge len b = s.endDirective .regionOutOfScope (regionData r) := by
  simp [State.sealJudge, h, hs]

theorem State.sealJudge_of_inside {len : Nat} {r : Region} {k : MapEntry} (h : checkRegion b = some r)
    (hs : inScope r (bundleScopes s.key.staging) = true) (hk : entryOfClass s.life.fields.map .key = some k) :
    s.sealJudge len b = (s.enter (.sealProgram len r)).startJob (.keySector k.pbase len) := by
  simp [State.sealJudge, h, hs, hk]

end

/-- A SYS-READ that ends outside LOADING: what follows its directive's judgement concerns the arbiter only (R83). -/
theorem completes_sysReadEnd {s u : State} {x : ReadRange} {P : State → Prop}
    (hread : s.engine.read = some { claimant := .sysRead, range := x, discard := false })
    (hu : s.sysRead { claimant := .sysRead, range := x, discard := false } = u) (hdef : u.engine.deferred.get .sysRead = none)
    (hP : ∀ t, ArbiterOnly u.finish t → P t) : Completes .pageReadEnd s P :=
  ⟨_, exec_sysReadEnd hread hu hdef, hP _ (ArbiterOnly.endPageRead _)⟩

theorem State.engine_uncount (s : State) (n : Nat) : (s.uncount n).engine = s.engine := by
  rw [State.uncount]
  split <;> rfl

theorem State.engine_endDirective (s : State) (c : ResultCode) (r : List Byte) : (s.endDirective c r).engine = s.engine := by
  rw [State.endDirective]
  exact State.engine_uncount ..

/-! ### SERVICE-CLOSE (R172, R173) -/

/-- SERVICE-CLOSE's checks and its wait for Q-SET and Q-UNI. -/
theorem serviceCloseStarts {s : State} {n : Nat} {img : Mem} {len : Nat} {l : Lifecycle} (h : s.Starts n .serviceClose img len)
    (hl : s.life.lifecycle = some l) :
    let ends := fun (c : ResultCode) (r : List Byte) => exec .directiveStart s = .next { s with dir := s.dir.ended n c r }
    (l ≠ .service ∨ entryOfClass s.life.fields.map .settings = none → ends .notInState []) ∧
    (l = .service → entryOfClass s.life.fields.map .settings ≠ none → len ≠ 0 → ends .badParameter [0]) ∧
    (l = .service → entryOfClass s.life.fields.map .settings ≠ none → len = 0 → s.entriesOf .set ≠ [] ∨ s.entriesOf .uni ≠ [] →
      exec .directiveStart s = .next { s with dir := s.dir.begun n .serviceCloseFence }) := by
  intro ends
  have hends {c : ResultCode} {r : List Byte} (hu : (s.started n).startServiceClose len = (s.started n).endDirective c r) : ends c r := by
    have start_eq : exec .directiveStart s = .next ((s.started n).startServiceClose len).finish := h.exec_eq
    show exec .directiveStart s = _
    rw [start_eq, hu]
    exact congrArg _ (h.finish_refused (by decide) (by decide) c r)
  have hstate : (s.started n).allows .serviceClose = false ↔ l ≠ .service := by
    rw [State.allows_eq (s := s.started n) hl]
    cases l <;> decide
  have hlife : (s.started n).life = s.life := rfl
  refine ⟨fun h1 => ?_, fun h1 h2 h3 => ?_, fun h1 h2 h3 h4 => ?_⟩
  · by_cases hs : l = .service
    · have hnone : entryOfClass s.life.fields.map .settings = none := h1.resolve_left (not_not.2 hs)
      exact hends (by rw [State.startServiceClose, if_neg (by simp [hstate, hs]), hlife, if_pos hnone]; rfl)
    · exact hends (by rw [State.startServiceClose, if_pos (hstate.2 hs)]; rfl)
  · exact hends (by rw [State.startServiceClose, if_neg (by simp [hstate, h1]), hlife, if_neg h2, if_pos h3]; rfl)
  · have start_eq : exec .directiveStart s = .next ((s.started n).startServiceClose len).finish := h.exec_eq
    have hheld : s.fenceClear [.set, .uni] = false := State.fenceClear_eq_false (by simpa using h4)
    rw [start_eq, State.startServiceClose, if_neg (by simp [hstate, h1]), hlife, if_neg h2, if_neg (not_not.2 h3)]
    refine congrArg _ (h.finish_begun ?_)
    show (if s.fenceClear [.set, .uni] = true then _ else none) = none
    rw [hheld]
    rfl

section
variable {s v : State} {n : Nat} {ph : Phase} {b : List Byte}

/-- The end of SERVICE-CLOSE with a region record that fails its judgement; `v` is the state in which the record is judged. -/
theorem State.Alone.finish_serviceEnds (h : s.Alone n ph) (hdir : v.dir = s.dir) (hj : v.job = none) (hA : v.portA = s.portA)
    (hT : v.portT = s.portT) (hd : (s.slot n).directive = some .serviceClose) (c : ResultCode) (r : List Byte) :
    (v.endDirective c r).finish = { v with dir := s.dir.ended n c r } := by
  rw [h.finish_end (by rw [hdir]) (by rw [hdir]) hj hA hT (by rw [hd]; exact nofun) (by rw [hd]; exact nofun), State.ended, hdir]

/-- A region record in scope: the directive waits for its control record write. -/
theorem State.made_serviceRecords (v : State) (r : Region) :
    Made ((v.enter (.serviceCloseRecord r)).requestRecord .closed { v.life.fields with region := some r })
      ((v.enter (.serviceCloseRecord r)).requestRecord .closed { v.life.fields with region := some r }).finish :=
  (State.steady_startJob (ph := .serviceCloseRecord r) rfl _ rfl).finish

end

/-- Settles O39: SERVICE-CLOSE's start, its fence, its judgement of the region record, and what that judgement is. -/
theorem serviceCloseFenceReadsRegion : Obligations.ServiceCloseFenceReadsRegion := by
  refine ⟨fun n img len s l h hl => serviceCloseStarts h hl, fun s n e h hset huni hj he hfree => ?_,
    fun s n l x h hj hd hl hread hdef => ?_, checkRegion_eq_some, fun r m => ?_⟩
  · have hstep : s.serviceCloseFenceStep = some (s.enter .serviceCloseCheck).readRegion := by
      have hf : s.fenceClear [.set, .uni] = true := State.fenceClear_eq_true (by simp [hset, huni]) h.awaiting
      simp only [State.serviceCloseFenceStep, h.running, hf, if_true]
    obtain ⟨t, ht, hdir, hgrant, hlife, hkey⟩ := h.readRegion_waits (ph' := .serviceCloseCheck) hj he hset hfree rfl
    refine ⟨t, (State.moment_of_some hstep).trans (congrArg _ ht), hdir, ?_, hgrant, hlife, hkey⟩
    rw [State.serviceCloseLock, hdir]
  · intro record
    have hsys := State.sysRead_of_check hl h.running { claimant := .sysRead, range := x, discard := false }
    have hends {c : ResultCode} {r : List Byte}
        (hu : s.serviceJudge (combine s.flash (s.entriesOf .set) x) = s.endDirective c r) :
        Completes .pageReadEnd s fun t => t.dir = s.dir.ended n c r ∧ t.life = s.life := by
      refine completes_sysReadEnd hread (hsys.trans hu) (by rw [State.engine_endDirective]; exact hdef) fun t ht => ?_
      rw [h.finish_serviceEnds rfl hj rfl rfl hd] at ht
      exact ⟨ht.dir, ht.life⟩
    refine ⟨fun hr => hends (State.serviceJudge_of_none hr), fun r hr hs => hends (State.serviceJudge_of_outside hr hs),
      fun r hr hs => completes_sysReadEnd hread (hsys.trans (State.serviceJudge_of_inside hr hs)) hdef fun t ht => ?_⟩
    have hmade := s.made_serviceRecords r
    exact ⟨(congrArg DirectiveUnit.running ht.dir).trans hmade.running, ht.life.trans hmade.life,
      (congrArg (Option.map Job.work) ht.job).trans hmade.work⟩
  · rw [inScope_iff]
    cases r.family <;> rfl

end Sys2Proof.Machine
end

-- Proofs of the family 'other': the key bundle's check and SEAL.
section
/-! PROOFS. The key bundle's check (R146, R147) and SEAL's FENCE and VALIDATE (R148 to R151). -/

namespace Sys2Proof.Machine

/-! ### Tests 7 and 8: the walk over scopes and key entries (R147) -/

section
variable {m : Mem} {t : Nat}

theorem toNat_lt_one {b : Byte} : b.toNat < 1 ↔ b = 0 := by
  rw [Nat.lt_one_iff]
  exact BitVec.toNat_inj (y := 0)

theorem walkScopes_succ_of_fault {n p o : Nat} (h : scopeFault m t p = some o) : walkScopes m t (n + 1) p = .error o := by
  simp only [scopeFault] at h
  simp only [walkScopes, Nat.lt_one_iff (n := leNat _), toNat_lt_one]
  split at h
  · next h1 => rw [if_pos h1]; exact congrArg _ (Option.some.inj h)
  split at h
  · next h1 h2 => rw [if_neg h1, if_pos h2]; exact congrArg _ (Option.some.inj h)
  split at h
  · next h1 h2 h3 => rw [if_neg h1, if_neg h2, if_pos h3]; exact congrArg _ (Option.some.inj h)
  split at h
  · next h1 h2 h3 h4 => rw [if_neg h1, if_neg h2, if_neg h3, if_pos h4]; exact congrArg _ (Option.some.inj h)
  · nomatch h

theorem walkScopes_succ_of_none {n p : Nat} (h : scopeFault m t p = none) : walkScopes m t (n + 1) p = walkScopes m t n (p + 4) := by
  simp only [scopeFault, ite_some_eq_none] at h
  obtain ⟨h1, h2, h3, h4, -⟩ := h
  simp only [walkScopes, Nat.lt_one_iff (n := leNat _), toNat_lt_one]
  rw [if_neg h1, if_neg h2, if_neg h3, if_neg h4]

/-- Test 7 finds the first scope at fault. -/
theorem walkScopes_of_fault {n i p o : Nat} (hi : i < n) (hgood : ∀ j < i, scopeFault m t (p + 4 * j) = none)
    (hbad : scopeFault m t (p + 4 * i) = some o) : walkScopes m t n p = .error o := by
  induction n generalizing p i with
  | zero => exact absurd hi (Nat.not_lt_zero i)
  | succ n ih =>
    cases i with
    | zero => exact walkScopes_succ_of_fault hbad
    | succ i =>
      rw [walkScopes_succ_of_none (p := p) (hgood 0 (Nat.succ_pos i))]
      refine ih (Nat.lt_of_succ_lt_succ hi) (fun j hj => ?_) ?_
      · have hnext : p + 4 + 4 * j = p + 4 * (j + 1) := by omega
        rw [hnext]
        exact hgood (j + 1) (Nat.succ_lt_succ hj)
      · have hnext : p + 4 + 4 * i = p + 4 * (i + 1) := by omega
        rw [hnext]
        exact hbad

/-- Test 7 passes over scopes without fault. -/
theorem walkScopes_of_none {n p : Nat} (hgood : ∀ i < n, scopeFault m t (p + 4 * i) = none) : walkScopes m t n p = .ok (p + 4 * n) := by
  induction n generalizing p with
  | zero => rfl
  | succ n ih =>
    have hrest : ∀ i < n, scopeFault m t (p + 4 + 4 * i) = none := fun i hi => by
      have hnext : p + 4 + 4 * i = p + 4 * (i + 1) := by omega
      rw [hnext]
      exact hgood (i + 1) (Nat.succ_lt_succ hi)
    have hend : p + 4 + 4 * n = p + 4 * (n + 1) := by omega
    rw [walkScopes_succ_of_none (p := p) (hgood 0 (Nat.succ_pos n)), ih hrest, hend]

theorem walkEntries_succ_of_fault {n p o : Nat} (h : entryFault m t p = some o) : walkEntries m t (n + 1) p = .error o := by
  simp only [entryFault] at h
  simp only [walkEntries, Nat.lt_one_iff (n := leNat _), toNat_lt_one]
  split at h
  · next h1 => rw [if_pos h1]; exact congrArg _ (Option.some.inj h)
  split at h
  · next h1 h2 => rw [if_neg h1, if_pos h2]; exact congrArg _ (Option.some.inj h)
  split at h
  · next h1 h2 h3 => rw [if_neg h1, if_neg h2, if_pos h3]; exact congrArg _ (Option.some.inj h)
  split at h
  · next h1 h2 h3 h4 => rw [if_neg h1, if_neg h2, if_neg h3, if_pos h4]; exact congrArg _ (Option.some.inj h)
  · nomatch h

theorem walkEntries_succ_of_none {n p : Nat} (h : entryFault m t p = none) :
    walkEntries m t (n + 1) p = walkEntries m t n (p + 4 + leNat (Mem.slice m (p + 2) 2)) := by
  simp only [entryFault, ite_some_eq_none] at h
  obtain ⟨h1, h2, h3, h4, -⟩ := h
  simp only [walkEntries, Nat.lt_one_iff (n := leNat _), toNat_lt_one]
  rw [if_neg h1, if_neg h2, if_neg h3, if_neg h4]

theorem bundleEntryAt_succ (m : Mem) (p k : Nat) :
    bundleEntryAt m p (k + 1) = bundleEntryAt m (p + 4 + leNat (Mem.slice m (p + 2) 2)) k := by
  induction k with
  | zero => rfl
  | succ k ih => rw [bundleEntryAt, ih, bundleEntryAt]

/-- Test 8 finds the first key entry at fault. -/
theorem walkEntries_of_fault {n k p o : Nat} (hk : k < n) (hgood : ∀ j < k, entryFault m t (bundleEntryAt m p j) = none)
    (hbad : entryFault m t (bundleEntryAt m p k) = some o) : walkEntries m t n p = .error o := by
  induction n generalizing p k with
  | zero => exact absurd hk (Nat.not_lt_zero k)
  | succ n ih =>
    cases k with
    | zero => exact walkEntries_succ_of_fault hbad
    | succ k =>
      rw [walkEntries_succ_of_none (p := p) (hgood 0 (Nat.succ_pos k))]
      refine ih (Nat.lt_of_succ_lt_succ hk) (fun j hj => ?_) ?_
      · rw [← bundleEntryAt_succ]
        exact hgood (j + 1) (Nat.succ_lt_succ hj)
      · rw [← bundleEntryAt_succ]
        exact hbad

/-- Test 8 passes over key entries without fault. -/
theorem walkEntries_of_none {n p : Nat} (hgood : ∀ k < n, entryFault m t (bundleEntryAt m p k) = none) :
    walkEntries m t n p = .ok (bundleEntryAt m p n) := by
  induction n generalizing p with
  | zero => rfl
  | succ n ih =>
    rw [walkEntries_succ_of_none (p := p) (hgood 0 (Nat.succ_pos n)), bundleEntryAt_succ]
    exact ih fun k hk => by rw [← bundleEntryAt_succ]; exact hgood (k + 1) (Nat.succ_lt_succ hk)

end

/-! ### Tests 1 to 6: the head -/

/-- Test 1: the marker. -/
def bundleMarked (m : Mem) : Prop := ∀ i < 4, Mem.get m i = bundleMarker.getD i 0

/-- Tests 1 to 6 pass. -/
structure BundleHead (m : Mem) : Prop where
  marked : bundleMarked m
  version : leNat (Mem.slice m 4 2) = 1
  low : 64 ≤ leNat (Mem.slice m 6 2)
  high : leNat (Mem.slice m 6 2) ≤ 4096
  scopesLow : 1 ≤ (Mem.get m 8).toNat
  scopesHigh : (Mem.get m 8).toNat ≤ 8
  entriesLow : 1 ≤ (Mem.get m 9).toNat
  entriesHigh : (Mem.get m 9).toNat ≤ 32
  reserved : Mem.get m 10 = 0 ∧ Mem.get m 11 = 0

section
variable {m : Mem}

theorem firstWrong_cons_eq {o : Nat} {b : Byte} {l : List (Nat × Byte)} (h : Mem.get m o = b) :
    firstWrong m ((o, b) :: l) = firstWrong m l := if_pos h

theorem firstWrong_cons_ne {o : Nat} {b : Byte} {l : List (Nat × Byte)} (h : Mem.get m o ≠ b) :
    firstWrong m ((o, b) :: l) = some o := if_neg h

theorem firstWrong_marked (h : bundleMarked m) : firstWrong m [(0, 0x4B), (1, 0x59), (2, 0x42), (3, 0x31)] = none := by
  exact (firstWrong_cons_eq (h 0 (by decide))).trans ((firstWrong_cons_eq (h 1 (by decide))).trans
    ((firstWrong_cons_eq (h 2 (by decide))).trans (firstWrong_cons_eq (h 3 (by decide)))))

theorem firstWrong_marker {i : Nat} (hi : i < 4) (hgood : ∀ j < i, Mem.get m j = bundleMarker.getD j 0)
    (hbad : Mem.get m i ≠ bundleMarker.getD i 0) : firstWrong m [(0, 0x4B), (1, 0x59), (2, 0x42), (3, 0x31)] = some i := by
  have hcases : i = 0 ∨ i = 1 ∨ i = 2 ∨ i = 3 := by omega
  rcases hcases with rfl | rfl | rfl | rfl
  · exact firstWrong_cons_ne hbad
  · exact (firstWrong_cons_eq (hgood 0 (by decide))).trans (firstWrong_cons_ne hbad)
  · exact (firstWrong_cons_eq (hgood 0 (by decide))).trans ((firstWrong_cons_eq (hgood 1 (by decide))).trans (firstWrong_cons_ne hbad))
  · exact (firstWrong_cons_eq (hgood 0 (by decide))).trans ((firstWrong_cons_eq (hgood 1 (by decide))).trans
      ((firstWrong_cons_eq (hgood 2 (by decide))).trans (firstWrong_cons_ne hbad)))

theorem checkBundle_of_marker {i : Nat} (h : firstWrong m [(0, 0x4B), (1, 0x59), (2, 0x42), (3, 0x31)] = some i) :
    checkBundle m = .error i := by
  simp only [checkBundle, h]

theorem checkBundle_of_version (h : bundleMarked m) (hv : leNat (Mem.slice m 4 2) ≠ 1) : checkBundle m = .error 4 := by
  simp only [checkBundle, firstWrong_marked h]
  exact if_pos hv

section
variable (h : bundleMarked m) (hv : leNat (Mem.slice m 4 2) = 1)
include h hv

theorem checkBundle_of_length (hlen : leNat (Mem.slice m 6 2) < 64 ∨ 4096 < leNat (Mem.slice m 6 2)) : checkBundle m = .error 6 := by
  simp only [checkBundle, firstWrong_marked h]
  exact (if_neg (not_not.2 hv)).trans (if_pos hlen)

variable (hlow : 64 ≤ leNat (Mem.slice m 6 2)) (hhigh : leNat (Mem.slice m 6 2) ≤ 4096)
include hlow hhigh

theorem checkBundle_of_scopeCount (hs : (Mem.get m 8).toNat < 1 ∨ 8 < (Mem.get m 8).toNat) : checkBundle m = .error 8 := by
  simp only [checkBundle, firstWrong_marked h]
  exact (if_neg (not_not.2 hv)).trans ((if_neg (by omega)).trans (if_pos hs))

variable (hs1 : 1 ≤ (Mem.get m 8).toNat) (hs2 : (Mem.get m 8).toNat ≤ 8)
include hs1 hs2

theorem checkBundle_of_entryCount (he : (Mem.get m 9).toNat < 1 ∨ 32 < (Mem.get m 9).toNat) : checkBundle m = .error 9 := by
  simp only [checkBundle, firstWrong_marked h]
  exact (if_neg (not_not.2 hv)).trans ((if_neg (by omega)).trans ((if_neg (by omega)).trans (if_pos he)))

theorem checkBundle_of_reserved {o : Nat} (he1 : 1 ≤ (Mem.get m 9).toNat) (he2 : (Mem.get m 9).toNat ≤ 32)
    (ho : firstWrong m [(10, 0), (11, 0)] = some o) : checkBundle m = .error o := by
  simp only [checkBundle, firstWrong_marked h, ho]
  exact (if_neg (not_not.2 hv)).trans ((if_neg (by omega)).trans ((if_neg (by omega)).trans (if_neg (by omega))))

end

/-! ### Tests 7 to 10 -/

section
variable (h : BundleHead m)
include h

theorem BundleHead.firstWrong_reserved : firstWrong m [(10, 0), (11, 0)] = none :=
  (firstWrong_cons_eq h.reserved.1).trans (firstWrong_cons_eq h.reserved.2)

theorem BundleHead.checkBundle_of_scope {o : Nat} (hw : walkScopes m (leNat (Mem.slice m 6 2)) (Mem.get m 8).toNat 12 = .error o) :
    checkBundle m = .error o := by
  have hreserved := h.firstWrong_reserved
  obtain ⟨hmarked, hv, hlow, hhigh, hs1, hs2, he1, he2, -⟩ := h
  simp only [checkBundle, firstWrong_marked hmarked, hreserved, hw]
  exact (if_neg (not_not.2 hv)).trans ((if_neg (by omega)).trans ((if_neg (by omega)).trans (if_neg (by omega))))

theorem BundleHead.checkBundle_of_entry {p o : Nat} (hp : walkScopes m (leNat (Mem.slice m 6 2)) (Mem.get m 8).toNat 12 = .ok p)
    (hw : walkEntries m (leNat (Mem.slice m 6 2)) (Mem.get m 9).toNat p = .error o) : checkBundle m = .error o := by
  have hreserved := h.firstWrong_reserved
  obtain ⟨hmarked, hv, hlow, hhigh, hs1, hs2, he1, he2, -⟩ := h
  simp only [checkBundle, firstWrong_marked hmarked, hreserved, hp, hw]
  exact (if_neg (not_not.2 hv)).trans ((if_neg (by omega)).trans ((if_neg (by omega)).trans (if_neg (by omega))))

theorem BundleHead.checkBundle_of_walks {p q : Nat} (hp : walkScopes m (leNat (Mem.slice m 6 2)) (Mem.get m 8).toNat 12 = .ok p)
    (hq : walkEntries m (leNat (Mem.slice m 6 2)) (Mem.get m 9).toNat p = .ok q) :
    checkBundle m =
      if q ≠ leNat (Mem.slice m 6 2) - 4 then .error q
      else if (crc32 (Mem.slice m 0 (leNat (Mem.slice m 6 2) - 4))).toNat ≠
          leNat (Mem.slice m (leNat (Mem.slice m 6 2) - 4) 4) then .error (leNat (Mem.slice m 6 2) - 4)
      else .ok (leNat (Mem.slice m 6 2)) := by
  have hreserved := h.firstWrong_reserved
  obtain ⟨hmarked, hv, hlow, hhigh, hs1, hs2, he1, he2, -⟩ := h
  simp only [checkBundle, firstWrong_marked hmarked, hreserved, hp, hq]
  exact (if_neg (not_not.2 hv)).trans ((if_neg (by omega)).trans ((if_neg (by omega)).trans (if_neg (by omega))))

end

end

/-- R147, test by test. -/
theorem checkBundle_tests (m : Mem) :
    let len := leNat (Mem.slice m 6 2)
    let scopes := (Mem.get m 8).toNat
    let entries := (Mem.get m 9).toNat
    let first := 12 + 4 * scopes
    let marked := ∀ i < 4, Mem.get m i = bundleMarker.getD i 0
    let head := marked ∧ leNat (Mem.slice m 4 2) = 1 ∧ 64 ≤ len ∧ len ≤ 4096 ∧ 1 ≤ scopes ∧ scopes ≤ 8 ∧ 1 ≤ entries ∧ entries ≤ 32 ∧
      Mem.get m 10 = 0 ∧ Mem.get m 11 = 0
    let scopesOk := ∀ i < scopes, scopeFault m len (12 + 4 * i) = none
    let entriesOk := ∀ k < entries, entryFault m len (bundleEntryAt m first k) = none
    (∀ i < 4, (∀ j < i, Mem.get m j = bundleMarker.getD j 0) → Mem.get m i ≠ bundleMarker.getD i 0 → checkBundle m = .error i) ∧
    (marked → leNat (Mem.slice m 4 2) ≠ 1 → checkBundle m = .error 4) ∧
    (marked → leNat (Mem.slice m 4 2) = 1 → len < 64 ∨ 4096 < len → checkBundle m = .error 6) ∧
    (marked → leNat (Mem.slice m 4 2) = 1 → 64 ≤ len → len ≤ 4096 → scopes < 1 ∨ 8 < scopes → checkBundle m = .error 8) ∧
    (marked → leNat (Mem.slice m 4 2) = 1 → 64 ≤ len → len ≤ 4096 → 1 ≤ scopes → scopes ≤ 8 → entries < 1 ∨ 32 < entries →
      checkBundle m = .error 9) ∧
    (marked → leNat (Mem.slice m 4 2) = 1 → 64 ≤ len → len ≤ 4096 → 1 ≤ scopes → scopes ≤ 8 → 1 ≤ entries → entries ≤ 32 →
      (Mem.get m 10 ≠ 0 → checkBundle m = .error 10) ∧ (Mem.get m 10 = 0 → Mem.get m 11 ≠ 0 → checkBundle m = .error 11)) ∧
    (head → ∀ i < scopes, ∀ o, (∀ j < i, scopeFault m len (12 + 4 * j) = none) → scopeFault m len (12 + 4 * i) = some o →
      checkBundle m = .error o) ∧
    (head → scopesOk → ∀ k < entries, ∀ o, (∀ j < k, entryFault m len (bundleEntryAt m first j) = none) →
      entryFault m len (bundleEntryAt m first k) = some o → checkBundle m = .error o) ∧
    (head → scopesOk → entriesOk →
      (bundleEntryAt m first entries ≠ len - 4 → checkBundle m = .error (bundleEntryAt m first entries)) ∧
      (bundleEntryAt m first entries = len - 4 →
        checkBundle m = if (crc32 (Mem.slice m 0 (len - 4))).toNat = leNat (Mem.slice m (len - 4) 4) then .ok len
          else .error (len - 4))) := by
  intro len scopes entries first marked head scopesOk entriesOk
  have hhead (h : head) : BundleHead m := by
    obtain ⟨hmarked, hv, hlow, hhigh, hs1, hs2, he1, he2, h10, h11⟩ := h
    exact ⟨hmarked, hv, hlow, hhigh, hs1, hs2, he1, he2, h10, h11⟩
  refine ⟨fun i hi hgood hbad => checkBundle_of_marker (firstWrong_marker hi hgood hbad), checkBundle_of_version,
    checkBundle_of_length, checkBundle_of_scopeCount, checkBundle_of_entryCount,
    fun hm hv h1 h2 h3 h4 h5 h6 => ⟨fun h10 => ?_, fun h10 h11 => ?_⟩, fun h i hi o hgood hbad => ?_,
    fun h hs k hk o hgood hbad => ?_, fun h hs he => ?_⟩
  · exact checkBundle_of_reserved hm hv h1 h2 h3 h4 h5 h6 (firstWrong_cons_ne h10)
  · exact checkBundle_of_reserved hm hv h1 h2 h3 h4 h5 h6 ((firstWrong_cons_eq h10).trans (firstWrong_cons_ne h11))
  · exact (hhead h).checkBundle_of_scope (walkScopes_of_fault hi hgood hbad)
  · exact (hhead h).checkBundle_of_entry (walkScopes_of_none hs) (walkEntries_of_fault hk hgood hbad)
  · rw [(hhead h).checkBundle_of_walks (walkScopes_of_none hs) (walkEntries_of_none he)]
    refine ⟨fun hne => if_pos hne, fun heq => (if_neg (not_not.2 heq)).trans ?_⟩
    exact ite_not ..

/-! ### SEAL (R148 to R151) -/

theorem KeyUnit.unsealed_staging (k : KeyUnit) : k.unsealed.staging = k.staging := rfl

theorem KeyUnit.unsealed_sealCount (k : KeyUnit) : k.unsealed.sealCount = k.sealCount - 1 := rfl

/-- SEAL's checks and its wait for Q-SET (R148, R149). -/
theorem sealStarts {s : State} {n : Nat} {img : Mem} {len : Nat} {l : Lifecycle} (h : s.Starts n .seals img len)
    (hl : s.life.lifecycle = some l) :
    let ends := fun (c : ResultCode) (r : List Byte) =>
      exec .directiveStart s = .next { s with dir := s.dir.ended n c r, key := s.key.unsealed }
    let present := entryOfClass s.life.fields.map .key ≠ none ∧ entryOfClass s.life.fields.map .settings ≠ none
    (l ≠ .opened ∨ ¬ present → ends .notInState []) ∧
    (l = .opened → present → len ≠ 0 → ends .badParameter [0]) ∧
    (l = .opened → present → len = 0 → s.entriesOf .set ≠ [] →
      exec .directiveStart s = .next { s with dir := s.dir.begun n .sealFence }) := by
  intro ends present
  have hends {c : ResultCode} {r : List Byte} (hu : (s.started n).startSeal len = (s.started n).endDirective c r) : ends c r := by
    have start_eq : exec .directiveStart s = .next ((s.started n).startSeal len).finish := h.exec_eq
    show exec .directiveStart s = _
    rw [start_eq, hu, h.finish_seals]
  have hstate : (s.started n).allows .seals = false ↔ l ≠ .opened := by
    rw [State.allows_eq (s := s.started n) hl]
    cases l <;> decide
  have hlife : (s.started n).life = s.life := rfl
  have habsent : (entryOfClass s.life.fields.map .key = none ∨ entryOfClass s.life.fields.map .settings = none) ↔ ¬ present := by
    simp only [present, ne_eq, not_and_or, not_not]
  refine ⟨fun h1 => ?_, fun h1 h2 h3 => ?_, fun h1 h2 h3 h4 => ?_⟩
  · by_cases hs : l = .opened
    · have hnone := habsent.2 (h1.resolve_left (not_not.2 hs))
      exact hends (by rw [State.startSeal, if_neg (by simp [hstate, hs]), hlife, if_pos hnone]; rfl)
    · exact hends (by rw [State.startSeal, if_pos (hstate.2 hs)]; rfl)
  · exact hends (by
      rw [State.startSeal, if_neg (by simp [hstate, h1]), hlife, if_neg (habsent.not.2 (not_not.2 h2)), if_pos h3]
      rfl)
  · have start_eq : exec .directiveStart s = .next ((s.started n).startSeal len).finish := h.exec_eq
    have hheld : s.fenceClear [.set] = false := State.fenceClear_eq_false ⟨.set, List.mem_singleton_self _, h4⟩
    rw [start_eq, State.startSeal, if_neg (by simp [hstate, h1]), hlife, if_neg (habsent.not.2 (not_not.2 h2)), if_neg (not_not.2 h3)]
    refine congrArg _ (h.finish_begun ?_)
    show (if s.fenceClear [.set] = true then _ else none) = none
    rw [hheld]
    rfl

section
variable {s v : State} {n : Nat} {ph : Phase}

theorem State.Alone.sealFenceStep_of_empty (h : s.Alone n .sealFence) (hq : s.entriesOf .set = []) :
    (∀ o, checkBundle s.key.staging = .error o → s.sealFenceStep = some (s.endDirective .bundleInvalid (leBytes 2 o))) ∧
    (∀ len, checkBundle s.key.staging = .ok len → s.sealFenceStep = some (s.enter (.sealValidate len)).readRegion) := by
  have hf : s.fenceClear [.set] = true :=
    State.fenceClear_eq_true (fun q hm => by rw [List.mem_singleton.1 hm, hq]) h.awaiting
  exact ⟨fun o ho => by simp only [State.sealFenceStep, h.running, hf, if_true, ho],
    fun len hlen => by simp only [State.sealFenceStep, h.running, hf, if_true, hlen]⟩

/-- The end of SEAL with a region record that fails its judgement; `v` is the state in which the record is judged. -/
theorem State.Alone.finish_sealEnds (h : s.Alone n ph) (hdir : v.dir = s.dir) (hj : v.job = none) (hA : v.portA = s.portA)
    (hT : v.portT = s.portT) (hd : (s.slot n).directive = some .seals) (c : ResultCode) (r : List Byte) :
    (v.endDirective c r).finish = { v with dir := s.dir.ended n c r, key := v.key.unsealed } := by
  rw [h.finish_seals (by rw [hdir]) (by rw [hdir]) hj hA hT hd, hdir]

/-- A region record in scope: the directive waits for its run over the key sector (R152). -/
theorem State.made_sealPrograms (v : State) (len base : Nat) (r : Region) :
    Made ((v.enter (.sealProgram len r)).startJob (.keySector base len))
      ((v.enter (.sealProgram len r)).startJob (.keySector base len)).finish :=
  (State.steady_startJob (ph := .sealProgram len r) rfl _ rfl).finish

end

/-- Settles O38: SEAL's start, the end of its fence, the bundle's tests, and the judgement of the region record. -/
theorem sealFenceJudgesBundle : Obligations.SealFenceJudgesBundle := by
  refine ⟨fun n img len s l h hl => sealStarts h hl, fun s n h hq hj hd => ⟨fun o ho => ?_, fun len e hlen he hfree => ?_⟩,
    checkBundle_tests, fun s n len l x h hj hd hl hread hdef => ?_⟩
  · have hstep := (h.sealFenceStep_of_empty hq).1 o ho
    refine ⟨_, (State.moment_of_some hstep).trans (congrArg _ (h.finish_sealEnds rfl hj rfl rfl hd _ _)), rfl, rfl, ?_, ?_⟩
    · exact KeyUnit.unsealed_staging s.key
    · exact KeyUnit.unsealed_sealCount s.key
  · have hstep := (h.sealFenceStep_of_empty hq).2 len hlen
    obtain ⟨t, ht, hdir, hgrant, hlife, hkey⟩ := h.readRegion_waits (ph' := .sealValidate len) hj he hq hfree rfl
    refine ⟨t, (State.moment_of_some hstep).trans (congrArg _ ht), hdir, ?_, hgrant, hlife, hkey⟩
    rw [State.sealLock, hdir]
  · intro record
    have hsys := State.sysRead_of_validate hl h.running { claimant := .sysRead, range := x, discard := false }
    have hends {c : ResultCode} {r : List Byte}
        (hu : s.sealJudge len (combine s.flash (s.entriesOf .set) x) = s.endDirective c r) :
        Completes .pageReadEnd s fun t => t.dir = s.dir.ended n c r ∧ t.key = s.key.unsealed ∧ t.life = s.life := by
      refine completes_sysReadEnd hread (hsys.trans hu) (by rw [State.engine_endDirective]; exact hdef) fun t ht => ?_
      rw [h.finish_sealEnds rfl hj rfl rfl hd] at ht
      exact ⟨ht.dir, ht.key, ht.life⟩
    refine ⟨fun hr => hends (State.sealJudge_of_none hr), fun r hr hs => hends (State.sealJudge_of_outside hr hs),
      fun r k hr hs hk => completes_sysReadEnd hread (hsys.trans (State.sealJudge_of_inside hr hs hk)) hdef fun t ht => ?_⟩
    have hmade := s.made_sealPrograms len k.pbase r
    exact ⟨(congrArg DirectiveUnit.running ht.dir).trans hmade.running, (congrArg (Option.map Job.work) ht.job).trans hmade.work,
      ht.life.trans hmade.life, ht.key.trans hmade.key⟩

end Sys2Proof.Machine
end

-- Proofs of the family 'other': the Classifier.
section
/-! PROOFS. The Classifier (R26 to R33). -/

namespace Sys2Proof.Machine

/-! ### The entry that a write lies in (R26) -/

/-- Among entries of which one alone passes a test, the search finds that one. -/
theorem find?_of_only {es : List (Nat × MapEntry)} {p : Nat × MapEntry → Bool} {P : MapEntry → Prop}
    (hp : ∀ x, p x = true ↔ P x.2) {e : MapEntry} (hmem : ∃ n, (n, e) ∈ es) (he : P e) (honly : ∀ x ∈ es, P x.2 → x.2 = e) :
    ∃ x, es.find? p = some x ∧ x.2 = e := by
  cases hf : es.find? p with
  | none =>
    obtain ⟨n, hn⟩ := hmem
    exact absurd ((hp _).2 he) (List.find?_eq_none.1 hf _ hn)
  | some x => exact ⟨x, rfl, honly x (List.mem_of_find?_eq_some hf) ((hp x).1 (List.find?_some hf))⟩

theorem find?_of_no_one {es : List (Nat × MapEntry)} {p : Nat × MapEntry → Bool} {P : MapEntry → Prop}
    (hp : ∀ x, p x = true ↔ P x.2) (hnone : ∀ x ∈ es, ¬ P x.2) : es.find? p = none :=
  List.find?_eq_none.2 fun x hx hpx => hnone x hx ((hp x).1 hpx)

theorem MapEntry.takes_block {e : MapEntry} {a : Nat} :
    e.Takes .eraseBlock a ↔ e.ubase ≤ blockOf a ∧ blockOf a + 65536 ≤ e.ubase + e.size := Iff.of_eq (if_pos rfl)

theorem MapEntry.takes_byte {e : MapEntry} {kind : WriteKind} {a : Nat} (hk : kind ≠ .eraseBlock) :
    e.Takes kind a ↔ e.holds a = true := by
  rw [MapEntry.Takes, if_neg hk, MapEntry.holds, Bool.and_eq_true, decide_eq_true_eq, decide_eq_true_eq]

theorem locate_byte {es : List (Nat × MapEntry)} {kind : WriteKind} {a : Nat} (hk : kind ≠ .eraseBlock) :
    (∀ e, findEntry es a = some e → locate es kind a = .ok e) ∧ (findEntry es a = none → locate es kind a = .error .unmapped) := by
  cases kind with
  | eraseBlock => exact absurd rfl hk
  | program | eraseSector => exact ⟨fun e he => by simp only [locate, he], fun hn => by simp only [locate, hn]⟩

section
variable {s : State} {kind : WriteKind} {a : Nat} {l : Lifecycle}

/-- A write that lies wholly in one entry is located there. -/
theorem State.LiesIn.locate_eq {e : MapEntry} (h : s.LiesIn kind a e) : locate s.entries kind a = .ok e := by
  by_cases hk : kind = .eraseBlock
  · subst hk
    obtain ⟨x, hx, rfl⟩ := find?_of_only (P := fun f => f.Takes .eraseBlock a)
      (p := fun x => decide (x.2.ubase ≤ blockOf a) && decide (blockOf a + 65536 ≤ x.2.ubase + x.2.size))
      (fun x => by simp [MapEntry.takes_block]) h.entry h.takes h.only
    simp only [locate, hx]
  · obtain ⟨x, hx, rfl⟩ := find?_of_only (P := fun f => f.Takes kind a) (p := fun x => x.2.holds a)
      (fun x => (MapEntry.takes_byte hk).symm) h.entry h.takes h.only
    exact (locate_byte hk).1 _ (by rw [findEntry, hx]; rfl)

theorem locate_of_no_byte (hk : kind ≠ .eraseBlock) (h : ∀ x ∈ s.entries, ¬ x.2.Takes kind a) :
    locate s.entries kind a = .error .unmapped :=
  (locate_byte hk).2 (by
    rw [findEntry, find?_of_no_one (P := fun f => f.Takes kind a) (fun x => (MapEntry.takes_byte hk).symm) h]
    rfl)

/-- An erased block that lies wholly in no entry: whether some entry's window meets it. -/
theorem locate_of_no_block (h : ∀ x ∈ s.entries, ¬ x.2.Takes .eraseBlock a) :
    ((∃ x ∈ s.entries, x.2.ubase < blockOf a + 65536 ∧ blockOf a < x.2.ubase + x.2.size) →
      locate s.entries .eraseBlock a = .error .spansEntries) ∧
    ((∀ x ∈ s.entries, blockOf a + 65536 ≤ x.2.ubase ∨ x.2.ubase + x.2.size ≤ blockOf a) →
      locate s.entries .eraseBlock a = .error .unmapped) := by
  have hfind := find?_of_no_one (P := fun f => f.Takes .eraseBlock a)
    (p := fun x => decide (x.2.ubase ≤ blockOf a) && decide (blockOf a + 65536 ≤ x.2.ubase + x.2.size))
    (fun x => by simp [MapEntry.takes_block]) h
  simp only [locate, hfind]
  refine ⟨fun ⟨x, hx, hlow, hhigh⟩ => if_pos (List.any_eq_true.2 ⟨x, hx, ?_⟩), fun hapart => if_neg fun hany => ?_⟩
  · simp [overlaps, hlow, hhigh]
  · obtain ⟨x, hx, hover⟩ := List.any_eq_true.1 hany
    simp only [overlaps, Bool.and_eq_true, decide_eq_true_eq] at hover
    have := hapart x hx
    omega

/-! ### The tests of R27 -/

/-- R27 steps 1 and 2 do not apply to a Port A write outside SAFE, nor to one into the directive window. -/
theorem State.classify_of_error {r : RefusalReason} (hgate : l ≠ .safe ∨ (kind ≠ .eraseBlock ∧ 0x1FFF000 ≤ a))
    (h : locate s.entries kind a = .error r) : s.classify .a l kind a = .refuse r := by
  have hsafe : ¬ (l = .safe ∧ (kind = .eraseBlock ∨ a < windowBase)) := by
    have : windowBase = 0x1FFF000 := rfl
    rintro ⟨hl, hb⟩
    rcases hgate with hg | ⟨hk, ha⟩
    · exact hg hl
    · exact hb.elim hk (by omega)
  rw [State.classify, if_neg (by decide), if_neg hsafe, h]

theorem State.classify_of_liesIn {e : MapEntry} (hgate : l ≠ .safe ∨ (kind ≠ .eraseBlock ∧ 0x1FFF000 ≤ a)) (h : s.LiesIn kind a e) :
    s.classify .a l kind a = if s.locked e.cls then .refuse .classLocked else s.classRule l kind a e := by
  have hsafe : ¬ (l = .safe ∧ (kind = .eraseBlock ∨ a < windowBase)) := by
    have : windowBase = 0x1FFF000 := rfl
    rintro ⟨hl, hb⟩
    rcases hgate with hg | ⟨hk, ha⟩
    · exact hg hl
    · exact hb.elim hk (by omega)
  rw [State.classify, if_neg (by decide), if_neg hsafe, h.locate_eq]

theorem State.classify_safe (h : kind = .eraseBlock ∨ a < 0x1FFF000) : s.classify .a .safe kind a = .refuse .classLocked := by
  rw [State.classify, if_neg (by decide), if_pos ⟨rfl, h⟩]

end

/-! ### The locks (R36, R143, R172) -/

section
variable {s : State} {c : RegionClass}

theorem State.locked_of_setMap (h : ∃ n x, s.dir.running = some (.setMapRecord n x)) (hc : c = .pass ∨ c = .uniformity ∨ c = .settings) :
    s.locked c = true := by
  obtain ⟨n, x, hr⟩ := h
  have hlock : s.writeLock = true := by rw [State.writeLock, hr]
  rcases hc with rfl | rfl | rfl <;> simp [State.locked, hlock]

theorem State.locked_of_serviceClose (h : s.dir.running = some .serviceCloseCheck ∨ ∃ g, s.dir.running = some (.serviceCloseRecord g))
    (hc : c = .uniformity ∨ c = .settings) : s.locked c = true := by
  have hlock : s.serviceCloseLock = true := by
    rcases h with hr | ⟨g, hr⟩ <;> rw [State.serviceCloseLock, hr]
  rcases hc with rfl | rfl <;> simp [State.locked, hlock]

theorem State.locked_of_seal (h : ∃ n, s.dir.running = some (.sealValidate n) ∨ ∃ g, s.dir.running = some (.sealProgram n g) ∨
    s.dir.running = some (.sealRecord n g)) : s.locked .key = true := by
  obtain ⟨n, hr | ⟨g, hr | hr⟩⟩ := h <;> rw [State.locked, State.sealLock, hr]

end

/-! ### The rules of the classes (R28, R30 to R33) -/

section
variable {s : State} {kind : WriteKind} {a : Nat} {l : Lifecycle} {e : MapEntry}

theorem State.classRule_pass (h : e.cls = .pass) :
    s.classRule l kind a e =
      if e.aRight = .readWrite then .queue .pass (e.pbase + (kind.start a - e.ubase)) e.posted else .refuse .noRight := by
  simp only [State.classRule, h]

theorem State.classRule_uniformity (h : e.cls = .uniformity) :
    s.classRule l kind a e =
      if l = .opened ∨ l = .sealed ∨ l = .service then
        if 0 < s.dir.flipCount then .refuse .flipPending
        else .queue .uni (e.bankBase s.live.other + (kind.start a - e.ubase)) true
      else .refuse .classLocked := by
  simp only [State.classRule, h]

theorem State.classRule_key (h : e.cls = .key) :
    s.classRule l kind a e = if l = .opened then (if kind = .program then .stage else .stageErase) else .refuse .classLocked := by
  simp only [State.classRule, h]

theorem State.classRule_settings (h : e.cls = .settings) :
    s.classRule l kind a e =
      if l = .opened ∨ l = .service then .queue .set (e.pbase + (kind.start a - e.ubase)) true else .refuse .classLocked := by
  simp only [State.classRule, h]

theorem State.classRule_directive (h : e.cls = .directive) :
    s.classRule l kind a e = if kind = .program then .slot else .windowErase := by
  simp only [State.classRule, h]

end

/-- Settles O14: the refusals follow from the entry a write lies in, its locks and the rule of its class. -/
theorem classifierRefusal : Obligations.ClassifierRefusal := by
  refine ⟨fun kind a b data d s l r h hv => ?_, fun s kind a => ⟨fun l => State.classify_t s l kind a, fun h => State.classify_safe h,
    fun l hgate => ⟨fun hnone => ⟨fun hk => State.classify_of_error hgate (locate_of_no_byte hk hnone), fun hk => ?_⟩,
      fun e he => ?_⟩⟩⟩
  · rw [h.exec_eq, hv]
    exact congrArg _ (State.refuse_taken s kind b.toNat r)
  · subst hk
    have hblock := locate_of_no_block hnone
    exact ⟨fun h => State.classify_of_error hgate (hblock.1 h), fun h => State.classify_of_error hgate (hblock.2 h)⟩
  · rw [State.classify_of_liesIn hgate he]
    have hopen (hlock : s.locked e.cls = false) :
        (if s.locked e.cls then Verdict.refuse .classLocked else s.classRule l kind a e) = s.classRule l kind a e := by
      rw [hlock]
      exact if_neg Bool.false_ne_true
    have hrefused (hrule : s.classRule l kind a e = .refuse .classLocked) :
        (if s.locked e.cls then Verdict.refuse .classLocked else s.classRule l kind a e) = .refuse .classLocked := by
      rw [hrule]
      exact ite_self _
    refine ⟨fun hr hc => if_pos (State.locked_of_setMap hr hc), fun hr hc => if_pos (State.locked_of_serviceClose hr hc),
      fun hr hc => if_pos (hc ▸ State.locked_of_seal hr), fun hc h1 h2 h3 => hrefused ?_, fun hc h1 h2 => hrefused ?_,
      fun hc h1 => hrefused ?_, fun hc hlock hright => ?_, fun hc hlock hl hflip => ?_, fun hc hlock hl => ?_, fun hd => ?_⟩
    · rw [State.classRule_uniformity hc, if_neg (by simp [h1, h2, h3])]
    · rw [State.classRule_settings hc, if_neg (by simp [h1, h2])]
    · rw [State.classRule_key hc, if_neg h1]
    · rw [hopen (hc ▸ hlock), State.classRule_pass hc, if_neg hright]
    · rw [hopen (hc ▸ hlock), State.classRule_uniformity hc, if_pos hl, if_pos hflip]
    · rw [hopen (hc ▸ hlock), State.classRule_key hc, if_pos hl]
    · subst hd
      rw [hopen rfl, State.classRule_directive rfl]

end Sys2Proof.Machine
end

-- Proofs of the family 'other': entries that join a queue.
section
/-! PROOFS. Entries that join a queue (R59, R61, R67): Port A's writes (R47 to R49, R63). -/

namespace Sys2Proof.Machine

/-! ### An entry that joins a queue (R59) -/

/-- `t` is `s` with an entry made at the tail of a queue, and the claim it gives rise to. -/
structure Joined (s : State) (q : QueueId) (e : Entry) (t : State) : Prop where
  only : ArbiterOnly (s.addEntry q e) t
  apart : Apart (s.addEntry q e) t

section
variable {s t : State} {q : QueueId} {e : Entry}

theorem State.rejudgeClaim_of_none {p : Port} (h : s.reading p = none) : s.rejudgeClaim q p = s := by rw [State.rejudgeClaim, h]

theorem State.NoReads.rejudgeJoin (h : s.NoReads) : s.rejudgeJoin q = s := by
  rw [State.rejudgeJoin, State.rejudgeClaim_of_none h.linkT, State.rejudgeClaim_of_none h.linkA]

theorem ArbiterOnly.claimFirst (s : State) (q : QueueId) (l : List Entry) : ArbiterOnly s (s.claimFirst q l) := by
  rw [State.claimFirst]
  split
  · exact ArbiterOnly.claimHead s q
  · exact ArbiterOnly.refl s

/-- The entry and what its event raises. -/
theorem State.addEntry_eq (s : State) (q : QueueId) (e : Entry) :
    s.addEntry q e =
      { s with
        nextSeq := s.nextSeq + 1
        queues := s.queues.put q ((s.queues.get q).filled (s.entriesOf q ++ [{ e with seq := s.nextSeq }]))
        dir := { s.dir with
          events := s.dir.events ||| highEvent ((s.queues.get q).fills (s.entriesOf q ++ [{ e with seq := s.nextSeq }])) } } :=
  State.setEntries_eq ..

theorem State.NoReads.joined (h : s.NoReads) (q : QueueId) (e : Entry) : Joined s q e (s.joinEntry q e) := by
  have hA : (s.addEntry q e).portA = s.portA := by rw [State.addEntry_eq]
  have hT : (s.addEntry q e).portT = s.portT := by rw [State.addEntry_eq]
  have honly := ArbiterOnly.claimFirst (s.addEntry q e) q (s.entriesOf q)
  have hreads : ((s.addEntry q e).claimFirst q (s.entriesOf q)).NoReads :=
    h.of_links (by rw [honly.portA, hA]) (by rw [honly.portT, hT])
  rw [State.joinEntry, hreads.rejudgeJoin]
  exact ⟨honly, Apart.claimFirst ..⟩

/-- Two queues alike but for the states of their entries differ in the entries at most. -/
theorem Queue.eq_of_still {x y : Queue} (h : x.still = y.still) : x = { y with entries := x.entries } := by
  cases x
  cases y
  simp only [Queue.still, Queue.mk.injEq] at h ⊢
  obtain ⟨-, hrest⟩ := h
  exact ⟨trivial, hrest⟩

namespace Joined

variable (h : Joined s q e t)
include h

theorem entriesOf : (t.entriesOf q).map Entry.still = (s.entriesOf q).map Entry.still ++ [{ e with seq := s.nextSeq }.still] := by
  have hq := congrArg Queue.entries (h.apart.queues q)
  have hadd : (s.addEntry q e).entriesOf q = s.entriesOf q ++ [{ e with seq := s.nextSeq }] := State.entriesOf_setEntries ..
  refine hq.trans ?_
  show ((s.addEntry q e).entriesOf q).map Entry.still = _
  rw [hadd, List.map_append]
  rfl

theorem queue_ne {r : QueueId} (hr : r ≠ q) : (t.queues.get r).still = (s.queues.get r).still := by
  rw [h.apart.queues r, State.addEntry_eq]
  exact congrArg Queue.still (PerQueue.get_put_ne _ _ hr)

theorem entriesOf_ne {r : QueueId} (hr : r ≠ q) : (t.entriesOf r).map Entry.still = (s.entriesOf r).map Entry.still :=
  congrArg Queue.entries (h.queue_ne hr)

theorem length_entriesOf : (t.entriesOf q).length = (s.entriesOf q).length + 1 := by
  have := congrArg List.length h.entriesOf
  simpa using this

/-- R67: the queue's flag is judged, and nothing else of a queue but its entries changes. -/
theorem queue (r : QueueId) : t.queues.get r = { s.queues.get r with
    entries := t.entriesOf r
    high := if r = q then decide ((s.queues.get q).level ≤ (s.entriesOf q).length + 1) else (s.queues.get r).high } := by
  by_cases hr : r = q
  · subst hr
    have hstill := h.apart.queues r
    rw [State.addEntry_eq, PerQueue.get_put] at hstill
    rw [if_pos rfl, Queue.eq_of_still hstill, Queue.filled, List.length_append]
    rfl
  · rw [if_neg hr, Queue.eq_of_still (h.queue_ne hr)]
    rfl

theorem dir : t.dir = { s.dir with
    events := if (decide ((s.queues.get q).level ≤ (s.entriesOf q).length + 1) && !(s.queues.get q).high) = true
      then s.dir.events ||| 0x0020#13 else s.dir.events } := by
  rw [h.only.dir, State.addEntry_eq]
  have hfills : (s.queues.get q).fills (s.entriesOf q ++ [{ e with seq := s.nextSeq }]) =
      (decide ((s.queues.get q).level ≤ (s.entriesOf q).length + 1) && !(s.queues.get q).high) := by
    rw [Queue.fills, List.length_append]
    rfl
  rw [hfills, highEvent]
  split <;> simp

theorem nextSeq : t.nextSeq = s.nextSeq + 1 := by rw [h.only.nextSeq, State.addEntry_eq]

theorem pool : t.pool = s.pool := by rw [h.only.pool, State.addEntry_eq]

theorem portA : t.portA = s.portA := by rw [h.only.portA, State.addEntry_eq]

theorem portT : t.portT = s.portT := by rw [h.only.portT, State.addEntry_eq]

theorem life : t.life = s.life := by rw [h.only.life, State.addEntry_eq]

theorem key : t.key = s.key := by rw [h.only.key, State.addEntry_eq]

theorem uni : t.uni = s.uni := by rw [h.only.uni, State.addEntry_eq]

theorem flash : t.flash = s.flash := by rw [h.only.flash, State.addEntry_eq]

theorem firstFailure : t.firstFailure = s.firstFailure := by rw [h.only.firstFailure, State.addEntry_eq]

theorem job : t.job = s.job := by rw [h.only.job, State.addEntry_eq]

theorem settings : t.engine.settings = s.engine.settings := by rw [h.apart.settings, State.addEntry_eq]

end Joined

end

/-! ### A page for a PROGRAM (R62, R63) -/

/-- The state after a page has been taken for an entry of a kind. -/
def State.paged (s : State) (kind : WriteKind) : State := { s with pool := if kind = .program then s.pool.tail else s.pool }

theorem State.takePage_eq (s : State) (kind : WriteKind) :
    s.takePage kind = (s.paged kind, if kind = .program then s.pool.head? else none) := by
  cases kind <;> rfl

/-! ### Port A's writes (R47, R48) -/

/-- The busy cause that a write leaves Port A with, ROOM judged (R47, R48). -/
def State.postedCause (s : State) (w : QueuedWrite) : BusyCause :=
  if w.posted then (if (s.entriesOf w.queue).length + 1 < 32 ∧ (s.paged w.kind).pool ≠ [] then .none else .room w.queue)
  else .entry s.nextSeq

/-- The entry of a Port A write, with the page it takes. -/
def State.postedEntry (s : State) (w : QueuedWrite) : Entry :=
  w.entry s.nextSeq (if w.kind = .program then s.pool.head? else none)

/-- ROOM is judged: it clears where the queue has room and a page is free (R48). -/
theorem State.roomStep_of_room {s : State} {q : QueueId} (h : s.portA.cause = .room q) :
    s.roomStep =
      if (s.entriesOf q).length < 32 ∧ s.pool ≠ [] then some (s.onPort .a fun x => { x with cause := .none }) else none := by
  simp only [State.roomStep, h]

/-- Where no directive waits or runs, a Port A write becomes an entry, and its event ends with the busy cause set. -/
theorem State.NoReads.finish_postWrite {s : State} (h : s.NoReads) (hqueue : s.dir.queue = []) (hrun : s.dir.running = none)
    (hjob : s.job = none) (hwait : s.portA.awaiting = none) (w : QueuedWrite) :
    ∃ u, Joined (s.paged w.kind) w.queue (s.postedEntry w) u ∧
      (s.postWrite w).finish = u.onPort .a fun x => { x with cause := s.postedCause w } := by
  have hj : Joined (s.paged w.kind) w.queue (s.postedEntry w) ((s.paged w.kind).joinEntry w.queue (s.postedEntry w)) :=
    State.NoReads.joined (s := s.paged w.kind) ⟨h.linkA, h.linkT⟩ _ _
  have hpost : s.postWrite w = ((s.paged w.kind).joinEntry w.queue (s.postedEntry w)).onPort .a fun x =>
      { x with cause := if w.posted then .room w.queue else .entry s.nextSeq } := by
    rw [State.postWrite, State.takePage_eq]
    rfl
  generalize (s.paged w.kind).joinEntry w.queue (s.postedEntry w) = u at hj hpost
  have hdirq : u.dir.queue = [] := by rw [hj.dir]; exact hqueue
  have hdirr : u.dir.running = none := by rw [hj.dir]; exact hrun
  have hujob : u.job = none := hj.job.trans hjob
  have huwait : u.portA.awaiting = none := (congrArg PortState.awaiting hj.portA).trans hwait
  have hreads (c : BusyCause) : (u.onPort .a fun x => { x with cause := c }).NoReads :=
    h.of_links (show u.portA.link = s.portA.link from congrArg PortState.link hj.portA) (congrArg PortState.link hj.portT)
  have hcalm (c : BusyCause) (hc : ∀ q, c ≠ .room q) : (u.onPort .a fun x => { x with cause := c }).Calm :=
    { queue := hdirq, running := hdirr, job := hujob, awaiting := huwait, noRoom := hc }
  refine ⟨u, hj, ?_⟩
  rw [hpost, State.postedCause]
  by_cases hp : w.posted = true
  · rw [if_pos hp, if_pos hp]
    have hroom := State.roomStep_of_room (s := u.onPort .a fun x => { x with cause := .room w.queue }) rfl
    have hlen : (u.entriesOf w.queue).length = (s.entriesOf w.queue).length + 1 := hj.length_entriesOf
    have hdue : State.due (u.onPort .a fun x => { x with cause := .room w.queue }) = if
        (s.entriesOf w.queue).length + 1 < 32 ∧ (s.paged w.kind).pool ≠ [] then some (u.onPort .a fun x => { x with cause := .none })
        else none := by
      rw [State.due_of_idle (s := u.onPort .a fun x => { x with cause := .room w.queue }) hdirr hujob,
        State.awaitingStep_none (s := u.onPort .a fun x => { x with cause := .room w.queue }) huwait,
        State.directiveStep_none (s := u.onPort .a fun x => { x with cause := .room w.queue }) hdirq, Option.none_or, Option.or_none,
        hroom, ← hlen, ← hj.pool]
      rfl
    by_cases hfree : (s.entriesOf w.queue).length + 1 < 32 ∧ (s.paged w.kind).pool ≠ []
    · rw [if_pos hfree] at hdue ⊢
      exact (hcalm .none nofun).finish_due (hreads _) hdue
    · rw [if_neg hfree] at hdue ⊢
      exact State.finish_of_not_due hdue (hreads _)
  · rw [if_neg hp, if_neg hp]
    exact (hcalm (.entry s.nextSeq) nofun).finish_eq (hreads _)

/-- Settles O47: a page is free, so the awaiting write's moment is due, and it makes the entry. -/
theorem awaitingWriteBecomesEntry : Obligations.AwaitingWriteBecomesEntry := by
  intro s w hqueue hrun hjob hreads hwait hkind hpool
  have hstep : s.awaitingStep = some ((s.onPort .a fun x => { x with awaiting := none }).postWrite w) := by
    simp only [State.awaitingStep, hwait]
    exact if_neg hpool
  obtain ⟨u, hj, hfin⟩ := State.NoReads.finish_postWrite (s := s.onPort .a fun x => { x with awaiting := none })
    (hreads.of_links rfl rfl) hqueue hrun hjob rfl w
  refine ⟨_, (State.moment_of_some hstep).trans (congrArg _ hfin), ?_, ?_, hj.nextSeq, ?_, hj.portT, hj.life, hj.flash⟩
  · refine hj.entriesOf.trans ?_
    simp only [State.postedEntry, QueuedWrite.entry, hkind, if_true]
    rfl
  · refine hj.pool.trans ?_
    exact if_pos hkind
  · have hpaged : (State.paged (s.onPort .a fun x => { x with awaiting := none }) w.kind).pool = s.pool.tail := if_pos hkind
    have hA : u.portA = { s.portA with awaiting := none } := hj.portA
    show ({ u.portA with cause := State.postedCause (s.onPort .a fun x => { x with awaiting := none }) w } : PortState) = _
    rw [hA, State.postedCause, hpaged]
    rfl

end Sys2Proof.Machine
end

-- Proofs of the family 'other': writes passed to a queue.
section
/-! PROOFS. A write that the Classifier passes to a queue (R26, R28, R30, R33, R47, R48). -/

namespace Sys2Proof.Machine

/-- A write passed to a queue, with a page free where it needs one, joins that queue. -/
theorem State.Takes.joins {kind : WriteKind} {a b : Addr} {data d : List Byte} {s : State} {l : Lifecycle} {q : QueueId} {phys : Nat}
    {posted : Bool} (h : s.Takes kind a data b d l) (hv : s.classify .a l kind b.toNat = .queue q phys posted) (hcalm : s.Calm)
    (hreads : s.NoReads) (hpool : kind = .program → s.pool ≠ []) :
    ∃ w : QueuedWrite, w = { queue := q, kind := kind, addr := phys, data := covered b.toNat d, upstream := b.toNat, posted := posted } ∧
      ∃ u, Joined ((s.onPort .a PortState.taken).paged kind) q ((s.onPort .a PortState.taken).postedEntry w) u ∧
        exec (closedWrite .a kind a data) s =
          .next (u.onPort .a fun x => { x with cause := (s.onPort .a PortState.taken).postedCause w }) := by
  refine ⟨_, rfl, ?_⟩
  obtain ⟨u, hj, hfin⟩ := State.NoReads.finish_postWrite (s := s.onPort .a PortState.taken) (hreads.of_idle rfl rfl)
    hcalm.queue hcalm.running hcalm.job hcalm.awaiting
    { queue := q, kind := kind, addr := phys, data := covered b.toNat d, upstream := b.toNat, posted := posted }
  refine ⟨u, hj, ?_⟩
  rw [h.exec_eq, hv, State.act, State.takeQueued, if_neg, hfin]
  rintro ⟨hk, hempty⟩
  exact hpool hk hempty

section
variable {s : State} {kind : WriteKind} {a : Nat} {l : Lifecycle} {e : MapEntry}

/-- The bank that a Port A write to the UNIFORMITY entry goes to is the shadow bank (R114). -/
theorem MapEntry.bankBase_other (e : MapEntry) (b : Bank) :
    e.bankBase b.other = match b with | .bank0 => e.pbase2 | .bank1 => e.pbase := by
  cases b <;> rfl

theorem State.LiesIn.classify_open (he : s.LiesIn kind a e) (hl : l ≠ .safe) (hlock : s.locked e.cls = false) :
    s.classify .a l kind a = s.classRule l kind a e := by
  rw [State.classify_of_liesIn (Or.inl hl) he, hlock]
  exact if_neg Bool.false_ne_true

/-- The verdicts that pass a write to a queue. -/
theorem State.LiesIn.classify_queue (he : s.LiesIn kind a e) (hl : l ≠ .safe) :
    (e.cls = .pass → s.locked .pass = false → e.aRight = .readWrite →
      s.classify .a l kind a = .queue .pass (e.pbase + (kind.start a - e.ubase)) e.posted) ∧
    (e.cls = .uniformity → s.locked .uniformity = false → l = .opened ∨ l = .sealed ∨ l = .service → s.dir.flipCount = 0 →
      s.classify .a l kind a = .queue .uni (e.bankBase s.live.other + (kind.start a - e.ubase)) true) ∧
    (e.cls = .settings → s.locked .settings = false → l = .opened ∨ l = .service →
      s.classify .a l kind a = .queue .set (e.pbase + (kind.start a - e.ubase)) true) := by
  refine ⟨fun hc hlock hright => ?_, fun hc hlock hs hflip => ?_, fun hc hlock hs => ?_⟩
  · rw [he.classify_open hl (hc ▸ hlock), State.classRule_pass hc, if_pos hright]
  · rw [he.classify_open hl (hc ▸ hlock), State.classRule_uniformity hc, if_pos hs, if_neg (by omega)]
  · rw [he.classify_open hl (hc ▸ hlock), State.classRule_settings hc, if_pos hs]

end

/-- Settles O16: what a write that joins a queue leaves, when it does, and the same for an erased block. -/
theorem queuedWriteJoins : Obligations.QueuedWriteJoins := by
  refine ⟨fun kind a b data d s l q phys posted h hv hcalm hreads hpool => ?_, fun s kind a l e hl he => ?_,
    fun a s l e hlink hwel hcause hlife hl he hcalm hreads => ?_⟩
  · intro sets
    obtain ⟨w, rfl, u, hj, hexec⟩ := h.joins hv hcalm hreads hpool
    refine ⟨_, hexec, hj.entriesOf, fun r hr => hj.entriesOf_ne hr, hj.queue, hj.dir, hj.nextSeq, hj.pool, ?_, hj.portT, hj.life,
      hj.key, hj.uni, hj.flash, hj.firstFailure, hj.settings⟩
    have hA : u.portA = s.portA.taken := hj.portA
    have hp : u.pool = (State.paged (s.onPort .a PortState.taken) kind).pool := hj.pool
    show ({ u.portA with cause := _ } : PortState) = _
    rw [hA, State.postedCause, ← hp]
    rfl
  · intro start
    obtain ⟨hpass, huni, hset⟩ := he.classify_queue hl
    refine ⟨hpass, fun hc hlock hs hflip => ?_, hset⟩
    rw [huni hc hlock hs hflip, MapEntry.bankBase_other]
    rfl
  · intro erases
    have htakes : s.Takes .eraseBlock a [] a [] l :=
      { collected := by rw [State.port, hlink]; rfl
        erase := fun _ => rfl
        byte := nofun
        wel := hwel
        free := by rw [PortState.busy, hcause]; rfl
        life := hlife }
    have herases {q : QueueId} {base : Nat} {posted : Bool}
        (hv : s.classify .a l .eraseBlock a.toNat = .queue q (base + (blockStart a.toNat - e.ubase)) posted) : erases q base posted := by
      obtain ⟨w, rfl, u, hj, hexec⟩ := htakes.joins hv hcalm hreads nofun
      exact ⟨_, hexec, hj.entriesOf, fun r hr => hj.entriesOf_ne hr, hj.nextSeq, hj.pool, hj.portT, hj.flash⟩
    obtain ⟨hpass, huni, hset⟩ := he.classify_queue hl
    refine ⟨fun hc hlock hright => herases (hpass hc hlock hright), fun hc hlock hs hflip => herases ?_,
      fun hc hlock hs => herases (hset hc hlock hs)⟩
    rw [huni hc hlock hs hflip, MapEntry.bankBase_other]
    rfl

end Sys2Proof.Machine
end

-- Proofs of the family 'other': the entries of a run of work.
section
/-! PROOFS. The entries of a run of Q-SYS work (R8, R19, R59, R63, R152). -/

namespace Sys2Proof.Machine

/-! ### The work's entries, one by one -/

theorem wholePage_take (l : List Byte) : wholePage (l.take 256) = (List.range 256).map fun o => (o, l.getD (0 + o) 0xFF#8) := by
  rw [wholePage]
  refine List.map_congr_left fun i hi => ?_
  have hlt : i < 256 := List.mem_range.1 hi
  rw [List.getD_eq_getElem?_getD, List.getElem?_take_of_lt hlt, Nat.zero_add, List.getD_eq_getElem?_getD]

theorem wholePage_drop (l : List Byte) : wholePage (l.drop 256) = (List.range 256).map fun o => (o, l.getD (256 + o) 0xFF#8) := by
  rw [wholePage]
  refine List.map_congr_left fun i _ => ?_
  rw [List.getD_eq_getElem?_getD, List.getElem?_drop, List.getD_eq_getElem?_getD]

theorem wholePage_bundlePage (staging : Mem) (len k : Nat) :
    wholePage (bundlePage staging len k) =
      (List.range 256).map fun o => (o, if 256 * k + o < len then Mem.get staging (256 * k + o) else 0xFF#8) := by
  rw [wholePage]
  refine List.map_congr_left fun i hi => ?_
  have hlt : i < 256 := List.mem_range.1 hi
  rw [bundlePage, List.getD_eq_getElem?_getD, List.getElem?_map, List.getElem?_range hlt]
  rfl

/-! ### One entry of a run (R59) -/

/-- Entry `i` of what a job still has to add: its kind, address and data. -/
def Job.item (j : Job) (staging : Mem) (i : Nat) : WriteKind × Nat × OffsetBytes := j.work.entry staging (j.added + i)

/-- How many of the first `i` entries that a job still has to add are programs. -/
def Job.programs (j : Job) (staging : Mem) (i : Nat) : Nat :=
  ((List.range i).filter fun k => decide ((j.item staging k).1 = .program)).length

/-- The queue entry made of item `i`. -/
def State.runEntry (s : State) (n : Nat) (j : Job) (i : Nat) : Entry :=
  { seq := s.nextSeq + BitVec.ofNat 32 i, kind := (j.item s.key.staging i).1, addr := (j.item s.key.staging i).2.1,
    data := (j.item s.key.staging i).2.2,
    page := if (j.item s.key.staging i).1 = .program then s.pool[j.programs s.key.staging i]? else none, origin := .slot n,
    upstream := none, posted := false, state := .queued, retries := 0, image := none }

/-- The first item takes the pool's first page. -/
theorem State.runEntry_zero (s : State) (n : Nat) (j : Job) :
    s.runEntry n j 0 =
      { seq := s.nextSeq, kind := (j.work.entry s.key.staging j.added).1, addr := (j.work.entry s.key.staging j.added).2.1,
        data := (j.work.entry s.key.staging j.added).2.2,
        page := if (j.work.entry s.key.staging j.added).1 = .program then s.pool.head? else none, origin := .slot n, upstream := none,
        posted := false, state := .queued, retries := 0, image := none } := by
  have hseq : s.nextSeq + BitVec.ofNat 32 0 = s.nextSeq := BitVec.add_zero _
  have hpool : s.pool[j.programs s.key.staging 0]? = s.pool.head? := List.head?_eq_getElem?.symm
  rw [State.runEntry, hseq, hpool]
  rfl

/-- The job with `m` entries more. -/
def Job.grown (j : Job) (m : Nat) : Job := { j with added := j.added + m, unleft := j.unleft + m }

theorem Job.programs_succ (j : Job) (staging : Mem) (i : Nat) :
    j.programs staging (i + 1) = j.programs staging i + if (j.item staging i).1 = .program then 1 else 0 := by
  rw [Job.programs, List.range_succ, List.filter_append, List.length_append, Job.programs]
  by_cases hk : (j.item staging i).1 = .program <;> simp [hk]

theorem State.drop_programs_one (s : State) (j : Job) :
    s.pool.drop (j.programs s.key.staging 1) = if (j.work.entry s.key.staging j.added).1 = .program then s.pool.tail else s.pool := by
  have hone : j.programs s.key.staging 1 = 0 + if (j.work.entry s.key.staging j.added).1 = .program then 1 else 0 :=
    Job.programs_succ j s.key.staging 0
  rw [hone, Nat.zero_add]
  split
  · exact List.drop_one
  · rfl

/-- The state with the job's next entry added. -/
def State.sysAdded (s : State) (j : Job) : State :=
  let x := j.item s.key.staging 0
  State.joinEntry ({ s.paged x.1 with job := some (j.grown 1) }) .sys
    { seq := s.nextSeq, kind := x.1, addr := x.2.1, data := x.2.2, page := if x.1 = .program then s.pool.head? else none,
      origin := .slot s.headSlot, upstream := none, posted := false, state := .queued, retries := 0, image := none }

/-- The next entry of a run can be added (R59, R63). -/
def State.sysRoom (s : State) (j : Job) : Prop :=
  j.wants = true ∧ (s.entriesOf .sys).length < 32 ∧ j.unleft < 32 ∧ ((j.item s.key.staging 0).1 = .program → s.pool ≠ [])

theorem State.sysStep_of_room {s : State} {j : Job} (hj : s.job = some j) (h : s.sysRoom j) : s.sysStep = some (s.sysAdded j) := by
  simp only [State.sysStep, hj, State.takePage_eq]
  exact if_pos h

theorem State.sysStep_of_no_room {s : State} {j : Job} (hj : s.job = some j) (h : ¬ s.sysRoom j) : s.sysStep = none := by
  simp only [State.sysStep, hj]
  exact if_neg h

/-! ### The run in one event -/

/-- `u` is `s`, in which a directive waits for job `j` alone, with `m` entries of the job added. -/
structure SysRun (s : State) (n : Nat) (j : Job) (m : Nat) (u : State) : Prop where
  made : Made s u
  job : u.job = some (j.grown m)
  portA : u.portA = s.portA
  portT : u.portT = s.portT
  entries : (u.entriesOf .sys).map Entry.still = (s.entriesOf .sys).map Entry.still ++ (List.range m).map (s.runEntry n j)
  pool : u.pool = s.pool.drop (j.programs s.key.staging m)
  nextSeq : u.nextSeq = s.nextSeq + BitVec.ofNat 32 m
  total : j.added + m ≤ j.work.total
  room : (s.entriesOf .sys).length + m ≤ 32
  unleft : j.unleft + m ≤ 32

namespace SysRun

variable {s u : State} {n m : Nat} {ph : Phase} {j : Job}

theorem zero (hj : s.job = some j) (hw : j.wants = true) (hroom : (s.entriesOf .sys).length < 32) (hleft : j.unleft < 32) :
    SysRun s n j 0 s := by
  have htotal : j.added < j.work.total := by
    rw [Job.wants, Bool.and_eq_true, decide_eq_true_eq] at hw
    exact hw.1
  exact ⟨Made.refl s, hj, rfl, rfl, by simp, rfl, by simp, Nat.le_of_lt htotal, Nat.le_of_lt hroom, Nat.le_of_lt hleft⟩

theorem item_grown (h : SysRun s n j m u) : (j.grown m).item u.key.staging 0 = j.item s.key.staging m := by
  rw [h.made.key]
  rfl

theorem length_entries (h : SysRun s n j m u) : (u.entriesOf .sys).length = (s.entriesOf .sys).length + m := by
  have := congrArg List.length h.entries
  simpa using this

theorem headSlot (h : SysRun s n j m u) (ha : s.Alone n ph) : u.headSlot = n := by
  rw [State.headSlot, h.made.queue, ha.queue]
  rfl

theorem head_pool (h : SysRun s n j m u) : u.pool.head? = s.pool[j.programs s.key.staging m]? := by rw [h.pool, List.head?_drop]

/-- One entry more. -/
theorem succ (h : SysRun s n j m u) (ha : s.Alone n ph) (hr : u.sysRoom (j.grown m)) : SysRun s n j (m + 1) (u.sysAdded (j.grown m)) := by
  have hstep : u.sysStep = some (u.sysAdded (j.grown m)) := State.sysStep_of_room h.job hr
  obtain ⟨hwants, hroom, hleft, -⟩ := hr
  have hreads : u.NoReads := ha.toNoReads.of_links (congrArg PortState.link h.portA) (congrArg PortState.link h.portT)
  have hitem := h.item_grown
  have hjoined := State.NoReads.joined
    (s := { u.paged (j.item s.key.staging m).1 with job := some (j.grown (m + 1)) }) ⟨hreads.linkA, hreads.linkT⟩ .sys
    (s.runEntry n j m)
  have hadded : u.sysAdded (j.grown m) =
      State.joinEntry { u.paged (j.item s.key.staging m).1 with job := some (j.grown (m + 1)) } .sys (s.runEntry n j m) := by
    rw [State.sysAdded, hitem, h.headSlot ha, h.head_pool, h.nextSeq]
    rfl
  have hwork : j.added + m < j.work.total := by
    rw [Job.wants, Bool.and_eq_true, decide_eq_true_eq] at hwants
    exact hwants.1
  rw [h.length_entries] at hroom
  rw [hadded]
  refine ⟨?_, hjoined.job, hjoined.portA.trans h.portA, hjoined.portT.trans h.portT, hjoined.entriesOf.trans ?_, hjoined.pool.trans ?_,
    hjoined.nextSeq.trans ?_, hwork, hroom, hleft⟩
  · rw [← hadded]
    exact h.made.trans (Made.sysStep hstep)
  · have hentries : State.entriesOf { u.paged (j.item s.key.staging m).1 with job := some (j.grown (m + 1)) } .sys =
        u.entriesOf .sys := rfl
    have hseq : State.nextSeq { u.paged (j.item s.key.staging m).1 with job := some (j.grown (m + 1)) } = (s.runEntry n j m).seq :=
      h.nextSeq
    rw [hentries, h.entries, List.range_succ, List.map_append, List.append_assoc, hseq]
    rfl
  · show (if (j.item s.key.staging m).1 = .program then u.pool.tail else u.pool) = _
    rw [h.pool, Job.programs_succ]
    by_cases hk : (j.item s.key.staging m).1 = .program
    · rw [if_pos hk, if_pos hk, List.tail_drop]
    · rw [if_neg hk, if_neg hk, Nat.add_zero]
  · show u.nextSeq + 1 = _
    rw [h.nextSeq, BitVec.ofNat_add, BitVec.add_assoc]
    rfl

/-- What stops a run that an event has begun: its end, a full queue, a full count, or a program without a page. -/
theorem of_no_room (h : SysRun s n j m u) (hw : j.wants = true) (hr : ¬ u.sysRoom (j.grown m)) :
    j.added + m = j.work.total ∨ (s.entriesOf .sys).length + m = 32 ∨ j.unleft + m = 32 ∨
      ((j.item s.key.staging m).1 = .program ∧ u.pool = []) := by
  have hlen := h.length_entries
  have htotal := h.total
  have hroom := h.room
  have hunleft := h.unleft
  by_contra hcon
  simp only [not_or, not_and] at hcon
  obtain ⟨h1, h2, h3, h4⟩ := hcon
  refine hr ⟨?_, by omega, show j.unleft + m < 32 by omega, fun hk => h4 (h.item_grown ▸ hk)⟩
  have hlt : (j.grown m).added < (j.grown m).work.total := show j.added + m < j.work.total by omega
  rw [Job.wants, Bool.and_eq_true] at hw ⊢
  exact ⟨decide_eq_true hlt, hw.2⟩

theorem steady (h : SysRun s n j m u) (ha : s.Alone n ph) (hs : ph.stays = true) (hw : (j.grown m).ended = false) :
    u.Steady ph (some j.work) where
  running := h.made.running.trans ha.running
  stays := hs
  work := by rw [h.job]; rfl
  job := fun k hk => by
    rw [h.job] at hk
    cases hk
    exact hw

/-- While the run goes on nothing else is due. -/
theorem due (h : SysRun s n j m u) (ha : s.Alone n ph) (hs : ph.stays = true) (hw : (j.grown m).ended = false) : u.due = u.sysStep := by
  have hawait : u.awaitingStep = none := State.awaitingStep_none ((congrArg PortState.awaiting h.portA).trans ha.awaiting)
  have hroom : u.roomStep = none := State.roomStep_none fun q hc => ha.noRoom q ((congrArg PortState.cause h.portA).symm.trans hc)
  cases hd : u.due with
  | none =>
    rw [State.due, moments, firstDue_cons, firstDue_cons, Option.or_eq_none_iff, Option.or_eq_none_iff] at hd
    exact hd.2.1.symm
  | some t =>
    rcases (h.steady ha hs hw).due_cases hd with e | e | e
    · rw [hawait] at e
      nomatch e
    · exact e.symm
    · rw [hroom] at e
      nomatch e

theorem not_ended (h : 1 ≤ m) : (j.grown m).ended = false := by
  have : (j.grown m).unleft ≠ 0 := show j.unleft + m ≠ 0 by omega
  simp [Job.ended, this]

/-- The moments of the event add entries until the run stops. -/
theorem settles (ha : s.Alone n ph) (hs : ph.stays = true) (k : Nat) {m : Nat} {u : State} (h : SysRun s n j m u) (hm : 1 ≤ m)
    (hk : 33 ≤ k + m) : ∃ m', 1 ≤ m' ∧ SysRun s n j m' (settleUpTo k u) ∧ ¬ (settleUpTo k u).sysRoom (j.grown m') := by
  induction k generalizing m u with
  | zero =>
    have := h.room
    omega
  | succ k ih =>
    have hdue := h.due ha hs (not_ended hm)
    by_cases hr : u.sysRoom (j.grown m)
    · rw [settleUpTo, hdue, State.sysStep_of_room h.job hr]
      exact ih (h.succ ha hr) (Nat.le_add_left ..) (by omega)
    · rw [settleUpTo, hdue, State.sysStep_of_no_room h.job hr]
      exact ⟨m, hm, h, hr⟩

end SysRun

/-- SYS-PROGRAM-ENTRY-MADE while the run's next entry can be added: as many are added as can be. -/
theorem sysEntriesMade {s : State} {n : Nat} {ph : Phase} {j : Job} (h : s.Alone n ph) (hs : ph.stays = true) (hj : s.job = some j)
    (hw : j.wants = true) (hroom : (s.entriesOf .sys).length < 32) (hleft : j.unleft < 32)
    (hpage : (j.work.entry s.key.staging j.added).1 = .program → s.pool ≠ []) :
    ∃ m t, 1 ≤ m ∧ exec .sysProgramEntryMade s = .next t ∧ SysRun s n j m t ∧
      (j.added + m = j.work.total ∨ (s.entriesOf .sys).length + m = 32 ∨ j.unleft + m = 32 ∨
        ((j.item s.key.staging m).1 = .program ∧ t.pool = [])) := by
  have hr : s.sysRoom (j.grown 0) := ⟨hw, hroom, hleft, hpage⟩
  have hfirst := (SysRun.zero (n := n) hj hw hroom hleft).succ h hr
  obtain ⟨m, hm, hrun, hstop⟩ := hfirst.settles h hs settleBound (Nat.le_refl 1) (by decide)
  have hreads : (settleUpTo settleBound (s.sysAdded (j.grown 0))).NoReads :=
    h.toNoReads.of_links (congrArg PortState.link hrun.portA) (congrArg PortState.link hrun.portT)
  refine ⟨m, _, hm, State.moment_of_some (State.sysStep_of_room (j := j.grown 0) hj hr), ?_, ?_⟩
  · rw [State.finish, State.settle, hreads.runReads]
    exact hrun
  · rw [State.finish, State.settle, hreads.runReads]
    exact hrun.of_no_room hw hstop

/-- Settles O48: the entries of each work, and how many of them one event adds. -/
theorem sysEntryMade : Obligations.SysEntryMade := by
  refine ⟨fun r k staging => ⟨rfl, rfl, ?_, ?_⟩, fun base len staging => ⟨rfl, rfl, fun k => ?_⟩, fun staging => ⟨rfl, fun k => rfl⟩,
    fun s n ph j h hs hj hw hlast hroom hleft hpage => ?_, fun s n ph j h hs hj hw hroom hleft hpage => ?_⟩
  · exact congrArg (fun x => (WriteKind.program, controlSector, x)) (wholePage_take (recordBytes r))
  · exact congrArg (fun x => (WriteKind.program, controlSector + 256, x)) (wholePage_drop (recordBytes r))
  · exact congrArg (fun x => (WriteKind.program, base + 256 * k, x)) (wholePage_bundlePage staging len k)
  · obtain ⟨m, t, hm, hexec, hrun, -⟩ := sysEntriesMade h hs hj hw hroom hleft hpage
    have hone : m = 1 := by
      have := hrun.total
      omega
    subst hone
    refine ⟨t, hexec, hrun.entries.trans ?_, hrun.pool.trans ?_, hrun.nextSeq, hrun.job, hrun.made.running.trans h.running, hrun.portA,
      hrun.made.life, hrun.made.flash⟩
    · exact congrArg (fun e => (s.entriesOf .sys).map Entry.still ++ [e]) (s.runEntry_zero n j)
    · exact s.drop_programs_one j
  · obtain ⟨m, t, hm, hexec, hrun, hstop⟩ := sysEntriesMade h hs hj hw hroom hleft hpage
    exact ⟨t, hexec, m, hm, hrun.total, hrun.room, hrun.unleft, hstop, hrun.entries, hrun.pool, hrun.nextSeq, hrun.job,
      hrun.made.running.trans h.running, hrun.portA, hrun.made.life, hrun.made.flash⟩

end Sys2Proof.Machine
end

-- Proofs of the family 'other': a queued directive joins the queue.
section
/-! PROOFS. A queued directive that joins the queue (R179), and CANCEL (R184). -/

namespace Sys2Proof.Machine

/-! ### When each moment is due -/

theorem State.awaitingStep_eq_none {s : State} : s.awaitingStep = none ↔ (s.portA.awaiting ≠ none → s.pool = []) := by
  rw [State.awaitingStep]
  cases s.portA.awaiting <;> simp

theorem State.sysStep_eq_none {s : State} : s.sysStep = none ↔ ∀ j, s.job = some j → ¬ s.sysRoom j := by
  cases hj : s.job with
  | none => simp [State.sysStep, hj]
  | some j =>
    by_cases hr : s.sysRoom j
    · simp [State.sysStep_of_room hj hr, hr]
    · simp [State.sysStep_of_no_room hj hr, hr]

theorem State.roomStep_eq_none {s : State} :
    s.roomStep = none ↔ ∀ q, s.portA.cause = .room q → ¬ ((s.entriesOf q).length < 32 ∧ s.pool ≠ []) := by
  rw [State.roomStep]
  cases s.portA.cause <;> simp

theorem State.recordStep_eq_none {s : State} :
    s.recordStep = none ↔ ∀ j, s.job = some j → j.work.isRecord = true → j.ended = false := by
  cases hj : s.job with
  | none => simp [State.recordStep, hj]
  | some j =>
    cases hw : j.work with
    | record r k =>
      cases hf : j.firstFailed with
      | none => simp [State.recordStep, hj, hw, hf, Work.isRecord]
      | some a =>
        have hretry : ∀ (x y : State), (if k < 3 then some x else some y) ≠ none := fun x y => by split <;> exact nofun
        simp [State.recordStep, hj, hw, hf, Work.isRecord, hretry]
    | keySector base len => simp [State.recordStep, hj, hw, Work.isRecord]
    | eraseAll => simp [State.recordStep, hj, hw, Work.isRecord]

theorem State.recoverEraseStep_eq_none {s : State} :
    s.recoverEraseStep = none ↔ (s.dir.running = some .recoverErase → ∀ j, s.job = some j → j.ended = false) := by
  by_cases hr : s.dir.running = some .recoverErase
  · cases hj : s.job with
    | none => simp [State.recoverEraseStep, hr, hj]
    | some j => cases hf : j.firstFailed <;> simp [State.recoverEraseStep, hr, hj, hf]
  · simp only [hr, false_imp_iff, iff_true]
    unfold State.recoverEraseStep
    split
    · next h _ => exact absurd h hr
    · rfl

theorem State.sealProgramStep_eq_none {s : State} :
    s.sealProgramStep = none ↔ ∀ len r j, s.dir.running = some (.sealProgram len r) → s.job = some j → ¬ (j.ended = true ∧ j.firstFailed = none) := by
  unfold State.sealProgramStep
  split
  · next len r j hr hj => simp [hr, hj]
  · next h => exact iff_of_true rfl fun len r j hr hj => absurd hj (h len r j hr)

theorem State.sealFailedStep_eq_none {s : State} :
    s.sealFailedStep = none ↔ ∀ len r j a, s.dir.running = some (.sealProgram len r) → s.job = some j → j.firstFailed = some a → j.ended = false := by
  unfold State.sealFailedStep
  split
  · next len r j hr hj =>
    cases hf : j.firstFailed with
    | none =>
      refine iff_of_true rfl fun _ _ k a _ hk ha => ?_
      cases hj.symm.trans hk
      rw [hf] at ha
      nomatch ha
    | some a =>
      refine ⟨fun h _ _ k b _ hk _ => ?_, fun h => ?_⟩
      · cases hj.symm.trans hk
        simpa using h
      · simp [h len r j a hr hj hf]
  · next h => exact iff_of_true rfl fun len r j a hr hj => absurd hj (h len r j hr)

theorem State.sealFenceStep_eq_none {s : State} :
    s.sealFenceStep = none ↔ (s.dir.running = some .sealFence → s.fenceClear [.set] = false) := by
  by_cases hr : s.dir.running = some .sealFence
  · cases hb : checkBundle s.key.staging <;> simp [State.sealFenceStep, hr, hb]
  · simp only [hr, false_imp_iff, iff_true]
    unfold State.sealFenceStep
    split
    · next h => exact absurd h hr
    · rfl

theorem State.directiveStep_of_running {s : State} {ph : Phase} (h : s.dir.running = some ph) : s.directiveStep = none := by
  rw [State.directiveStep, h]

/-- The state with another directive queue. -/
def State.withQueue (s : State) (l : List Nat) : State := s.onDir fun x => { x with queue := l }

/-- While a directive runs, the directive queue has no part in what is due. -/
theorem State.due_withQueue {s : State} {ph : Phase} (hr : s.dir.running = some ph) (l : List Nat) :
    (s.withQueue l).due = none ↔ s.due = none := by
  have hr' : (s.withQueue l).dir.running = some ph := hr
  have hclear (qs : List QueueId) : (s.withQueue l).fenceClear qs = s.fenceClear qs := rfl
  have huni : (s.withQueue l).uni = s.uni := rfl
  simp only [State.due_none, moments, List.forall_mem_cons, State.awaitingStep_eq_none, State.sysStep_eq_none, State.roomStep_eq_none,
    State.recordStep_eq_none, State.recoverEraseStep_eq_none, State.sealProgramStep_eq_none, State.sealFailedStep_eq_none]
  refine and_congr Iff.rfl (and_congr Iff.rfl (and_congr Iff.rfl (and_congr Iff.rfl (and_congr Iff.rfl (and_congr Iff.rfl
    (and_congr Iff.rfl ?_))))))
  simp only [State.sealFenceStep_eq_none, State.setMapFenceStep, State.closeFenceStep, State.recoverFenceStep,
    State.serviceCloseFenceStep, State.flipDrainStep, State.syncStep, State.flipSwitchStep, State.directiveStep, hr, hr', hclear, huni]
  cases ph <;> simp

/-- After the last directive has gone, what was not due is not due. -/
theorem State.due_of_gone {s t : State} (hd : s.due = none) (hr : t.dir.running = none) (hq : t.dir.queue = []) (hjob : t.job = s.job)
    (hstaging : t.key.staging = s.key.staging) (hqueues : t.queues = s.queues) (hpool : t.pool = s.pool)
    (hwait : t.portA.awaiting = s.portA.awaiting) (hcause : t.portA.cause = s.portA.cause) : t.due = none := by
  have hentries (q : QueueId) : t.entriesOf q = s.entriesOf q := by rw [State.entriesOf, hqueues, State.entriesOf]
  simp only [State.due_none, moments, List.forall_mem_cons, State.awaitingStep_eq_none, State.sysStep_eq_none, State.roomStep_eq_none,
    State.recordStep_eq_none] at hd ⊢
  obtain ⟨hawait, hsys, hroom, hrec, -⟩ := hd
  refine ⟨?_, ?_, ?_, ?_, ?_⟩
  · rwa [hwait, hpool]
  · rw [hjob]
    intro j hj
    have := hsys j hj
    rwa [State.sysRoom, hentries, hpool, hstaging]
  · rw [hcause]
    intro q hc
    rw [hentries, hpool]
    exact hroom q hc
  · rwa [hjob]
  · rw [State.directiveStep_none hq]
    simp [State.recoverEraseStep_eq_none, State.sealProgramStep_eq_none, State.sealFailedStep_eq_none, State.sealFenceStep_eq_none,
      State.setMapFenceStep, State.closeFenceStep, State.recoverFenceStep, State.serviceCloseFenceStep, State.flipDrainStep,
      State.syncStep, State.flipSwitchStep, hr]

/-! ### Joining the queue (R179) -/

/-- What the taking of a queued directive does: its slot, the queue, and the count it joins (R30, R144). -/
theorem State.enqueue_setSlot_written (s : State) {n : Nat} (low : 1 ≤ n) (high : n ≤ s.dir.slots.length) (img : Mem) (x : Directive) :
    (s.setSlot n (Slot.written img)).enqueue n x =
      { s with
        dir := { s.dir with
          slots := s.dir.slots.set (n - 1) (Slot.taken img .pending none [])
          queue := s.dir.queue ++ [n]
          flipCount := if x = .flip then s.dir.flipCount + 1 else s.dir.flipCount }
        key := if x = .seals then { s.key with sealCount := s.key.sealCount + 1, stageTimer := .stopped } else s.key } := by
  rw [State.enqueue, State.onSlot_setSlot s low high]
  cases x <;> simp [State.count, State.judgeStage, State.onKey, State.onDir, State.setSlot, Slot.written, Slot.taken]

theorem State.takeDirective_queued {s : State} {n : Nat} {x : Directive} (h : x.immediate = false) (img : Mem) (len : Nat) :
    s.takeDirective n x img len = (s.enqueue n x).finish := by
  cases x with
  | ack | setEventMask | cancel | keyHide => nomatch h
  | opens | closes | recover | setMap | setQueueLevels | discard | sync | setArbiter | setPass | flip | setKeyTimers | seals
    | setServiceCode | serviceOpen | serviceClose => rfl

/-- A queued directive joins the queue while another runs. -/
theorem directiveJoins {a b : Addr} {data d : List Byte} {s : State} {l : Lifecycle} {n : Nat} {x : Directive} {ph : Phase}
    {w : Option Work} (h : s.Reaches a data b d l n)
    (hx : s.recognize l (b.toNat % 256) (covered b.toNat d) (slotImage b d) = .ok x) (hq : x.immediate = false) (hs : s.Steady ph w) :
    Completes (closedWrite .a .program a data) s fun t =>
      t.dir.queue = s.dir.queue ++ [n] ∧
      t.dir.slots = s.dir.slots.set (n - 1) (Slot.taken (slotImage b d) .pending none []) ∧
      t.dir.running = some ph ∧ t.life = s.life ∧ t.flash = s.flash ∧
      t.dir.flipCount = (if x = .flip then s.dir.flipCount + 1 else s.dir.flipCount) ∧
      t.key.sealCount = (if x = .seals then s.key.sealCount + 1 else s.key.sealCount) ∧
      (x = .seals → t.key.stageTimer = .stopped) := by
  have hjoin := (s.onPort .a PortState.taken).enqueue_setSlot_written h.low h.high (slotImage b d) x
  generalize hu : ((s.onPort .a PortState.taken).setSlot n (Slot.written (slotImage b d))).enqueue n x = u at hjoin
  have hsteady : u.Steady ph w := by
    rw [hjoin]
    exact ⟨hs.running, hs.stays, hs.work, hs.job⟩
  have hmade := hsteady.finish
  refine ⟨u.finish, ?_, ?_⟩
  · rw [h.exec_of_recognized hx, State.takeDirective_queued hq, hu]
  · dsimp only
    rw [hmade.queue, hmade.slots, hmade.running, hmade.life, hmade.flash, hmade.flipCount, hmade.key, hjoin]
    refine ⟨rfl, rfl, hs.running, rfl, rfl, rfl, ?_, fun hseals => ?_⟩
    · show (if x = .seals then _ else _ : KeyUnit).sealCount = _
      split <;> rfl
    · show (if x = .seals then _ else _ : KeyUnit).stageTimer = _
      rw [if_pos hseals]

end Sys2Proof.Machine
end

-- Proofs of the family 'other': CANCEL.
section
/-! PROOFS. CANCEL (R184). -/

namespace Sys2Proof.Machine

/-! ### A slot that is cancelled (R184, R182) -/

/-- A slot's content after its directive has been cancelled. -/
def Slot.cancelled (x : Slot) : Slot := { x with state := .refused, result := some .cancelled, data := [] }

section
variable {s : State} {n k : Nat}

/-- A PENDING slot is cancelled: its result, the queue, the event, and the count that its directive leaves. -/
theorem State.cancelPending_eq (s : State) (low : 1 ≤ k) (high : k ≤ s.dir.slots.length) :
    s.cancelPending k =
      { s with
        key := if (s.slot k).directive = some .seals then s.key.unsealed else s.key
        dir := { s.dir with
          slots := s.dir.slots.set (k - 1) (s.slot k).cancelled
          queue := s.dir.queue.filter fun m => decide (m ≠ k)
          events := s.dir.events ||| 0x0002#13
          flipCount := if (s.slot k).directive = some .flip then s.dir.flipCount - 1 else s.dir.flipCount } } := by
  have hcancelled : ((s.onDir fun x => { x with queue := x.queue.filter fun m => decide (m ≠ k) }).finishSlot k .cancelled []).raise
      .directiveRefused =
      { s with dir := { s.dir with
          slots := s.dir.slots.set (k - 1) (s.slot k).cancelled
          queue := s.dir.queue.filter fun m => decide (m ≠ k)
          events := s.dir.events ||| 0x0002#13 } } := rfl
  have hslot : State.slot { s with dir := { s.dir with
          slots := s.dir.slots.set (k - 1) (s.slot k).cancelled
          queue := s.dir.queue.filter fun m => decide (m ≠ k)
          events := s.dir.events ||| 0x0002#13 } } k = (s.slot k).cancelled :=
    (s.slot_setSlot k low high (s.slot k).cancelled).trans (if_pos rfl)
  rw [State.cancelPending, hcancelled]
  by_cases hflip : (s.slot k).directive = some .flip
  · rw [State.uncount_flip (by rw [hslot]; exact hflip), hflip]
    rfl
  · by_cases hseals : (s.slot k).directive = some .seals
    · rw [State.uncount_seals (by rw [hslot]; exact hseals), hseals]
      rfl
    · rw [State.uncount_other (by rw [hslot]; exact hflip) (by rw [hslot]; exact hseals), if_neg hflip, if_neg hseals]

theorem State.Heads.headSlot (h : s.Heads n) : s.headSlot = n := by rw [State.headSlot, List.headD_eq_head?_getD, h.queue]; rfl

/-- R182: the end of the directive at the head, with the count that it leaves. -/
theorem State.Heads.endDirective_counted (h : s.Heads n) (c : ResultCode) (r : List Byte) :
    s.endDirective c r =
      { s with
        key := if (s.slot n).directive = some .seals then s.key.unsealed else s.key
        dir := { s.dir.ended n c r with
          flipCount := if (s.slot n).directive = some .flip then s.dir.flipCount - 1 else s.dir.flipCount } } := by
  by_cases hflip : (s.slot n).directive = some .flip
  · rw [h.endDirective_flip hflip, hflip]
    rfl
  · by_cases hseals : (s.slot n).directive = some .seals
    · rw [h.endDirective_seals hseals, hseals]
      rfl
    · rw [h.endDirective_other hflip hseals, if_neg hflip, if_neg hseals]
      rfl

/-- The slot that CANCEL itself stands in, and another. -/
theorem State.slot_setSlot_ne (hk : 1 ≤ k) (hkhigh : k ≤ s.dir.slots.length) (hn : 1 ≤ n) (hne : k ≠ n) (x : Slot) :
    (s.setSlot n x).slot k = s.slot k :=
  (s.slot_setSlot n hk hkhigh x).trans (if_neg (by omega))

end

/-! ### The tests and the outcomes of CANCEL (R184) -/

section
variable {s : State} {n : Nat} {img : Mem} {len : Nat}

theorem State.takeCancel_of_bad (h : len ≠ 1 ∨ (param img 0).toNat < 1 ∨ 15 < (param img 0).toNat) :
    s.takeCancel n img len = s.finishSlot n .badParameter [0] := by
  rw [State.takeCancel]
  exact if_pos h

section
variable (h1 : len = 1) (h2 : 1 ≤ (param img 0).toNat) (h3 : (param img 0).toNat ≤ 15)
include h1 h2 h3

theorem takeCancel_checked : ¬ (len ≠ 1 ∨ (param img 0).toNat < 1 ∨ 15 < (param img 0).toNat) := by omega

theorem State.takeCancel_of_open (hp : (s.slot (param img 0).toNat).state ≠ .pending) (hr : (s.slot (param img 0).toNat).state ≠ .running) :
    s.takeCancel n img len = s.finishSlot n .badParameter [byte (param img 0).toNat] := by
  rw [State.takeCancel]
  refine (if_neg (takeCancel_checked h1 h2 h3)).trans ?_
  cases hstate : (s.slot (param img 0).toNat).state with
  | pending => exact absurd hstate hp
  | running => exact absurd hstate hr
  | empty | done | refused => rfl

theorem State.takeCancel_of_pending (hp : (s.slot (param img 0).toNat).state = .pending) :
    s.takeCancel n img len = (s.cancelPending (param img 0).toNat).finishSlot n .done [byte (param img 0).toNat] := by
  rw [State.takeCancel]
  refine (if_neg (takeCancel_checked h1 h2 h3)).trans ?_
  rw [hp]

theorem State.takeCancel_of_running {ph : Phase} (hp : (s.slot (param img 0).toNat).state = .running) (hr : s.dir.running = some ph) :
    s.takeCancel n img len =
      if ph.cancellable then s.cancelRunning.finishSlot n .done [byte (param img 0).toNat]
      else s.finishSlot n .notCancellable [byte (param img 0).toNat] := by
  rw [State.takeCancel]
  refine (if_neg (takeCancel_checked h1 h2 h3)).trans ?_
  rw [hp, hr]

end

end

/-! ### CANCEL in one event -/

section
variable {a b : Addr} {data d : List Byte} {s : State} {l : Lifecycle} {n : Nat} {ph : Phase}

/-- The state in which CANCEL is carried out: its own program has just been taken into slot `n`. -/
def State.cancelling (s : State) (n : Nat) (img : Mem) : State := (s.onPort .a PortState.taken).setSlot n (Slot.written img)

theorem State.Reaches.exec_cancel (h : s.Reaches a data b d l n)
    (hx : s.recognize l (b.toNat % 256) (covered b.toNat d) (slotImage b d) = .ok .cancel) :
    exec (closedWrite .a .program a data) s = .next
      ((s.cancelling n (slotImage b d)).takeCancel n (slotImage b d) (Mem.get (slotImage b d) 4).toNat).finish :=
  h.exec_of_recognized hx

/-- A slot that is PENDING or RUNNING is not the one that CANCEL's program was taken into. -/
theorem State.Reaches.ne_of_held (h : s.Reaches a data b d l n) {k : Nat} (hk : (s.slot k).state = .pending ∨ (s.slot k).state = .running) :
    k ≠ n := by
  rintro rfl
  exact hk.elim h.open_.1 h.open_.2

theorem State.Reaches.slot_cancelling (h : s.Reaches a data b d l n) {k : Nat} (hk : 1 ≤ k) (hkhigh : k ≤ s.dir.slots.length)
    (img : Mem) (hne : k ≠ n) : (s.cancelling n img).slot k = s.slot k :=
  State.slot_setSlot_ne (s := s.onPort .a PortState.taken) hk hkhigh h.low hne _

theorem State.Reaches.slot_cancelling_self (h : s.Reaches a data b d l n) (img : Mem) : (s.cancelling n img).slot n = Slot.written img :=
  ((s.onPort .a PortState.taken).slot_setSlot n h.low h.high _).trans (if_pos rfl)

/-- CANCEL's own result, in the slot it stands in. -/
theorem State.Reaches.finishSlot_cancelling (h : s.Reaches a data b d l n) (img : Mem) (c : ResultCode) (r : List Byte) :
    (s.cancelling n img).finishSlot n c r =
      { s with
        portA := s.portA.taken
        dir := { s.dir with
          slots := s.dir.slots.set (n - 1) (Slot.taken img (if c = .done then .done else .refused) (some c) r) } } :=
  (s.onPort .a PortState.taken).finishSlot_setSlot_written h.low h.high img c r

theorem List.set_set_ne {α : Type} (l : List α) {i j : Nat} (h : i ≠ j) (x y z : α) :
    ((l.set i x).set j y).set i z = (l.set i z).set j y := by
  rw [List.set_comm _ _ h.symm, List.set_set]

end

/-- The state after CANCEL in slot `n` has cancelled the PENDING slot `k`. -/
def State.withoutPending (s : State) (n k : Nat) (img : Mem) : State :=
  { s with
    portA := s.portA.taken
    key := if (s.slot k).directive = some .seals then s.key.unsealed else s.key
    dir := { s.dir with
      slots := (s.dir.slots.set (n - 1) (Slot.taken img .done (some .done) [byte k])).set (k - 1) (s.slot k).cancelled
      queue := s.dir.queue.filter fun m => decide (m ≠ k)
      events := s.dir.events ||| 0x0002#13
      flipCount := if (s.slot k).directive = some .flip then s.dir.flipCount - 1 else s.dir.flipCount } }

theorem State.finishSlot_of_written {s : State} {n : Nat} {img : Mem} (h : s.slot n = Slot.written img) (c : ResultCode) (r : List Byte) :
    s.finishSlot n c r = s.setSlot n (Slot.taken img (if c = .done then .done else .refused) (some c) r) := by
  rw [State.finishSlot, State.onSlot, h]
  rfl

theorem State.Reaches.finishSlot_cancelPending {a b : Addr} {data d : List Byte} {s : State} {l : Lifecycle} {n k : Nat}
    (h : s.Reaches a data b d l n) (hk : 1 ≤ k) (hkhigh : k ≤ s.dir.slots.length) (hne : k ≠ n) (img : Mem) :
    ((s.cancelling n img).cancelPending k).finishSlot n .done [byte k] = s.withoutPending n k img := by
  have hlength : (s.cancelling n img).dir.slots.length = s.dir.slots.length := List.length_set
  have hn := h.low
  have hself : ((s.cancelling n img).cancelPending k).slot n = Slot.written img :=
    (State.slot_cancelPending_ne _ hn (by rw [hlength]; exact h.high) (by omega)).trans (h.slot_cancelling_self img)
  have hother := h.slot_cancelling hk hkhigh img hne
  rw [State.finishSlot_of_written hself, State.cancelPending_eq _ hk (by rw [hlength]; exact hkhigh), hother, if_pos rfl]
  have hslots : (((s.dir.slots.set (n - 1) (Slot.written img)).set (k - 1) (s.slot k).cancelled).set (n - 1)
      (Slot.taken img .done (some .done) [byte k])) =
      (s.dir.slots.set (n - 1) (Slot.taken img .done (some .done) [byte k])).set (k - 1) (s.slot k).cancelled :=
    List.set_set_ne _ (by omega) ..
  rw [State.withoutPending, ← hslots]
  rfl

theorem State.due_withoutPending {s : State} {ph : Phase} (hdue : s.due = none) (hr : s.dir.running = some ph) (n k : Nat) (img : Mem) :
    (s.withoutPending n k img).due = none :=
  SameDue.due (s := s.withQueue (s.dir.queue.filter fun m => decide (m ≠ k)))
    ⟨rfl, rfl, rfl, fun _ => rfl, rfl, rfl, rfl, id⟩ ((State.due_withQueue hr _).2 hdue)
    (State.directiveStep_of_running (s := s.withoutPending n k img) hr)

/-- CANCEL while a directive runs (R184). -/
theorem cancelEnds {a b : Addr} {data d : List Byte} {s : State} {l : Lifecycle} {n k : Nat} {ph : Phase} (h : s.Reaches a data b d l n)
    (hx : s.recognize l (b.toNat % 256) (covered b.toNat d) (slotImage b d) = .ok .cancel) (hreads : s.NoReads) (hdue : s.due = none)
    (hr : s.dir.running = some ph) (hk : k = (param (slotImage b d) 0).toNat) :
    let refused := fun (c : ResultCode) (r : List Byte) =>
      exec (closedWrite .a .program a data) s = .next
        { s with
          portA := s.portA.taken
          dir := { s.dir with slots := s.dir.slots.set (n - 1) (Slot.taken (slotImage b d) .refused (some c) r) } }
    (Mem.get (slotImage b d) 4 ≠ 1 ∨ k < 1 ∨ 15 < k → refused .badParameter [0]) ∧
    (Mem.get (slotImage b d) 4 = 1 → 1 ≤ k → k ≤ s.dir.slots.length → k ≤ 15 →
      ((s.slot k).state ≠ .pending → (s.slot k).state ≠ .running → refused .badParameter [byte k]) ∧
      ((s.slot k).state = .running → ph.cancellable = false → refused .notCancellable [byte k]) ∧
      ((s.slot k).state = .pending →
        exec (closedWrite .a .program a data) s = .next
          { s with
            portA := s.portA.taken
            key := if (s.slot k).directive = some .seals then s.key.unsealed else s.key
            dir := { s.dir with
              slots := (s.dir.slots.set (n - 1) (Slot.taken (slotImage b d) .done (some .done) [byte k])).set (k - 1)
                { s.slot k with state := .refused, result := some .cancelled, data := [] }
              queue := s.dir.queue.filter fun m => decide (m ≠ k)
              events := s.dir.events ||| 0x0002#13
              flipCount := if (s.slot k).directive = some .flip then s.dir.flipCount - 1 else s.dir.flipCount } })) := by
  subst hk
  intro refused
  have hlen : (Mem.get (slotImage b d) 4).toNat = 1 ↔ Mem.get (slotImage b d) 4 = 1 := BitVec.toNat_inj (y := 1)
  have hidle : ∀ x : DirectiveUnit, x.running = s.dir.running → x.queue = s.dir.queue →
      State.finish { s with portA := s.portA.taken, dir := x } = { s with portA := s.portA.taken, dir := x } := fun x hxr hxq => by
    refine State.finish_of_not_due (SameDue.due (s := s) ?_ hdue (State.directiveStep_of_running (hxr.trans hr))) (hreads.of_idle rfl rfl)
    exact ⟨hxr, hxq, rfl, fun _ => rfl, rfl, rfl, rfl, id⟩
  have hrefused {c : ResultCode} {r : List Byte} (hc : c ≠ .done)
      (ht : (s.cancelling n (slotImage b d)).takeCancel n (slotImage b d) (Mem.get (slotImage b d) 4).toNat =
        (s.cancelling n (slotImage b d)).finishSlot n c r) : refused c r := by
    show exec (closedWrite .a .program a data) s = _
    rw [h.exec_cancel hx, ht, h.finishSlot_cancelling, if_neg hc]
    exact congrArg _ (hidle _ rfl rfl)
  refine ⟨fun hbad => hrefused nofun (State.takeCancel_of_bad ?_), fun h1 h2 hhigh h3 => ⟨fun hp hrun => hrefused nofun ?_,
    fun hrun hph => hrefused nofun ?_, fun hp => ?_⟩⟩
  · rwa [ne_eq, hlen]
  · by_cases hself : (param (slotImage b d) 0).toNat = n
    · have hslot := h.slot_cancelling_self (slotImage b d)
      rw [← hself] at hslot
      refine State.takeCancel_of_open (hlen.2 h1) h2 h3 ?_ ?_
      · rw [hself] at hslot ⊢
        rw [hslot]
        exact nofun
      · rw [hself] at hslot ⊢
        rw [hslot]
        exact nofun
    · have hslot := h.slot_cancelling h2 hhigh (slotImage b d) hself
      exact State.takeCancel_of_open (hlen.2 h1) h2 h3 (hslot ▸ hp) (hslot ▸ hrun)
  · have hslot := h.slot_cancelling h2 hhigh (slotImage b d) (h.ne_of_held (Or.inr hrun))
    rw [State.takeCancel_of_running (s := s.cancelling n (slotImage b d)) (hlen.2 h1) h2 h3 (hslot ▸ hrun) (ph := ph) hr, hph]
    rfl
  · have hne := h.ne_of_held (Or.inl hp)
    have hslot := h.slot_cancelling h2 hhigh (slotImage b d) hne
    rw [h.exec_cancel hx, State.takeCancel_of_pending (s := s.cancelling n (slotImage b d)) (hlen.2 h1) h2 h3 (hslot ▸ hp),
      h.finishSlot_cancelPending h2 hhigh hne]
    exact congrArg _ (State.finish_of_not_due (State.due_withoutPending hdue hr n _ _) (hreads.of_idle rfl rfl))

/-- The Directive Unit after CANCEL in slot `n` has cancelled the directive of slot `k`, which ran with nothing behind it. -/
def State.dirWithoutRunning (s : State) (n k : Nat) (img : Mem) : DirectiveUnit :=
  { s.dir with
    slots := (s.dir.slots.set (n - 1) (Slot.taken img .done (some .done) [byte k])).set (k - 1) (s.slot k).cancelled
    queue := []
    running := none
    events := s.dir.events ||| 0x0002#13
    flipCount := if (s.slot k).directive = some .flip then s.dir.flipCount - 1 else s.dir.flipCount }

theorem State.claim_dropRead (s : State) (c : Claimant) : (s.dropRead c).engine.claims.get c = none := PerClaimant.get_put ..

theorem State.read_dropRead (s : State) (c : Claimant) (x : PageRead) (h : (s.dropRead c).engine.read = some x) (hc : x.claimant = c) :
    x.discard = true := by
  obtain ⟨y, -, rfl⟩ := Option.map_eq_some_iff.1 h
  by_cases hy : y.claimant = c
  · rw [if_pos hy]
  · rw [if_neg hy] at hc
    exact absurd hc hy

/-- R96, R182, R184: the running directive reads no more and ends, and CANCEL's own result is written. -/
theorem State.Reaches.finishSlot_cancelRunning {a b : Addr} {data d : List Byte} {s : State} {l : Lifecycle} {n k : Nat}
    (h : s.Reaches a data b d l n) (hk : 1 ≤ k) (hkhigh : k ≤ s.dir.slots.length) (hne : k ≠ n) (hq : s.dir.queue = [k]) (img : Mem) :
    (s.cancelling n img).cancelRunning.finishSlot n .done [byte k] =
      { s.dropRead .sysRead with
        portA := s.portA.taken
        key := if (s.slot k).directive = some .seals then s.key.unsealed else s.key
        dir := s.dirWithoutRunning n k img } := by
  have hlength : (s.cancelling n img).dir.slots.length = s.dir.slots.length := List.length_set
  have hn := h.low
  have hheads : ((s.cancelling n img).dropRead .sysRead).Heads k :=
    ⟨congrArg List.head? hq, hk, hlength.symm ▸ hkhigh⟩
  have hslot : ((s.cancelling n img).dropRead .sysRead).slot k = s.slot k := h.slot_cancelling hk hkhigh img hne
  have hself : (s.cancelling n img).cancelRunning.slot n = Slot.written img :=
    (State.slot_endDirective_ne .cancelled [] hn (by exact hlength.symm ▸ h.high) (hheads.headSlot.symm ▸ by omega)).trans
      (h.slot_cancelling_self img)
  rw [State.finishSlot_of_written hself, State.cancelRunning, hheads.endDirective_counted, hslot, if_pos rfl]
  have hslots : (((s.dir.slots.set (n - 1) (Slot.written img)).set (k - 1) (s.slot k).cancelled).set (n - 1)
      (Slot.taken img .done (some .done) [byte k])) =
      (s.dir.slots.set (n - 1) (Slot.taken img .done (some .done) [byte k])).set (k - 1) (s.slot k).cancelled :=
    List.set_set_ne _ (by omega) ..
  have hcancelled : { ((s.cancelling n img).dropRead .sysRead).slot k with state := .refused, result := some .cancelled, data := [] } =
      (s.slot k).cancelled := by
    rw [hslot]
    rfl
  have htail : s.dir.queue.tail = [] := by rw [hq]; rfl
  rw [State.dirWithoutRunning, ← hslots, ← hcancelled, ← htail]
  rfl

/-- CANCEL of the directive that runs, with nothing behind it. -/
theorem cancelEndsRunning {a b : Addr} {data d : List Byte} {s : State} {l : Lifecycle} {n k : Nat} {ph : Phase}
    (h : s.Reaches a data b d l n)
    (hx : s.recognize l (b.toNat % 256) (covered b.toNat d) (slotImage b d) = .ok .cancel) (hreads : s.NoReads) (hdue : s.due = none)
    (hr : s.dir.running = some ph) (hk : k = (param (slotImage b d) 0).toNat) (h1 : Mem.get (slotImage b d) 4 = 1) (h2 : 1 ≤ k)
    (hhigh : k ≤ s.dir.slots.length) (h3 : k ≤ 15) (hrun : (s.slot k).state = .running) (hph : ph.cancellable = true)
    (hq : s.dir.queue = [k]) :
    exec (closedWrite .a .program a data) s = .next
      { s.dropRead .sysRead with
        portA := s.portA.taken
        key := if (s.slot k).directive = some .seals then s.key.unsealed else s.key
        dir := s.dirWithoutRunning n k (slotImage b d) } := by
  subst hk
  have hlen : (Mem.get (slotImage b d) 4).toNat = 1 ↔ Mem.get (slotImage b d) 4 = 1 := BitVec.toNat_inj (y := 1)
  have hne := h.ne_of_held (Or.inr hrun)
  have hslot := h.slot_cancelling h2 hhigh (slotImage b d) hne
  rw [h.exec_cancel hx, State.takeCancel_of_running (s := s.cancelling n (slotImage b d)) (hlen.2 h1) h2 h3 (hslot ▸ hrun) (ph := ph) hr,
    if_pos hph, h.finishSlot_cancelRunning h2 hhigh hne hq]
  refine congrArg _ (State.finish_of_not_due (State.due_of_gone hdue rfl rfl rfl ?_ rfl rfl rfl rfl) (hreads.of_idle rfl rfl))
  show (if (s.slot _).directive = some .seals then s.key.unsealed else s.key : KeyUnit).staging = _
  split <;> rfl

/-- Settles O24: a queued directive joins the queue; CANCEL is refused, or ends a PENDING or RUNNING directive. -/
theorem directiveJoinsQueue : Obligations.DirectiveJoinsQueue := by
  refine ⟨fun a b data d s l n x ph w h hx hq hs => directiveJoins h hx hq hs, fun a b data d s l n k ph h hx hreads hdue hr hk => ?_⟩
  intro refused
  obtain ⟨hbad, hgood⟩ := cancelEnds h hx hreads hdue hr hk
  refine ⟨hbad, fun h1 h2 hhigh h3 => ?_⟩
  obtain ⟨hopen, hheld, hpending⟩ := hgood h1 h2 hhigh h3
  exact ⟨hopen, hheld, hpending, fun hrun hph hq => ⟨_, cancelEndsRunning h hx hreads hdue hr hk h1 h2 hhigh h3 hrun hph hq, rfl, rfl,
    s.claim_dropRead .sysRead, s.read_dropRead .sysRead, rfl, rfl, rfl, rfl, rfl, rfl, rfl⟩⟩

end Sys2Proof.Machine
end

-- Proofs of the family 'other': the delivery of a read's bytes.
section
/-! PROOFS. The delivery of a read's bytes (R24, R52, R102), and reads that are answered without the flash (R25, R99, R101). -/

namespace Sys2Proof.Machine

/-! ### A read in one event (R52) -/

section
variable {s : State} {p r : Port}

/-- With no read on the other port only this port's bytes are delivered. -/
theorem State.runReads_of_other (hne : p ≠ r) (h : s.reading r = none) : s.runReads = s.runPort p := by
  cases p with
  | t =>
    cases r with
    | t => exact absurd rfl hne
    | a =>
      have hA : (s.runPort .t).reading .a = none := (State.reading_of_port (State.port_runPort_ne (p := .t) (r := .a) s (by decide))).trans h
      rw [State.runReads, State.runPort_of_none hA]
  | a =>
    cases r with
    | a => exact absurd rfl hne
    | t => rw [State.runReads, State.runPort_of_none h]

/-- The state in which a read has been opened at an address and asked for `n` bytes (R52). -/
def State.readOpened (s : State) (p : Port) (a : Addr) (n : Nat) : State :=
  s.onPort p fun x => { x with link := .reading (Reading.open a n), returned := [] }

theorem State.reading_readOpened (s : State) (p : Port) (a : Addr) (n : Nat) :
    (s.readOpened p a n).reading p = some (Reading.open a n) := by
  cases p <;> rfl

theorem State.readOpened_apart (s : State) (p : Port) (a : Addr) (n : Nat) : Apart s (s.readOpened p a n) :=
  Apart.onPort s p _ fun _ => rfl

theorem exec_read (hne : p ≠ r) (hlink : (s.port p).link = .idle) (hr : s.reading r = none) (a : Addr) (n : Nat) :
    exec (.read p (some a) n) s = .next (deliver n p (s.readOpened p a n)) := by
  have hother : (s.readOpened p a n).reading r = none :=
    (State.reading_of_port (State.port_onPort_ne s _ (Ne.symm hne))).trans hr
  change execRead p (some a) n s = _
  have hopen : s.clockRead p (some a) n = s.readOpened p a n := by simp only [State.clockRead, hlink]; rfl
  rw [execRead, hopen]
  rw [State.runReads_of_other hne hother, State.runPort, State.reading_readOpened]
  rfl

end

/-! ### The steps of one byte's delivery -/

section
variable {s : State} {p : Port} {rd : Reading} {seg : Segment} {l : Lifecycle}

/-- A read that has formed its segment delivers from it. -/
theorem State.deliverByte_of_segment (hr : s.reading p = some rd) (hseg : rd.seg = some seg) (hheld : seg.source ≠ .held)
    (hl : s.life.lifecycle = some l) (hw : rd.want ≠ 0) : s.deliverByte p = (s.reachPiece p).handByte p := by
  have hreach : s.reachSegment p rd l = s := by
    simp only [State.reachSegment, hseg]
    exact if_neg fun h => hheld h.1
  simp only [State.deliverByte, hr, hl, hw, if_false, hreach]

theorem State.reachPiece_of_fresh (hr : s.reading p = some rd) (hseg : rd.seg = some seg) (hp : rd.piece = .fresh) :
    s.reachPiece p = s.preparePiece p rd seg := by
  simp only [State.reachPiece, hr, hseg, hp, if_true]

theorem State.reachPiece_of_held (hr : s.reading p = some rd) (hp : rd.piece ≠ .fresh) : s.reachPiece p = s := by
  cases hseg : rd.seg with
  | none => simp only [State.reachPiece, hr, hseg]
  | some seg => simp only [State.reachPiece, hr, hseg, hp, if_false]

/-- A read that has no segment forms one and delivers from it. -/
theorem State.deliverByte_of_formed {u : State} {rd' : Reading} (hr : s.reading p = some rd) (hnone : rd.seg = none)
    (hl : s.life.lifecycle = some l) (hw : rd.want ≠ 0) (hform : s.formSegment p rd l = u) (hr' : u.reading p = some rd')
    (hseg : rd'.seg = some seg) (hheld : seg.source ≠ .held) (hl' : u.life.lifecycle = some l) (hw' : rd'.want ≠ 0) :
    s.deliverByte p = u.deliverByte p := by
  rw [State.deliverByte_of_segment hr' hseg hheld hl' hw']
  simp only [State.deliverByte, hr, hl, hw, if_false, State.reachSegment, hnone, hform]

/-- A read whose piece is fresh prepares it and delivers from it. -/
theorem State.deliverByte_of_prepared {u : State} {rd' : Reading} (hr : s.reading p = some rd) (hseg : rd.seg = some seg)
    (hheld : seg.source ≠ .held) (hl : s.life.lifecycle = some l) (hw : rd.want ≠ 0) (hp : rd.piece = .fresh)
    (hprep : s.preparePiece p rd seg = u) (hr' : u.reading p = some rd') (hseg' : rd'.seg = some seg) (hp' : rd'.piece ≠ .fresh)
    (hl' : u.life.lifecycle = some l) (hw' : rd'.want ≠ 0) : s.deliverByte p = u.deliverByte p := by
  rw [State.deliverByte_of_segment hr hseg hheld hl hw, State.deliverByte_of_segment hr' hseg' hheld hl' hw',
    State.reachPiece_of_fresh hr hseg hp, hprep, State.reachPiece_of_held hr' hp']

theorem deliver_succ_congr {u : State} {n : Nat} (h : s.deliverByte p = u.deliverByte p) (hn : 0 < n) : deliver n p s = deliver n p u := by
  cases n with
  | zero => exact absurd hn (Nat.lt_irrefl 0)
  | succ n => rw [deliver, deliver, h]

/-- A piece that is not ready holds the read (R52). -/
theorem State.deliverByte_of_waiting (hr : s.reading p = some rd) (hseg : rd.seg = some seg) (hsrc : seg.source = .flash)
    (hl : s.life.lifecycle = some l) (hw : rd.want ≠ 0) (hp : rd.piece ≠ .fresh) (hready : ∀ b, rd.piece ≠ .ready b) :
    s.deliverByte p = (s, false) := by
  have hnext : s.nextByte rd seg = none := by
    simp only [State.nextByte, hsrc]
    split
    · next b l hb => exact absurd hb (hready _)
    · rfl
  rw [State.deliverByte_of_segment hr hseg (by rw [hsrc]; decide) hl hw, State.reachPiece_of_held hr hp, State.handByte, hr]
  simp only [hseg, hnext]

theorem deliver_of_stuck {n : Nat} (h : s.deliverByte p = (s, false)) : deliver n p s = s := by
  cases n with
  | zero => rfl
  | succ n => rw [deliver, h]

end

/-! ### Bytes that are ready one after another -/

/-- The bytes that the read can be given from its present segment, one after another, without another piece. -/
def State.Provides (s : State) (seg : Segment) : Reading → List Byte → Prop
  | _, [] => True
  | rd, b :: l =>
    (rd.piece = .fresh → seg.source = .erased ∨ seg.source = .staging) ∧
      ∃ pc, s.nextByte rd seg = some (b, pc) ∧ (l ≠ [] → rd.addr ≠ seg.last) ∧ s.Provides seg (s.afterByte rd seg pc) l

/-- The state after bytes have been handed over. -/
def State.handed (s : State) (p : Port) (rd : Reading) (bytes : List Byte) : State :=
  s.onPort p fun x => { x with link := .reading rd, returned := x.returned ++ bytes }

section
variable {s : State} {p : Port} {rd : Reading} {seg : Segment} {l : Lifecycle}

theorem State.reading_handed (s : State) (p : Port) (rd : Reading) (b : List Byte) : (s.handed p rd b).reading p = some rd := by
  cases p <;> rfl

theorem State.handed_handed (s : State) (p : Port) (rd rd' : Reading) (b c : List Byte) :
    (s.handed p rd b).handed p rd' c = s.handed p rd' (b ++ c) := by
  cases p <;> simp [State.handed, State.onPort, State.setPort, State.port]

theorem State.returned_handed (s : State) (p : Port) (rd : Reading) (b : List Byte) :
    ((s.handed p rd b).port p).returned = (s.port p).returned ++ b := by
  cases p <;> rfl

theorem State.handed_apart (s : State) (p : Port) (rd : Reading) (b : List Byte) : Apart s (s.handed p rd b) :=
  Apart.onPort s p _ fun _ => rfl

theorem State.engine_handed (s : State) (p : Port) (rd : Reading) (b : List Byte) : (s.handed p rd b).engine = s.engine := by
  cases p <;> rfl

/-- What is ready for a read does not depend on what it has been given. -/
theorem State.provides_handed (rd₀ : Reading) (b : List Byte) (h : List Byte) (rd : Reading) :
    (s.handed p rd₀ b).Provides seg rd h = s.Provides seg rd h := by
  induction h generalizing rd with
  | nil => rfl
  | cons x h ih =>
    have hnext : (s.handed p rd₀ b).nextByte rd seg = s.nextByte rd seg := by cases p <;> rfl
    have hafter (pc : Piece) : (s.handed p rd₀ b).afterByte rd seg pc = s.afterByte rd seg pc := by cases p <;> rfl
    simp only [State.Provides, hnext, hafter, ih]

theorem State.preparePiece_of_plain (h : seg.source = .erased ∨ seg.source = .staging) : s.preparePiece p rd seg = s := by
  rcases h with h | h <;> rw [State.preparePiece, h]

/-- One byte that is ready is handed over. -/
theorem State.deliverByte_of_ready {b : Byte} {pc : Piece} (hr : s.reading p = some rd) (hseg : rd.seg = some seg)
    (hheld : seg.source ≠ .held) (hl : s.life.lifecycle = some l) (hw : rd.want ≠ 0)
    (hfresh : rd.piece = .fresh → seg.source = .erased ∨ seg.source = .staging) (hb : s.nextByte rd seg = some (b, pc)) :
    s.deliverByte p = (s.handed p (s.afterByte rd seg pc) [b], true) := by
  have hpiece : s.reachPiece p = s := by
    by_cases hp : rd.piece = .fresh
    · rw [State.reachPiece_of_fresh hr hseg hp, State.preparePiece_of_plain (hfresh hp)]
    · exact State.reachPiece_of_held hr hp
  rw [State.deliverByte_of_segment hr hseg hheld hl hw, hpiece, State.handByte, hr]
  simp only [hseg, hb]
  rfl

/-- Bytes that are ready are handed over, as many as are asked for (R52). -/
theorem State.Provides.deliver {bytes : List Byte} (h : s.Provides seg rd bytes) (hr : s.reading p = some rd) (hseg : rd.seg = some seg)
    (hheld : seg.source ≠ .held) (hl : s.life.lifecycle = some l) (hw : rd.want = bytes.length) (hne : bytes ≠ []) :
    ∃ rd', Machine.deliver bytes.length p s = s.handed p rd' bytes := by
  induction bytes generalizing s rd with
  | nil => exact absurd rfl hne
  | cons b bytes ih =>
    obtain ⟨hfresh, pc, hb, hlast, hrest⟩ := h
    have hstep := State.deliverByte_of_ready hr hseg hheld hl (by rw [hw]; exact Nat.succ_ne_zero _) hfresh hb
    by_cases hnil : bytes = []
    · subst hnil
      exact ⟨s.afterByte rd seg pc, by rw [List.length_singleton, Machine.deliver, hstep]; rfl⟩
    · have hseg' : (s.afterByte rd seg pc).seg = some seg := if_neg (hlast hnil)
      have hwant : (s.afterByte rd seg pc).want = bytes.length := by
        show rd.want - 1 = _
        rw [hw]
        rfl
      obtain ⟨rd', hd⟩ := ih (s := s.handed p (s.afterByte rd seg pc) [b]) (by rw [State.provides_handed]; exact hrest)
        (s.reading_handed p _ _) hseg' (by rw [(s.handed_apart p _ _).life]; exact hl) hwant hnil
      refine ⟨rd', ?_⟩
      rw [List.length_cons, Machine.deliver, hstep]
      show Machine.deliver bytes.length p (s.handed p (s.afterByte rd seg pc) [b]) = _
      rw [hd, State.handed_handed]
      rfl

/-! ### The three sources that need no flash -/

/-- The address of a read within its segment, with `k` bytes still to come of it; a segment may end beyond the upstream space. -/
def Reading.Within (rd : Reading) (seg : Segment) (k : Nat) : Prop :=
  rd.addr < spaceSize ∧ (spaceSize ≤ seg.last ∨ rd.addr + k ≤ seg.last + 1)

theorem Reading.Within.after {k : Nat} (h : rd.Within seg (k + 1)) (hk : k ≠ 0) (pc : Piece) :
    rd.addr ≠ seg.last ∧ (s.afterByte rd seg pc).Within seg k := by
  obtain ⟨haddr, hend⟩ := h
  have hspace : 0 < spaceSize := by decide
  refine ⟨by omega, Nat.mod_lt _ hspace, ?_⟩
  rcases hend with h | h
  · exact Or.inl h
  · by_cases hlast : spaceSize ≤ seg.last
    · exact Or.inl hlast
    · have hmod : (rd.addr + 1) % spaceSize = rd.addr + 1 := Nat.mod_eq_of_lt (by omega)
      refine Or.inr ?_
      show (rd.addr + 1) % spaceSize + k ≤ _
      omega

/-- The erased pattern (R99). -/
theorem State.provides_erased (hsrc : seg.source = .erased) (k : Nat) {rd : Reading} (h : rd.Within seg k) :
    s.Provides seg rd (List.replicate k 0xFF#8) := by
  induction k generalizing rd with
  | zero => trivial
  | succ k ih =>
    have hnext : s.nextByte rd seg = some (0xFF#8, .fresh) := by simp only [State.nextByte, hsrc, erasedByte]
    by_cases hk : k = 0
    · subst hk
      exact ⟨fun _ => Or.inl hsrc, .fresh, hnext, fun hne => absurd rfl hne, trivial⟩
    · obtain ⟨hlast, hafter⟩ := h.after (s := s) hk .fresh
      exact ⟨fun _ => Or.inl hsrc, .fresh, hnext, fun _ => hlast, ih hafter⟩

/-- The staging buffer (R99, R141). -/
theorem State.provides_staging (hsrc : seg.source = .staging) (k : Nat) {rd : Reading} (hfirst : seg.first ≤ rd.addr)
    (hend : rd.addr + k ≤ seg.last + 1) (hspace : rd.addr + k ≤ spaceSize) :
    s.Provides seg rd ((List.range k).map fun i => Mem.get s.key.staging (seg.offset + (rd.addr - seg.first) + i)) := by
  induction k generalizing rd with
  | zero => trivial
  | succ k ih =>
    have hnext : s.nextByte rd seg = some (Mem.get s.key.staging (seg.offset + (rd.addr - seg.first) + 0), .fresh) := by
      rw [State.nextByte, hsrc]
      rfl
    rw [List.range_succ_eq_map, List.map_cons, List.map_map]
    by_cases hk : k = 0
    · subst hk
      exact ⟨fun _ => Or.inr hsrc, .fresh, hnext, fun hne => absurd rfl hne, trivial⟩
    · have haddr : (s.afterByte rd seg .fresh).addr = rd.addr + 1 := Nat.mod_eq_of_lt (by omega)
      refine ⟨fun _ => Or.inr hsrc, .fresh, hnext, fun _ => by omega, ?_⟩
      have hrest := ih (rd := s.afterByte rd seg .fresh) (by omega) (by omega) (by omega)
      rw [haddr] at hrest
      have hbytes : ((fun i => Mem.get s.key.staging (seg.offset + (rd.addr - seg.first) + i)) ∘ Nat.succ) =
          fun i => Mem.get s.key.staging (seg.offset + (rd.addr + 1 - seg.first) + i) := by
        funext i
        show Mem.get _ _ = Mem.get _ _
        congr 1
        omega
      rwa [hbytes]

/-- A piece that is ready (R102). -/
theorem State.provides_ready (hsrc : seg.source = .window ∨ seg.source = .flash) (bytes rest : List Byte) {rd : Reading}
    (hp : rd.piece = .ready (bytes ++ rest)) (hend : rd.addr + bytes.length ≤ seg.last + 1)
    (hspace : rd.addr + bytes.length ≤ spaceSize) : s.Provides seg rd bytes := by
  induction bytes generalizing rd with
  | nil => trivial
  | cons b bytes ih =>
    have hnext : s.nextByte rd seg = some (b, if bytes ++ rest = [] then .fresh else .ready (bytes ++ rest)) := by
      rcases hsrc with h | h <;> simp only [State.nextByte, h, hp, List.cons_append]
    refine ⟨fun hf => ?_, _, hnext, fun hne => ?_, ?_⟩
    · rw [hf] at hp
      nomatch hp
    · have : 0 < bytes.length := List.length_pos_of_ne_nil hne
      rw [List.length_cons] at hend
      omega
    · cases bytes with
      | nil => trivial
      | cons c bytes =>
        rw [List.length_cons, List.length_cons] at hend hspace
        have haddr (pc : Piece) : (s.afterByte rd seg pc).addr = rd.addr + 1 := Nat.mod_eq_of_lt (by omega)
        have hlast : rd.addr ≠ seg.last := by omega
        refine ih (if_neg hlast) ?_ ?_
        · rw [haddr, List.length_cons]
          omega
        · rw [haddr, List.length_cons]
          omega

end

end Sys2Proof.Machine
end

-- Proofs of the family 'other': reads that are answered without the flash.
section
/-! PROOFS. Reads of addresses in no entry, of the erased pattern, of the staging buffer and of the directive window (R24, R25, R99,
R101). -/

namespace Sys2Proof.Machine

/-! ### The segment that a read forms (R24, R99) -/

section
variable {s : State} {p : Port} {rd : Reading} {l : Lifecycle} {e : MapEntry}

theorem State.formSegment_of_none (h : findEntry s.entries rd.addr = none) :
    s.formSegment p rd l =
      s.setReading p { rd with seg := some (plainSegment rd.addr (gapEnd s.entries rd.addr) none .erased 0), piece := .fresh } := by
  rw [State.formSegment, h]

theorem State.formSegment_of_entry (h : findEntry s.entries rd.addr = some e) (hp : ¬ (p = .t ∧ e.cls = .uniformity ∧ l ≠ .safe)) :
    s.formSegment p rd l = s.setReading p { rd with seg := some (s.segmentOf p l e rd.addr), piece := .fresh } := by
  simp only [State.formSegment, h]
  exact if_neg hp

/-- R14, R99: what is answered from the erased pattern. -/
theorem State.ReadsErased.segmentOf (h : s.ReadsErased p l e) (a : Nat) :
    s.segmentOf p l e a = plainSegment a (e.ubase + e.size - 1) (some e.cls) .erased (a - e.ubase) := by
  rcases h with ⟨hc, rfl⟩ | ⟨hc, rfl⟩ | ⟨hc, hright⟩ | ⟨hc, rfl, hright⟩ | ⟨hc, rfl⟩ | ⟨hc, hl, hw⟩
  · simp [State.segmentOf, hc]
  · cases hcls : e.cls <;> simp_all [State.segmentOf]
  · cases p with
    | a =>
      have hnone : e.aRight = .none := hright
      simp only [State.segmentOf, hc, hnone, if_true, ite_self]
    | t =>
      have hnone : e.tRight = .none := hright
      simp only [State.segmentOf, hc, hnone, if_true, ite_self]
  · simp [State.segmentOf, hc, hright]
  · simp [State.segmentOf, hc]
  · simp [State.segmentOf, hc, hl, hw]

theorem State.ReadsErased.not_uniformity (h : s.ReadsErased p l e) : ¬ (p = .t ∧ e.cls = .uniformity ∧ l ≠ .safe) := by
  rintro ⟨-, hcls, hl⟩
  rcases h with ⟨hc, -⟩ | ⟨-, rfl⟩ | ⟨hc, -⟩ | ⟨hc, -⟩ | ⟨hc, -⟩ | ⟨hc, -⟩
  · rw [hcls] at hc; nomatch hc
  · exact hl rfl
  · rw [hcls] at hc; nomatch hc
  · rw [hcls] at hc; nomatch hc
  · rw [hcls] at hc; nomatch hc
  · rw [hcls] at hc; nomatch hc

end

/-! ### A read that is answered in its own event -/

section
variable {s u : State} {p r : Port} {a : Addr} {n : Nat} {l : Lifecycle} {rd : Reading} {seg : Segment} {bytes : List Byte}

/-- A READ whose bytes are all ready once state `u` has been reached from its opening. -/
theorem completes_read (hne : p ≠ r) (hlink : (s.port p).link = .idle) (hr : s.reading r = none)
    (hl : s.life.lifecycle = some l) (hdel : 0 < n → deliver n p (s.readOpened p a n) = deliver n p u) (hu : Apart s u)
    (hengine : u.engine = s.engine) (hread : u.reading p = some rd) (hseg : rd.seg = some seg) (hheld : seg.source ≠ .held)
    (hw : rd.want = n) (hret : (u.port p).returned = []) (hp : u.Provides seg rd bytes) (hlen : bytes.length = n) :
    Completes (.read p (some a) n) s fun t => (t.port p).returned = bytes ∧ t.engine = s.engine ∧ Apart s t := by
  refine ⟨_, exec_read hne hlink hr a n, ?_⟩
  rcases Nat.eq_zero_or_pos n with hzero | hpos
  · subst hzero
    rw [List.length_eq_zero_iff.1 hlen]
    exact ⟨by cases p <;> rfl, by cases p <;> rfl, s.readOpened_apart p a 0⟩
  · obtain ⟨rd', hd⟩ := hp.deliver hread hseg hheld (hu.life ▸ hl) (hw.trans hlen.symm)
      (List.ne_nil_of_length_pos (hlen.symm ▸ hpos))
    rw [hlen] at hd
    rw [hdel hpos, hd]
    exact ⟨by rw [State.returned_handed, hret, List.nil_append], by rw [State.engine_handed, hengine],
      hu.trans (State.handed_apart ..)⟩

/-- The read with its first segment, which has not been prepared. -/
def Reading.begun (a : Addr) (n : Nat) (seg : Segment) : Reading := { Reading.open a n with seg := some seg }

/-- The state in which a read has formed its first segment. -/
def State.readBegun (s : State) (p : Port) (a : Addr) (n : Nat) (seg : Segment) : State :=
  (s.readOpened p a n).setReading p (Reading.begun a n seg)

theorem State.readBegun_apart (s : State) (p : Port) (a : Addr) (n : Nat) (seg : Segment) : Apart s (s.readBegun p a n seg) :=
  (s.readOpened_apart p a n).trans (Apart.setReading ..)

theorem State.engine_readBegun (s : State) (p : Port) (a : Addr) (n : Nat) (seg : Segment) : (s.readBegun p a n seg).engine = s.engine := by
  cases p <;> rfl

theorem State.returned_readBegun (s : State) (p : Port) (a : Addr) (n : Nat) (seg : Segment) :
    ((s.readBegun p a n seg).port p).returned = [] := by
  cases p <;> rfl

theorem State.reading_readBegun (s : State) (p : Port) (a : Addr) (n : Nat) (seg : Segment) :
    (s.readBegun p a n seg).reading p = some (Reading.begun a n seg) := State.reading_setReading ..

theorem State.deliver_readBegun (hl : s.life.lifecycle = some l) (hn : 0 < n) (hheld : seg.source ≠ .held)
    (hform : (s.readOpened p a n).formSegment p (Reading.open a n) l = s.readBegun p a n seg) :
    deliver n p (s.readOpened p a n) = deliver n p (s.readBegun p a n seg) :=
  deliver_succ_congr
    (State.deliverByte_of_formed (s.reading_readOpened p a n) rfl (((s.readOpened_apart p a n).life).symm ▸ hl)
      (Nat.ne_of_gt hn) hform (s.reading_readBegun p a n seg) rfl hheld (((s.readBegun_apart p a n seg).life).symm ▸ hl)
      (Nat.ne_of_gt hn)) hn

/-- A READ whose first segment has all its bytes ready. -/
theorem completes_read_of_plain (hne : p ≠ r) (hlink : (s.port p).link = .idle) (hr : s.reading r = none)
    (hl : s.life.lifecycle = some l) (hform : (s.readOpened p a n).formSegment p (Reading.open a n) l = s.readBegun p a n seg)
    (hheld : seg.source ≠ .held) (hp : (s.readBegun p a n seg).Provides seg (Reading.begun a n seg) bytes) (hlen : bytes.length = n) :
    Completes (.read p (some a) n) s fun t => (t.port p).returned = bytes ∧ t.engine = s.engine ∧ Apart s t :=
  completes_read hne hlink hr hl (fun hn => State.deliver_readBegun hl hn hheld hform) (s.readBegun_apart p a n seg)
    (s.engine_readBegun p a n seg) (s.reading_readBegun p a n seg) rfl hheld rfl (s.returned_readBegun p a n seg) hp hlen

/-- The segment formed by a read that has just been opened. -/
theorem State.formSegment_readOpened {e : MapEntry} (he : findEntry s.entries a.toNat = some e)
    (hp : ¬ (p = .t ∧ e.cls = .uniformity ∧ l ≠ .safe)) :
    (s.readOpened p a n).formSegment p (Reading.open a n) l = s.readBegun p a n (s.segmentOf p l e a.toNat) := by
  have hentries : (s.readOpened p a n).entries = s.entries := by cases p <;> rfl
  have hsegment : (s.readOpened p a n).segmentOf p l e a.toNat = s.segmentOf p l e a.toNat := by
    cases p <;> rfl
  rw [State.formSegment_of_entry (e := e) (by rw [hentries]; exact he) hp]
  show State.setReading _ p { Reading.open a n with seg := some ((s.readOpened p a n).segmentOf p l e a.toNat), piece := .fresh } = _
  rw [hsegment]
  rfl

theorem Addr.lt_spaceSize (a : Addr) : a.toNat < spaceSize := a.isLt

theorem findEntry_holds {es : List (Nat × MapEntry)} {a : Nat} {e : MapEntry} (h : findEntry es a = some e) :
    e.ubase ≤ a ∧ a < e.ubase + e.size := by
  obtain ⟨x, hx, rfl⟩ := Option.map_eq_some_iff.1 h
  simpa [MapEntry.holds] using List.find?_some hx

end

/-- Settles O26: addresses in no entry, and what an entry answers from the erased pattern, return `0xFF`. -/
theorem unmappedRead : Obligations.UnmappedRead := by
  refine ⟨fun p r a n s l hne hlink hr hl hnone hend => ?_, fun p r a n s l e hne hlink hr hl he hread hend => ?_⟩
  · have hentries : (s.readOpened p a n).entries = s.entries := by cases p <;> rfl
    have hform : (s.readOpened p a n).formSegment p (Reading.open a n) l =
        s.readBegun p a n (plainSegment a.toNat (gapEnd s.entries a.toNat) none .erased 0) := by
      rw [State.formSegment_of_none (by rw [hentries]; exact hnone), hentries]
      rfl
    exact completes_read_of_plain hne hlink hr hl hform nofun
      (State.provides_erased rfl n ⟨Addr.lt_spaceSize a, Or.inr hend⟩) List.length_replicate
  · have hform := State.formSegment_readOpened (n := n) he hread.not_uniformity
    rw [hread.segmentOf] at hform
    have hholds := findEntry_holds he
    exact completes_read_of_plain hne hlink hr hl hform nofun
      (State.provides_erased rfl n ⟨Addr.lt_spaceSize a, Or.inr (by
        show a.toNat + n ≤ e.ubase + e.size - 1 + 1
        omega)⟩) List.length_replicate

/-! ### The staging buffer and the directive window (R99, R101) -/

/-- The key window in OPENED is answered from the staging buffer. -/
theorem stagingRead {a : Addr} {n : Nat} {s : State} {e : MapEntry} (hlink : s.portA.link = .idle) (hr : s.reading .t = none)
    (hl : s.life.lifecycle = some .opened) (he : findEntry s.entries a.toNat = some e) (hc : e.cls = .key)
    (hend : a.toNat + n ≤ e.ubase + e.size) (hspace : a.toNat + n ≤ 0x2000000) :
    Completes (.read .a (some a) n) s fun t =>
      t.portA.returned = (List.range n).map (fun i => Mem.get s.key.staging (a.toNat - e.ubase + i)) ∧
      t.engine = s.engine ∧ Apart s t := by
  have hseg : s.segmentOf .a .opened e a.toNat =
      plainSegment a.toNat (e.ubase + e.size - 1) (some .key) .staging (a.toNat - e.ubase) := by
    simp [State.segmentOf, hc]
  have hform := State.formSegment_readOpened (p := .a) (l := .opened) (n := n) he (fun h => nomatch h.1)
  rw [hseg] at hform
  have hholds := findEntry_holds he
  have hp := State.provides_staging
    (s := s.readBegun .a a n (plainSegment a.toNat (e.ubase + e.size - 1) (some .key) .staging (a.toNat - e.ubase)))
    (seg := plainSegment a.toNat (e.ubase + e.size - 1) (some .key) .staging (a.toNat - e.ubase)) rfl n
    (rd := Reading.begun a n (plainSegment a.toNat (e.ubase + e.size - 1) (some .key) .staging (a.toNat - e.ubase)))
    (Nat.le_refl _) (by show a.toNat + n ≤ e.ubase + e.size - 1 + 1; omega) hspace
  have hbytes : ((List.range n).map fun i => Mem.get s.key.staging (a.toNat - e.ubase + (a.toNat - a.toNat) + i)) =
      (List.range n).map fun i => Mem.get s.key.staging (a.toNat - e.ubase + i) := by
    rw [Nat.sub_self, Nat.add_zero]
  exact completes_read_of_plain (by decide) hlink hr hl hform nofun (hbytes ▸ hp) (by rw [List.length_map, List.length_range])

theorem length_padTo_le (n : Nat) (l : List Byte) : n ≤ (padTo n l).length := by
  rw [padTo, List.length_append, List.length_replicate]
  omega

theorem State.length_windowPage_le (s : State) (n : Nat) : 256 ≤ (s.windowPage n).length := by
  rw [State.windowPage]
  split
  · exact length_padTo_le ..
  · exact length_padTo_le ..

/-- The segment of a Port A read of the directive window. -/
def windowSegment (a : Addr) : Segment :=
  plainSegment a.toNat (directiveEntry.ubase + directiveEntry.size - 1) (some .directive) .window (a.toNat - directiveEntry.ubase)

/-- A page of the directive window is answered from its image. -/
theorem windowRead {a : Addr} {n : Nat} {s : State} {l : Lifecycle} (hlink : s.portA.link = .idle) (hr : s.reading .t = none)
    (hl : s.life.lifecycle = some l) (he : findEntry s.entries a.toNat = some directiveEntry) (hn : n ≤ 256 - a.toNat % 256) :
    Completes (.read .a (some a) n) s fun t =>
      t.portA.returned = ((s.windowPage ((a.toNat - windowBase) / 256)).drop (a.toNat % 256)).take n ∧
      t.engine = s.engine ∧ Apart s t := by
  have hform : (s.readOpened .a a n).formSegment .a (Reading.open a n) l = s.readBegun .a a n (windowSegment a) :=
    State.formSegment_readOpened he (fun h => nomatch h.1)
  have hlong := s.length_windowPage_le ((a.toNat - windowBase) / 256)
  generalize hbytes : ((s.windowPage ((a.toNat - windowBase) / 256)).drop (a.toNat % 256)) = bytes
  have hoffset : (a.toNat - windowBase) % 256 = a.toNat % 256 := by
    have := (findEntry_holds he).1
    have hbase : windowBase = 131056 * 256 := rfl
    have hubase : directiveEntry.ubase = 131056 * 256 := rfl
    omega
  have hlen : (bytes.take n).length = n := by
    rw [List.length_take, ← hbytes, List.length_drop]
    omega
  have hprep : (s.readBegun .a a n (windowSegment a)).preparePiece .a (Reading.begun a n (windowSegment a)) (windowSegment a) =
      (s.readBegun .a a n (windowSegment a)).setReading .a { Reading.begun a n (windowSegment a) with piece := .ready bytes } := by
    rw [← hbytes, ← hoffset, ← State.setPiece_of_reading (s.reading_readBegun .a a n (windowSegment a))]
    rfl
  have hl' : (s.readBegun .a a n (windowSegment a)).life.lifecycle = some l := hl
  refine completes_read (r := .t)
    (u := (s.readBegun .a a n (windowSegment a)).setReading .a { Reading.begun a n (windowSegment a) with piece := .ready bytes })
    (seg := windowSegment a) (by decide) hlink hr hl (fun hpos => ?_) ((s.readBegun_apart .a a n _).trans (Apart.setReading ..)) rfl
    (State.reading_setReading ..) rfl nofun rfl rfl (State.provides_ready (Or.inl rfl) (bytes.take n) (bytes.drop n) ?_ ?_ ?_) hlen
  · rw [State.deliver_readBegun hl hpos (show Source.window ≠ .held from nofun) hform]
    exact deliver_succ_congr (State.deliverByte_of_prepared (s.reading_readBegun .a a n _) rfl nofun hl' (Nat.ne_of_gt hpos) rfl hprep
      (State.reading_setReading ..) rfl (show Piece.ready bytes ≠ .fresh from nofun) hl' (Nat.ne_of_gt hpos)) hpos
  · rw [List.take_append_drop]
  · rw [hlen]
    show a.toNat + n ≤ 0x1FFFFFF + 1
    have := a.isLt
    omega
  · rw [hlen]
    show a.toNat + n ≤ 0x2000000
    have := a.isLt
    omega

end Sys2Proof.Machine
end

-- Proofs of the family 'other': the status page and the slot records.
section
/-! PROOFS. The layout of the status page and of the slot records (R190, R192). -/

namespace Sys2Proof.Machine

/-! ### Bytes and words -/

theorem byte_toNat (n : Nat) : (byte n).toNat = n % 256 := BitVec.toNat_ofNat n 8

theorem Bool.toNat_mod_256 (b : Bool) : b.toNat % 256 = if b then 1 else 0 := by cases b <;> rfl

/-- Filling up with `0x00` changes no byte that is read with `0x00` as default. -/
theorem getD_padTo (n : Nat) (l : List Byte) (i : Nat) : (padTo n l).getD i 0 = l.getD i 0 := by
  rw [padTo]
  rcases Nat.lt_or_ge i l.length with h | h
  · exact List.getD_append _ _ _ _ h
  · rw [List.getD_append_right _ _ _ _ h, List.getD_eq_default _ _ h, List.getD_eq_getElem?_getD, List.getElem?_replicate]
    split <;> rfl

theorem length_padTo {n : Nat} {l : List Byte} (h : l.length ≤ n) : (padTo n l).length = n := by
  rw [padTo, List.length_append, List.length_replicate]
  omega

/-- A byte of a list of blocks: byte `i` of block `k` stands behind the blocks before it. -/
theorem getElem?_flatten {α : Type} (bs : List (List α)) {k i : Nat} {x : List α} (hk : bs[k]? = some x) (hi : i < x.length) :
    bs.flatten[((bs.map List.length).take k).sum + i]? = x[i]? := by
  induction bs generalizing k with
  | nil => nomatch hk
  | cons b bs ih =>
    rw [List.flatten_cons]
    cases k with
    | zero =>
      cases hk
      rw [List.take_zero, List.sum_nil, Nat.zero_add, List.getElem?_append_left hi]
    | succ k =>
      rw [List.map_cons, List.take_succ_cons, List.sum_cons, Nat.add_assoc, List.getElem?_append_right (Nat.le_add_right ..),
        Nat.add_sub_cancel_left]
      exact ih hk

/-! ### The blocks of the status page (R192) -/

/-- The region code and family on the status page, offsets 8 to 10. -/
def State.regionBytes (s : State) : List Byte :=
  match s.life.fields.region with | some r => leBytes 2 r.code ++ [byte r.family.num] | none => [0, 0, 0]

/-- The lifecycle's number on the status page. -/
def State.lifecycleByte (s : State) : Byte := match s.life.lifecycle with | some l => byte l.num | none => 0

/-- The status page, block by block. -/
def State.statusBlocks (s : State) : List (List Byte) :=
  [leBytes 2 0x2608,
   [1, s.lifecycleByte, byte s.life.fixture.toNat, byte s.life.fuse.toNat, byte s.live.num, byte s.key.window.num],
   s.regionBytes, [byte s.attempts], leBytes 2 s.dir.events.toNat, leBytes 2 s.dir.mask.toNat,
   s.queueBytes .sys, s.queueBytes .pass, s.queueBytes .set, s.queueBytes .uni,
   [byte s.freePages, byte s.dir.queue.length, byte s.runningSlot, byte s.engine.lastSuspend, byte s.portA.ignoredCount,
    byte s.portT.ignoredCount, byte s.uni.pass.isOpen.toNat, byte s.uni.pass.bank.num],
   leBytes 2 s.uni.pass.count.toNat, leBytes 2 (s.coverageCount .stale), leBytes 2 (s.coverageCount .clean),
   leBytes 2 (s.coverageCount .written), leBytes 2 (s.coverageCount .failed), [0, 0], firstFailureBytes s.firstFailure,
   refusedBytes s.dir.refusedWrite, [byte s.dir.refusals]]

/-- The lengths of the blocks. -/
def statusLengths : List Nat := [2, 6, 3, 1, 2, 2, 5, 5, 5, 5, 8, 2, 2, 2, 2, 2, 2, 20, 8, 1]

theorem length_firstFailureBytes (x : Option FirstFailure) : (firstFailureBytes x).length = 20 := by cases x <;> rfl

theorem length_refusedBytes (x : Option RefusedWrite) : (refusedBytes x).length = 8 := by cases x <;> rfl

theorem State.length_regionBytes (s : State) : s.regionBytes.length = 3 := by
  rw [State.regionBytes]
  cases s.life.fields.region <;> rfl

section
variable (s : State)

theorem State.lengths_statusBlocks : s.statusBlocks.map List.length = statusLengths := by
  simp only [State.statusBlocks, List.map_cons, List.map_nil, length_firstFailureBytes, length_refusedBytes, s.length_regionBytes]
  rfl

theorem State.windowPage_zero : s.windowPage 0 = padTo 256 s.statusBlocks.flatten := by
  show s.statusPage = _
  simp only [State.statusPage, State.statusBlocks, State.regionBytes, State.lifecycleByte, List.flatten_cons, List.flatten_nil,
    List.append_assoc, List.append_nil] <;> rfl

theorem State.length_statusBlocks : s.statusBlocks.flatten.length = 85 := by
  rw [List.length_flatten, s.lengths_statusBlocks]
  rfl

/-- A byte of the status page as a number. -/
def State.statusNat (i : Nat) : Nat := ((s.windowPage 0).getD i 0).toNat

/-- A byte of a block, `o` being its offset on the page. -/
theorem State.statusNat_byte {k i v : Nat} (o : Nat) (ho : (statusLengths.take k).sum + i = o) {x : List Byte}
    (hk : s.statusBlocks[k]? = some x) (hx : x[i]? = some (byte v)) : s.statusNat o = v % 256 := by
  have hi : i < x.length := (List.getElem?_eq_some_iff.1 hx).1
  rw [State.statusNat, s.windowPage_zero, getD_padTo, List.getD_eq_getElem?_getD, ← ho, ← s.lengths_statusBlocks,
    getElem?_flatten _ hk hi, hx]
  exact byte_toNat v

/-- A two-byte field of a block. -/
theorem State.statusNat_word {k i v : Nat} (o : Nat) (ho : (statusLengths.take k).sum + i = o) {x : List Byte}
    (hk : s.statusBlocks[k]? = some x) (hlow : x[i]? = some (byte v)) (hhigh : x[i + 1]? = some (byte (v / 256))) :
    s.statusNat o + 256 * s.statusNat (o + 1) = v % 65536 := by
  rw [s.statusNat_byte o ho hk hlow, s.statusNat_byte (o + 1) (by omega) hk hhigh]
  omega

/-- A two-byte field that is a block of its own. -/
theorem State.statusNat_leBytes {k v : Nat} (o : Nat) (ho : (statusLengths.take k).sum = o) (hk : s.statusBlocks[k]? = some (leBytes 2 v)) :
    s.statusNat o + 256 * s.statusNat (o + 1) = v % 65536 :=
  s.statusNat_word (i := 0) o ho hk rfl rfl

/-- A four-byte field of a block. -/
theorem State.statusNat_long {k i v : Nat} (o : Nat) (ho : (statusLengths.take k).sum + i = o) {x : List Byte}
    (hk : s.statusBlocks[k]? = some x) (h0 : x[i]? = some (byte v)) (h1 : x[i + 1]? = some (byte (v / 256)))
    (h2 : x[i + 2]? = some (byte (v / 256 / 256))) (h3 : x[i + 3]? = some (byte (v / 256 / 256 / 256))) :
    s.statusNat o + 256 * s.statusNat (o + 1) + 65536 * (s.statusNat (o + 2) + 256 * s.statusNat (o + 2 + 1)) = v % 4294967296 := by
  rw [s.statusNat_word o ho hk h0 h1, s.statusNat_word (o + 2) (by omega) hk h2 h3]
  omega

/-- Past the blocks every byte is `0x00`. -/
theorem State.statusNat_past {i : Nat} (h : 85 ≤ i) : s.statusNat i = 0 := by
  rw [State.statusNat, s.windowPage_zero, getD_padTo, List.getD_eq_default _ _ (s.length_statusBlocks ▸ h)]
  rfl

/-! ### Its fields -/

theorem State.statusNat_lifecycle (l : Lifecycle) : s.life.lifecycle = some l →
    s.statusNat 3 = match l with | .blank => 0 | .opened => 1 | .sealed => 2 | .closed => 3 | .service => 4 | .safe => 5 := by
  intro h
  have hb : s.lifecycleByte = byte l.num := by rw [State.lifecycleByte, h]
  have hnum := s.statusNat_byte (k := 1) (i := 1) (v := l.num) 3 rfl rfl (congrArg some hb)
  refine Eq.trans hnum ?_
  cases l <;> rfl

theorem State.statusNat_queue (q : QueueId) :
    let o := match q with | .sys => 16 | .pass => 21 | .set => 26 | .uni => 31
    s.statusNat o = (s.entriesOf q).length % 256 ∧
    s.statusNat (o + 1) = ((s.entriesOf q).filter fun e => e.page.isSome).length % 256 ∧
    s.statusNat (o + 2) = (s.queues.get q).level % 256 ∧ s.statusNat (o + 3) = (if (s.queues.get q).high then 1 else 0) ∧
    s.statusNat (o + 4) = (s.queues.get q).failures % 256 := by
  have hblock (k : Nat) (hk : s.statusBlocks[k]? = some (s.queueBytes q)) (o : Nat) (ho : (statusLengths.take k).sum = o) :
      s.statusNat o = (s.entriesOf q).length % 256 ∧
      s.statusNat (o + 1) = ((s.entriesOf q).filter fun e => e.page.isSome).length % 256 ∧
      s.statusNat (o + 2) = (s.queues.get q).level % 256 ∧ s.statusNat (o + 3) = (if (s.queues.get q).high then 1 else 0) ∧
      s.statusNat (o + 4) = (s.queues.get q).failures % 256 := by
    subst ho
    exact ⟨s.statusNat_byte (i := 0) _ rfl hk rfl, s.statusNat_byte (i := 1) _ rfl hk rfl, s.statusNat_byte (i := 2) _ rfl hk rfl,
      (s.statusNat_byte (i := 3) _ rfl hk rfl).trans (Bool.toNat_mod_256 _), s.statusNat_byte (i := 4) _ rfl hk rfl⟩
  cases q with
  | sys => exact hblock 6 rfl 16 rfl
  | pass => exact hblock 7 rfl 21 rfl
  | set => exact hblock 8 rfl 26 rfl
  | uni => exact hblock 9 rfl 31 rfl

theorem State.statusNat_coverage (c : Coverage) :
    let o := match c with | .stale => 46 | .clean => 48 | .written => 50 | .failed => 52
    s.statusNat o + 256 * s.statusNat (o + 1) = (s.uni.coverage.filter fun x => decide (x = c)).length % 65536 := by
  rw [← List.countP_eq_length_filter]
  cases c with
  | stale => exact s.statusNat_leBytes (k := 12) 46 rfl rfl
  | clean => exact s.statusNat_leBytes (k := 13) 48 rfl rfl
  | written => exact s.statusNat_leBytes (k := 14) 50 rfl rfl
  | failed => exact s.statusNat_leBytes (k := 15) 52 rfl rfl

theorem State.statusNat_firstFailure_none (h : s.firstFailure = none) {i : Nat} (hlow : 56 ≤ i) (hhigh : i ≤ 75) : s.statusNat i = 0 := by
  have hx : (firstFailureBytes s.firstFailure)[i - 56]? = some (byte 0) := by
    rw [h]
    exact List.getElem?_replicate_of_lt (by omega)
  have hsum : (statusLengths.take 17).sum + (i - 56) = i := by
    show 56 + (i - 56) = i
    omega
  exact s.statusNat_byte (k := 17) i hsum rfl hx

theorem State.statusNat_refused_none (h : s.dir.refusedWrite = none) {i : Nat} (hlow : 76 ≤ i) (hhigh : i ≤ 83) : s.statusNat i = 0 := by
  have hx : (refusedBytes s.dir.refusedWrite)[i - 76]? = some (byte 0) := by
    rw [h]
    exact List.getElem?_replicate_of_lt (by omega)
  have hsum : (statusLengths.take 18).sum + (i - 76) = i := by
    show 76 + (i - 76) = i
    omega
  exact s.statusNat_byte (k := 18) i hsum rfl hx

theorem State.statusNat_reserved {i : Nat} (h : i = 54 ∨ i = 55 ∨ (73 ≤ i ∧ i ≤ 75) ∨ 85 ≤ i) : s.statusNat i = 0 := by
  rcases h with rfl | rfl | ⟨hlow, hhigh⟩ | h
  · exact s.statusNat_byte (k := 16) (i := 0) (v := 0) 54 rfl rfl rfl
  · exact s.statusNat_byte (k := 16) (i := 1) (v := 0) 55 rfl rfl rfl
  · cases hf : s.firstFailure with
    | none => exact s.statusNat_firstFailure_none hf (by omega) hhigh
    | some f =>
      have hcases : i = 73 ∨ i = 74 ∨ i = 75 := by omega
      rcases hcases with rfl | rfl | rfl
      · exact s.statusNat_byte (k := 17) (i := 17) (v := 0) 73 rfl rfl (by rw [hf]; rfl)
      · exact s.statusNat_byte (k := 17) (i := 18) (v := 0) 74 rfl rfl (by rw [hf]; rfl)
      · exact s.statusNat_byte (k := 17) (i := 19) (v := 0) 75 rfl rfl (by rw [hf]; rfl)
  · exact s.statusNat_past h

end

theorem State.statusNat_firstFailure {s : State} {f : FirstFailure} (h : s.firstFailure = some f) :
    let b := s.statusNat
    let w := fun i => b i + 256 * b (i + 1)
    let d := fun i => w i + 65536 * w (i + 2)
    b 56 = 1 ∧ b 57 = (match f.queue with | .sys => 0 | .pass => 1 | .set => 2 | .uni => 3) ∧
    b 58 = (match f.kind with | .program => 1 | .eraseSector => 2 | .eraseBlock => 3) ∧
    b 59 = (match f.origin with | .portA => 0 | .slot n => n % 256) ∧ d 60 = f.seq.toNat ∧ d 64 = f.addr % 4294967296 ∧
    d 68 = f.upstream.getD 0xFFFFFFFF % 4294967296 ∧ b 72 = (match f.reason with | .verifyMismatch => 1 | .flashError => 2) := by
  intro b w d
  have hblock : s.statusBlocks[17]? = some (firstFailureBytes (some f)) := by rw [← h]; rfl
  refine ⟨s.statusNat_byte (k := 17) (i := 0) (v := 1) 56 rfl hblock rfl, (s.statusNat_byte (k := 17) (i := 1) 57 rfl hblock rfl).trans ?_,
    (s.statusNat_byte (k := 17) (i := 2) 58 rfl hblock rfl).trans ?_, (s.statusNat_byte (k := 17) (i := 3) 59 rfl hblock rfl).trans ?_,
    (s.statusNat_long (k := 17) (i := 4) 60 rfl hblock rfl rfl rfl rfl).trans (Nat.mod_eq_of_lt f.seq.isLt),
    s.statusNat_long (k := 17) (i := 8) 64 rfl hblock rfl rfl rfl rfl, s.statusNat_long (k := 17) (i := 12) 68 rfl hblock rfl rfl rfl rfl,
    (s.statusNat_byte (k := 17) (i := 16) 72 rfl hblock rfl).trans ?_⟩
  · cases f.queue <;> rfl
  · cases f.kind <;> rfl
  · cases f.origin <;> rfl
  · cases f.reason <;> rfl

theorem State.statusNat_refused {s : State} {r : RefusedWrite} (h : s.dir.refusedWrite = some r) :
    let b := s.statusNat
    let w := fun i => b i + 256 * b (i + 1)
    let d := fun i => w i + 65536 * w (i + 2)
    b 76 = 1 ∧ b 77 = (match r.port with | .a => 0 | .t => 1) ∧
    b 78 = (match r.kind with | .program => 1 | .eraseSector => 2 | .eraseBlock => 3) ∧
    b 79 = (match r.reason with
      | .unmapped => 1 | .noRight => 2 | .classLocked => 3 | .flipPending => 4 | .spansEntries => 5 | .noEnable => 6
      | .statusPage => 7 | .slotBusy => 8) ∧
    d 80 = r.addr % 4294967296 := by
  intro b w d
  have hblock : s.statusBlocks[18]? = some (refusedBytes (some r)) := by rw [← h]; rfl
  refine ⟨s.statusNat_byte (k := 18) (i := 0) (v := 1) 76 rfl hblock rfl, (s.statusNat_byte (k := 18) (i := 1) 77 rfl hblock rfl).trans ?_,
    (s.statusNat_byte (k := 18) (i := 2) 78 rfl hblock rfl).trans ?_, (s.statusNat_byte (k := 18) (i := 3) 79 rfl hblock rfl).trans ?_,
    s.statusNat_long (k := 18) (i := 4) 80 rfl hblock rfl rfl rfl rfl⟩
  · cases r.port <;> rfl
  · cases r.kind <;> rfl
  · cases r.reason <;> rfl

theorem State.statusNat_region {s : State} {r : Region} (h : s.life.fields.region = some r) :
    s.statusNat 8 + 256 * s.statusNat (8 + 1) = r.code % 65536 ∧
    s.statusNat 10 = match r.family with | .f50 => 1 | .f60 => 2 | .dual => 3 := by
  have hblock : s.statusBlocks[2]? = some (leBytes 2 r.code ++ [byte r.family.num]) := by
    show some s.regionBytes = _
    rw [State.regionBytes, h]
  refine ⟨s.statusNat_word (k := 2) (i := 0) 8 rfl hblock rfl rfl, (s.statusNat_byte (k := 2) (i := 2) 10 rfl hblock rfl).trans ?_⟩
  cases r.family <;> rfl

theorem State.statusNat_region_none {s : State} (h : s.life.fields.region = none) :
    s.statusNat 8 + 256 * s.statusNat (8 + 1) = 0 ∧ s.statusNat 10 = 0 := by
  have hblock : s.statusBlocks[2]? = some [0, 0, 0] := by
    show some s.regionBytes = _
    rw [State.regionBytes, h]
  exact ⟨s.statusNat_word (k := 2) (i := 0) (v := 0) 8 rfl hblock rfl rfl, s.statusNat_byte (k := 2) (i := 2) (v := 0) 10 rfl hblock rfl⟩

/-! ### The slot that runs (R190) -/

theorem State.runningSlot_of_running {s : State} {n : Nat} (h : s.dir.queue.head? = some n) (hr : (s.slot n).state = .running) :
    s.runningSlot = n := by
  cases hq : s.dir.queue with
  | nil => rw [hq] at h; nomatch h
  | cons m l =>
    rw [hq] at h
    cases h
    simp only [State.runningSlot, hq, hr, if_true]

theorem State.runningSlot_of_none {s : State} (h : ∀ n, s.dir.queue.head? = some n → (s.slot n).state ≠ .running) :
    s.runningSlot = 0 := by
  cases hq : s.dir.queue with
  | nil => simp only [State.runningSlot, hq]
  | cons m l =>
    have := h m (by rw [hq]; rfl)
    simp only [State.runningSlot, hq, this, if_false]

/-! ### Slot records (R192) -/

/-- The six bytes before a slot's result data. -/
def Slot.head (x : Slot) : List Byte :=
  [byte x.state.num, x.code, x.tag, x.len, (match x.result with | some c => byte c.num | none => 0xFF), byte x.data.length]

theorem Slot.image256_eq (x : Slot) : x.image256 = padTo 256 (x.head ++ x.data) := rfl

theorem ResultCode.byte_num (c : ResultCode) : (byte c.num).toNat = resultCodes.idxOf c := by cases c <;> rfl

theorem Slot.getD_image256_head (x : Slot) {i : Nat} (h : i < 6) : x.image256.getD i 0 = x.head.getD i 0 := by
  rw [Slot.image256_eq, getD_padTo]
  exact List.getD_append _ _ _ _ h

theorem Slot.getD_image256_data (x : Slot) (i : Nat) : x.image256.getD (6 + i) 0 = x.data.getD i 0 := by
  have hhead : x.head.length = 6 := rfl
  rw [Slot.image256_eq, getD_padTo, List.getD_append_right _ _ _ _ (by omega), hhead, Nat.add_sub_cancel_left]

/-- Settles O25: reads of the directive window and of the staging buffer, and the layout of the window's pages. -/
theorem windowPageRead : Obligations.WindowPageRead := by
  refine ⟨fun a n s l hlink hr hl he hn => windowRead hlink hr hl he hn,
    fun a n s e hlink hr hl he hc hend hspace => stagingRead hlink hr hl he hc hend hspace, fun s => ?_, fun s n hn => ?_⟩
  · intro b w d
    refine ⟨?_, s.statusNat_leBytes (k := 0) 0 rfl rfl, s.statusNat_byte (k := 1) (i := 0) (v := 1) 2 rfl rfl rfl,
      s.statusNat_lifecycle, (s.statusNat_byte (k := 1) (i := 2) 4 rfl rfl rfl).trans (Bool.toNat_mod_256 _),
      (s.statusNat_byte (k := 1) (i := 3) 5 rfl rfl rfl).trans (Bool.toNat_mod_256 _),
      (s.statusNat_byte (k := 1) (i := 4) 6 rfl rfl rfl).trans ?_, (s.statusNat_byte (k := 1) (i := 5) 7 rfl rfl rfl).trans ?_,
      State.statusNat_region_none, fun r => State.statusNat_region, s.statusNat_byte (k := 3) (i := 0) 11 rfl rfl rfl,
      (s.statusNat_leBytes (k := 4) 12 rfl rfl).trans ?_, (s.statusNat_leBytes (k := 5) 14 rfl rfl).trans ?_, s.statusNat_queue,
      s.statusNat_byte (k := 10) (i := 0) 36 rfl rfl rfl, s.statusNat_byte (k := 10) (i := 1) 37 rfl rfl rfl, fun n hq hrun => ?_, fun hq => ?_,
      s.statusNat_byte (k := 10) (i := 3) 39 rfl rfl rfl, s.statusNat_byte (k := 10) (i := 4) 40 rfl rfl rfl,
      s.statusNat_byte (k := 10) (i := 5) 41 rfl rfl rfl, (s.statusNat_byte (k := 10) (i := 6) 42 rfl rfl rfl).trans (Bool.toNat_mod_256 _),
      (s.statusNat_byte (k := 10) (i := 7) 43 rfl rfl rfl).trans ?_, (s.statusNat_leBytes (k := 11) 44 rfl rfl).trans ?_, s.statusNat_coverage,
      fun h i hlow hhigh => s.statusNat_firstFailure_none h hlow hhigh, fun f => State.statusNat_firstFailure,
      fun h i hlow hhigh => s.statusNat_refused_none h hlow hhigh, fun r => State.statusNat_refused,
      s.statusNat_byte (k := 19) (i := 0) 84 rfl rfl rfl, fun i h => s.statusNat_reserved h⟩
    · rw [s.windowPage_zero, length_padTo (by rw [s.length_statusBlocks]; decide)]
    · cases s.live <;> rfl
    · cases s.key.window <;> rfl
    · exact Nat.mod_eq_of_lt (Nat.lt_trans s.dir.events.isLt (by decide))
    · exact Nat.mod_eq_of_lt (Nat.lt_trans s.dir.mask.isLt (by decide))
    · refine (s.statusNat_byte (k := 10) (i := 2) 38 rfl rfl rfl).trans ?_
      rw [State.runningSlot_of_running hq hrun]
    · refine (s.statusNat_byte (k := 10) (i := 2) 38 rfl rfl rfl).trans ?_
      rw [State.runningSlot_of_none hq]
    · cases s.uni.pass.bank <;> rfl
    · exact Nat.mod_eq_of_lt s.uni.pass.count.isLt
  · intro x b
    have hpage : s.windowPage n = x.image256 := if_neg hn
    have hb (i : Nat) : b i = x.image256.getD i 0 := by
      show (s.windowPage n).getD i 0 = _
      rw [hpage]
    refine ⟨fun hlen => ?_, ?_, (hb 1).trans (x.getD_image256_head (by decide)), (hb 2).trans (x.getD_image256_head (by decide)),
      (hb 3).trans (x.getD_image256_head (by decide)), ?_, ?_, fun i => (hb _).trans (x.getD_image256_data i)⟩
    · rw [hpage, Slot.image256_eq, length_padTo]
      rw [List.length_append]
      show 6 + _ ≤ 256
      omega
    · rw [hb, x.getD_image256_head (by decide)]
      show (byte x.state.num).toNat = _
      cases x.state <;> rfl
    · rw [hb, x.getD_image256_head (by decide)]
      show (match x.result with | some c => byte c.num | none => 0xFF : Byte).toNat = _
      cases x.result with
      | none => rfl
      | some c => exact c.byte_num
    · rw [hb, x.getD_image256_head (by decide)]
      exact byte_toNat _

end Sys2Proof.Machine
end

-- Proofs of the family 'other': reads of flash content.
section
/-! PROOFS. Reads of flash content (R25, R79, R90 to R92, R99, R102 to R104): the piece that is judged, its claim, and bytes that the overlay
fixes. -/

namespace Sys2Proof.Machine

/-! ### Segments of flash content (R25, R99) -/

/-- The segment of flash content that begins at `a` in entry `e`. -/
def MapEntry.flashSegment (e : MapEntry) (a : Nat) (q : QueueId) (base : Nat) : Segment :=
  { plainSegment a (e.ubase + e.size - 1) (some e.cls) .flash (a - e.ubase) with owner := q, phys := base + (a - e.ubase) }

theorem State.ReadsFlash.segmentOf {s : State} {l : Lifecycle} {e : MapEntry} {p : Port} {q : QueueId} {base : Nat}
    (h : s.ReadsFlash l e p q base) (a : Nat) : s.segmentOf p l e a = e.flashSegment a q base := by
  cases h with
  | passA hl hc hright => simp [State.segmentOf, hc, hl, hright, MapEntry.flashSegment, plainSegment]
  | passT hl hc hright => simp [State.segmentOf, hc, hl, hright, MapEntry.flashSegment, plainSegment]
  | settingsA hl hc => simp [State.segmentOf, hc, hl, MapEntry.flashSegment, plainSegment]
  | settingsT hl hc hright => simp [State.segmentOf, hc, hl, hright, MapEntry.flashSegment, plainSegment]
  | shadow hl hclosed hc => simp [State.segmentOf, hc, hl, hclosed, MapEntry.flashSegment, plainSegment]
  | live hl hc => simp [State.segmentOf, hc, hl, MapEntry.flashSegment, plainSegment]
  | key hl hopened hc hw => simp [State.segmentOf, hc, hl, hopened, hw, MapEntry.flashSegment, plainSegment]

theorem State.ReadsFlash.not_uniformity {s : State} {l : Lifecycle} {e : MapEntry} {p : Port} {q : QueueId} {base : Nat}
    (h : s.ReadsFlash l e p q base) : ¬ (p = .t ∧ e.cls = .uniformity ∧ l ≠ .safe) := by
  rintro ⟨hp, hcls, -⟩
  cases h with
  | passA _ hc _ | passT _ hc _ | settingsA _ hc | settingsT _ hc _ | key _ _ hc _ => rw [hcls] at hc; nomatch hc
  | shadow | live => nomatch hp

/-! ### The range of a piece (R102) -/

section
variable {x len n : Nat}

/-- The range of the first piece of a read that begins at physical address `x`, `len` bytes before the end of its segment. -/
def firstRange (x len n : Nat) : ReadRange := { page := pageOf x, lo := x % 256, hi := x % 256 + min (min (256 - x % 256) len) n - 1 }

theorem firstRange_length (hlen : 0 < len) (hn : 0 < n) :
    (firstRange x len n).hi + 1 - (firstRange x len n).lo = min (min (256 - x % 256) len) n := by
  have hmod : x % 256 < 256 := Nat.mod_lt _ (by decide)
  show x % 256 + min (min (256 - x % 256) len) n - 1 + 1 - x % 256 = _
  omega

theorem firstRange_low (hlen : 0 < len) (hn : 0 < n) : (firstRange x len n).lo ≤ (firstRange x len n).hi := by
  have hmod : x % 256 < 256 := Nat.mod_lt _ (by decide)
  show x % 256 ≤ x % 256 + min (min (256 - x % 256) len) n - 1
  omega

theorem firstRange_start : (firstRange x len n).page + (firstRange x len n).lo = x := by
  show x / 256 * 256 + x % 256 = x
  omega

theorem pieceRange_begun {a : Addr} {e : MapEntry} {q : QueueId} {base : Nat} (h : a.toNat < e.ubase + e.size) :
    pieceRange (Reading.begun a n (e.flashSegment a.toNat q base)) (e.flashSegment a.toNat q base) =
      firstRange (base + (a.toNat - e.ubase)) (e.ubase + e.size - a.toNat) n := by
  have hphys : (e.flashSegment a.toNat q base).physAt a.toNat = base + (a.toNat - e.ubase) := by
    rw [Segment.physAt]
    show base + (a.toNat - e.ubase) + (a.toNat - a.toNat) = _
    omega
  have hend : e.ubase + e.size - 1 + 1 - a.toNat = e.ubase + e.size - a.toNat := by omega
  show ({ page := pageOf ((e.flashSegment a.toNat q base).physAt a.toNat)
          lo := (e.flashSegment a.toNat q base).physAt a.toNat % 256
          hi := (e.flashSegment a.toNat q base).physAt a.toNat % 256 +
            min (min (256 - (e.flashSegment a.toNat q base).physAt a.toNat % 256) (e.ubase + e.size - 1 + 1 - a.toNat)) n - 1 } :
      ReadRange) = _
  rw [hphys, hend]
  rfl

end

/-! ### The overlay of an empty queue, and of one that fixes every byte (R103, R104) -/

theorem overlay_nil_not_fixed {r : ReadRange} (h : r.lo ≤ r.hi) : (overlay [] r).all Overlaid.fixed = false := by
  refine Bool.eq_false_iff.2 fun hall => ?_
  have hmem : overlayByte [] (r.page + r.lo + 0) ∈ overlay [] r := List.mem_map.2 ⟨0, List.mem_range.2 (by omega), rfl⟩
  exact Bool.false_ne_true (List.all_eq_true.1 hall _ hmem)

theorem unfixedRange_nil {r : ReadRange} (h : r.lo ≤ r.hi) : unfixedRange [] r = r := by
  have hopen : (List.range (r.hi + 1 - r.lo)).filter (fun i => !(overlayByte [] (r.page + r.lo + i)).fixed) =
      List.range (r.hi + 1 - r.lo) := List.filter_eq_self.2 fun _ _ => rfl
  have hlast : (List.range (r.hi + 1 - r.lo)).getLastD 0 = r.hi - r.lo := by
    have hsucc : r.hi + 1 - r.lo = (r.hi - r.lo) + 1 := by omega
    rw [hsucc, List.range_succ, List.getLastD_concat]
  have hfirst : (List.range (r.hi + 1 - r.lo)).headD 0 = 0 := by
    have hsucc : r.hi + 1 - r.lo = (r.hi - r.lo) + 1 := by omega
    rw [hsucc, List.range_succ_eq_map]
    rfl
  have hhi : r.lo + (r.hi - r.lo) = r.hi := by omega
  rw [unfixedRange]
  simp only [hopen, hlast, hfirst, Nat.add_zero, hhi]

section
variable {s : State} {p : Port} {seg : Segment} {r : ReadRange}

/-- With no entry in its owning queue a piece that is not of a pass claims its whole range (R104). -/
theorem State.judgePiece_of_empty (hq : s.entriesOf seg.owner = []) (hr : r.lo ≤ r.hi) (hpass : seg.inPass = false) :
    s.judgePiece p seg r = (s.setPiece p (.claim r)).raiseClaim (portClaimant p) (some r) := by
  simp only [State.judgePiece, hq, overlay_nil_not_fixed hr, headPreReads, hpass, State.claimPiece, unfixedRange_nil hr,
    Bool.false_eq_true, if_false]

theorem overlay_fixed {l : List Entry} (h : ∀ i < r.hi + 1 - r.lo, (overlayByte l (r.page + r.lo + i)).fixed = true) :
    (overlay l r).all Overlaid.fixed = true := by
  refine List.all_eq_true.2 fun x hx => ?_
  obtain ⟨i, hi, rfl⟩ := List.mem_map.1 hx
  exact h i (List.mem_range.1 hi)

theorem State.judgePiece_of_fixed
    (h : ∀ i < r.hi + 1 - r.lo, (overlayByte (s.entriesOf seg.owner) (r.page + r.lo + i)).fixed = true) :
    s.judgePiece p seg r = s.setPiece p (.ready ((overlay (s.entriesOf seg.owner) r).map Overlaid.value)) := by
  rw [State.judgePiece]
  exact if_pos (overlay_fixed h)

theorem State.preparePiece_of_flash {rd : Reading} (hsrc : seg.source = .flash) (hpass : seg.inPass = false) :
    s.preparePiece p rd seg = s.judgePiece p seg (pieceRange rd seg) := by
  simp only [State.preparePiece, hsrc, hpass, Bool.false_eq_true, if_false]

end

/-! ### A read that is held (R52) -/

section
variable {s u w : State} {p r : Port} {a : Addr} {n : Nat} {l : Lifecycle} {rd rd' : Reading} {seg : Segment}

/-- A READ whose first piece is not ready once it has been prepared ends in the state so reached. -/
theorem exec_read_of_held (hne : p ≠ r) (hlink : (s.port p).link = .idle) (hr : s.reading r = none) (hn : 0 < n)
    (hform : deliver n p (s.readOpened p a n) = deliver n p w) (hrw : w.reading p = some rd) (hsegw : rd.seg = some seg)
    (hsrc : seg.source = .flash) (hlw : w.life.lifecycle = some l) (hww : rd.want = n) (hpw : rd.piece = .fresh)
    (hprep : w.preparePiece p rd seg = u) (hru : u.reading p = some rd') (hsegu : rd'.seg = some seg) (hlu : u.life.lifecycle = some l)
    (hwu : rd'.want = n) (hpu : rd'.piece ≠ .fresh) (hready : ∀ b, rd'.piece ≠ .ready b) :
    exec (.read p (some a) n) s = .next u := by
  have hheld : seg.source ≠ .held := by rw [hsrc]; decide
  have hn' : n ≠ 0 := Nat.ne_of_gt hn
  have hstep : w.deliverByte p = u.deliverByte p :=
    State.deliverByte_of_prepared hrw hsegw hheld hlw (hww ▸ hn') hpw hprep hru hsegu hpu hlu (hwu ▸ hn')
  have hstuck : u.deliverByte p = (u, false) := State.deliverByte_of_waiting hru hsegu hsrc hlu (hwu ▸ hn') hpu hready
  rw [exec_read hne hlink hr, hform, deliver_succ_congr hstep hn, deliver_of_stuck hstuck]

end

/-! ### A read that claims (R79, R82, R90) -/

/-- The state in which a read's first piece claims its range, before the claim is raised. -/
def State.readWaiting (s : State) (p : Port) (a : Addr) (n : Nat) (seg : Segment) (x : ReadRange) : State :=
  (s.readBegun p a n seg).setReading p { Reading.begun a n seg with piece := .claim x }

section
variable {s : State} {p : Port} {a : Addr} {n : Nat} {seg : Segment} {x : ReadRange}

theorem State.readWaiting_apart : Apart s (s.readWaiting p a n seg x) := (s.readBegun_apart p a n seg).trans (Apart.setReading ..)

theorem State.engine_readWaiting : (s.readWaiting p a n seg x).engine = s.engine := by cases p <;> rfl

theorem State.queues_readWaiting : (s.readWaiting p a n seg x).queues = s.queues := by cases p <;> rfl

theorem State.returned_readWaiting : ((s.readWaiting p a n seg x).port p).returned = [] := by cases p <;> rfl

theorem State.reading_readWaiting : (s.readWaiting p a n seg x).reading p = some { Reading.begun a n seg with piece := .claim x } :=
  State.reading_setReading ..

end

/-- A READ of flash content over an empty owning queue raises the port's claim for its first piece and is held. -/
theorem exec_read_of_flash {s : State} {p r : Port} {a : Addr} {n : Nat} {l : Lifecycle} {e : MapEntry} {q : QueueId} {base : Nat}
    (hne : p ≠ r) (hlink : (s.port p).link = .idle) (hr : s.reading r = none) (hl : s.life.lifecycle = some l)
    (he : findEntry s.entries a.toNat = some e) (hflash : s.ReadsFlash l e p q base) (hn : 0 < n) (hq : s.entriesOf q = []) :
    exec (.read p (some a) n) s = .next
      ((s.readWaiting p a n (e.flashSegment a.toNat q base)
        (firstRange (base + (a.toNat - e.ubase)) (e.ubase + e.size - a.toNat) n)).raiseClaim (portClaimant p)
          (some (firstRange (base + (a.toNat - e.ubase)) (e.ubase + e.size - a.toNat) n))) := by
  generalize hx : firstRange (base + (a.toNat - e.ubase)) (e.ubase + e.size - a.toNat) n = x
  generalize hseg : e.flashSegment a.toNat q base = seg
  have hholds := (findEntry_holds he).2
  have hform : (s.readOpened p a n).formSegment p (Reading.open a n) l = s.readBegun p a n seg := by
    rw [← hseg, ← hflash.segmentOf]
    exact State.formSegment_readOpened he hflash.not_uniformity
  have hsrc : seg.source = .flash := by rw [← hseg]; rfl
  have hlow : x.lo ≤ x.hi := by
    rw [← hx]
    exact firstRange_low (by omega) hn
  have hrange : pieceRange (Reading.begun a n seg) seg = x := by
    rw [← hx, ← hseg]
    exact pieceRange_begun hholds
  have hbegun := s.readBegun_apart p a n seg
  have hentries : (s.readBegun p a n seg).entriesOf seg.owner = [] := by
    rw [← hseg]
    cases p <;> exact hq
  have hprep : (s.readBegun p a n seg).preparePiece p (Reading.begun a n seg) seg =
      (s.readWaiting p a n seg x).raiseClaim (portClaimant p) (some x) := by
    rw [State.preparePiece_of_flash hsrc (by rw [← hseg]; rfl), hrange,
      State.judgePiece_of_empty hentries hlow (by rw [← hseg]; rfl), State.setPiece_of_reading (s.reading_readBegun p a n seg)]
    rfl
  have honly := ArbiterOnly.raiseClaim (s.readWaiting p a n seg x) (portClaimant p) (some x)
  have hport : ((s.readWaiting p a n seg x).raiseClaim (portClaimant p) (some x)).port p = (s.readWaiting p a n seg x).port p := by
    cases p
    · exact honly.portA
    · exact honly.portT
  exact exec_read_of_held hne hlink hr hn (State.deliver_readBegun hl hn (by rw [hsrc]; decide) hform) (s.reading_readBegun p a n seg) rfl
    hsrc (hbegun.life.symm ▸ hl) rfl rfl hprep ((State.reading_of_port hport).trans State.reading_readWaiting) rfl
    (by rw [honly.life, State.readWaiting_apart.life]; exact hl) rfl nofun nofun

/-! ### What becomes of the claim (R79, R82, R90, R91) -/

theorem portClaimant_cases (p : Port) : portClaimant p = .tRead ∨ portClaimant p = .aRead := by cases p <;> decide

theorem portClaimant_other {p r : Port} (hne : p ≠ r) {c : Claimant} (hc : c = .tRead ∨ c = .aRead) (h : c ≠ portClaimant p) :
    c = portClaimant r := by
  cases p with
  | a =>
    cases r with
    | a => exact absurd rfl hne
    | t => exact hc.resolve_right h
  | t =>
    cases r with
    | a => exact hc.resolve_left h
    | t => exact absurd rfl hne

section
variable {s : State} {p r : Port} {x : ReadRange}

/-- A port's claim that cannot preempt stands (R79, R90). -/
theorem State.raiseClaim_port_stands (hne : p ≠ r) (hfree : s.engine.write ≠ none ∨ s.engine.read ≠ none)
    (hdisc : ∀ y, s.engine.read = some y → y.claimant = portClaimant p → y.discard = false) (hother : s.claim (portClaimant r) = none)
    (hbar : ∀ w, s.engine.write = some w → s.headState w = some (.active .wait) → s.engine.suspendCount < s.engine.limit →
      64 * s.engine.weights.get (portClaimant p) < s.engine.bar) :
    s.raiseClaim (portClaimant p) (some x) = s.setClaim (portClaimant p) (some (s.newClaim (some x))) := by
  have hdiscarding : s.discarding (portClaimant p) = false := by
    rw [State.discarding]
    split
    · next y hy =>
      by_cases hc : y.claimant = portClaimant p
      · simp [hc, hdisc y hy hc]
      · simp [hc]
    · rfl
  have hbusy : s.portFree = false := by
    rw [State.portFree]
    rcases hfree with h | h
    · rw [Option.isNone_eq_false_iff.2 (Option.isSome_iff_ne_none.2 h), Bool.false_and]
    · rw [Option.isNone_eq_false_iff.2 (Option.isSome_iff_ne_none.2 h), Bool.and_false]
  have hport : isPortRead (portClaimant p) = true := by cases p <;> rfl
  rw [State.raiseClaim, hdiscarding, hbusy, hport, if_neg Bool.false_ne_true, if_neg Bool.false_ne_true, if_pos rfl]
  refine State.judgePreempt_of_not fun w hw => ?_
  by_cases hwait : s.headState w = some (.active .wait)
  · by_cases hlimit : s.engine.suspendCount < s.engine.limit
    · refine Or.inr (Or.inr fun c cl hc hcl => ?_)
      by_cases hown : c = portClaimant p
      · subst hown
        rw [State.claim_setClaim] at hcl
        cases hcl
        exact hbar w hw hwait hlimit
      · have hnone : (s.setClaim (portClaimant p) (some (s.newClaim (some x)))).claim c = none :=
          (PerClaimant.get_put_ne _ _ hown).trans (portClaimant_other hne hc hown ▸ hother)
        rw [hnone] at hcl
        nomatch hcl
    · exact Or.inr (Or.inl (Nat.le_of_not_lt hlimit))
  · exact Or.inl hwait

/-- A port's claim raised at the bar suspends the operation in WAIT and is granted (R90 to R92, R94). -/
theorem State.raiseClaim_port_suspends {w : QueueId} (hne : p ≠ r) (hwrite : s.engine.write = some w)
    (hwait : s.headState w = some (.active .wait)) (hread : s.engine.read = none) (hother : s.claim (portClaimant r) = none)
    (hlimit : s.engine.suspendCount < s.engine.limit) (hbar : s.engine.bar ≤ 64 * s.engine.weights.get (portClaimant p)) :
    s.raiseClaim (portClaimant p) (some x) =
      { s.setHead w (fun e => { e with state := .suspended }) with
        engine := { s.engine with
          claims := (s.engine.claims.put (portClaimant p) (some (s.newClaim (some x)))).put (portClaimant p) none
          read := some { claimant := portClaimant p, range := x, discard := false }
          suspendCount := s.engine.suspendCount + 1 } } := by
  have hdiscarding : s.discarding (portClaimant p) = false := by rw [State.discarding, hread]
  have hbusy : s.portFree = false := by rw [State.portFree, hwrite]; rfl
  have hport : isPortRead (portClaimant p) = true := by cases p <;> rfl
  have hcl : (s.setClaim (portClaimant p) (some (s.newClaim (some x)))).claim (portClaimant p) = some (s.newClaim (some x)) :=
    State.claim_setClaim ..
  have honly (d : Claimant) (hd : d ≠ portClaimant p) (hc : d = .tRead ∨ d = .aRead) :
      (s.setClaim (portClaimant p) (some (s.newClaim (some x)))).claim d = none :=
    (PerClaimant.get_put_ne _ _ hd).trans (portClaimant_other hne hc hd ▸ hother)
  rw [State.raiseClaim, hdiscarding, hbusy, hport, if_neg Bool.false_ne_true, if_neg Bool.false_ne_true, if_pos rfl,
    State.judgePreempt_of_bar (s := s.setClaim (portClaimant p) (some (s.newClaim (some x)))) hwrite hwait hlimit
      (portClaimant_cases p) hcl (Nat.le_trans hbar (Nat.le_add_right ..)),
    State.suspend_eq (s := s.setClaim (portClaimant p) (some (s.newClaim (some x)))) hread hwrite (by
      show s.headState w ≠ none
      rw [hwait]
      exact nofun) (State.highest_of_only (portClaimant_cases p) hcl honly) hcl rfl]
  rfl

end

/-! ### Bytes that the overlay fixes (R103, R104) -/

theorem overlay_values {l : List Entry} {x len n : Nat} (hn : (firstRange x len n).hi + 1 - (firstRange x len n).lo = n) :
    (overlay l (firstRange x len n)).map Overlaid.value = (List.range n).map fun i => (overlayByte l (x + i)).value := by
  rw [overlay, hn, List.map_map, firstRange_start]
  rfl

/-- A READ whose bytes the overlay fixes is answered in its own event. -/
theorem fixedRead {s : State} {p r : Port} {a : Addr} {n : Nat} {l : Lifecycle} {e : MapEntry} {q : QueueId} {base : Nat}
    (hne : p ≠ r) (hlink : (s.port p).link = .idle) (hr : s.reading r = none) (hl : s.life.lifecycle = some l)
    (he : findEntry s.entries a.toNat = some e) (hflash : s.ReadsFlash l e p q base) (hn : 0 < n)
    (hpage : n ≤ 256 - (base + (a.toNat - e.ubase)) % 256) (hend : a.toNat + n ≤ e.ubase + e.size) (hspace : a.toNat + n ≤ 0x2000000)
    (hfixed : ∀ i < n, (overlayByte (s.entriesOf q) (base + (a.toNat - e.ubase) + i)).fixed = true) :
    Completes (.read p (some a) n) s fun t =>
      (t.port p).returned = (List.range n).map (fun i => (overlayByte (s.entriesOf q) (base + (a.toNat - e.ubase) + i)).value) ∧
      t.engine = s.engine ∧ Apart s t := by
  have hholds := (findEntry_holds he).2
  have hcount : (firstRange (base + (a.toNat - e.ubase)) (e.ubase + e.size - a.toNat) n).hi + 1 -
      (firstRange (base + (a.toNat - e.ubase)) (e.ubase + e.size - a.toNat) n).lo = n := by
    rw [firstRange_length (by omega) hn]
    omega
  have hrange := pieceRange_begun (n := n) (q := q) (base := base) hholds
  have hvalues := overlay_values (l := s.entriesOf q) hcount
  have hstart := firstRange_start (x := base + (a.toNat - e.ubase)) (len := e.ubase + e.size - a.toNat) (n := n)
  generalize firstRange (base + (a.toNat - e.ubase)) (e.ubase + e.size - a.toNat) n = x at hcount hrange hvalues hstart
  have howner : (e.flashSegment a.toNat q base).owner = q := rfl
  have hsrc : (e.flashSegment a.toNat q base).source = .flash := rfl
  have hpass : (e.flashSegment a.toNat q base).inPass = false := rfl
  have hlast : (e.flashSegment a.toNat q base).last = e.ubase + e.size - 1 := rfl
  generalize hseg : e.flashSegment a.toNat q base = seg at hrange howner hsrc hpass hlast
  have hform : (s.readOpened p a n).formSegment p (Reading.open a n) l = s.readBegun p a n seg := by
    rw [← hseg, ← hflash.segmentOf]
    exact State.formSegment_readOpened he hflash.not_uniformity
  have hheld : seg.source ≠ .held := by rw [hsrc]; decide
  have hbegun := s.readBegun_apart p a n seg
  have hentries : (s.readBegun p a n seg).entriesOf seg.owner = s.entriesOf q := by
    rw [howner]
    cases p <;> rfl
  have hprep : (s.readBegun p a n seg).preparePiece p (Reading.begun a n seg) seg =
      (s.readBegun p a n seg).setReading p { Reading.begun a n seg with
        piece := .ready ((List.range n).map fun i => (overlayByte (s.entriesOf q) (base + (a.toNat - e.ubase) + i)).value) } := by
    rw [State.preparePiece_of_flash hsrc hpass, hrange, State.judgePiece_of_fixed, State.setPiece_of_reading (s.reading_readBegun p a n seg),
      hentries, hvalues]
    rw [hentries, hcount, hstart]
    exact hfixed
  have hlen : ((List.range n).map fun i => (overlayByte (s.entriesOf q) (base + (a.toNat - e.ubase) + i)).value).length = n := by
    rw [List.length_map, List.length_range]
  refine completes_read (u := (s.readBegun p a n seg).setReading p { Reading.begun a n seg with
      piece := .ready ((List.range n).map fun i => (overlayByte (s.entriesOf q) (base + (a.toNat - e.ubase) + i)).value) })
    (seg := seg) hne hlink hr hl (fun hpos => ?_) (hbegun.trans (Apart.setReading _ p _)) (by cases p <;> rfl)
    (State.reading_setReading _ p _) rfl hheld rfl (by cases p <;> rfl) (State.provides_ready (Or.inr hsrc) _ [] ?_ ?_ ?_) hlen
  · rw [State.deliver_readBegun hl hpos hheld hform]
    exact deliver_succ_congr (State.deliverByte_of_prepared (s.reading_readBegun p a n seg) rfl hheld (hbegun.life.symm ▸ hl)
      (Nat.ne_of_gt hpos) rfl hprep (State.reading_setReading _ p _) rfl (fun h => nomatch h)
      (by rw [(Apart.setReading _ p _).life]; exact hbegun.life.symm ▸ hl) (Nat.ne_of_gt hpos)) hpos
  · rw [List.append_nil]
  · rw [hlen, hlast]
    show a.toNat + n ≤ _
    omega
  · rw [hlen]
    exact hspace

/-- What a READ of flash content comes to, by the state of its owning queue and of Port F. -/
theorem flashRead {s : State} {p r : Port} {a : Addr} {n : Nat} {l : Lifecycle} {e : MapEntry} {q : QueueId} {base : Nat}
    (hne : p ≠ r) (hlink : (s.port p).link = .idle) (hr : s.reading r = none) (hl : s.life.lifecycle = some l)
    (he : findEntry s.entries a.toNat = some e) (hflash : s.ReadsFlash l e p q base) (hn : 0 < n) :
    let x := base + (a.toNat - e.ubase)
    let range : ReadRange :=
      { page := pageOf x, lo := x % 256, hi := x % 256 + min (min (256 - x % 256) (e.ubase + e.size - a.toNat)) n - 1 }
    (s.entriesOf q = [] → s.engine.write = none → s.engine.read = none →
      Completes (.read p (some a) n) s fun t =>
        t.engine.read = some { claimant := portClaimant p, range := range, discard := false } ∧
        (t.port p).returned = [] ∧ Apart s t) ∧
    (∀ w, s.entriesOf q = [] → s.engine.write = some w → s.headState w = some (.active .wait) → s.engine.read = none →
      s.claim (portClaimant r) = none → s.engine.suspendCount < s.engine.limit →
      s.engine.bar ≤ 64 * s.engine.weights.get (portClaimant p) →
      Completes (.read p (some a) n) s fun t =>
        t.headState w = some .suspended ∧ t.engine.suspendCount = s.engine.suspendCount + 1 ∧ t.claim (portClaimant p) = none ∧
        t.engine.read = some { claimant := portClaimant p, range := range, discard := false } ∧ (t.port p).returned = [] ∧
        Apart s t) ∧
    (s.entriesOf q = [] → s.engine.write ≠ none ∨ s.engine.read ≠ none →
      (∀ y, s.engine.read = some y → y.claimant = portClaimant p → y.discard = false) → s.claim (portClaimant r) = none →
      (∀ w, s.engine.write = some w → s.headState w = some (.active .wait) → s.engine.suspendCount < s.engine.limit →
        64 * s.engine.weights.get (portClaimant p) < s.engine.bar) →
      Completes (.read p (some a) n) s fun t =>
        t.engine = { s.engine with
          claims := s.engine.claims.put (portClaimant p) (some { range := some range, aged := 0, due := s.engine.interval }) } ∧
        (t.port p).returned = [] ∧ Apart s t) := by
  intro x range
  have hread (hq : s.entriesOf q = []) : exec (.read p (some a) n) s = .next
      ((s.readWaiting p a n (e.flashSegment a.toNat q base) range).raiseClaim (portClaimant p) (some range)) :=
    exec_read_of_flash hne hlink hr hl he hflash hn hq
  generalize hu : s.readWaiting p a n (e.flashSegment a.toNat q base) range = u at hread
  have hengine : u.engine = s.engine := hu ▸ State.engine_readWaiting
  have hqueues : u.queues = s.queues := hu ▸ State.queues_readWaiting
  have hreturned : (u.port p).returned = [] := hu ▸ State.returned_readWaiting
  have hapart : Apart s u := hu ▸ State.readWaiting_apart
  have hhead (w : QueueId) : u.headState w = s.headState w := by rw [State.headState, State.entriesOf, hqueues]; rfl
  have hclaim (c : Claimant) : u.claim c = s.claim c := by rw [State.claim, hengine]; rfl
  have hend (hq : s.entriesOf q = []) {P : State → Prop} (hP : ∀ t, t = u.raiseClaim (portClaimant p) (some range) →
      (t.port p).returned = [] → Apart s t → P t) : Completes (.read p (some a) n) s P := by
    refine ⟨_, hread hq, hP _ rfl ?_ (hapart.trans (Apart.raiseClaim ..))⟩
    have honly := ArbiterOnly.raiseClaim u (portClaimant p) (some range)
    have hport : (u.raiseClaim (portClaimant p) (some range)).port p = u.port p := by
      cases p
      · exact honly.portA
      · exact honly.portT
    rw [hport, hreturned]
  have hsuspends (w : QueueId) (hwrite : s.engine.write = some w) (hwait : s.headState w = some (.active .wait))
      (hread' : s.engine.read = none) (hother : s.claim (portClaimant r) = none) (hlimit : s.engine.suspendCount < s.engine.limit)
      (hbar : s.engine.bar ≤ 64 * s.engine.weights.get (portClaimant p)) :=
    State.raiseClaim_port_suspends (s := u) (x := range) hne (by rw [hengine]; exact hwrite) (by rw [hhead]; exact hwait)
      (by rw [hengine]; exact hread') (by rw [hclaim]; exact hother) (by rw [hengine]; exact hlimit) (by rw [hengine]; exact hbar)
  refine ⟨fun hq hwrite hread' => hend hq fun t ht hret ha => ⟨?_, hret, ha⟩,
    fun w hq hwrite hwait hread' hother hlimit hbar => hend hq fun t ht hret ha => ⟨?_, ?_, ?_, ?_, hret, ha⟩,
    fun hq hfree hdisc hother hbar => hend hq fun t ht hret ha => ⟨?_, hret, ha⟩⟩
  · rw [ht, State.raiseClaim_of_free (by rw [State.portFree, hengine, hwrite, hread']; rfl) (claimQueue_of_port (portClaimant_cases p))]
  · rw [ht, hsuspends w hwrite hwait hread' hother hlimit hbar]
    exact State.headState_setHead_state (by rw [hhead, hwait]; exact nofun) fun _ => rfl
  · rw [ht, hsuspends w hwrite hwait hread' hother hlimit hbar, hengine]
  · rw [ht, hsuspends w hwrite hwait hread' hother hlimit hbar]
    exact PerClaimant.get_put ..
  · rw [ht, hsuspends w hwrite hwait hread' hother hlimit hbar]
  · rw [ht, State.raiseClaim_port_stands hne (by rw [hengine]; exact hfree) (by rw [hengine]; exact hdisc) (by rw [hclaim]; exact hother)
      (by
        rw [hengine]
        intro w
        rw [hhead]
        exact hbar w)]
    show ({ u.engine with claims := u.engine.claims.put _ (some (u.newClaim _)) } : Engine) = _
    rw [State.newClaim, hengine]

end Sys2Proof.Machine
end

-- Proofs of the family 'other': the control record's validity and the start-up table.
section
/-! PROOFS. The control record: what makes it valid, the start-up table (R7, R12), and reading back what was written (R6). -/

namespace Sys2Proof.Machine

/-! ### What a valid record is (R7) -/

/-- The bytes hold the record: every condition of R7, with the value of every field. -/
structure RecordHeld (m : Mem) (r : ControlRecord) : Prop where
  marker : Mem.slice m 0 4 = recordMarker
  second : Mem.slice m 256 4 = recordMarker
  version : leNat (Mem.slice m 4 2) = 1
  check : (crc32 (Mem.slice m 0 508)).toNat = leNat (Mem.slice m 508 4)
  lifecycle : recordedLifecycle (Mem.get m 6).toNat = some r.lifecycle
  live : bankOf (Mem.get m 7).toNat = some r.fields.live
  region : rawRegion m = some r.fields.region
  map : rawMapOk m = some r.fields.map
  bundleLen : leNat (Mem.slice m 8 2) = r.fields.bundleLen
  bundleOk : r.fields.bundleLen = 0 ∨ 64 ≤ r.fields.bundleLen ∧ r.fields.bundleLen ≤ 4096
  count : (Mem.get m 10).toNat ≤ 8
  scopes : rawScopes m (Mem.get m 10).toNat = r.fields.scopes
  time : leNat (Mem.slice m 38 2) = r.fields.releaseTime
  timeOk : 100 ≤ r.fields.releaseTime ∧ r.fields.releaseTime ≤ 10000
  code : (if Mem.get m 40 = 1 then some (Mem.slice m 41 16) else none) = r.fields.code

theorem RecordHeld.of_readRecord {m : Mem} {r : ControlRecord} (h : readRecord m = some r) : RecordHeld m r := by
  rw [readRecord] at h
  split at h
  · next hmarks =>
    obtain ⟨marker, second, version, check⟩ := hmarks
    split at h
    · next l b g map hl hb hg hmap =>
      obtain ⟨⟨hlen, hcount, hlow, hhigh⟩, h⟩ := Option.ite_none_right_eq_some.1 h
      rw [Option.some_inj] at h
      subst h
      exact ⟨marker, second, version, check, hl, hb, hg, hmap, rfl, hlen, hcount, rfl, rfl, ⟨hlow, hhigh⟩, rfl⟩
    · nomatch h
  · nomatch h

theorem RecordHeld.readRecord {m : Mem} {r : ControlRecord} (h : RecordHeld m r) : readRecord m = some r := by
  rw [Machine.readRecord, if_pos ⟨h.marker, h.second, h.version, h.check⟩, h.lifecycle, h.live, h.region, h.map]
  show (if _ then _ else _) = _
  rw [h.bundleLen, h.scopes, h.time, h.code, if_pos ⟨h.bundleOk, h.count, h.timeOk⟩]

/-- Where a condition of R7 fails no record is read. -/
theorem readRecord_eq_none {m : Mem} {c : Prop} (h : ∀ r, RecordHeld m r → ¬ c) (hc : c) : readRecord m = none :=
  Option.eq_none_iff_forall_ne_some.2 fun r hr => h r (.of_readRecord hr) hc

theorem leNat_slice_four (m : Mem) (a : Nat) :
    leNat (Mem.slice m a 4) = (Mem.get m a).toNat + 256 * (Mem.get m (a + 1)).toNat +
      65536 * ((Mem.get m (a + 2)).toNat + 256 * (Mem.get m (a + 3)).toNat) := by
  simp [Mem.slice, leNat, List.range_succ]
  omega

/-! ### The fields with few values -/

theorem recordedLifecycle_eq_some {k : Nat} {l : Lifecycle} :
    recordedLifecycle k = some l ↔ k = l.num ∧ l ≠ .blank ∧ l ≠ .safe := by
  unfold recordedLifecycle
  split <;> cases l <;> simp_all [Lifecycle.num]

theorem bankOf_eq_some {k : Nat} {b : Bank} : bankOf k = some b ↔ k = b.num := by
  unfold bankOf
  split <;> cases b <;> simp_all [Bank.num]

theorem rawRegion_eq_some {m : Mem} {g : Option Region} :
    rawRegion m = some g ↔
      match g with
      | none => leNat (Mem.slice m 35 2) = 0 ∧ (Mem.get m 37).toNat = 0
      | some x => leNat (Mem.slice m 35 2) = x.code ∧ (Mem.get m 37).toNat = x.family.num ∧ 1 ≤ x.code ∧ x.code ≤ 4095 := by
  rw [rawRegion]
  by_cases hnone : leNat (Mem.slice m 35 2) = 0 ∧ (Mem.get m 37).toNat = 0
  · rw [if_pos hnone]
    cases g with
    | none => simp only [hnone, and_self]
    | some x =>
      refine iff_of_false nofun fun ⟨hc, _, hlow, _⟩ => ?_
      omega
  · rw [if_neg hnone]
    split
    · next hcode =>
      rw [Option.map_eq_some_iff]
      cases g with
      | none => exact iff_of_false (by simp) hnone
      | some x =>
        constructor
        · rintro ⟨f, hf, hx⟩
          cases hx
          exact ⟨rfl, familyOf_eq_some.1 hf, hcode⟩
        · rintro ⟨hc, hf, -⟩
          exact ⟨x.family, familyOf_eq_some.2 hf, by rw [hc]⟩
    · next hcode =>
      cases g with
      | none => exact iff_of_false nofun hnone
      | some x =>
        refine iff_of_false nofun fun ⟨hc, _, hx⟩ => hcode ?_
        rw [hc]
        exact hx

theorem rawMapOk_eq_some {m : Mem} {map : List (Option MapEntry)} :
    rawMapOk m = some map ↔ (rawMap m).map RawEntry.entry = map ∧ (∀ r ∈ rawMap m, r.badOffset = none) ∧
      (rawMap m).map RawEntry.number = List.range 15 ∧ mapConsistent map = true := by
  rw [rawMapOk]
  simp only [List.all_eq_true, Option.isNone_iff_eq_none]
  split
  · next h =>
    rw [Option.some_inj]
    exact ⟨fun hm => ⟨hm, h.1, h.2.1, hm ▸ h.2.2⟩, fun hm => hm.1⟩
  · next h => exact iff_of_false nofun fun ⟨hm, hbad, hnum, hcons⟩ => h ⟨hbad, hnum, hm ▸ hcons⟩

/-! ### The map's entries (R34) -/

theorem classOf_eq_some {k : Nat} {c : RegionClass} : classOf k = some c ↔ k = c.num ∧ c ≠ .directive := by
  unfold classOf
  split <;> cases c <;> simp_all [RegionClass.num]

theorem rightOf_num (k : Nat) (h : k ≤ 2) : (rightOf k).num = k := by
  interval_cases k <;> rfl

theorem ite_some_eq_none_iff {α : Type} {c : Prop} [Decidable c] {a : α} {x : Option α} :
    (if c then some a else x) = none ↔ ¬ c ∧ x = none := by
  by_cases h : c <;> simp [h]

/-- What SET-MAP's checks leave to an enabled entry's parameters. -/
theorem RawEntry.badOffset_eq_none_iff {r : RawEntry} {c : RegionClass} (hen : r.enabled = 1) (hc : classOf r.cls = some c) :
    r.badOffset = none ↔
      r.number ≤ 14 ∧ (r.aRight ≤ 2 ∧ (r.aRight ≠ 0 → c = .pass)) ∧
      (r.tRight ≤ 1 ∧ (r.tRight ≠ 0 → c ≠ .uniformity ∧ c ≠ .key)) ∧ (r.posted ≤ 1 ∧ (r.posted ≠ 0 → c = .pass)) ∧
      r.reserved = 0 ∧ r.ubase % 4096 = 0 ∧ (r.size % 4096 = 0 ∧ sizeOk c r.size = true ∧ r.ubase + r.size ≤ spaceSize) ∧
      baseOk r.ubase r.size r.pbase = true ∧
      (if c = .uniformity then baseOk r.ubase r.size r.pbase2 = true else r.pbase2 = 0) := by
  have hlast : (if c = .uniformity then (if baseOk r.ubase r.size r.pbase2 = false then some 20 else none)
      else if r.pbase2 ≠ 0 then some 20 else none) = none ↔
      (if c = .uniformity then baseOk r.ubase r.size r.pbase2 = true else r.pbase2 = 0) := by
    by_cases hu : c = .uniformity <;> simp [hu]
  simp only [RawEntry.badOffset, hen, hc, Nat.lt_irrefl, if_false, Nat.one_ne_zero, ite_some_eq_none_iff, hlast, not_or, not_and,
    Nat.not_lt, Decidable.not_not, Bool.not_eq_false]

/-- A parameter block without a bad offset describes an entry in its ranges. -/
theorem RawEntry.entry_ok {r : RawEntry} {e : MapEntry} (hbad : r.badOffset = none) (he : r.entry = some e) : e.ok := by
  rw [RawEntry.entry] at he
  split at he
  · next hen =>
    obtain ⟨c, hc, rfl⟩ := Option.map_eq_some_iff.1 he
    obtain ⟨-, ⟨hA, hAclass⟩, ⟨hT, hTclass⟩, ⟨hposted, hpostedClass⟩, -, hubase, ⟨hsize, hsizeOk, hend⟩, hbase, hbase2⟩ :=
      (RawEntry.badOffset_eq_none_iff hen hc).1 hbad
    have hclass := (classOf_eq_some.1 hc).2
    refine ⟨hclass, fun h => hAclass fun h0 => h (by rw [h0]; rfl), fun h => ?_, fun h => ?_, fun h => hpostedClass ?_, hubase,
      hsize, hsizeOk, hend, hbase, hbase2⟩
    · have hnum := rightOf_num r.tRight (by omega)
      change rightOf r.tRight = .readWrite at h
      rw [h] at hnum
      change 2 = r.tRight at hnum
      omega
    · obtain ⟨hu, hk⟩ := hTclass fun h0 => h (by rw [h0]; rfl)
      show c = .pass ∨ c = .settings
      cases c
      case pass => exact .inl rfl
      case settings => exact .inr rfl
      case uniformity => exact absurd rfl hu
      case key => exact absurd rfl hk
      case directive => exact absurd rfl hclass
    · rw [of_decide_eq_true h]
      exact Nat.one_ne_zero
  · nomatch he

/-- The numbers of the enabled entries are their places. -/
theorem mem_enabledFrom {l : List (Option MapEntry)} {i k : Nat} {e : MapEntry} (h : l[i]? = some (some e)) :
    (k + i, e) ∈ enabledFrom k l := by
  induction l generalizing i k with
  | nil => nomatch h
  | cons x l ih =>
    cases i with
    | zero =>
      cases h
      exact List.mem_cons_self
    | succ i =>
      have hrest := ih (k := k + 1) (i := i) h
      rw [Nat.add_right_comm, Nat.add_assoc] at hrest
      cases x with
      | none => exact hrest
      | some x => exact List.mem_cons_of_mem _ hrest

theorem conflict_of_mapConsistent {map : List (Option MapEntry)} {i : Nat} {e : MapEntry} (h : mapConsistent map = true)
    (he : map[i]? = some (some e)) : conflict i e (mapEntries map) = none := by
  have hmem := mem_enabledFrom (k := 0) he
  rw [Nat.zero_add] at hmem
  exact Option.isNone_iff_eq_none.1 (List.all_eq_true.1 h _ hmem)

theorem RecordHeld.ok {m : Mem} {r : ControlRecord} (h : RecordHeld m r) : r.ok := by
  obtain ⟨hentries, hbad, -, hcons⟩ := rawMapOk_eq_some.1 h.map
  obtain ⟨-, hblank, hsafe⟩ := recordedLifecycle_eq_some.1 h.lifecycle
  refine ⟨hblank, hsafe, ?_, fun e he => ?_, hcons, h.bundleOk, ?_, fun x hx => ?_, fun g hg => ?_, h.timeOk.1, h.timeOk.2,
    fun c hc => ?_⟩
  · rw [← hentries]
    rfl
  · rw [← hentries] at he
    obtain ⟨raw, hraw, heq⟩ := List.mem_map.1 he
    exact RawEntry.entry_ok (hbad raw hraw) heq
  · rw [← h.scopes, rawScopes, List.length_map, List.length_range]
    exact h.count
  · rw [← h.scopes] at hx
    obtain ⟨i, -, rfl⟩ := List.mem_map.1 hx
    have hlow := (Mem.get m (11 + 3 * i)).isLt
    have hhigh := (Mem.get m (11 + 3 * i + 1)).isLt
    show leNat (Mem.slice m (11 + 3 * i) 2) < 65536
    rw [leNat_slice_two]
    omega
  · have hregion := rawRegion_eq_some.1 h.region
    rw [hg] at hregion
    exact hregion.2.2
  · have hcode := h.code
    rw [hc] at hcode
    split at hcode
    · cases hcode
      rw [Mem.slice, List.length_map, List.length_range]
    · nomatch hcode

theorem startupChoice_of_some {m : Mem} {r : ControlRecord} (h : readRecord m = some r) :
    startupChoice true m = (r.lifecycle, r.fields) := by
  simp only [startupChoice, h]

theorem startupChoice_of_none {m : Mem} (h : readRecord m = none) : startupChoice true m = (.safe, Fields.default) := by
  simp only [startupChoice, h]

theorem startupChoice_of_fuse {m : Mem} (h : m ≠ []) : startupChoice false m = (.safe, Fields.default) := by
  simp only [startupChoice, if_neg h]

theorem Family.num_pos (f : Family) : 1 ≤ f.num ∧ f.num ≤ 3 := by cases f <;> decide

/-- Settles O50: each condition of R7, and R12's table. -/
theorem startupTable : Obligations.StartupTable := by
  refine ⟨fun m => ?_, fun m => ⟨rfl, fun r hr => startupChoice_of_some hr, startupChoice_of_fuse, startupChoice_of_none, rfl⟩⟩
  · intro v w at_ map
    have hword (a : Nat) : leNat (Mem.slice m a 2) = w a := leNat_slice_two m a
    refine ⟨readRecord_eq_none fun r h hc => hc h.marker, readRecord_eq_none fun r h hc => hc h.second,
      readRecord_eq_none fun r h hc => ?_, readRecord_eq_none fun r h hc => ?_, readRecord_eq_none fun r h hc => ?_,
      readRecord_eq_none fun r h hc => ?_, readRecord_eq_none fun r h hc => ?_, readRecord_eq_none fun r h hc => ?_,
      readRecord_eq_none fun r h hc => ?_, readRecord_eq_none fun r h hc => ?_, fun i hi => readRecord_eq_none fun r h hc => ?_,
      fun i e he => readRecord_eq_none fun r h hc => ?_, fun r hr => ?_⟩
    · exact hc ((hword 4).symm.trans h.version)
    · exact hc (h.check.trans (leNat_slice_four m 508))
    · obtain ⟨hnum, hblank, hsafe⟩ := recordedLifecycle_eq_some.1 h.lifecycle
      change v 6 = _ at hnum
      rw [hnum] at hc
      revert hc hblank hsafe
      cases r.lifecycle <;> decide
    · have hnum := bankOf_eq_some.1 h.live
      change v 7 = _ at hnum
      rw [hnum] at hc
      revert hc
      cases r.fields.live <;> decide
    · have hlen := h.bundleLen
      rw [hword 8] at hlen
      have hok := h.bundleOk
      omega
    · exact absurd h.count (Nat.not_le.2 hc)
    · have hregion := rawRegion_eq_some.1 h.region
      rw [hword 35] at hregion
      change match r.fields.region with | none => w 35 = 0 ∧ v 37 = 0 | some x => _ ∧ v 37 = _ ∧ _ at hregion
      cases hr : r.fields.region with
      | none =>
        rw [hr] at hregion
        omega
      | some x =>
        rw [hr] at hregion
        obtain ⟨hcode, hfamily, hlow, hhigh⟩ := hregion
        have hnum := x.family.num_pos
        omega
    · have htime := h.time
      rw [hword 38] at htime
      have hok := h.timeOk
      omega
    · obtain ⟨-, hbad, hnum, -⟩ := rawMapOk_eq_some.1 h.map
      have hraw : (rawMap m)[i]? = some (RawEntry.read m (at_ i)) := by
        rw [rawMap, List.getElem?_map, List.getElem?_range hi]
        rfl
      rcases hc with hc | hc
      · exact hc (hbad _ (List.mem_of_getElem? hraw))
      · have hi' := congrArg (·[i]?) hnum
        simp only [List.getElem?_map, hraw, List.getElem?_range hi, Option.map_some, Option.some_inj] at hi'
        exact hc hi'
    · obtain ⟨hentries, -, -, hcons⟩ := rawMapOk_eq_some.1 h.map
      have hmap : map = r.fields.map := hentries ▸ rfl
      rw [hmap] at he hc
      exact hc (conflict_of_mapConsistent hcons he)
    · have h := RecordHeld.of_readRecord hr
      exact ⟨h.ok, (rawMapOk_eq_some.1 h.map).1 ▸ rfl⟩

end Sys2Proof.Machine
end

-- Proofs of the family 'other': the control record reads back as it was written.
section
/-! PROOFS. The control record reads back as it was written (R6; the layout is the model's, log entry 7). -/

namespace Sys2Proof.Machine

/-! ### Bytes that stand at a place -/

/-- The bytes stand in the memory from an address on. -/
def Mem.Stands (m : Mem) (a : Nat) (l : List Byte) : Prop := ∀ i, ∀ h : i < l.length, Mem.get m (a + i) = l[i]

section
variable {m : Mem} {a : Nat}

theorem Mem.Stands.slice {l : List Byte} (h : m.Stands a l) (n : Nat) (hn : l.length = n) : Mem.slice m a n = l := by
  subst hn
  refine List.ext_getElem (by rw [Mem.slice, List.length_map, List.length_range]) fun i _ hi => ?_
  simp only [Mem.slice, List.getElem_map, List.getElem_range]
  exact h i hi

theorem Mem.stands_append {l k : List Byte} : m.Stands a (l ++ k) ↔ m.Stands a l ∧ m.Stands (a + l.length) k := by
  constructor
  · refine fun h => ⟨fun i hi => ?_, fun i hi => ?_⟩
    · rw [h i (by rw [List.length_append]; omega), List.getElem_append_left hi]
    · rw [Nat.add_assoc, h (l.length + i) (by rw [List.length_append]; omega), List.getElem_append_right (by omega)]
      simp only [Nat.add_sub_cancel_left]
  · rintro ⟨hl, hk⟩ i hi
    rw [List.length_append] at hi
    rcases Nat.lt_or_ge i l.length with hlt | hge
    · rw [hl i hlt, List.getElem_append_left hlt]
    · rw [List.getElem_append_right hge, ← hk (i - l.length) (by omega)]
      congr 1
      omega

theorem Mem.stands_cons {b : Byte} {l : List Byte} : m.Stands a (b :: l) ↔ Mem.get m a = b ∧ m.Stands (a + 1) l := by
  rw [show b :: l = [b] ++ l from rfl, Mem.stands_append]
  refine and_congr_left' ⟨fun h => h 0 Nat.zero_lt_one, fun h i hi => ?_⟩
  obtain rfl : i = 0 := by
    simp only [List.length_singleton] at hi
    omega
  exact h

theorem length_leBytes (n v : Nat) : (leBytes n v).length = n := by
  induction n generalizing v with
  | zero => rfl
  | succ n ih => rw [leBytes, List.length_cons, ih]

theorem leNat_leBytes_of_lt {n v : Nat} (h : v < 256 ^ n) : leNat (leBytes n v) = v := by
  induction n generalizing v with
  | zero => exact (Nat.lt_one_iff.1 h).symm
  | succ n ih =>
    rw [leBytes, leNat, ih (Nat.div_lt_of_lt_mul (by rw [Nat.pow_succ] at h; omega)), BitVec.toNat_ofNat]
    omega

theorem Mem.stands_leBytes {n v : Nat} (h : m.Stands a (leBytes n v)) (hv : v < 256 ^ n) : leNat (Mem.slice m a n) = v := by
  rw [h.slice n (length_leBytes n v), leNat_leBytes_of_lt hv]

/-- Blocks of one length stand one behind the other. -/
theorem Mem.stands_flatMap {α : Type} {f : α → List Byte} {k : Nat} {l : List α} (hf : ∀ x ∈ l, (f x).length = k)
    (h : m.Stands a (l.flatMap f)) {i : Nat} {x : α} (hx : l[i]? = some x) : m.Stands (a + k * i) (f x) := by
  induction l generalizing a i with
  | nil => nomatch hx
  | cons y l ih =>
    rw [List.flatMap_cons, Mem.stands_append] at h
    cases i with
    | zero =>
      cases hx
      exact h.1
    | succ i =>
      have hrest := ih (fun z hz => hf z (List.mem_cons_of_mem _ hz)) h.2 (i := i) hx
      rwa [hf y List.mem_cons_self, show a + k + k * i = a + k * (i + 1) by ring] at hrest

end

/-! ### A map entry (R34) -/

theorem length_entryBytes (n : Nat) (e : Option MapEntry) : (entryBytes n e).length = 24 := by
  cases e with
  | none => rfl
  | some e => simp only [entryBytes, List.length_append, length_leBytes, List.length_cons, List.length_nil]

theorem rightOf_of_num (r : Right) : rightOf r.num = r := by cases r <;> rfl

/-- The parameters of a map entry. -/
def MapEntry.raw (n : Nat) (e : MapEntry) : RawEntry :=
  { number := n, enabled := 1, cls := e.cls.num, aRight := e.aRight.num, tRight := e.tRight.num, posted := e.posted.toNat, reserved := 0,
    ubase := e.ubase, size := e.size, pbase := e.pbase, pbase2 := e.pbase2 }

theorem MapEntry.raw_entry (n : Nat) {e : MapEntry} (h : e.ok) : (e.raw n).entry = some e := by
  rw [RawEntry.entry, if_pos (show (e.raw n).enabled = 1 from rfl), show classOf (e.raw n).cls = some e.cls from classOf_eq_some.2 ⟨rfl, h.1⟩, Option.map_some]
  obtain ⟨cls, ubase, size, pbase, pbase2, aRight, tRight, posted⟩ := e
  simp only [MapEntry.raw, rightOf_of_num]
  cases posted <;> rfl

theorem MapEntry.raw_badOffset {n : Nat} (hn : n ≤ 14) {e : MapEntry} (h : e.ok) : (e.raw n).badOffset = none := by
  obtain ⟨hcls, hA, hT, hTcls, hposted, hubase, hsize, hsizeOk, hend, hbase, hbase2⟩ := h
  refine (RawEntry.badOffset_eq_none_iff (r := e.raw n) rfl (classOf_eq_some.2 ⟨rfl, hcls⟩)).2
    ⟨hn, ⟨?_, fun h => hA ?_⟩, ⟨?_, fun h => ?_⟩, ⟨Bool.toNat_le e.posted, fun h => hposted ?_⟩, rfl, hubase, ⟨hsize, hsizeOk, hend⟩, hbase,
      hbase2⟩
  · show e.aRight.num ≤ 2
    cases e.aRight <;> decide
  · rintro hnone
    exact h (by rw [MapEntry.raw, hnone]; rfl)
  · show e.tRight.num ≤ 1
    revert hT
    cases e.tRight <;> decide
  · have hcls := hTcls fun hnone => h (by rw [MapEntry.raw, hnone]; rfl)
    rcases hcls with hcls | hcls <;> rw [hcls] <;> exact ⟨nofun, nofun⟩
  · revert h
    show e.posted.toNat ≠ 0 → _
    cases e.posted <;> decide

/-- Where the ranges fit, the addresses of an entry need no more than four bytes. -/
theorem MapEntry.ok.lt {e : MapEntry} (h : e.ok) : e.ubase < 2 ^ 32 ∧ e.size < 2 ^ 32 ∧ e.pbase < 2 ^ 32 ∧ e.pbase2 < 2 ^ 32 := by
  obtain ⟨-, -, -, -, -, -, -, -, hend, hbase, hbase2⟩ := h
  have hb {x : Nat} (h : baseOk e.ubase e.size x = true) : x + e.size ≤ spaceSize := by
    rw [baseOk, Bool.and_eq_true, Bool.and_eq_true] at h
    exact of_decide_eq_true h.1.2
  have h1 := hb hbase
  have h2 : e.pbase2 ≤ spaceSize := by
    split at hbase2
    · exact Nat.le_of_add_right_le (hb hbase2)
    · rw [hbase2]
      exact Nat.zero_le _
  rw [spaceSize] at *
  omega

section
variable {m : Mem} {b n : Nat}

theorem RawEntry.read_of_none (hn : n < 256) (h : m.Stands b (entryBytes n none)) :
    RawEntry.read m b = ⟨n, 0, 0, 0, 0, 0, 0, 0, 0, 0, 0⟩ := by
  simp only [entryBytes, List.replicate, Mem.stands_cons, Nat.add_assoc, Nat.reduceAdd] at h
  simp only [RawEntry.read, leNat_slice_two, leNat_slice_four, Nat.add_assoc, Nat.reduceAdd, h, BitVec.toNat_ofNat]
  simp
  omega

theorem RawEntry.read_of_some (hn : n < 256) {e : MapEntry} (he : e.ok) (h : m.Stands b (entryBytes n (some e))) :
    RawEntry.read m b = e.raw n := by
  simp only [entryBytes, Mem.stands_append, Mem.stands_cons, Nat.add_assoc, Nat.reduceAdd, List.length_cons, List.length_nil,
    List.length_append, length_leBytes] at h
  obtain ⟨⟨⟨⟨⟨hn', hen, hcls, hA, hT, hposted, hres, hres', -⟩, hubase⟩, hsize⟩, hpbase⟩, hpbase2⟩ := h
  obtain ⟨hu, hs, hp, hp2⟩ := he.lt
  have hreserved : leNat (Mem.slice m (b + 6) 2) = 0 := by
    rw [leNat_slice_two, hres, Nat.add_assoc, hres']
    rfl
  have hclsNum : e.cls.num % 256 = e.cls.num := by cases e.cls <;> rfl
  have hANum : e.aRight.num % 256 = e.aRight.num := by cases e.aRight <;> rfl
  have hTNum : e.tRight.num % 256 = e.tRight.num := by cases e.tRight <;> rfl
  have hpostedNum : (if e.posted = true then 1 else 0 : Byte).toNat = e.posted.toNat := by cases e.posted <;> rfl
  simp only [RawEntry.read, hn', hen, hcls, hA, hT, hposted, hreserved, Mem.stands_leBytes hubase hu, Mem.stands_leBytes hsize hs,
    Mem.stands_leBytes hpbase hp, Mem.stands_leBytes hpbase2 hp2, BitVec.toNat_ofNat, Nat.reducePow, Nat.mod_eq_of_lt hn, hclsNum, hANum,
    hTNum, hpostedNum]
  rfl

/-- A parameter block is read back as it was written, and passes the checks. -/
theorem RawEntry.read_of_stands (hn : n ≤ 14) {e : Option MapEntry} (he : ∀ x, e = some x → x.ok) (h : m.Stands b (entryBytes n e)) :
    (RawEntry.read m b).entry = e ∧ (RawEntry.read m b).badOffset = none ∧ (RawEntry.read m b).number = n := by
  cases e with
  | none =>
    rw [RawEntry.read_of_none (by omega) h]
    refine ⟨rfl, ?_, rfl⟩
    rw [RawEntry.badOffset, if_neg (Nat.not_lt.2 hn)]
    rfl
  | some e =>
    have hok := he e rfl
    rw [RawEntry.read_of_some (by omega) hok h]
    exact ⟨MapEntry.raw_entry n hok, MapEntry.raw_badOffset hn hok, rfl⟩

end

/-! ### The blocks of a record -/

theorem length_mapBytes (n : Nat) (l : List (Option MapEntry)) : (mapBytes n l).length = 24 * l.length := by
  induction l generalizing n with
  | nil => rfl
  | cons e l ih =>
    rw [mapBytes, List.length_append, length_entryBytes, ih, List.length_cons]
    ring

theorem stands_mapBytes {m : Mem} {a n : Nat} {l : List (Option MapEntry)} (h : m.Stands a (mapBytes n l)) {i : Nat} {e : Option MapEntry}
    (he : l[i]? = some e) : m.Stands (a + 24 * i) (entryBytes (n + i) e) := by
  induction l generalizing a n i with
  | nil => nomatch he
  | cons x l ih =>
    rw [mapBytes, Mem.stands_append, length_entryBytes] at h
    cases i with
    | zero =>
      cases he
      exact h.1
    | succ i =>
      have hrest := ih h.2 (i := i) he
      rwa [show a + 24 + 24 * i = a + 24 * (i + 1) by ring, Nat.add_right_comm n 1 i, Nat.add_assoc n i 1] at hrest

/-- The scopes, filled up to 24 bytes. -/
def scopeField (l : List Scope) : List Byte := l.flatMap scopeBytes ++ List.replicate (24 - 3 * l.length) 0

/-- The region in three bytes. -/
def regionField (g : Option Region) : List Byte :=
  match g with
  | some g => leBytes 2 g.code ++ [byte g.family.num]
  | none => [0, 0, 0]

/-- The service code behind its flag. -/
def codeField (c : Option (List Byte)) : List Byte :=
  match c with
  | some c => 1 :: c
  | none => 0 :: List.replicate 16 0

theorem length_scopeField {l : List Scope} (h : l.length ≤ 8) : (scopeField l).length = 24 := by
  have hlen : (l.flatMap scopeBytes).length = 3 * l.length := by
    clear h
    induction l with
    | nil => rfl
    | cons x l ih =>
      rw [List.flatMap_cons, List.length_append, ih, List.length_cons, show (scopeBytes x).length = 3 from rfl]
      ring
  rw [scopeField, List.length_append, hlen, List.length_replicate]
  omega

theorem length_regionField (g : Option Region) : (regionField g).length = 3 := by cases g <;> rfl

theorem length_codeField {c : Option (List Byte)} (h : ∀ x, c = some x → x.length = 16) : (codeField c).length = 17 := by
  cases c with
  | none => rfl
  | some c => exact congrArg (· + 1) (h c rfl)

theorem recordHead_eq (r : ControlRecord) :
    recordHead r =
      recordMarker ++ leBytes 2 1 ++ [byte r.lifecycle.num, byte r.fields.live.num] ++ leBytes 2 r.fields.bundleLen ++
      [byte r.fields.scopes.length] ++ scopeField r.fields.scopes ++ regionField r.fields.region ++ leBytes 2 r.fields.releaseTime ++
      codeField r.fields.code ++ List.replicate 7 0 := rfl

/-- Where the bytes of a record stand, each field stands at its offset. -/
structure RecordStands (m : Mem) (r : ControlRecord) : Prop where
  marker : m.Stands 0 recordMarker
  version : m.Stands 4 (leBytes 2 1)
  lifecycle : Mem.get m 6 = byte r.lifecycle.num
  live : Mem.get m 7 = byte r.fields.live.num
  bundleLen : m.Stands 8 (leBytes 2 r.fields.bundleLen)
  count : Mem.get m 10 = byte r.fields.scopes.length
  scopes : m.Stands 11 (scopeField r.fields.scopes)
  region : m.Stands 35 (regionField r.fields.region)
  time : m.Stands 38 (leBytes 2 r.fields.releaseTime)
  code : m.Stands 40 (codeField r.fields.code)
  low : m.Stands 64 (mapBytes 0 (r.fields.map.take 8))
  second : m.Stands 256 recordMarker
  high : m.Stands 260 (mapBytes 8 (r.fields.map.drop 8))
  body : m.Stands 0 (recordBody r)
  length : (recordBody r).length = 508
  check : m.Stands 508 (leBytes 4 (crc32 (recordBody r)).toNat)

/-- The lengths of the blocks that a record's bytes are made of. -/
theorem ControlRecord.ok.lengths {r : ControlRecord} (hr : r.ok) :
    (scopeField r.fields.scopes).length = 24 ∧ (codeField r.fields.code).length = 17 ∧ (mapBytes 0 (r.fields.map.take 8)).length = 192 ∧
      (mapBytes 8 (r.fields.map.drop 8)).length = 168 := by
  obtain ⟨-, -, hmap, -, -, -, hscopes, -, -, -, -, hcode⟩ := hr
  refine ⟨length_scopeField hscopes, length_codeField hcode, ?_, ?_⟩
  · rw [length_mapBytes, List.length_take, hmap]
    rfl
  · rw [length_mapBytes, List.length_drop, hmap]

theorem ControlRecord.ok.length_recordBody {r : ControlRecord} (hr : r.ok) : (recordBody r).length = 508 := by
  obtain ⟨hscopes, hcode, hlow, hhigh⟩ := hr.lengths
  simp only [recordBody, recordHead_eq, List.length_append, List.length_cons, List.length_nil, List.length_replicate, recordMarker,
    length_leBytes, hscopes, length_regionField, hcode, hlow, hhigh, Nat.reduceAdd]

theorem RecordStands.of_stands {m : Mem} {r : ControlRecord} (hr : r.ok) (h : m.Stands 0 (recordBytes r)) : RecordStands m r := by
  have hlen := hr.length_recordBody
  obtain ⟨hscopes, hcode, hlow, hhigh⟩ := hr.lengths
  rw [recordBytes, Mem.stands_append, hlen] at h
  obtain ⟨hbody, hcheck⟩ := h
  have hfields := hbody
  simp only [recordBody, recordHead_eq, Mem.stands_append, Mem.stands_cons, List.length_append, List.length_cons, List.length_nil,
    List.length_replicate, show recordMarker.length = 4 from rfl, length_leBytes, hscopes, length_regionField,
    hcode, hlow, hhigh, Nat.reduceAdd] at hfields
  obtain ⟨⟨⟨⟨⟨⟨⟨⟨⟨⟨⟨⟨⟨hmarker, hversion⟩, hlifecycle, hlive, -⟩, hbundle⟩, hcount, -⟩, hscope⟩, hregion⟩, htime⟩, hcode⟩, -⟩, hlow⟩, hsecond⟩,
    hhigh⟩, -⟩ := hfields
  exact ⟨hmarker, hversion, hlifecycle, hlive, hbundle, hcount, hscope, hregion, htime, hcode, hlow, hsecond, hhigh, hbody, hlen, hcheck⟩

/-! ### The fields that are read back -/

section
variable {m : Mem} {r : ControlRecord} (h : RecordStands m r)
include h

theorem RecordStands.rawRegion (hcode : ∀ g, r.fields.region = some g → 1 ≤ g.code ∧ g.code ≤ 4095) :
    rawRegion m = some r.fields.region := by
  have hregion := h.region
  rw [rawRegion_eq_some]
  cases hr : r.fields.region with
  | none =>
    rw [hr] at hregion
    simp only [regionField, Mem.stands_cons, Nat.reduceAdd] at hregion
    obtain ⟨h0, h1, h2, -⟩ := hregion
    rw [leNat_slice_two, h0, h1, h2]
    exact ⟨rfl, rfl⟩
  | some g =>
    obtain ⟨hlow, hhigh⟩ := hcode g hr
    rw [hr] at hregion
    obtain ⟨hcode, hfamily⟩ := Mem.stands_append.1 hregion
    refine ⟨Mem.stands_leBytes hcode (by omega), ?_, hlow, hhigh⟩
    rw [show Mem.get m 37 = byte g.family.num from (Mem.stands_cons.1 hfamily).1]
    cases g.family <;> rfl

theorem RecordStands.rawScopes (hlen : r.fields.scopes.length ≤ 8) (hcode : ∀ x ∈ r.fields.scopes, x.code < 65536) :
    rawScopes m (Mem.get m 10).toNat = r.fields.scopes := by
  have hcount : (Mem.get m 10).toNat = r.fields.scopes.length := by
    rw [h.count, byte_toNat]
    omega
  rw [hcount]
  refine List.ext_getElem (by rw [Machine.rawScopes, List.length_map, List.length_range]) fun i _ hi => ?_
  have hblock := Mem.stands_flatMap (k := 3) (fun _ _ => rfl) (Mem.stands_append.1 h.scopes).1 (List.getElem?_eq_getElem hi)
  obtain ⟨hlow, hfamilies⟩ := Mem.stands_append.1 hblock
  have hget : Mem.get m (13 + 3 * i) = r.fields.scopes[i].families := by
    rw [← (Mem.stands_cons.1 hfamilies).1, length_leBytes]
    congr 1
    omega
  simp only [Machine.rawScopes, List.getElem_map, List.getElem_range, Mem.stands_leBytes hlow (hcode _ (List.getElem_mem hi)), hget]

theorem RecordStands.code_eq (hlen : ∀ c, r.fields.code = some c → c.length = 16) :
    (if Mem.get m 40 = 1 then some (Mem.slice m 41 16) else none) = r.fields.code := by
  have hcode := h.code
  cases hr : r.fields.code with
  | none =>
    rw [hr] at hcode
    rw [(Mem.stands_cons.1 hcode).1, if_neg (by decide)]
  | some c =>
    rw [hr] at hcode
    obtain ⟨hflag, hbytes⟩ := Mem.stands_cons.1 hcode
    rw [hflag, if_pos rfl, hbytes.slice 16 (hlen c hr)]

/-- The parameter block of each map entry. -/
theorem RecordStands.entry (hlen : r.fields.map.length = 15) {i : Nat} (hi : i < 15) :
    m.Stands (entryOffset i) (entryBytes i r.fields.map[i]) := by
  rw [entryOffset]
  split
  · next h8 =>
    have := stands_mapBytes h.low (i := i) (by rw [List.getElem?_take_of_lt h8, List.getElem?_eq_getElem (by omega)])
    rwa [Nat.zero_add] at this
  · next h8 =>
    have := stands_mapBytes h.high (i := i - 8) (e := r.fields.map[i])
      (by rw [List.getElem?_drop, ← List.getElem?_eq_getElem]; congr 1; omega)
    rwa [Nat.add_sub_cancel' (Nat.not_lt.1 h8)] at this

theorem RecordStands.rawMapOk (hr : r.ok) : rawMapOk m = some r.fields.map := by
  obtain ⟨-, -, hlen, hentries, hcons, -⟩ := hr
  have hread {i : Nat} (hi : i < 15) := RawEntry.read_of_stands (n := i) (by omega)
    (fun x hx => hentries x (hx ▸ List.getElem_mem (by omega))) (h.entry hlen hi)
  refine rawMapOk_eq_some.2 ⟨?_, fun x hx => ?_, ?_, hcons⟩
  · refine List.ext_getElem (by rw [hlen]; rfl) fun i hi _ => ?_
    simp only [rawMap, List.getElem_map, List.getElem_range]
    exact (hread hi).1
  · obtain ⟨i, hi, rfl⟩ := List.mem_map.1 hx
    exact (hread (List.mem_range.1 hi)).2.1
  · refine List.ext_getElem rfl fun i hi _ => ?_
    simp only [rawMap, List.getElem_map, List.getElem_range]
    exact (hread hi).2.2

theorem RecordStands.held (hr : r.ok) : RecordHeld m r := by
  have hmap := h.rawMapOk hr
  obtain ⟨hblank, hsafe, -, -, -, hbundle, hscopes, hscope, hregion, hlow, hhigh, hcode⟩ := hr
  refine
    { marker := h.marker.slice 4 rfl, second := h.second.slice 4 rfl, version := Mem.stands_leBytes h.version (by decide), check := ?_
      lifecycle := ?_, live := ?_, region := h.rawRegion hregion, map := hmap, bundleLen := Mem.stands_leBytes h.bundleLen (by omega)
      bundleOk := hbundle, count := ?_, scopes := h.rawScopes hscopes hscope, time := Mem.stands_leBytes h.time (by omega)
      timeOk := ⟨hlow, hhigh⟩, code := h.code_eq hcode }
  · rw [h.body.slice 508 h.length, Mem.stands_leBytes h.check (BitVec.isLt _)]
  · rw [h.lifecycle, recordedLifecycle_eq_some]
    refine ⟨?_, hblank, hsafe⟩
    cases r.lifecycle <;> rfl
  · rw [h.live, bankOf_eq_some]
    cases r.fields.live <;> rfl
  · rw [h.count, byte_toNat]
    omega

end

/-- Settles O60. -/
theorem controlRecordRoundTrip : Obligations.ControlRecordRoundTrip := by
  intro r m hr hm
  have hlen : (recordBytes r).length = 512 := by rw [recordBytes, List.length_append, hr.length_recordBody, length_leBytes]
  have hstands : m.Stands 0 (recordBytes r) := fun i hi => by
    rw [Nat.zero_add, hm i (hlen ▸ hi), List.getD_eq_getElem _ _ hi]
  exact ((RecordStands.of_stands hr hstands).held hr).readRecord

end Sys2Proof.Machine
end

-- Proofs of the family 'other': the end of a page read.
section
/-! PROOFS. The end of a page read (R83, R104, R111): the bytes that a port or the read-ahead buffer is given, and the grant that follows
(R82, R92, R93). -/

namespace Sys2Proof.Machine

/-! ### A piece that is ready is delivered whole -/

section
variable {s : State} {p r : Port} {rd : Reading} {seg : Segment} {l : Lifecycle} {bytes : List Byte}

theorem State.handed_nil (hr : s.reading p = some rd) : s.handed p rd [] = s := by
  have hlink : (s.port p).link = .reading rd := by
    unfold State.reading at hr
    split at hr
    · next x hx =>
      cases hr
      exact hx
    · nomatch hr
  have hport : ({ s.port p with link := .reading rd, returned := (s.port p).returned ++ [] } : PortState) = s.port p := by
    rw [List.append_nil, ← hlink]
  rw [State.handed, State.onPort, hport]
  cases p <;> rfl

/-- A port whose read asks for exactly the bytes that are ready is given them. -/
theorem State.runPort_of_ready (hr : s.reading p = some rd) (hseg : rd.seg = some seg) (hsrc : seg.source = .flash)
    (hl : s.life.lifecycle = some l) (hp : rd.piece = .ready bytes) (hw : rd.want = bytes.length)
    (hend : rd.addr + bytes.length ≤ seg.last + 1) (hlast : seg.last < spaceSize) :
    ∃ rd', s.runPort p = s.handed p rd' bytes := by
  by_cases hnil : bytes = []
  · subst hnil
    refine ⟨rd, ?_⟩
    simp only [State.runPort, hr, hw, State.handed_nil hr]
    rfl
  · have hprov : s.Provides seg rd bytes :=
      State.provides_ready (.inr hsrc) bytes [] (hp.trans (by rw [List.append_nil])) hend (by omega)
    obtain ⟨rd', hd⟩ := hprov.deliver hr hseg (by rw [hsrc]; decide) hl hw hnil
    refine ⟨rd', ?_⟩
    simp only [State.runPort, hr, hw]
    exact hd

end

/-- What leaves directives, jobs and the waiting writes alone keeps a state calm. -/
theorem State.Calm.of_apart {s t : State} (h : s.Calm) (ha : Apart s t) : t.Calm where
  queue := by rw [ha.dir, h.queue]
  running := by rw [ha.dir, h.running]
  job := by rw [ha.job, h.job]
  awaiting := ha.sameDue.awaiting.trans h.awaiting
  noRoom := fun q hc => h.noRoom q (ha.sameDue.cause.symm.trans hc)

/-! ### The grant that follows (R82, R92, R93) -/

section
variable {s t : State}

/-- Bids depend on the claims, the weights and the queues. -/
theorem State.highest_congr (hclaims : t.engine.claims = s.engine.claims) (hweights : t.engine.weights = s.engine.weights)
    (hqueues : t.queues = s.queues) (cs : List Claimant) : t.highest cs = s.highest cs := by
  have hbid (c : Claimant) : t.bid c = s.bid c := by
    have hlevel (cl : Claim) : t.level c cl = s.level c cl := by
      unfold State.level State.entriesOf
      rw [hqueues]
    simp only [State.bid, State.claim, hclaims, hweights, hlevel]
  have hbetter : t.better = s.better := by
    funext best c
    simp only [State.better, hbid]
  rw [State.highest, State.highest, hbetter]

/-- Port F with no page read on it. -/
def State.readEnded (s : State) : State := s.onEngine fun x => { x with read := none }

theorem State.readEnded_highest (cs : List Claimant) : s.readEnded.highest cs = s.highest cs := State.highest_congr rfl rfl rfl cs

theorem State.endPageRead_of_none (hw : s.engine.write = none) (hh : s.highest claimants = none) : s.endPageRead = s.readEnded := by
  change s.readEnded.grantPoint = _
  have hread : s.readEnded.engine.read = none := rfl
  have hwrite : s.readEnded.engine.write = none := hw
  simp only [State.grantPoint, hread, hwrite, State.readEnded_highest, hh]

theorem State.endPageRead_of_highest {c : Claimant} (hw : s.engine.write = none) (hh : s.highest claimants = some c) :
    s.endPageRead = s.readEnded.grant c :=
  State.grantPoint_of_free (s := s.readEnded) rfl hw (State.readEnded_highest claimants ▸ hh)

theorem State.endPageRead_of_suspended {q : QueueId} {c : Claimant} (hw : s.engine.write = some q)
    (hs : s.headState q = some .suspended) (hh : s.highest [.tRead, .aRead] = some c) : s.endPageRead = s.readEnded.grant c :=
  State.grantPoint_of_suspended (s := s.readEnded) rfl hw hs (State.readEnded_highest [.tRead, .aRead] ▸ hh)

/-- Without a port's claim the suspended operation is resumed (R93). -/
theorem State.endPageRead_of_resumed {q : QueueId} (hw : s.engine.write = some q) (hs : s.headState q = some .suspended)
    (hT : s.claim .tRead = none) (hA : s.claim .aRead = none) : s.endPageRead = s.readEnded.resume q := by
  change s.readEnded.grantPoint = _
  have hread : s.readEnded.engine.read = none := rfl
  have hwrite : s.readEnded.engine.write = some q := hw
  have hsusp : s.readEnded.suspended = true := by
    rw [State.suspended, hwrite]
    exact decide_eq_true hs
  have hnone : s.readEnded.highest [.tRead, .aRead] = none := by
    rw [State.readEnded_highest]
    simp only [State.highest, List.foldl_cons, List.foldl_nil, State.better, State.bid_eq_none.2 hT, State.bid_eq_none.2 hA]
  simp only [State.grantPoint, hread, hwrite, hsusp, if_true, hnone]

/-- The grant of a queue's claim: its head becomes ACTIVE (R82). -/
theorem State.grant_queue {c : Claimant} {cl : Claim} {q : QueueId} (hq : claimQueue c = some q) (hc : s.claim c = some cl) :
    s.grant c = ((s.setClaim c none).setHead q Entry.activate).onEngine fun x => { x with write := some q, suspendCount := 0, waited := 0 } := by
  simp only [State.grant, hc, hq]

theorem State.entriesOf_setHead (s : State) (q : QueueId) (f : Entry → Entry) : (s.setHead q f).entriesOf q = onFirst f (s.entriesOf q) := by
  rw [State.entriesOf, State.setHead, State.onQueue_get]
  rfl

/-- Whatever claim is granted stands no more. -/
theorem State.claim_grant {c : Claimant} {cl : Claim} (hc : s.claim c = some cl) : (s.grant c).claim c = none := by
  have hput : ∀ x : PerClaimant (Option Claim), (x.put c none).get c = none := fun x => PerClaimant.get_put ..
  simp only [State.grant, hc]
  split <;> exact hput _

end

/-- What follows a page read's end, Port F being free otherwise. -/
theorem State.endPageRead_free {s : State} (hw : s.engine.write = none) :
    (s.highest claimants = none → s.endPageRead.engine.read = none ∧ s.endPageRead.engine.write = none) ∧
    (∀ c cl, s.highest claimants = some c → s.claim c = some cl →
      s.endPageRead.claim c = none ∧
      (∀ z, claimQueue c = none → cl.range = some z →
        s.endPageRead.engine.read = some { claimant := c, range := z, discard := false } ∧ s.endPageRead.engine.write = none) ∧
      (∀ q, claimQueue c = some q → s.endPageRead.engine.read = none ∧ s.endPageRead.engine.write = some q ∧
        s.endPageRead.engine.suspendCount = 0 ∧ s.endPageRead.entriesOf q = onFirst Entry.activate (s.entriesOf q))) := by
  refine ⟨fun hh => ?_, fun c cl hh hc => ?_⟩
  · rw [State.endPageRead_of_none hw hh]
    exact ⟨rfl, hw⟩
  · rw [State.endPageRead_of_highest hw hh]
    refine ⟨State.claim_grant (s := s.readEnded) hc, fun z hq hz => ?_, fun q hq => ?_⟩
    · rw [State.grant_read (s := s.readEnded) hq hc hz]
      exact ⟨rfl, hw⟩
    · rw [State.grant_queue (s := s.readEnded) hq hc]
      exact ⟨rfl, rfl, rfl, State.entriesOf_setHead ..⟩

/-- What follows a page read's end during a suspension. -/
theorem State.endPageRead_suspension {s : State} {q : QueueId} {e : Entry} {rest : List Entry} (hw : s.engine.write = some q)
    (he : s.entriesOf q = e :: rest) (hs : e.state = .suspended) :
    (s.claim .tRead = none → s.claim .aRead = none →
      s.endPageRead.engine.read = none ∧ s.endPageRead.engine.write = some q ∧
      s.endPageRead.entriesOf q = { e with state := .active .wait } :: rest) ∧
    (∀ c cl z, s.highest [.tRead, .aRead] = some c → s.claim c = some cl → cl.range = some z →
      s.endPageRead.engine.read = some { claimant := c, range := z, discard := false } ∧ s.endPageRead.engine.write = some q ∧
      s.endPageRead.headState q = some .suspended) := by
  have hhead : s.headState q = some .suspended := by
    rw [State.headState, he, ← hs]
    rfl
  refine ⟨fun hT hA => ?_, fun c cl z hh hc hz => ?_⟩
  · rw [State.endPageRead_of_resumed hw hhead hT hA]
    refine ⟨rfl, hw, ?_⟩
    rw [State.resume, State.entriesOf_setHead, show s.readEnded.entriesOf q = e :: rest from he]
    rfl
  · have hport : c = .tRead ∨ c = .aRead := by simpa using State.mem_of_highest hh
    rw [State.endPageRead_of_suspended hw hhead hh, State.grant_read (s := s.readEnded) (claimQueue_of_port hport) hc hz]
    exact ⟨rfl, hw, hhead⟩

/-! ### A port's page read -/

theorem State.keyBarred_of_not_carried {s : State} (h : s.carried = none) (seg : Segment) (a : Nat) : s.keyBarred seg a = false := by
  rw [State.keyBarred]
  split
  · simp only [h, reduceCtorEq, decide_false, Bool.false_and]
  · rfl

/-- The bytes that a port is given when its page read ends (R104, R160). -/
def State.pieceBytes (s : State) (rd : Reading) (seg : Segment) (x : ReadRange) : List Byte :=
  (combine s.flash (s.entriesOf seg.owner) x).mapIdx fun k b => if s.keyBarred seg (rd.addr + k) then 0xFF#8 else b

theorem State.length_pieceBytes (s : State) (rd : Reading) (seg : Segment) (x : ReadRange) :
    (s.pieceBytes rd seg x).length = x.hi + 1 - x.lo := by
  rw [State.pieceBytes, List.length_mapIdx, combine, List.length_map, List.length_range]

theorem State.pieceBytes_of_not_carried {s : State} (h : s.carried = none) (rd : Reading) (seg : Segment) (x : ReadRange) :
    s.pieceBytes rd seg x = combine s.flash (s.entriesOf seg.owner) x := by
  simp only [State.pieceBytes, State.keyBarred_of_not_carried h, Bool.false_eq_true, if_false]
  exact List.ext_getElem (List.length_mapIdx) fun i _ _ => List.getElem_mapIdx

section
variable {s : State} {p r : Port} {l : Lifecycle} {rd : Reading} {seg : Segment} {x y : ReadRange}

theorem State.completePiece_of_claim (hr : s.reading p = some rd) (hseg : rd.seg = some seg) (hp : rd.piece = .claim x) :
    s.completePiece p = s.setReading p { rd with piece := .ready (s.pieceBytes rd seg x) } := by
  simp only [State.completePiece, hr, hseg, hp, State.setPiece_of_reading hr]
  rfl

theorem State.handOver_of_port (y : ReadRange) :
    s.handOver { claimant := portClaimant p, range := y, discard := false } = s.completePiece p := by cases p <;> rfl

/-- A port's page read ends: its piece is ready and delivered, and Port F goes on. -/
theorem exec_portReadEnd (hne : p ≠ r) (hcalm : s.Calm) (hother : s.reading r = none) (hl : s.life.lifecycle = some l)
    (hr : s.reading p = some rd) (hseg : rd.seg = some seg) (hp : rd.piece = .claim x) (hsrc : seg.source = .flash)
    (haddr : rd.addr ≤ seg.last) (hlast : seg.last < 0x2000000) (hw : rd.want = x.hi + 1 - x.lo)
    (hfits : rd.want ≤ seg.last + 1 - rd.addr)
    (hread : s.engine.read = some { claimant := portClaimant p, range := y, discard := false })
    (hdef : s.engine.deferred.get (portClaimant p) = none) :
    ∃ rd', exec .pageReadEnd s = .next (s.handed p rd' (s.pieceBytes rd seg x)).endPageRead := by
  let u := s.setReading p { rd with piece := .ready (s.pieceBytes rd seg x) }
  have hu : Apart s u := Apart.setReading ..
  have hlen := s.length_pieceBytes rd seg x
  have hreading : u.reading p = some { rd with piece := .ready (s.pieceBytes rd seg x) } := State.reading_setReading ..
  obtain ⟨rd', hrun⟩ := State.runPort_of_ready hreading hseg hsrc (by rw [hu.life]; exact hl) rfl (hw.trans hlen.symm)
    (show rd.addr + _ ≤ _ by omega) hlast
  have hfinish : u.finish = s.handed p rd' (s.pieceBytes rd seg x) := by
    rw [(hcalm.of_apart hu).finish, State.runReads_of_other hne, hrun]
    · cases p <;> rfl
    · exact (State.reading_of_port (State.port_setReading_ne s _ (Ne.symm hne))).trans hother
  refine ⟨rd', ?_⟩
  change execPageReadEnd s = _
  simp only [execPageReadEnd, hread]
  rw [State.keepNoDiscard_of_wanted hread rfl, State.handOver_of_port, State.completePiece_of_claim hr hseg hp,
    State.raiseDeferred_of_none (by rw [State.setReading_engine]; exact hdef), hfinish]

end

/-! ### The read-ahead buffer's page read (R111) -/

/-- A claim that is not a port's, raised while a page read is in flight whose bytes are wanted, stands (R79, R81). -/
theorem State.raiseClaim_of_read {s : State} {y : PageRead} {c : Claimant} (hc : isPortRead c = false) (h : s.engine.read = some y)
    (hd : y.discard = false) (x : Option ReadRange) : s.raiseClaim c x = s.setClaim c (some (s.newClaim x)) := by
  have hdisc : s.discarding c = false := by
    rw [State.discarding, h]
    simp [hd]
  have hfree : s.portFree = false := by simp [State.portFree, h]
  rw [State.raiseClaim, hdisc, if_neg Bool.false_ne_true, hfree, if_neg Bool.false_ne_true, hc, if_neg Bool.false_ne_true]

/-- The slot of a list that names a page. -/
def slotOf (page : Nat) (l : List AheadSlot) : Option AheadSlot := l.find? fun x => decide (x.page? = some page)

theorem State.aheadSlot_eq (s : State) (page : Nat) : s.aheadSlot page = slotOf page s.ahead.slots := rfl

theorem slotOf_page {page : Nat} {l : List AheadSlot} {x : AheadSlot} (h : slotOf page l = some x) : x.page? = some page := by
  have := List.find?_some (p := fun x : AheadSlot => decide (x.page? = some page)) h
  exact of_decide_eq_true this

theorem fillFirst_cons {page : Nat} {x : AheadSlot} {l : List AheadSlot} (h : x ≠ .empty) : fillFirst page (x :: l) = x :: fillFirst page l := by
  cases x with
  | empty => exact absurd rfl h
  | filling | held => rfl

/-- Filling the first EMPTY slot with a page leaves the slots that name another. -/
theorem slotOf_fillFirst {page other : Nat} (hne : other ≠ page) (l : List AheadSlot) : slotOf page (fillFirst other l) = slotOf page l := by
  induction l with
  | nil => rfl
  | cons x l ih =>
    by_cases hx : x = .empty
    · subst hx
      have hfill : decide ((AheadSlot.filling other).page? = some page) = false := decide_eq_false (by simpa [AheadSlot.page?] using hne)
      have hempty : decide (AheadSlot.empty.page? = some page) = false := rfl
      rw [fillFirst, slotOf, slotOf, List.find?_cons_of_neg (by rw [hfill]; exact Bool.false_ne_true),
        List.find?_cons_of_neg (by rw [hempty]; exact Bool.false_ne_true)]
    · rw [fillFirst_cons hx, slotOf, slotOf, List.find?_cons, List.find?_cons]
      split
      · rfl
      · exact ih

theorem fillHeld_page (page : Nat) (b : List Byte) (x : AheadSlot) : (fillHeld page b x).page? = x.page? := by
  cases x with
  | empty | held => rfl
  | filling q =>
    rw [fillHeld]
    split <;> rfl

/-- A change that leaves the slots' pages changes the slot found. -/
theorem slotOf_map {f : AheadSlot → AheadSlot} (hf : ∀ x, (f x).page? = x.page?) (page : Nat) (l : List AheadSlot) :
    slotOf page (l.map f) = (slotOf page l).map f := by
  rw [slotOf, List.find?_map, slotOf]
  simp only [Function.comp_def, hf]

/-- The PREFETCH demand is for a page that no slot names. -/
theorem State.aheadSlot_of_wanted {s : State} {page : Nat} (h : s.prefetchWanted = some page) : s.aheadSlot page = none := by
  unfold State.prefetchWanted at h
  split at h
  · nomatch h
  · split at h
    · split at h
      · next k hk =>
        split at h
        · cases h
          have hnone := List.find?_some (p := fun k => (s.aheadSlot (s.passBase + 256 * k)).isNone) hk
          exact Option.isNone_iff_eq_none.1 hnone
        · nomatch h
      · nomatch h
    · nomatch h

/-- Judging the PREFETCH demand leaves the slots that name a page (R110). -/
theorem State.aheadSlot_judgePrefetch {s : State} {page : Nat} {x : AheadSlot} (h : s.aheadSlot page = some x) :
    s.judgePrefetch.aheadSlot page = some x := by
  rw [State.judgePrefetch]
  split
  · next other hother =>
    have hne : other ≠ page := by
      rintro rfl
      rw [State.aheadSlot_of_wanted hother] at h
      nomatch h
    rw [State.aheadSlot_eq, (ArbiterOnly.raiseClaim _ _ _).ahead]
    exact (slotOf_fillFirst hne s.ahead.slots).trans h
  · exact h

/-- While a page read is in flight whose bytes are wanted, judging the PREFETCH demand only adds the claim of PREFETCH. -/
theorem State.engine_judgePrefetch {s : State} {y : PageRead} (h : s.engine.read = some y) (hd : y.discard = false) :
    ∃ v, s.judgePrefetch.engine = { s.engine with claims := s.engine.claims.put .prefetch v } := by
  rw [State.judgePrefetch]
  split
  · next page _ =>
    rw [State.raiseClaim_of_read (s := s.onAhead _) (c := .prefetch) rfl h hd]
    exact ⟨_, rfl⟩
  · exact ⟨s.engine.claims.get .prefetch, rfl⟩

theorem drop_take_slice (m : Mem) {a lo n k : Nat} (h : lo + k ≤ n) :
    ((Mem.slice m a n).drop lo).take k = (List.range k).map fun i => Mem.get m (a + lo + i) := by
  refine List.ext_getElem ?_ fun i hi hk => ?_
  · simp only [Mem.slice, List.length_take, List.length_drop, List.length_map, List.length_range]
    omega
  · simp only [Mem.slice, List.getElem_take, List.getElem_drop, List.getElem_map, List.getElem_range, Nat.add_assoc]

section
variable {s : State} {seg : Segment} {x : ReadRange} {page : Nat} {bytes : List Byte}

/-- A piece of a pass whose page a HELD slot has is taken from it (R112). -/
theorem State.judgePiece_of_slot (hq : s.entriesOf seg.owner = []) (hx : x.lo ≤ x.hi) (hpass : seg.inPass = true) {p : Port}
    (hslot : s.aheadSlot x.page = some (.held page bytes)) :
    s.judgePiece p seg x = s.setPiece p (.ready ((bytes.drop x.lo).take (x.hi + 1 - x.lo))) := by
  simp only [State.judgePiece, hq, overlay_nil_not_fixed hx, headPreReads, hpass, hslot, Bool.false_eq_true, if_false, if_true]

/-- A piece of no bytes is ready. -/
theorem State.judgePiece_of_no_byte (hx : x.hi + 1 - x.lo = 0) {p : Port} : s.judgePiece p seg x = s.setPiece p (.ready []) := by
  rw [State.judgePiece_of_fixed fun i hi => by omega, overlay, hx]
  rfl

end

/-- The second statement of O28: a PREFETCH page read ends. -/
theorem prefetchReadEnds (s : State) (l : Lifecycle) (page : Nat) (rd : Reading) (seg : Segment) (x : ReadRange) (hcalm : s.Calm)
    (hother : s.reading .a = none) (hl : s.life.lifecycle = some l) (hr : s.reading .t = some rd) (hseg : rd.seg = some seg)
    (hp : rd.piece = .slot x) (hpage : x.page = page) (hsrc : seg.source = .flash) (hpass : seg.inPass = true) (haddr : rd.addr ≤ seg.last)
    (hlast : seg.last < 0x2000000) (hw : rd.want = x.hi + 1 - x.lo) (hhi : x.hi < 256) (hfits : rd.want ≤ seg.last + 1 - rd.addr)
    (hq : s.entriesOf seg.owner = []) (hslot : s.aheadSlot page = some (.filling page))
    (hread : s.engine.read = some { claimant := .prefetch, range := { page := page, lo := 0, hi := 255 }, discard := false })
    (hdef : s.engine.deferred.get .prefetch = none) :
    Completes .pageReadEnd s fun t =>
      t.portT.returned = s.portT.returned ++ (List.range (x.hi + 1 - x.lo)).map (fun k => Mem.get s.flash (page + x.lo + k)) ∧
      t.aheadSlot page = some (.held page (Mem.slice s.flash page 256)) ∧ Apart s t := by
  subst hpage
  generalize hbytes : (List.range (x.hi + 1 - x.lo)).map (fun k => Mem.get s.flash (x.page + x.lo + k)) = bytes
  have hlen : bytes.length = x.hi + 1 - x.lo := by rw [← hbytes, List.length_map, List.length_range]
  let filled := s.mapSlots (fillHeld x.page (Mem.slice s.flash x.page 256))
  have hheld : filled.aheadSlot x.page = some (.held x.page (Mem.slice s.flash x.page 256)) := by
    refine (slotOf_map (fillHeld_page _ _) x.page s.ahead.slots).trans ?_
    rw [← State.aheadSlot_eq, hslot, Option.map_some, fillHeld, if_pos rfl]
  have hjudge : filled.judgePiece .t seg x = filled.setPiece .t (.ready bytes) := by
    by_cases hx : x.lo ≤ x.hi
    · rw [State.judgePiece_of_slot (s := filled) hq hx hpass hheld, drop_take_slice _ (by omega), hbytes]
    · have hnone : x.hi + 1 - x.lo = 0 := by omega
      rw [hnone] at hlen
      rw [State.judgePiece_of_no_byte hnone, List.eq_nil_of_length_eq_zero hlen]
  let ready := filled.setReading .t { rd with piece := .ready bytes }
  have hslot' : filled.rejudgeSlot = ready := by
    have hrd : filled.reading .t = some rd := hr
    show _ = filled.setReading .t { rd with piece := .ready bytes }
    simp only [State.rejudgeSlot, hrd, hseg, hp, hjudge, State.setPiece_of_reading hrd]
  have hready : Apart s ready := (Apart.mapSlots s _).trans (Apart.setReading ..)
  let u := ready.judgePrefetch
  have hu : Apart s u := hready.trans (Apart.judgePrefetch _)
  have hpiece : PieceOnly .a ready u := PieceOnly.judgePrefetch ..
  have hreading : u.reading .t = some { rd with piece := .ready bytes } :=
    (State.reading_of_port (hpiece.other .t (by decide))).trans (State.reading_setReading ..)
  have hA : u.reading .a = none := hpiece.idle hother
  obtain ⟨rd', hrun⟩ := State.runPort_of_ready hreading hseg hsrc (by rw [hu.life]; exact hl) rfl (hw.trans hlen.symm)
    (show rd.addr + _ ≤ _ by omega) hlast
  have hfinish : u.finish = u.handed .t rd' bytes := by
    rw [(hcalm.of_apart hu).finish, State.runReads_of_other (p := .t) (r := .a) (by decide) hA, hrun]
  have hdefer : u.engine.deferred.get .prefetch = none := by
    obtain ⟨v, hv⟩ := State.engine_judgePrefetch (s := ready) hread rfl
    rw [show u.engine = _ from hv]
    exact hdef
  have hfill : s.fillAhead { claimant := .prefetch, range := { page := x.page, lo := 0, hi := 255 }, discard := false } = u := by
    show (filled.rejudgeSlot).judgePrefetch = _
    rw [hslot']
  have hend := ArbiterOnly.endPageRead (u.handed .t rd' bytes)
  refine ⟨(u.handed .t rd' bytes).endPageRead, ?_, ?_, ?_, ?_⟩
  · change execPageReadEnd s = _
    simp only [execPageReadEnd, hread]
    rw [State.keepNoDiscard_of_wanted hread rfl]
    show Host.Outcome.next ((s.fillAhead _).raiseDeferred .prefetch).finish.endPageRead = _
    rw [hfill, State.raiseDeferred_of_none hdefer, hfinish]
  · rw [hend.portT]
    show u.portT.returned ++ bytes = _
    rw [show u.portT = ready.portT from hpiece.other .t (by decide)]
    rfl
  · rw [State.aheadSlot_eq, hend.ahead]
    exact State.aheadSlot_judgePrefetch (s := ready) hheld
  · exact (hu.trans (State.handed_apart ..)).trans (Apart.endPageRead _)

/-- Settles O28: a port's piece, and a slot of the read-ahead buffer. -/
theorem pageReadAnswersPort : Obligations.PageReadAnswersPort := by
  refine ⟨fun p r s l rd seg x y hne hcalm hother hl hr hseg hp hsrc haddr hlast hw hfits hread hdef => ?_, prefetchReadEnds⟩
  obtain ⟨rd', hexec⟩ := exec_portReadEnd hne hcalm hother hl hr hseg hp hsrc haddr hlast hw hfits hread hdef
  generalize hv : s.handed p rd' (s.pieceBytes rd seg x) = v at hexec
  have hengine : v.engine = s.engine := by rw [← hv, State.engine_handed]
  have hqueues : v.queues = s.queues := by rw [← hv]; cases p <;> rfl
  have hapart : Apart s v := hv ▸ State.handed_apart ..
  have hhighest (cs : List Claimant) : v.highest cs = s.highest cs :=
    State.highest_congr (by rw [hengine]) (by rw [hengine]) hqueues cs
  have hentries (q : QueueId) : v.entriesOf q = s.entriesOf q := by rw [State.entriesOf, hqueues]; rfl
  have hclaim (c : Claimant) : v.claim c = s.claim c := by rw [State.claim, hengine]; rfl
  have hreturned : (v.endPageRead.port p).returned = (s.port p).returned ++ s.pieceBytes rd seg x := by
    have hport : v.endPageRead.port p = v.port p := by
      cases p
      · exact (ArbiterOnly.endPageRead v).portA
      · exact (ArbiterOnly.endPageRead v).portT
    rw [hport, ← hv, State.returned_handed]
  refine ⟨v.endPageRead, hexec, hreturned, fun hcarried => ?_, hapart.trans (Apart.endPageRead _), fun hwrite => ?_,
    fun q e rest hwrite he hs => ?_⟩
  · rw [hreturned, State.pieceBytes_of_not_carried hcarried]
  · have hfree := State.endPageRead_free (s := v) (by rw [hengine]; exact hwrite)
    simp only [hhighest, hclaim, hentries] at hfree
    exact hfree
  · have hsusp := State.endPageRead_suspension (s := v) (by rw [hengine]; exact hwrite) ((hentries q).trans he) hs
    simp only [hhighest, hclaim] at hsusp
    exact hsusp

end Sys2Proof.Machine
end

-- Proofs of the family 'other': the end of a read, PORT-RESET, and open writes.
section
/-! PROOFS. The end of a read (R53, R121, R122, R158) and PORT-RESET (R54), and a program or erase that stays open (R39, R40). -/

namespace Sys2Proof.Machine

/-! ### What ends a read (R53, R121, R122, R158) -/

section
variable {s : State} {rd : Reading}

/-- The end of a read of Port A: release closes where its last byte was the sealed bundle's. -/
theorem State.endRead_a (hr : s.reading .a = some rd) :
    s.endRead .a = { s with
      engine := (s.dropRead .aRead).engine
      portA := { s.portA with link := .idle }
      key := if rd.keyLast = true ∧ s.key.window = .released then { s.key with window := .hidden, releaseTimer := .stopped } else s.key
      dir := if rd.keyLast = true ∧ s.key.window = .released then { s.dir with events := s.dir.events ||| 0x0200#13 } else s.dir } := by
  generalize hu : ((s.dropRead .aRead).onPort .a fun x => { x with link := .idle }) = u
  have hend : s.endRead .a = u.reportRead .a rd := by simp only [State.endRead, hr, portClaimant, hu]
  have heq : u = { s with engine := (s.dropRead .aRead).engine, portA := { s.portA with link := .idle } } := hu.symm
  generalize (s.dropRead .aRead).engine = engine at heq ⊢
  have hkey : u.key = s.key := by rw [heq]
  rw [hend, State.reportRead]
  by_cases hlast : rd.keyLast = true
  · rw [if_pos hlast]
    by_cases hw : s.key.window = .released
    · rw [State.closeRelease_of_released (s := u) (hkey ▸ hw) (by rw [heq]; rfl), if_pos ⟨hlast, hw⟩, if_pos ⟨hlast, hw⟩, heq]
    · rw [State.closeRelease, if_neg (hkey ▸ hw), if_neg fun h => hw h.2, if_neg fun h => hw h.2, heq]
  · rw [if_neg hlast, if_neg fun h => hlast h.1, if_neg fun h => hlast h.1, heq]

/-- Clearing the read-ahead buffer leaves the other claims, and a discarded page read discarded. -/
theorem State.engine_clearAhead (s : State) :
    (∀ c, c ≠ .prefetch → s.clearAhead.engine.claims.get c = s.engine.claims.get c) ∧
    ∀ x, s.clearAhead.engine.read = some x →
      ∃ y, s.engine.read = some y ∧ x.claimant = y.claimant ∧ (y.discard = true → x.discard = true) := by
  have hengine : s.clearAhead.engine = s.dropFilling.engine := rfl
  rw [hengine, State.dropFilling]
  split
  · exact ⟨fun c hc => PerClaimant.get_put_ne _ _ hc, fun x hx => ⟨x, hx, rfl, id⟩⟩
  · refine ⟨fun c _ => rfl, fun x hx => ?_⟩
    obtain ⟨y, hy, rfl⟩ := Option.map_eq_some_iff.1 (show s.engine.read.map _ = some x from hx)
    refine ⟨y, hy, ?_, fun h => ?_⟩
    · split <;> rfl
    · split
      · rfl
      · exact h

/-- The pass after a read of Port T has ended (R121, R122). -/
def State.passAfter (s : State) (rd : Reading) : PassRecord :=
  if rd.inPass = true ∧ s.uni.pass.isOpen = true then
    (if rd.passLast then { s.uni.pass with isOpen := false, idle := .stopped, count := s.uni.pass.count + 1 }
     else { s.uni.pass with idle := .running s.passIdle })
  else s.uni.pass

/-- The end of a read of Port T: its pass closes by its last offset, or its idle timer starts. -/
theorem State.endRead_t (hr : s.reading .t = some rd) :
    ∃ engine ahead,
      engine.claims.get .tRead = none ∧ (∀ x, engine.read = some x → x.claimant = .tRead → x.discard = true) ∧
      (rd.inPass = true → s.uni.pass.isOpen = true → rd.passLast = true → ahead.position = none ∧ ∀ p b, .held p b ∉ ahead.slots) ∧
      s.endRead .t = { s with
        engine := engine
        ahead := ahead
        portT := { s.portT with link := .idle }
        uni := { s.uni with pass := s.passAfter rd } } := by
  generalize hu : ((s.dropRead .tRead).onPort .t fun x => { x with link := .idle }) = u
  have hend : s.endRead .t = u.reportRead .t rd := by simp only [State.endRead, hr, portClaimant, hu]
  have hclaim : u.engine.claims.get .tRead = none := hu ▸ s.claim_dropRead .tRead
  have hread (x : PageRead) (hx : u.engine.read = some x) (hc : x.claimant = .tRead) : x.discard = true :=
    s.read_dropRead .tRead x (by rw [← hu] at hx; exact hx) hc
  have heq : u = { s with engine := u.engine, portT := { s.portT with link := .idle } } := by rw [← hu]; rfl
  have hpass : u.uni.pass = s.uni.pass := by rw [heq]
  rw [hend, State.reportRead]
  by_cases hopen : rd.inPass = true ∧ s.uni.pass.isOpen = true
  · rw [hpass, if_pos (by rw [hopen.1, hopen.2]; rfl)]
    by_cases hlast : rd.passLast = true
    · rw [if_pos hlast]
      let v := u.onPass fun x => { x with isOpen := false, idle := .stopped, count := x.count + 1 }
      obtain ⟨hclaims, hreads⟩ := v.engine_clearAhead
      refine ⟨v.clearAhead.engine, v.clearAhead.ahead, (hclaims .tRead nofun).trans hclaim, fun x hx hc => ?_, fun _ _ _ =>
        ⟨State.clearAhead_position v, State.clearAhead_not_held v⟩, ?_⟩
      · obtain ⟨y, hy, hsame, hdiscard⟩ := hreads x hx
        exact hdiscard (hread y hy (hsame ▸ hc))
      · rw [State.passAfter, if_pos hopen, if_pos hlast]
        refine (State.clearAhead_eq v).trans ?_
        show ({ u.onPass _ with engine := v.clearAhead.engine, ahead := v.clearAhead.ahead } : State) = _
        generalize v.clearAhead.engine = engine
        rw [heq]
        rfl
    · rw [if_neg hlast]
      refine ⟨u.engine, u.ahead, hclaim, hread, fun _ _ h => absurd h hlast, ?_⟩
      rw [State.passAfter, if_pos hopen, if_neg hlast]
      generalize u.engine = engine at heq ⊢
      rw [heq]
      rfl
  · rw [hpass, if_neg (by rwa [Bool.and_eq_true])]
    refine ⟨u.engine, u.ahead, hclaim, hread, fun h h' => absurd ⟨h, h'⟩ hopen, ?_⟩
    rw [State.passAfter, if_neg hopen]
    generalize u.engine = engine at heq ⊢
    rw [heq]

end

theorem State.Calm.of_fields {s u : State} (h : s.Calm) (hqueue : u.dir.queue = s.dir.queue) (hrun : u.dir.running = s.dir.running)
    (hjob : u.job = s.job) (hwait : u.portA.awaiting = s.portA.awaiting) (hcause : u.portA.cause = s.portA.cause) : u.Calm :=
  ⟨hqueue.trans h.queue, hrun.trans h.running, hjob.trans h.job, hwait.trans h.awaiting, fun q hc => h.noRoom q (hcause.symm.trans hc)⟩

theorem dir_ite_queue {c : Prop} [Decidable c] (x : DirectiveUnit) (n : BitVec 13) :
    (if c then { x with events := n } else x : DirectiveUnit).queue = x.queue ∧
    (if c then { x with events := n } else x : DirectiveUnit).running = x.running ∧
    (if c then { x with events := n } else x : DirectiveUnit).slots = x.slots := by
  split <;> exact ⟨rfl, rfl, rfl⟩

/-- Settles O29: the end of a read of Port A and of one of Port T, each in a calm state. -/
theorem readEndReports : Obligations.ReadEndReports := by
  intro p r s rd hne hcalm hother hr
  change ∃ t, Host.Outcome.next (s.endRead p).finish = .next t ∧ _
  cases p with
  | a =>
    cases r with
    | a => exact absurd rfl hne
    | t =>
      have hcond : (Port.a = .a ∧ rd.keyLast = true ∧ s.key.window = .released) ↔ (rd.keyLast = true ∧ s.key.window = .released) :=
        and_iff_right rfl
      have hend := State.endRead_a hr
      obtain ⟨hqueue, hrunning, -⟩ :=
        dir_ite_queue (c := rd.keyLast = true ∧ s.key.window = .released) s.dir (s.dir.events ||| 0x0200#13)
      have hfinish : (s.endRead .a).finish = s.endRead .a := by
        rw [hend]
        exact State.Calm.finish_eq (hcalm.of_fields hqueue hrunning rfl rfl rfl) ⟨State.reading_of_idle rfl, hother⟩
      rw [hfinish, hend]
      refine ⟨_, rfl, rfl, rfl, State.claim_dropRead s .aRead, s.read_dropRead .aRead, ?_, ?_, rfl, nofun, rfl, rfl, rfl, rfl⟩
      · exact (if_congr hcond rfl rfl).symm
      · exact (if_congr hcond rfl rfl).symm
  | t =>
    cases r with
    | t => exact absurd rfl hne
    | a =>
      obtain ⟨engine, ahead, hclaim, hread, hahead, hend⟩ := State.endRead_t hr
      have hfinish : (s.endRead .t).finish = s.endRead .t := by
        rw [hend]
        exact State.Calm.finish_eq (hcalm.of_fields rfl rfl rfl rfl rfl) ⟨hother, State.reading_of_idle rfl⟩
      rw [hfinish, hend]
      refine ⟨_, rfl, rfl, rfl, hclaim, hread, (if_neg fun h => nomatch h.1).symm, (if_neg fun h => nomatch h.1).symm, ?_, fun _ => hahead,
        rfl, rfl, rfl, rfl⟩
      exact (if_congr (and_iff_right rfl) rfl rfl).symm

/-! ### PORT-RESET (R54) -/

/-- Without a FLIP that waits for the pass to close, the pass has no part in what is due. -/
theorem State.due_onUni {s : State} (hr : s.dir.running ≠ some .flipArm) (f : UniformityUnit → UniformityUnit) :
    (s.onUni f).due = none ↔ s.due = none := by
  have hclear (qs : List QueueId) : (s.onUni f).fenceClear qs = s.fenceClear qs := rfl
  have hempty (q : QueueId) : (s.onUni f).entriesOf q = s.entriesOf q := rfl
  have hdirective : (s.onUni f).directiveStep = none ↔ s.directiveStep = none := by
    have hslot (n : Nat) : (s.onUni f).slot n = s.slot n := rfl
    have hdir : (s.onUni f).dir = s.dir := rfl
    simp only [State.directiveStep, hdir, hslot]
    split
    · split <;> simp
    · rfl
  simp only [State.due_none, moments, List.forall_mem_cons, State.awaitingStep_eq_none, State.sysStep_eq_none, State.roomStep_eq_none,
    State.recordStep_eq_none, State.recoverEraseStep_eq_none, State.sealProgramStep_eq_none, State.sealFailedStep_eq_none, hdirective]
  refine and_congr Iff.rfl (and_congr Iff.rfl (and_congr Iff.rfl (and_congr Iff.rfl (and_congr Iff.rfl (and_congr Iff.rfl
    (and_congr Iff.rfl ?_))))))
  have hdir : (s.onUni f).dir = s.dir := rfl
  cases hrun : s.dir.running with
  | none =>
    simp [State.sealFenceStep_eq_none, State.setMapFenceStep, State.closeFenceStep, State.recoverFenceStep,
      State.serviceCloseFenceStep, State.flipDrainStep, State.syncStep, State.flipSwitchStep, hrun]
  | some ph =>
    rw [hrun] at hr
    cases ph <;> simp_all [State.sealFenceStep_eq_none, State.setMapFenceStep, State.closeFenceStep, State.recoverFenceStep,
      State.serviceCloseFenceStep, State.flipDrainStep, State.syncStep, State.flipSwitchStep]

theorem State.directiveStep_eq_none {s : State} :
    s.directiveStep = none ↔ ∀ n l, s.dir.running = none → s.dir.queue = n :: l → (s.slot n).state ≠ .pending := by
  unfold State.directiveStep
  split
  · next n l hr hq =>
    simp only [hr, hq, List.cons.injEq, true_imp_iff]
    constructor
    · rintro h n' l' ⟨rfl, rfl⟩ hp
      simp [hp] at h
    · intro h
      exact if_neg (h n l ⟨rfl, rfl⟩)
  · next h => exact iff_of_true rfl fun n l hr hq => absurd hq (h n l hr)

/-- The port after PORT-RESET. -/
def PortState.cleared (x : PortState) : PortState := { x.clearErrors with wel := false, link := .idle, returned := [] }

/-- What PORT-RESET does before its event goes on: the port is cleared; a read that it breaks off may close release or the pass. -/
theorem State.clearPort_endRead (s : State) (p : Port) :
    ∃ engine ahead pass key events, (s.endRead p).clearPort p =
      { s.setPort p (s.port p).cleared with
        engine := engine
        ahead := ahead
        uni := { s.uni with pass := pass }
        key := key
        dir := { s.dir with events := events } } := by
  cases hr : s.reading p with
  | none =>
    have hend : s.endRead p = s := by simp only [State.endRead, hr]
    rw [hend]
    exact ⟨s.engine, s.ahead, s.uni.pass, s.key, s.dir.events, by cases p <;> rfl⟩
  | some rd =>
    cases p with
    | a =>
      have hdir : (if rd.keyLast = true ∧ s.key.window = .released then { s.dir with events := s.dir.events ||| 0x0200#13 } else s.dir) =
          { s.dir with events := if rd.keyLast = true ∧ s.key.window = .released then s.dir.events ||| 0x0200#13 else s.dir.events } := by
        split <;> rfl
      rw [State.endRead_a hr, hdir]
      exact ⟨_, s.ahead, s.uni.pass, _, _, rfl⟩
    | t =>
      obtain ⟨engine, ahead, -, -, -, hend⟩ := State.endRead_t hr
      rw [hend]
      exact ⟨engine, ahead, _, s.key, s.dir.events, rfl⟩

theorem portResets (p r : Port) (s : State) (hne : p ≠ r) (hdue : s.due = none) (harm : s.dir.running ≠ some .flipArm)
    (hother : s.reading r = none) :
    Completes (.portReset p) s fun t =>
      t.port p = { s.port p with wel := false, protectErr := false, programErr := false, ignored := false, link := .idle,
                                 returned := [] } ∧
      t.port r = s.port r ∧ t.queues = s.queues ∧ t.pool = s.pool ∧ t.dir.slots = s.dir.slots ∧ t.dir.queue = s.dir.queue ∧
      t.dir.running = s.dir.running ∧ t.life = s.life ∧ t.flash = s.flash := by
  obtain ⟨engine, ahead, pass, key, events, heq⟩ := s.clearPort_endRead p
  let v : State := { s.setPort p (s.port p).cleared with engine := engine, ahead := ahead, key := key, dir := { s.dir with events := events } }
  have hv : v.uni = s.uni := by cases p <;> rfl
  have hsame : SameDue s v := by
    cases p <;> exact ⟨rfl, rfl, rfl, fun _ => rfl, rfl, rfl, rfl, id⟩
  have hstart : v.directiveStep = none := by
    have h := State.directiveStep_eq_none.1 (State.due_none.1 hdue _ (by simp [moments]))
    exact State.directiveStep_eq_none.2 h
  have hdue' : ((s.endRead p).clearPort p).due = none := by
    rw [heq]
    have h := (State.due_onUni (s := v) harm fun x => { x with pass := pass }).2 (hsame.due hdue hstart)
    cases p <;> exact h
  have hreads : ((s.endRead p).clearPort p).NoReads := by
    rw [heq]
    cases p with
    | a =>
      cases r with
      | a => exact absurd rfl hne
      | t => exact ⟨State.reading_of_idle rfl, hother⟩
    | t =>
      cases r with
      | t => exact absurd rfl hne
      | a => exact ⟨hother, State.reading_of_idle rfl⟩
  refine ⟨_, congrArg Host.Outcome.next (State.finish_of_not_due hdue' hreads), ?_⟩
  rw [heq]
  cases p with
  | a =>
    cases r with
    | a => exact absurd rfl hne
    | t => exact ⟨rfl, rfl, rfl, rfl, rfl, rfl, rfl, rfl, rfl⟩
  | t =>
    cases r with
    | t => exact absurd rfl hne
    | a => exact ⟨rfl, rfl, rfl, rfl, rfl, rfl, rfl, rfl, rfl⟩

/-! ### A program or erase that stays open, and a program without a byte (R39, R40) -/

theorem exec_openWrite (p : Port) (s : State) {kind : WriteKind} {a b : Addr} {data d : List Byte}
    (hcollect : (s.port p).link.collected kind a data = some (b, d)) (hdata : kind ≠ .program → data = []) :
    exec (openWrite p kind a data) s = .next (s.setPort p { s.port p with link := .collecting kind b d, returned := [] }) := by
  have harrive : s.arrive p kind a data false = s.setPort p { s.port p with link := .collecting kind b d, returned := [] } := by
    simp only [State.arrive, hcollect, Bool.false_eq_true, if_false]
    rfl
  rw [← harrive]
  cases kind with
  | program => rfl
  | eraseSector | eraseBlock =>
    rw [hdata nofun]
    rfl

theorem exec_emptyProgram (p : Port) (s : State) (a : Addr)
    (h : (s.port p).link = .idle ∨ (∃ b, (s.port p).link = .collecting .program b [])) :
    exec (.program p a [] true) s = .next (s.setPort p { s.port p with link := .idle, returned := [] }) := by
  have hcollect : ∃ b, (s.port p).link.collected .program a [] = some (b, []) := by
    rcases h with h | ⟨b, h⟩ <;> rw [h]
    · exact ⟨a, rfl⟩
    · exact ⟨b, rfl⟩
  obtain ⟨b, hb⟩ := hcollect
  change Host.Outcome.next (s.arrive p .program a [] true) = _
  simp only [State.arrive, hb, State.close, if_true, and_self]
  rfl

/-- Settles O30. -/
theorem portResetClears : Obligations.PortResetClears :=
  ⟨portResets, fun p s => ⟨fun _ _ _ _ _ => exec_openWrite p s, fun a => exec_emptyProgram p s a⟩⟩

end Sys2Proof.Machine
end

-- Proofs of the family 'other': what the leaving of an entry changes.
section
/-! PROOFS. What the leaving of an entry changes (R50, R64 to R67, R88, R117, R153). -/

namespace Sys2Proof.Machine

/-! ### Who hears of an entry that leaves (R64) -/

/-- Port A after an entry has left, with or without failure (R50, R51). -/
def PortState.told (x : PortState) (e : Entry) (failed : Bool) : PortState :=
  if e.origin = .portA then
    { x with cause := if x.cause = .entry e.seq then .none else x.cause, programErr := x.programErr || failed }
  else x

/-- The run of Q-SYS work after an entry has left (R8, R19, R153). -/
def State.jobTold (s : State) (e : Entry) (failed : Bool) : Option Job :=
  if e.origin = .portA then s.job
  else s.job.map fun j =>
    { j with unleft := j.unleft - 1, firstFailed := j.firstFailed.or (if failed then some e.addr else none) }

/-- The key sector that carries the bundle, after an entry has left (R152). -/
def State.carriedTold (s : State) (e : Entry) : Option Nat :=
  if e.origin = .portA then s.carried
  else match s.job.map Job.work with
    | some (.keySector base _) => some base
    | _ => s.carried

/-- The uniformity unit after an entry has left (R117). -/
def State.uniTold (s : State) (q : QueueId) (e : Entry) (failed : Bool) : UniformityUnit :=
  (if q = .uni then s.coverage e failed else s).uni

/-- A queue after a failed leaving has been counted (R65). -/
def Queue.booked (x : Queue) (out : Option FailReason) : Queue := if out.isSome then { x with failures := saturate x.failures } else x

/-- The event of a failed leaving (R65). -/
def failEvent (out : Option FailReason) : BitVec 13 := if out.isSome then 0x0010#13 else 0

/-- The record of a failed leaving (R66). -/
def failureOf (q : QueueId) (e : Entry) (out : Option FailReason) : Option FirstFailure :=
  out.map fun r => { queue := q, seq := e.seq, kind := e.kind, addr := e.addr, origin := e.origin, upstream := e.upstream, reason := r }

theorem PerQueue.put_get {α : Type} (x : PerQueue α) (q : QueueId) : x.put q (x.get q) = x := by cases q <;> rfl

section
variable (s : State) (q : QueueId) (e : Entry)

theorem State.freePage_eq (page : Option Nat) : s.freePage page = { s with pool := s.pool ++ page.toList } := by
  cases page with
  | none =>
    show s = { s with pool := s.pool ++ [] }
    rw [List.append_nil]
  | some p => rfl

theorem State.tellOrigin_eq (failed : Bool) :
    s.tellOrigin e failed =
      { s with portA := s.portA.told e failed, job := s.jobTold e failed, carried := s.carriedTold e } := by
  rw [State.tellOrigin, PortState.told, State.jobTold, State.carriedTold]
  cases horigin : e.origin with
  | portA => rfl
  | slot n =>
    simp only [reduceCtorEq, if_false, State.tellDirective, State.carryBundle]
    cases hj : s.job with
    | none =>
      simp only [State.setJob]
      rfl
    | some j =>
      cases hw : j.work <;> simp only [State.setJob, Option.map_some, hw] <;> rfl

theorem State.tellCoverage_eq (failed : Bool) : s.tellCoverage q e failed = { s with uni := s.uniTold q e failed } := by
  have hcoverage : s.coverage e failed = { s with uni := (s.coverage e failed).uni } := by
    rw [State.coverage]
    cases s.uniformity with
    | none => rfl
    | some m =>
      dsimp only
      split <;> rfl
  cases q with
  | uni => exact hcoverage
  | sys | pass | set => rfl

/-- What the uniformity unit hears depends on the map and on itself. -/
theorem State.uniTold_congr {s t : State} {q : QueueId} {e : Entry} {failed : Bool} (hlife : t.life = s.life) (huni : t.uni = s.uni) :
    t.uniTold q e failed = s.uniTold q e failed := by
  have hentry : t.uniformity = s.uniformity := by rw [State.uniformity, State.uniformity, hlife]
  have hlive : t.live = s.live := by rw [State.live, State.live, hlife]
  rw [State.uniTold, State.uniTold]
  by_cases hq : q = .uni
  · rw [if_pos hq, if_pos hq, State.coverage, State.coverage, hentry]
    cases s.uniformity with
    | none => exact huni
    | some m =>
      dsimp only
      rw [hlive]
      split
      · simp only [State.onUni, huni]
      · exact huni
  · rw [if_neg hq, if_neg hq, huni]

theorem State.bookFailure_eq (out : Option FailReason) :
    s.bookFailure q e out =
      { s with
        queues := s.queues.put q ((s.queues.get q).booked out)
        dir := { s.dir with events := s.dir.events ||| failEvent out }
        firstFailure := s.firstFailure.or (failureOf q e out) } := by
  cases out with
  | none =>
    have hevents : s.dir.events ||| failEvent none = s.dir.events := BitVec.or_zero
    rw [hevents, failureOf, Option.map_none, Option.or_none]
    show s = { s with queues := s.queues.put q (s.queues.get q) }
    rw [PerQueue.put_get]
  | some r =>
    rw [State.bookFailure, State.recordFailure]
    cases hf : (s.countFailure q).firstFailure with
    | none =>
      have hnone : s.firstFailure = none := hf
      rw [hnone]
      rfl
    | some f =>
      have hsome : s.firstFailure = some f := hf
      rw [hsome]
      dsimp only
      rw [State.countFailure]
      show _ = { s with queues := _, dir := _, firstFailure := some f }
      rw [← hsome]
      rfl

end

/-! ### The leaving as a whole -/

/-- While an operation occupies Port F, a queue's claim is not granted: it stands, or waits for a page read that is discarded. -/
theorem State.claimHead_busy {s : State} (h : s.engine.write ≠ none) (q : QueueId) :
    (s.claimHead q).engine.write = s.engine.write ∧ (s.claimHead q).engine.suspendCount = s.engine.suspendCount := by
  have hfree : s.portFree = false := by
    rw [State.portFree, Option.isNone_eq_false_iff.2 (Option.isSome_iff_ne_none.2 h), Bool.false_and]
  have hport : isPortRead q.claimant = false := by cases q <;> rfl
  rw [State.claimHead]
  split
  · rw [State.raiseClaim, hfree, hport]
    simp only [Bool.false_eq_true, if_false]
    split <;> exact ⟨rfl, rfl⟩
  · exact ⟨rfl, rfl⟩

/-- `u` is `s` after the head `e` of queue `q` has left, with the entries `rest` behind it. -/
structure Leaves (s : State) (q : QueueId) (e : Entry) (rest : List Entry) (out : Option FailReason) (u : State) : Prop where
  eq : u = { s with
    engine := u.engine
    queues := u.queues
    pool := s.pool ++ e.page.toList
    portA := s.portA.told e out.isSome
    job := s.jobTold e out.isSome
    carried := s.carriedTold e
    uni := s.uniTold q e out.isSome
    dir := { s.dir with events := s.dir.events ||| highEvent ((s.queues.get q).fills rest) ||| failEvent out }
    firstFailure := s.firstFailure.or (failureOf q e out) }
  queue : ∀ r, (u.queues.get r).still = (if r = q then ((s.queues.get q).filled rest).booked out else s.queues.get r).still
  busy : s.engine.write ≠ none → u.engine.write = s.engine.write ∧ u.engine.suspendCount = s.engine.suspendCount

theorem Queue.still_booked (x : Queue) (out : Option FailReason) : (x.booked out).still = x.still.booked out := by
  rw [Queue.booked, Queue.booked]
  split <;> rfl

theorem State.leaves {s : State} {q : QueueId} {e : Entry} {rest : List Entry} (h : s.entriesOf q = e :: rest) (out : Option FailReason) :
    Leaves s q e rest out (s.leave q out) := by
  have honly : ArbiterOnly (s.setEntries q rest) ((s.setEntries q rest).claimHead q) := ArbiterOnly.claimHead ..
  have hapart : Apart (s.setEntries q rest) ((s.setEntries q rest).claimHead q) := Apart.claimHead ..
  have hbusy := State.claimHead_busy (s := s.setEntries q rest) (q := q)
  generalize hv : (s.setEntries q rest).claimHead q = v at honly hapart hbusy
  have hleave : s.leave q out = (((v.freePage e.page).tellOrigin e out.isSome).tellCoverage q e out.isSome).bookFailure q e out := by
    rw [State.leave, h, ← hv]
  have hset := s.setEntries_eq q rest
  rw [hset] at honly hapart hbusy
  have hqueues (r : QueueId) : (v.queues.get r).still = (if r = q then (s.queues.get q).filled rest else s.queues.get r).still := by
    rw [hapart.queues r]
    split
    · next hr =>
      rw [hr, PerQueue.get_put]
    · next hr => rw [PerQueue.get_put_ne _ _ hr]
  have huni : ((v.freePage e.page).tellOrigin e out.isSome).uniTold q e out.isSome = s.uniTold q e out.isSome :=
    State.uniTold_congr (by rw [State.tellOrigin_eq, State.freePage_eq, honly]) (by rw [State.tellOrigin_eq, State.freePage_eq, honly])
  rw [hleave, State.bookFailure_eq, State.tellCoverage_eq, huni, State.tellOrigin_eq, State.freePage_eq]
  refine ⟨?_, fun r => ?_, fun hw => hbusy hw⟩
  · rw [honly]
    rfl
  · show ((v.queues.put q ((v.queues.get q).booked out)).get r).still = _
    by_cases hr : r = q
    · rw [hr, if_pos rfl, PerQueue.get_put, Queue.still_booked, hqueues q, if_pos rfl, Queue.still_booked]
    · rw [if_neg hr, PerQueue.get_put_ne _ _ hr, hqueues r, if_neg hr]

namespace Leaves

variable {s u : State} {q : QueueId} {e : Entry} {rest : List Entry} {out : Option FailReason} (h : Leaves s q e rest out u)
include h

theorem entries : (u.entriesOf q).map Entry.still = rest.map Entry.still := by
  have := congrArg Queue.entries (h.queue q)
  rw [if_pos rfl, Queue.still_booked, Queue.booked] at this
  refine this.trans ?_
  split <;> rfl

theorem others {r : QueueId} (hr : r ≠ q) : (u.entriesOf r).map Entry.still = (s.entriesOf r).map Entry.still := by
  have := congrArg Queue.entries (h.queue r)
  rwa [if_neg hr] at this

theorem failures (r : QueueId) : (u.queues.get r).failures =
    if r = q ∧ out.isSome = true then min 255 ((s.queues.get r).failures + 1) else (s.queues.get r).failures := by
  have hq := congrArg Queue.failures (h.queue r)
  change (u.queues.get r).failures = _ at hq
  rw [hq]
  by_cases hr : r = q
  · subst hr
    rw [if_pos rfl, Queue.booked]
    by_cases ho : out.isSome = true
    · rw [if_pos ho, if_pos ⟨rfl, ho⟩]
      rfl
    · rw [if_neg ho, if_neg fun hc => ho hc.2]
      rfl
  · rw [if_neg hr, if_neg fun hc => hr hc.1]
    rfl

theorem pool : u.pool = s.pool ++ e.page.toList := by rw [h.eq]

theorem portA : u.portA = s.portA.told e out.isSome := by rw [h.eq]

theorem portT : u.portT = s.portT := by rw [h.eq]

theorem job : u.job = s.jobTold e out.isSome := by rw [h.eq]

theorem carried : u.carried = s.carriedTold e := by rw [h.eq]

theorem uni : u.uni = s.uniTold q e out.isSome := by rw [h.eq]

theorem dir : u.dir = { s.dir with events := s.dir.events ||| highEvent ((s.queues.get q).fills rest) ||| failEvent out } := by rw [h.eq]

theorem firstFailure : u.firstFailure = s.firstFailure.or (failureOf q e out) := by rw [h.eq]

theorem life : u.life = s.life := by rw [h.eq]

theorem key : u.key = s.key := by rw [h.eq]

theorem flash : u.flash = s.flash := by rw [h.eq]

theorem nextSeq : u.nextSeq = s.nextSeq := by rw [h.eq]

end Leaves

/-! ### The end of the operation (R88) -/

theorem PortState.told_link (x : PortState) (e : Entry) (failed : Bool) : (x.told e failed).link = x.link := by
  rw [PortState.told]
  split <;> rfl

theorem PortState.told_awaiting (x : PortState) (e : Entry) (failed : Bool) : (x.told e failed).awaiting = x.awaiting := by
  rw [PortState.told]
  split <;> rfl

/-- What Port A hears never makes it wait for room. -/
theorem PortState.told_cause_room {x : PortState} {e : Entry} {failed : Bool} {q : QueueId} :
    (x.told e failed).cause = .room q ↔ x.cause = .room q := by
  rw [PortState.told]
  split
  · dsimp only
    split
    · next hc =>
      rw [hc]
      exact iff_of_false nofun nofun
    · rfl
  · rfl

section
variable {s u : State} {q : QueueId} {e : Entry} {rest : List Entry} {out : Option FailReason}

theorem Leaves.noReads (h : Leaves s q e rest out u) (hr : s.NoReads) : u.NoReads :=
  hr.of_links (by rw [h.portA, PortState.told_link]) (by rw [h.portT])

theorem Leaves.calm (h : Leaves s q e rest out u) (hc : s.Calm) : u.Calm where
  queue := by rw [h.dir]; exact hc.queue
  running := by rw [h.dir]; exact hc.running
  job := by
    rw [h.job, State.jobTold, hc.job]
    split <;> rfl
  awaiting := by rw [h.portA, PortState.told_awaiting, hc.awaiting]
  noRoom r hr := hc.noRoom r (by rwa [h.portA, PortState.told_cause_room] at hr)

theorem State.lastSuspend_grant (c : Claimant) : (s.grant c).engine.lastSuspend = s.engine.lastSuspend := by
  rw [State.grant]
  split
  · rfl
  · split <;> rfl

theorem State.lastSuspend_grantPoint : s.grantPoint.engine.lastSuspend = s.engine.lastSuspend := by
  rw [State.grantPoint]
  split
  · rfl
  · split
    · split
      · exact State.lastSuspend_grant _
      · rfl
    · split
      · split
        · exact State.lastSuspend_grant _
        · rfl
      · rfl

theorem State.lastSuspend_endWrite : s.endWrite.engine.lastSuspend = s.engine.suspendCount := State.lastSuspend_grantPoint

/-- The leaving of an entry, and the grant that follows it. -/
theorem Leaves.left (h : Leaves s q e rest out u) (hw : s.engine.write ≠ none) : Left s u.endWrite q e rest out := by
  have honly := ArbiterOnly.endWrite u
  have hqueue (r : QueueId) : (u.endWrite.queues.get r).still = (u.queues.get r).still := (Apart.endWrite u).queues r
  have hentries (r : QueueId) : (u.endWrite.entriesOf r).map Entry.still = (u.entriesOf r).map Entry.still :=
    congrArg Queue.entries (hqueue r)
  have hfailures (r : QueueId) : (u.endWrite.queues.get r).failures = (u.queues.get r).failures := by
    have := congrArg Queue.failures (hqueue r)
    exact this
  exact
    { entries := (hentries q).trans h.entries
      others := fun r hr => (hentries r).trans (h.others hr)
      pool := honly.pool.trans h.pool
      failures := fun r => (hfailures r).trans (h.failures r)
      events := fun ho => by
        rw [honly.dir, h.dir, failEvent, if_pos ho]
        simp
      first := fun f hf => by
        rw [honly.firstFailure, h.firstFailure, hf]
        rfl
      filled := fun hf => by
        rw [honly.firstFailure, h.firstFailure, hf]
        rfl
      portA := honly.portA.trans h.portA
      portT := honly.portT.trans h.portT
      coverage := honly.uni.trans h.uni
      suspends := State.lastSuspend_endWrite.trans (h.busy hw).2
      life := honly.life.trans h.life
      key := honly.key.trans h.key
      slots := by rw [honly.dir, h.dir]
      seq := honly.nextSeq.trans h.nextSeq }

/-- In a calm state without reads nothing but the leaving comes about. -/
theorem State.operationEnd_left (hc : s.Calm) (hr : s.NoReads) (hq : s.entriesOf q = e :: rest) (hw : s.engine.write ≠ none)
    (out : Option FailReason) : Left s (s.operationEnd q out) q e rest out ∧ (s.operationEnd q out).flash = s.flash := by
  have h := State.leaves hq out
  rw [State.operationEnd, (h.calm hc).finish_eq (h.noReads hr)]
  exact ⟨h.left hw, (ArbiterOnly.endWrite _).flash.trans h.flash⟩

end

end Sys2Proof.Machine
end

-- Proofs of the family 'other': the end of an operation and what follows it.
section
/-! PROOFS. The end of an operation: its entry leaves, done or failed (R64 to R66, R85 to R88), and what follows in the event (R48, R49,
R74, R152). -/

namespace Sys2Proof.Machine

/-! ### The operations that end (R85 to R87) -/

section
variable {s : State} {q : QueueId} {e : Entry} {rest : List Entry}

theorem State.write_of_inPhase {ph : WorkPhase} (h : s.inPhase ph = some (q, e)) : s.engine.write ≠ none := by
  rw [(State.inPhase_eq_some h).1]
  exact nofun

/-- The operation ends over a flash that it has left so. -/
theorem State.operationEnd_setFlash (hc : s.Calm) (hr : s.NoReads) (hq : s.entriesOf q = e :: rest) (hw : s.engine.write ≠ none) (m : Mem)
    (out : Option FailReason) :
    Left s ((s.setFlash m).operationEnd q out) q e rest out ∧ ((s.setFlash m).operationEnd q out).flash = m := by
  obtain ⟨hleft, hflash⟩ := State.operationEnd_left (s := s.setFlash m) ⟨hc.queue, hc.running, hc.job, hc.awaiting, hc.noRoom⟩
    ⟨hr.linkA, hr.linkT⟩ hq hw out
  have hcoverage : (s.setFlash m).uniTold q e out.isSome = s.uniTold q e out.isSome := State.uniTold_congr rfl rfl
  exact ⟨{ hleft with coverage := hleft.coverage.trans hcoverage }, hflash⟩

theorem exec_flashReady_failed (h : s.inPhase .wait = some (q, e)) (left : OffsetBytes) :
    exec (.flashReady true left) s = .next ((s.setFlash (noMarker (s.flashDone e left) e)).operationEnd q (some .flashError)) := by
  change execFlashReady true left s = _
  simp only [execFlashReady, h, if_true]

theorem State.waitExpired_eq (h : s.inPhase .wait = some (q, e)) (left : OffsetBytes) :
    s.waitExpired left = (s.setFlash (noMarker (s.flashBroken e left) e)).operationEnd q (some .flashError) := by
  simp only [State.waitExpired, h]

theorem exec_verifyEnd_done (h : s.inPhase .verify = some (q, e)) (hk : e.kind = .program)
    (himage : e.image = some (Mem.cut s.flash e.addr 256)) : exec .verifyEnd s = .next (s.operationEnd q none) := by
  change execVerifyEnd s = _
  simp [execVerifyEnd, h, hk, State.verified, himage]

theorem exec_verifyEnd_failed (h : s.inPhase .verify = some (q, e)) (hk : e.kind = .program)
    (himage : e.image ≠ some (Mem.cut s.flash e.addr 256)) (hr : 2 ≤ e.retries) :
    exec .verifyEnd s = .next (s.operationEnd q (some .verifyMismatch)) := by
  change execVerifyEnd s = _
  simp [execVerifyEnd, h, hk, State.verified, himage, Nat.not_lt.2 hr]

theorem exec_eraseCheckEnd (h : s.inPhase .verify = some (q, e)) (hk : e.kind ≠ .program) :
    exec .eraseCheckEnd s =
      .next (s.operationEnd q (if Mem.erasedIn s.flash e.addr e.kind.range then none else some .verifyMismatch)) := by
  change execEraseCheckEnd s = _
  simp only [execEraseCheckEnd, h, hk, if_false]

end

/-! ### What the flash holds then (R9, R10, R76, R87) -/

theorem Mem.get_of_mem {m : Mem} (h : m.Pairwise fun c d => c.1 < d.1) {c : Nat × Byte} (hc : c ∈ m) : Mem.get m c.1 = c.2 := by
  induction m with
  | nil => nomatch hc
  | cons d m ih =>
    obtain ⟨hd, hm⟩ := List.pairwise_cons.1 h
    rcases List.mem_cons.1 hc with rfl | hc
    · exact if_pos rfl
    · rw [Mem.get, if_neg (Nat.ne_of_lt (hd c hc)), ih hm hc]

/-- A range is erased where every byte of it reads `0xFF`. -/
theorem Mem.erasedIn_iff {m : Mem} (hm : Mem.wf m = true) (lo n : Nat) :
    Mem.erasedIn m lo n = true ↔ ∀ o < n, Mem.get m (lo + o) = 0xFF#8 := by
  obtain ⟨hpair, hne⟩ := (Mem.wf_iff m).1 hm
  simp only [Mem.erasedIn, List.all_eq_true, Bool.or_eq_true, decide_eq_true_eq]
  constructor
  · intro h o ho
    refine Mem.get_of_not_listed fun c hc => ?_
    have := h c hc
    omega
  · intro h c hc
    refine Decidable.byContradiction fun hin => hne c hc ?_
    rw [← Mem.get_of_mem hpair hc]
    have := h (c.1 - lo) (by omega)
    rwa [Nat.add_sub_cancel' (by omega)] at this

section
variable {s : State} {e : Entry} {left : OffsetBytes}

theorem State.get_failed_outside (hm : Mem.wf s.flash = true) (hdata : OffsetBytes.ok 256 e.data = true) {a : Nat}
    (ha : a < e.addr ∨ e.addr + e.kind.range ≤ a) : Mem.get (noMarker (s.flashDone e left) e) a = Mem.get s.flash a := by
  rw [get_noMarker (wf_flashDone s e left hm) e ha, State.get_flashDone_outside hm hdata left ha]

theorem State.get_expired_outside (hm : Mem.wf s.flash = true) {a : Nat} (ha : a < e.addr ∨ e.addr + e.kind.range ≤ a) :
    Mem.get (noMarker (s.flashBroken e left) e) a = Mem.get s.flash a := by
  rw [get_noMarker (wf_flashBroken s e left hm) e ha, State.get_flashBroken_outside hm left ha]

/-- A failed program of a record page leaves no valid record (R9). -/
theorem readRecord_noMarker {m : Mem} (hm : Mem.wf m = true) (hk : e.kind = .program) (hhit : e.HitsRecord) :
    readRecord (Mem.cut (noMarker m e) 0x1FFF000 4096) = none := by
  have haddr : e.addr = controlSector ∨ e.addr = controlSector + 256 := hhit.1 hk
  have hslice := slice_noMarker hm hk haddr
  refine readRecord_cut_of_no_marker ?_
  rcases haddr with h | h <;> rw [h] at hslice
  · exact .inl hslice
  · exact .inr hslice

/-- A failed operation on the record leaves no valid record (R9, R10). -/
theorem State.readRecord_failed (hm : Mem.wf s.flash = true) (hhit : e.HitsRecord) :
    readRecord (Mem.cut (noMarker (s.flashDone e left) e) 0x1FFF000 4096) = none := by
  by_cases hk : e.kind = .program
  · exact readRecord_noMarker (wf_flashDone s e left hm) hk hhit
  · obtain ⟨hlo, hhi⟩ := hhit.2 hk
    have hslice := slice_noRecord (Mem.wf_setAll (Mem.wf_erase hm e.addr e.kind.range) e.addr (leftIn e.kind.range left)) hlo hhi
    rw [noMarker_of_erase _ hk]
    refine readRecord_cut_of_no_marker (.inl ?_)
    rw [State.flashDone]
    split
    · next h => exact absurd h hk
    · exact hslice

theorem State.readRecord_expired (hm : Mem.wf s.flash = true) (hhit : e.HitsRecord) :
    readRecord (Mem.cut (noMarker (s.flashBroken e left) e) 0x1FFF000 4096) = none := by
  by_cases hk : e.kind = .program
  · exact readRecord_noMarker (wf_flashBroken s e left hm) hk hhit
  · obtain ⟨hlo, hhi⟩ := hhit.2 hk
    rw [noMarker_of_erase _ hk]
    exact State.readRecord_flashBroken_erase hm hk hlo hhi left

end

/-- The operation's end in a calm state. -/
theorem operationEndLeavesCalm (s : State) (q : QueueId) (e : Entry) (rest : List Entry) (hc : s.Calm) (hr : s.NoReads)
    (hq : s.entriesOf q = e :: rest) :
    (s.inPhase .wait = some (q, e) → ∀ left,
      (Completes (.flashReady true left) s fun t => Left s t q e rest (some .flashError) ∧
        (s.memoryOk → OffsetBytes.ok 256 e.data = true →
          (∀ a, a < e.addr ∨ e.addr + e.kind.range ≤ a → Mem.get t.flash a = Mem.get s.flash a) ∧
          (e.HitsRecord → readRecord (Mem.cut t.flash 0x1FFF000 4096) = none))) ∧
      Completes (.waitLimitExpiry left) s fun t => Left s t q e rest (some .flashError) ∧
        (s.memoryOk →
          (∀ a, a < e.addr ∨ e.addr + e.kind.range ≤ a → Mem.get t.flash a = Mem.get s.flash a) ∧
          (e.HitsRecord → readRecord (Mem.cut t.flash 0x1FFF000 4096) = none))) ∧
    (s.inPhase .verify = some (q, e) → e.kind = .program →
      (e.image = some (Mem.cut s.flash e.addr 256) → Completes .verifyEnd s fun t => Left s t q e rest none ∧ t.flash = s.flash) ∧
      (e.image ≠ some (Mem.cut s.flash e.addr 256) → 2 ≤ e.retries →
        Completes .verifyEnd s fun t => Left s t q e rest (some .verifyMismatch) ∧ t.flash = s.flash)) ∧
    (s.inPhase .verify = some (q, e) → e.kind ≠ .program → s.memoryOk →
      ((∀ o < e.kind.range, Mem.get s.flash (e.addr + o) = 0xFF#8) →
        Completes .eraseCheckEnd s fun t => Left s t q e rest none ∧ t.flash = s.flash) ∧
      ((∃ o < e.kind.range, Mem.get s.flash (e.addr + o) ≠ 0xFF#8) →
        Completes .eraseCheckEnd s fun t => Left s t q e rest (some .verifyMismatch) ∧ t.flash = s.flash)) := by
  refine ⟨fun hph left => ⟨?_, ?_⟩, fun hph hk => ⟨fun himage => ?_, fun himage hret => ?_⟩, fun hph hk hm => ⟨fun h => ?_, fun h => ?_⟩⟩
  · obtain ⟨hleft, hflash⟩ := State.operationEnd_setFlash hc hr hq (State.write_of_inPhase hph) (noMarker (s.flashDone e left) e)
      (some .flashError)
    refine ⟨_, exec_flashReady_failed hph left, hleft, fun hm hdata => ?_⟩
    rw [hflash]
    exact ⟨fun a ha => State.get_failed_outside hm.1 hdata ha, State.readRecord_failed hm.1⟩
  · obtain ⟨hleft, hflash⟩ := State.operationEnd_setFlash hc hr hq (State.write_of_inPhase hph) (noMarker (s.flashBroken e left) e)
      (some .flashError)
    refine ⟨_, congrArg Host.Outcome.next (State.waitExpired_eq hph left), hleft, fun hm => ?_⟩
    rw [hflash]
    exact ⟨fun a ha => State.get_expired_outside hm.1 ha, State.readRecord_expired hm.1⟩
  · exact ⟨_, exec_verifyEnd_done hph hk himage, State.operationEnd_left hc hr hq (State.write_of_inPhase hph) none⟩
  · exact ⟨_, exec_verifyEnd_failed hph hk himage hret, State.operationEnd_left hc hr hq (State.write_of_inPhase hph) _⟩
  · refine ⟨_, exec_eraseCheckEnd hph hk, ?_⟩
    rw [if_pos ((Mem.erasedIn_iff hm.1 _ _).2 h)]
    exact State.operationEnd_left hc hr hq (State.write_of_inPhase hph) none
  · obtain ⟨o, ho, hne⟩ := h
    refine ⟨_, exec_eraseCheckEnd hph hk, ?_⟩
    rw [if_neg fun herased => hne ((Mem.erasedIn_iff hm.1 _ _).1 herased o ho)]
    exact State.operationEnd_left hc hr hq (State.write_of_inPhase hph) _

/-! ### What follows in the event -/

section
variable {s u : State} {q : QueueId} {e : Entry} {rest : List Entry}

theorem State.entriesOf_endWrite (u : State) (r : QueueId) : (u.endWrite.entriesOf r).map Entry.still = (u.entriesOf r).map Entry.still :=
  congrArg Queue.entries ((Apart.endWrite u).queues r)

/-- The entries of a queue after the leaving. -/
theorem Leaves.entriesOf (h : Leaves s q e rest none u) (r : QueueId) :
    (u.entriesOf r).map Entry.still = (if r = q then rest else s.entriesOf r).map Entry.still := by
  by_cases hr : r = q
  · rw [if_pos hr, hr]
    exact h.entries
  · rw [if_neg hr]
    exact h.others hr

theorem Leaves.length_entriesOf (h : Leaves s q e rest none u) (r : QueueId) :
    (u.entriesOf r).length = (if r = q then rest else s.entriesOf r).length := by
  simpa using congrArg List.length (h.entriesOf r)

theorem Leaves.job_none (h : Leaves s q e rest none u) (hj : s.job = none) : u.job = none := by
  rw [h.job, State.jobTold, hj]
  split <;> rfl

theorem Leaves.awaiting (h : Leaves s q e rest none u) : u.portA.awaiting = s.portA.awaiting := by
  rw [h.portA, PortState.told_awaiting]

/-- Port A waits for room in a queue: the leaving may make it (R48). -/
theorem Leaves.finish_room (h : Leaves s q e rest none u) (hr : s.NoReads) {r : QueueId} (hqueue : s.dir.queue = [])
    (hrun : s.dir.running = none) (hj : s.job = none) (hwait : s.portA.awaiting = none) (hcause : s.portA.cause = .room r) :
    u.finish = u.onPort .a fun x => { x with
      cause := if (if r = q then rest else s.entriesOf r).length < 32 ∧ s.pool ++ e.page.toList ≠ [] then .none else .room r } := by
  have hdir : u.dir.queue = [] ∧ u.dir.running = none := by
    rw [h.dir]
    exact ⟨hqueue, hrun⟩
  have hroom : u.portA.cause = .room r := by rw [h.portA, PortState.told_cause_room, hcause]
  have hdue : u.due = if (if r = q then rest else s.entriesOf r).length < 32 ∧ s.pool ++ e.page.toList ≠ []
      then some (u.onPort .a fun x => { x with cause := .none }) else none := by
    rw [State.due_of_idle hdir.2 (h.job_none hj), State.awaitingStep_none (h.awaiting.trans hwait), State.directiveStep_none hdir.1,
      Option.none_or, Option.or_none, State.roomStep_of_room hroom, h.length_entriesOf, h.pool]
  have hreads := h.noReads hr
  by_cases hfree : (if r = q then rest else s.entriesOf r).length < 32 ∧ s.pool ++ e.page.toList ≠ []
  · rw [if_pos hfree] at hdue ⊢
    exact State.Calm.finish_due ⟨hdir.1, hdir.2, h.job_none hj, h.awaiting.trans hwait, nofun⟩ (hreads.of_links rfl rfl) hdue
  · rw [if_neg hfree] at hdue ⊢
    rw [State.finish_of_not_due hdue hreads, ← hroom]
    rfl

/-- Port A's awaiting write is given the page that the leaving frees (R49). -/
theorem Leaves.finish_awaiting (h : Leaves s q e rest none u) (hr : s.NoReads) {w : QueuedWrite} {page : Nat} (hqueue : s.dir.queue = [])
    (hrun : s.dir.running = none) (hj : s.job = none) (hwait : s.portA.awaiting = some w) (hk : w.kind = .program) (hpool : s.pool = [])
    (hpage : e.page = some page) :
    ∃ v, Joined (State.paged (u.onPort .a fun x => { x with awaiting := none }) w.kind) w.queue
        (State.postedEntry (u.onPort .a fun x => { x with awaiting := none }) w) v ∧
      u.finish = v.onPort .a fun x => { x with cause := if w.posted then .room w.queue else .entry s.nextSeq } := by
  let x := u.onPort .a fun x => { x with awaiting := none }
  have hfree : u.pool = [page] := by
    rw [h.pool, hpool, hpage]
    rfl
  have hpaged : (x.paged w.kind).pool = [] := by
    show (if w.kind = .program then u.pool.tail else u.pool) = []
    rw [if_pos hk, hfree]
    rfl
  have hdir : u.dir.queue = [] ∧ u.dir.running = none := by
    rw [h.dir]
    exact ⟨hqueue, hrun⟩
  have hreads := h.noReads hr
  have hseq : x.nextSeq = s.nextSeq := h.nextSeq
  have hdue : u.due = some (x.postWrite w) := by
    have hstep : u.awaitingStep = some (x.postWrite w) := by
      simp only [State.awaitingStep, h.awaiting.trans hwait]
      exact if_neg (by rw [hfree]; exact nofun)
    rw [State.due_of_idle hdir.2 (h.job_none hj), hstep]
    rfl
  have hv : Joined (x.paged w.kind) w.queue (x.postedEntry w) ((x.paged w.kind).joinEntry w.queue (x.postedEntry w)) :=
    State.NoReads.joined (s := x.paged w.kind) ⟨hreads.linkA, hreads.linkT⟩ _ _
  generalize hjoin : (x.paged w.kind).joinEntry w.queue (x.postedEntry w) = v at hv
  have hpost : x.postWrite w = v.onPort .a fun y => { y with cause := if w.posted then .room w.queue else .entry s.nextSeq } := by
    rw [State.postWrite, State.takePage_eq, ← hjoin, ← hseq]
    rfl
  refine ⟨v, hv, ?_⟩
  rw [hpost] at hdue
  generalize hz : (v.onPort .a fun y => { y with cause := if w.posted then .room w.queue else .entry s.nextSeq }) = z at hdue ⊢
  have hzpool : z.pool = [] := by
    rw [← hz]
    exact hv.pool.trans hpaged
  have hzdir : z.dir.queue = [] ∧ z.dir.running = none := by
    rw [← hz]
    show v.dir.queue = [] ∧ v.dir.running = none
    rw [hv.dir]
    exact hdir
  have hzjob : z.job = none := by
    rw [← hz]
    exact hv.job.trans (h.job_none hj)
  have hzwait : z.portA.awaiting = none := by
    rw [← hz]
    exact congrArg PortState.awaiting hv.portA
  have hzreads : z.NoReads := by
    rw [← hz]
    exact hreads.of_links (congrArg PortState.link hv.portA :) (congrArg PortState.link hv.portT :)
  have hzdue : z.due = none := by
    rw [State.due_of_idle hzdir.2 hzjob, State.awaitingStep_none hzwait, State.directiveStep_none hzdir.1,
      State.roomStep_eq_none.2 fun _ _ hroom => hroom.2 hzpool]
    rfl
  have hsettle : settleUpTo 511 z = z := by rw [settleUpTo, hzdue]
  rw [State.finish_of_due hdue, hsettle, hzreads.runReads]

/-- A run of Q-SYS work hears that one of its entries is done, others being still to leave (R152). -/
theorem Leaves.finish_job (h : Leaves s q e rest none u) {n m : Nat} {ph : Phase} {j : Job} (ha : s.Alone n ph) (hs : ph.stays = true)
    (hj : s.job = some j) (hw : j.wants = false) (hunleft : 1 < j.unleft) (ho : e.origin = .slot m) :
    u.finish = u ∧ u.job = some { j with unleft := j.unleft - 1 } := by
  have hjob : u.job = some { j with unleft := j.unleft - 1 } := by
    rw [h.job, State.jobTold, ho, hj]
    simp
  have hended : Job.ended { j with unleft := j.unleft - 1 } = false := by
    have : decide (j.unleft - 1 = 0) = false := decide_eq_false (by omega)
    rw [Job.ended, this, Bool.and_false]
  have hsteady : u.Steady ph (some j.work) :=
    { running := by rw [h.dir]; exact ha.running
      stays := hs
      work := by rw [hjob]; rfl
      job := fun k hk => by
        rw [hjob] at hk
        cases hk
        exact hended }
  refine ⟨?_, hjob⟩
  have hdue : u.due = none := by
    cases hd : u.due with
    | none => rfl
    | some t =>
      rcases hsteady.due_cases hd with h1 | h1 | h1
      · rw [State.awaitingStep_none (h.awaiting.trans ha.awaiting)] at h1
        nomatch h1
      · have hno : u.sysStep = none := State.sysStep_eq_none.2 fun k hk hroom => by
          rw [hjob] at hk
          cases hk
          have hwants : Job.wants { j with unleft := j.unleft - 1 } = false := hw
          rw [State.sysRoom, hwants] at hroom
          exact Bool.false_ne_true hroom.1
        rw [hno] at h1
        nomatch h1
      · rw [State.roomStep_none fun r hc => ha.noRoom r (by rwa [h.portA, PortState.told_cause_room] at hc)] at h1
        nomatch h1
  exact State.finish_of_not_due hdue (h.noReads ha.toNoReads)

/-- SYNC's last entry leaves: SYNC ends with the failure counts (R74). -/
theorem Leaves.finish_sync (h : Leaves s q e [] none u) {n : Nat} {names : PerQueue Bool} (ha : s.Alone n (.syncWait names))
    (hj : s.job = none) (hd : (s.slot n).directive = some .sync) (hothers : ∀ r, r ≠ q → names.get r = true → s.entriesOf r = [])
    (hlevel : (s.queues.get q).level ≠ 0) :
    u.finish = u.ended n .done [byte s.queues.sys.failures, byte s.queues.pass.failures, byte s.queues.set.failures,
      byte s.queues.uni.failures] ∧ u.dir = s.dir := by
  have hdir : u.dir = s.dir := by
    have hfills : (s.queues.get q).fills [] = false := by
      rw [Queue.fills, decide_eq_false (by simpa using hlevel), Bool.false_and]
    rw [h.dir, hfills]
    simp [highEvent, failEvent]
  have hfailures (r : QueueId) : (u.queues.get r).failures = (s.queues.get r).failures := by
    rw [h.failures r, if_neg fun hc => Bool.false_ne_true hc.2]
  have hempty (r : QueueId) (hr : names.get r = true) : u.entriesOf r = [] := by
    have hstill := h.entriesOf r
    by_cases hrq : r = q
    · rw [if_pos hrq] at hstill
      exact List.map_eq_nil_iff.1 hstill
    · rw [if_neg hrq, hothers r hrq hr] at hstill
      exact List.map_eq_nil_iff.1 hstill
  have hwait : u.portA.awaiting = none := h.awaiting.trans ha.awaiting
  have hroom (r : QueueId) : u.portA.cause ≠ .room r := fun hc => ha.noRoom r (by rwa [h.portA, PortState.told_cause_room] at hc)
  have hwaits : u.Waits (.syncWait names) := ⟨by rw [hdir]; exact ha.running, h.job_none hj, hwait, hroom⟩
  have hheads : u.Heads n := ha.heads (by rw [hdir]) (by rw [hdir])
  have hslot : (u.slot n).directive = some .sync := by rw [State.slot_congr (s := s) (t := u) (by rw [hdir]), hd]
  have hdue : u.due = some (u.ended n .done [byte s.queues.sys.failures, byte s.queues.pass.failures, byte s.queues.set.failures,
      byte s.queues.uni.failures]) := by
    have hclear : u.fenceClear names.named = true :=
      State.fenceClear_eq_true (fun r hr => hempty r (PerQueue.mem_named.1 hr)) hwait
    have hcounts : (fun r => (u.queues.get r).failures) = fun r => (s.queues.get r).failures := funext hfailures
    have hsys := congrFun hcounts .sys
    have hpass := congrFun hcounts .pass
    have hset := congrFun hcounts .set
    have huni := congrFun hcounts .uni
    simp only [PerQueue.get] at hsys hpass hset huni
    rw [hwaits.due, State.fenceStep, State.syncStep_of_clear hwaits.running hclear,
      hheads.endDirective_other (by rw [hslot]; exact nofun) (by rw [hslot]; exact nofun), hsys, hpass, hset, huni]
  have htail : u.dir.queue.tail = [] := ha.queue_tail (by rw [hdir])
  exact ⟨State.Calm.finish_due ⟨htail, rfl, hwaits.job, hwait, hroom⟩ ((h.noReads ha.toNoReads).of_links rfl rfl) hdue, hdir⟩

end

/-- The operation's end where something waits for it. -/
theorem operationEndGoesOn (s : State) (q : QueueId) (e : Entry) (rest : List Entry) (hr : s.NoReads) (hq : s.entriesOf q = e :: rest)
    (hph : s.inPhase .verify = some (q, e)) (hk : e.kind = .program) (himage : e.image = some (Mem.cut s.flash e.addr 256)) :
    (∀ r, s.dir.queue = [] → s.dir.running = none → s.job = none → s.portA.awaiting = none → s.portA.cause = .room r →
      Completes .verifyEnd s fun t =>
        (t.entriesOf q).map Entry.still = rest.map Entry.still ∧ t.pool = s.pool ++ e.page.toList ∧
        t.portA.cause = (if (if r = q then rest else s.entriesOf r).length < 32 ∧ s.pool ++ e.page.toList ≠ [] then .none
          else .room r)) ∧
    (∀ w page, s.dir.queue = [] → s.dir.running = none → s.job = none → s.portA.awaiting = some w → w.kind = .program →
      s.portA.cause = .page → s.pool = [] → e.page = some page →
      Completes .verifyEnd s fun t =>
        (t.entriesOf w.queue).map Entry.still = (if w.queue = q then rest else s.entriesOf w.queue).map Entry.still ++
          [{ seq := s.nextSeq, kind := .program, addr := w.addr, data := w.data, page := some page, origin := .portA,
             upstream := some w.upstream, posted := w.posted, state := .queued, retries := 0, image := none }] ∧
        t.pool = [] ∧ t.portA.awaiting = none ∧ t.portA.cause = (if w.posted then .room w.queue else .entry s.nextSeq)) ∧
    (∀ n ph j m, s.Alone n ph → ph.stays = true → s.job = some j → j.wants = false → 1 < j.unleft → e.origin = .slot m →
      Completes .verifyEnd s fun t =>
        (t.entriesOf q).map Entry.still = rest.map Entry.still ∧ t.job = some { j with unleft := j.unleft - 1 } ∧
        t.dir.running = some ph ∧ t.life = s.life ∧
        t.carried = (match j.work with | .keySector base _ => some base | _ => s.carried)) ∧
    (∀ n names, s.Alone n (.syncWait names) → s.job = none → (s.slot n).directive = some .sync → rest = [] → names.get q = true →
      (∀ r, r ≠ q → names.get r = true → s.entriesOf r = []) → (s.queues.get q).level ≠ 0 →
      Completes .verifyEnd s fun t =>
        t.entriesOf q = [] ∧
        t.dir = s.dir.ended n .done [byte s.queues.sys.failures, byte s.queues.pass.failures, byte s.queues.set.failures,
          byte s.queues.uni.failures]) := by
  have h := State.leaves hq none
  have hexec : exec .verifyEnd s = .next (s.leave q none).finish.endWrite := exec_verifyEnd_done hph hk himage
  generalize hu : s.leave q none = u at h hexec
  refine ⟨fun r hqueue hrun hj hwait hcause => ?_, fun w page hqueue hrun hj hwait hkind _ hpool hpage => ?_,
    fun n ph j m ha hs hj hw hunleft ho => ?_, fun n names ha hj hd hrest hname hothers hlevel => ?_⟩
  · rw [h.finish_room hr hqueue hrun hj hwait hcause] at hexec
    have honly := ArbiterOnly.endWrite (u.onPort .a fun x => { x with
      cause := if (if r = q then rest else s.entriesOf r).length < 32 ∧ s.pool ++ e.page.toList ≠ [] then .none else .room r })
    exact ⟨_, hexec, (State.entriesOf_endWrite _ q).trans h.entries, honly.pool.trans h.pool, congrArg PortState.cause honly.portA⟩
  · obtain ⟨v, hv, hfinish⟩ := h.finish_awaiting hr hqueue hrun hj hwait hkind hpool hpage
    rw [hfinish] at hexec
    have honly := ArbiterOnly.endWrite (v.onPort .a fun x => { x with cause := if w.posted then .room w.queue else .entry s.nextSeq })
    have hfree : u.pool = [page] := by
      rw [h.pool, hpool, hpage]
      rfl
    refine ⟨_, hexec, ?_, honly.pool.trans ?_, (congrArg PortState.awaiting honly.portA).trans ?_, congrArg PortState.cause honly.portA⟩
    · refine (State.entriesOf_endWrite _ w.queue).trans (hv.entriesOf.trans ?_)
      have hpages : (State.postedEntry (u.onPort .a fun x => { x with awaiting := none }) w) = w.entry s.nextSeq (some page) := by
        rw [State.postedEntry, if_pos hkind]
        show w.entry u.nextSeq u.pool.head? = _
        rw [h.nextSeq, hfree]
        rfl
      have hseq : (State.paged (u.onPort .a fun x => { x with awaiting := none }) w.kind).nextSeq = s.nextSeq := h.nextSeq
      rw [hpages, hseq]
      refine congrArg₂ (· ++ ·) (h.entriesOf w.queue) ?_
      rw [QueuedWrite.entry, hkind]
      rfl
    · refine hv.pool.trans ?_
      show (if w.kind = .program then u.pool.tail else u.pool) = []
      rw [if_pos hkind, hfree]
      rfl
    · exact congrArg PortState.awaiting hv.portA
  · obtain ⟨hfinish, hjob⟩ := h.finish_job ha hs hj hw hunleft ho
    rw [hfinish] at hexec
    have honly := ArbiterOnly.endWrite u
    refine ⟨_, hexec, (State.entriesOf_endWrite _ q).trans h.entries, honly.job.trans hjob, ?_, honly.life.trans h.life, ?_⟩
    · rw [honly.dir, h.dir]
      exact ha.running
    · rw [honly.carried, h.carried, State.carriedTold, ho, hj]
      simp only [reduceCtorEq, if_false, Option.map_some]
      cases j.work <;> rfl
  · subst hrest
    obtain ⟨hfinish, hdir⟩ := h.finish_sync ha hj hd hothers hlevel
    rw [hfinish] at hexec
    refine ⟨_, hexec, ?_, ?_⟩
    · exact List.map_eq_nil_iff.1 ((State.entriesOf_endWrite _ q).trans h.entries)
    · rw [(ArbiterOnly.endWrite _).dir]
      show u.dir.ended n .done _ = _
      rw [hdir]

/-- Settles O54. -/
theorem operationEndLeaves : Obligations.OperationEndLeaves :=
  ⟨operationEndLeavesCalm, operationEndGoesOn⟩

end Sys2Proof.Machine
end

-- Proofs of the family 'other': the timers and the tick.
section
/-! PROOFS. The timers' expiries (R121, R145, R158) and the tick (R81, R85; log entry 8). -/

namespace Sys2Proof.Machine

/-! ### The expiries -/

section
variable {s : State}

theorem State.stageExpired_of_running (hr : s.NoReads) {n : Nat} (h : s.key.stageTimer = .running n) :
    s.stageExpired = { s with
      key := { s.key with staging := [], stageTimer := .stopped }
      dir := { s.dir with events := s.dir.events ||| 0x0100#13 } } := by
  have hreads : ((s.onKey fun k => { k with staging := [], stageTimer := .stopped }).raise .stageExpired).NoReads := ⟨hr.linkA, hr.linkT⟩
  rw [State.stageExpired, h, if_pos (by rfl), hreads.runReads]
  rfl

theorem State.stageExpired_of_stopped (h : s.key.stageTimer = .stopped) : s.stageExpired = s := by
  rw [State.stageExpired, h]
  rfl

theorem State.releaseExpired_of_running (hr : s.NoReads) {n : Nat} (h : s.key.releaseTimer = .running n) (hw : s.key.window = .released) :
    s.releaseExpired = { s with
      key := { s.key with window := .hidden, releaseTimer := .stopped }
      dir := { s.dir with events := s.dir.events ||| 0x0200#13 } } := by
  rw [State.releaseExpired, h, if_pos (by rfl), State.closeRelease_of_released hw hr.linkA]
  exact State.NoReads.runReads ⟨hr.linkA, hr.linkT⟩

theorem State.releaseExpired_of_stopped (h : s.key.releaseTimer = .stopped) : s.releaseExpired = s := by
  rw [State.releaseExpired, h]
  rfl

/-- The state after the pass idle timer has expired, but for the engine and the read-ahead buffer. -/
def State.passClosed (s : State) : State :=
  { s with
    uni := { s.uni with pass := { s.uni.pass with isOpen := false, idle := .stopped, count := s.uni.pass.count + 1 } }
    dir := { s.dir with events := s.dir.events ||| 0x0080#13 } }

/-- Clearing the read-ahead buffer leaves the operation, its count, and every claim but that of PREFETCH, which it may withdraw. -/
theorem State.clearAhead_operation (s : State) :
    s.clearAhead.engine.write = s.engine.write ∧ s.clearAhead.engine.waited = s.engine.waited ∧
    ∀ c cl, s.clearAhead.engine.claims.get c = some cl → s.engine.claims.get c = some cl := by
  have hengine : s.clearAhead.engine = s.dropFilling.engine := rfl
  rw [hengine, State.dropFilling]
  split
  · refine ⟨rfl, rfl, fun c cl hc => ?_⟩
    by_cases hp : c = .prefetch
    · rw [hp] at hc
      nomatch hc
    · exact (PerClaimant.get_put_ne _ _ hp).symm.trans hc
  · exact ⟨rfl, rfl, fun c cl hc => hc⟩

theorem State.passExpired_of_running (hc : s.Calm) (hr : s.NoReads) {n : Nat} (h : s.uni.pass.idle = .running n) :
    ∃ engine ahead, s.passExpired = { s.passClosed with engine := engine, ahead := ahead } ∧ ahead.position = none ∧
      engine.write = s.engine.write ∧ engine.waited = s.engine.waited ∧
      ∀ c cl, engine.claims.get c = some cl → s.engine.claims.get c = some cl := by
  let u := s.onPass fun x => { x with isOpen := false, idle := .stopped, count := x.count + 1 }
  have hclose : s.closePass.raise .passExpired =
      { s.passClosed with engine := u.clearAhead.engine, ahead := u.clearAhead.ahead } := by
    have : s.closePass = u.clearAhead := rfl
    rw [this, u.clearAhead_eq]
    rfl
  have hend : s.passExpired = { s.passClosed with engine := u.clearAhead.engine, ahead := u.clearAhead.ahead } := by
    rw [State.passExpired, h, if_pos (by rfl), hclose]
    exact State.Calm.finish_eq ⟨hc.queue, hc.running, hc.job, hc.awaiting, hc.noRoom⟩ ⟨hr.linkA, hr.linkT⟩
  exact ⟨_, _, hend, rfl, u.clearAhead_operation⟩

theorem State.passExpired_of_stopped (h : s.uni.pass.idle = .stopped) : s.passExpired = s := by
  rw [State.passExpired, h]
  rfl

end

theorem timersExpireAtOnce (s : State) (hr : s.NoReads) :
    (∀ n, s.key.stageTimer = .running n →
      exec .stageIdleExpiry s = .next { s with
        key := { s.key with staging := [], stageTimer := .stopped }
        dir := { s.dir with events := s.dir.events ||| 0x0100#13 } }) ∧
    (∀ n, s.key.releaseTimer = .running n → s.key.window = .released →
      exec .releaseTimerExpiry s = .next { s with
        key := { s.key with window := .hidden, releaseTimer := .stopped }
        dir := { s.dir with events := s.dir.events ||| 0x0200#13 } }) ∧
    (∀ n, s.uni.pass.idle = .running n → s.Calm →
      Completes .passIdleExpiry s fun t =>
        t.uni = { s.uni with pass := { s.uni.pass with isOpen := false, idle := .stopped, count := s.uni.pass.count + 1 } } ∧
        t.dir = { s.dir with events := s.dir.events ||| 0x0080#13 } ∧ t.ahead.position = none ∧ t.key = s.key ∧ t.life = s.life ∧
        t.portA = s.portA ∧ t.portT = s.portT ∧ t.queues = s.queues) ∧
    (s.key.stageTimer = .stopped → exec .stageIdleExpiry s = .next s) ∧
    (s.key.releaseTimer = .stopped → exec .releaseTimerExpiry s = .next s) ∧
    (s.uni.pass.idle = .stopped → exec .passIdleExpiry s = .next s) := by
  refine ⟨fun n h => congrArg Host.Outcome.next (State.stageExpired_of_running hr h),
    fun n h hw => congrArg Host.Outcome.next (State.releaseExpired_of_running hr h hw), fun n h hc => ?_,
    fun h => congrArg Host.Outcome.next (State.stageExpired_of_stopped h),
    fun h => congrArg Host.Outcome.next (State.releaseExpired_of_stopped h),
    fun h => congrArg Host.Outcome.next (State.passExpired_of_stopped h)⟩
  obtain ⟨engine, ahead, heq, hposition, -⟩ := State.passExpired_of_running hc hr h
  exact ⟨_, congrArg Host.Outcome.next heq, rfl, rfl, hposition, rfl, rfl, rfl, rfl, rfl⟩

/-! ### The parts of a tick -/

section
variable {s : State}

/-- Every standing claim's interval has run on (R81). -/
def State.counted (s : State) : State :=
  s.onEngine fun x => { x with claims := x.claims.map (Option.map fun c => { c with due := c.due - 1 }) }

theorem State.countClaim_eq (s : State) (c : Claimant) :
    s.countClaim c = s.onEngine fun x =>
      { x with claims := x.claims.put c ((x.claims.get c).map fun cl => { cl with due := cl.due - 1 }) } := by
  have hput : s.engine.claims.put c (s.engine.claims.get c) = s.engine.claims := by cases c <;> rfl
  rw [State.countClaim, State.claim]
  cases h : s.engine.claims.get c with
  | none =>
    rw [h] at hput
    simp only [State.onEngine, h, Option.map_none, hput]
  | some cl => simp only [State.setClaim, State.onEngine, h, Option.map_some]

theorem State.foldl_countClaim_eq (l : List Claimant) (s : State) :
    l.foldl State.countClaim s = s.onEngine fun x =>
      { x with claims := l.foldl (fun y c => y.put c ((y.get c).map fun cl => { cl with due := cl.due - 1 })) x.claims } := by
  induction l generalizing s with
  | nil => rfl
  | cons c l ih => rw [List.foldl_cons, ih, State.countClaim_eq]; rfl

/-- A change of each claimant's value, one after another. -/
theorem foldl_claimants {α : Type} (f : α → α) (x : PerClaimant α) : claimants.foldl (fun y c => y.put c (f (y.get c))) x = x.map f := by
  cases x
  rfl

theorem State.foldl_countClaim (s : State) : claimants.foldl State.countClaim s = s.counted := by
  simp only [State.foldl_countClaim_eq, foldl_claimants]
  rfl

theorem State.tickRelease_of_goesOn (h : s.key.releaseTimer.goesOn) :
    s.tickRelease = s.onKey fun k => { k with releaseTimer := k.releaseTimer.later } := by
  rw [State.tickRelease]
  cases ht : s.key.releaseTimer with
  | stopped => simp only [State.onKey, ht, Timer.tick, Timer.later, Bool.false_eq_true, if_false]
  | running n =>
    rw [ht] at h
    have hn : decide (n ≤ 1) = false := decide_eq_false (Nat.not_le.2 h)
    simp only [State.onKey, ht, Timer.tick, Timer.later, hn, Bool.false_eq_true, if_false]

theorem State.tickStage_of_goesOn (h : s.key.stageTimer.goesOn) :
    s.tickStage = s.onKey fun k => { k with stageTimer := k.stageTimer.later } := by
  rw [State.tickStage]
  cases ht : s.key.stageTimer with
  | stopped => simp only [State.onKey, ht, Timer.tick, Timer.later, Bool.false_eq_true, if_false]
  | running n =>
    rw [ht] at h
    have hn : decide (n ≤ 1) = false := decide_eq_false (Nat.not_le.2 h)
    simp only [State.onKey, ht, Timer.tick, Timer.later, hn, Bool.false_eq_true, if_false]

theorem State.tickPass_of_goesOn (h : s.uni.pass.idle.goesOn) : s.tickPass = s.onPass fun x => { x with idle := x.idle.later } := by
  rw [State.tickPass]
  cases ht : s.uni.pass.idle with
  | stopped => simp only [State.onPass, State.onUni, ht, Timer.tick, Timer.later, Bool.false_eq_true, if_false]
  | running n =>
    rw [ht] at h
    have hn : decide (n ≤ 1) = false := decide_eq_false (Nat.not_le.2 h)
    simp only [State.onPass, State.onUni, ht, Timer.tick, Timer.later, hn, Bool.false_eq_true, if_false]

/-- The wait limit's count has run on, where it does (R85). -/
def State.waitCounted (s : State) : State :=
  s.onEngine fun x => { x with waited := if (s.inPhase .wait).isSome then x.waited + 1 else x.waited }

theorem State.tickWait_of_goesOn (h : s.waitGoesOn) : s.tickWait = s.waitCounted := by
  rw [State.tickWait, State.waitCounted]
  cases hph : s.inPhase .wait with
  | none => rfl
  | some x =>
    obtain ⟨q, e⟩ := x
    have hlimit : ¬ e.kind.waitLimit ≤ s.engine.waited + 1 := by
      have := h q e hph
      revert this
      cases e.kind <;> exact Nat.not_le.2
    simp only [hlimit, if_false]
    rfl

/-- No claim's interval is over: none gains a step. -/
theorem State.foldl_stepClaim_quiet {l : List Claimant} (h : ∀ c ∈ l, ∀ cl, s.claim c = some cl → cl.due ≠ 0) :
    l.foldl State.stepClaim s = s := by
  induction l with
  | nil => rfl
  | cons c l ih =>
    have hstep : s.stepClaim c = s := by
      rw [State.stepClaim]
      cases hc : s.claim c with
      | none => rfl
      | some cl => exact if_neg (h c List.mem_cons_self cl hc)
    rw [List.foldl_cons, hstep, ih fun d hd => h d (List.mem_cons_of_mem _ hd)]

theorem State.step_idle (h : s.pending = []) : step s = .next s.tick := by simp only [step, h]

theorem State.inPhase_congr {s t : State} (hw : t.engine.write = s.engine.write) (hq : t.queues = s.queues) (ph : WorkPhase) :
    t.inPhase ph = s.inPhase ph := by
  have hentries (q : QueueId) : t.entriesOf q = s.entriesOf q := by rw [State.entriesOf, hq]; rfl
  have hop : t.operation = s.operation := by
    rw [State.operation, State.operation, hw]
    simp only [hentries]
  rw [State.inPhase, State.inPhase, hop]

theorem State.waitGoesOn_congr {s t : State} (hw : t.engine.write = s.engine.write) (hq : t.queues = s.queues)
    (hwaited : t.engine.waited = s.engine.waited) (h : s.waitGoesOn) : t.waitGoesOn := by
  intro q e hph
  rw [State.inPhase_congr hw hq] at hph
  rw [hwaited]
  exact h q e hph

theorem State.claim_later (s : State) (c : Claimant) : s.later.claim c = (s.claim c).map fun cl => { cl with due := cl.due - 1 } :=
  PerClaimant.get_map ..

/-- A claim that goes on has not come to its step a microsecond later. -/
theorem State.claim_later_due {c : Claimant} (h : ∀ cl, s.claim c = some cl → 2 ≤ cl.due) (cl : Claim) (hc : s.later.claim c = some cl) :
    cl.due ≠ 0 := by
  rw [State.claim_later] at hc
  obtain ⟨x, hx, rfl⟩ := Option.map_eq_some_iff.1 hc
  have := h x hx
  show x.due - 1 ≠ 0
  omega

end

/-! ### A tick in which a timer runs out -/

section
variable {s : State} {n : Nat}

theorem State.tickRelease_of_expiry (hr : s.NoReads) (h : s.key.releaseTimer = .running n) (hn : n ≤ 1) (hw : s.key.window = .released) :
    s.tickRelease = { s with
      key := { s.key with window := .hidden, releaseTimer := .stopped }
      dir := { s.dir with events := s.dir.events ||| 0x0200#13 } } := by
  have hexpired := State.releaseExpired_of_running (s := s.onKey fun k => { k with releaseTimer := .running (n - 1) })
    ⟨hr.linkA, hr.linkT⟩ rfl hw
  have hrun : (s.onKey fun k => { k with releaseTimer := k.releaseTimer.tick.1 }) =
      s.onKey fun k => { k with releaseTimer := .running (n - 1) } := by simp only [State.onKey, h, Timer.tick]
  have hover : s.key.releaseTimer.tick.2 = true := by rw [h]; exact decide_eq_true hn
  rw [State.tickRelease, hover, hrun]
  exact (if_pos rfl).trans hexpired

theorem State.tickStage_of_expiry (hr : s.NoReads) (h : s.key.stageTimer = .running n) (hn : n ≤ 1) :
    s.tickStage = { s with
      key := { s.key with staging := [], stageTimer := .stopped }
      dir := { s.dir with events := s.dir.events ||| 0x0100#13 } } := by
  have hexpired := State.stageExpired_of_running (s := s.onKey fun k => { k with stageTimer := .running (n - 1) })
    ⟨hr.linkA, hr.linkT⟩ rfl
  have hrun : (s.onKey fun k => { k with stageTimer := k.stageTimer.tick.1 }) =
      s.onKey fun k => { k with stageTimer := .running (n - 1) } := by simp only [State.onKey, h, Timer.tick]
  have hover : s.key.stageTimer.tick.2 = true := by rw [h]; exact decide_eq_true hn
  rw [State.tickStage, hover, hrun]
  exact (if_pos rfl).trans hexpired

theorem State.tickPass_of_expiry (hc : s.Calm) (hr : s.NoReads) (h : s.uni.pass.idle = .running n) (hn : n ≤ 1) :
    ∃ engine ahead, s.tickPass = { s.passClosed with engine := engine, ahead := ahead } ∧ ahead.position = none ∧
      engine.write = s.engine.write ∧ engine.waited = s.engine.waited ∧
      ∀ c cl, engine.claims.get c = some cl → s.engine.claims.get c = some cl := by
  obtain ⟨engine, ahead, heq, hrest⟩ := State.passExpired_of_running (s := s.onPass fun x => { x with idle := .running (n - 1) })
    ⟨hc.queue, hc.running, hc.job, hc.awaiting, hc.noRoom⟩ ⟨hr.linkA, hr.linkT⟩ rfl
  refine ⟨engine, ahead, ?_, hrest⟩
  have hrun : (s.onPass fun x => { x with idle := x.idle.tick.1 }) = s.onPass fun x => { x with idle := .running (n - 1) } := by
    simp only [State.onPass, State.onUni, h, Timer.tick]
  have hover : s.uni.pass.idle.tick.2 = true := by rw [h]; exact decide_eq_true hn
  rw [State.tickPass, hover, hrun]
  exact (if_pos rfl).trans heq

/-- The parts of a tick up to the aging steps. -/
def State.ticked (s : State) : State := s.counted.tickRelease.tickStage.tickPass.tickWait

theorem State.tick_eq (s : State) : s.tick = claimants.foldl State.stepClaim s.ticked := by
  rw [State.tick, State.foldl_countClaim]
  rfl

theorem State.tick_of_quiet {u : State} (h : s.ticked = u) (hq : ∀ c cl, u.claim c = some cl → cl.due ≠ 0) : s.tick = u := by
  rw [State.tick_eq, h]
  exact State.foldl_stepClaim_quiet fun c _ => hq c

theorem State.ticked_of {v w x y : State} (hrel : s.counted.tickRelease = v) (hst : v.tickStage = w) (hpass : w.tickPass = x)
    (hwait : x.tickWait = y) : s.ticked = y := by rw [State.ticked, hrel, hst, hpass, hwait]

theorem State.ticked_later (hst : s.key.stageTimer.goesOn) (hrel : s.key.releaseTimer.goesOn) (hpass : s.uni.pass.idle.goesOn)
    (hwait : s.waitGoesOn) : s.ticked = s.later :=
  State.ticked_of (State.tickRelease_of_goesOn (s := s.counted) hrel) (State.tickStage_of_goesOn hst) (State.tickPass_of_goesOn hpass)
    (State.tickWait_of_goesOn (State.waitGoesOn_congr (s := s) rfl rfl rfl hwait))

/-- The stage idle timer runs out in a tick. -/
theorem State.ticked_stage (hr : s.NoReads) (h : s.key.stageTimer = .running n) (hn : n ≤ 1) (hrel : s.key.releaseTimer.goesOn)
    (hpass : s.uni.pass.idle.goesOn) (hwait : s.waitGoesOn) :
    s.ticked = { s.later with
      key := { s.later.key with staging := [], stageTimer := .stopped }
      dir := { s.dir with events := s.dir.events ||| 0x0100#13 } } :=
  State.ticked_of (State.tickRelease_of_goesOn (s := s.counted) hrel) (State.tickStage_of_expiry ⟨hr.linkA, hr.linkT⟩ h hn)
    (State.tickPass_of_goesOn hpass) (State.tickWait_of_goesOn (State.waitGoesOn_congr (s := s) rfl rfl rfl hwait))

/-- The release timer runs out in a tick. -/
theorem State.ticked_release (hr : s.NoReads) (h : s.key.releaseTimer = .running n) (hn : n ≤ 1) (hw : s.key.window = .released)
    (hst : s.key.stageTimer.goesOn) (hpass : s.uni.pass.idle.goesOn) (hwait : s.waitGoesOn) :
    s.ticked = { s.later with
      key := { s.later.key with window := .hidden, releaseTimer := .stopped }
      dir := { s.dir with events := s.dir.events ||| 0x0200#13 } } :=
  State.ticked_of (State.tickRelease_of_expiry (s := s.counted) ⟨hr.linkA, hr.linkT⟩ h hn hw) (State.tickStage_of_goesOn hst)
    (State.tickPass_of_goesOn hpass) (State.tickWait_of_goesOn (State.waitGoesOn_congr (s := s) rfl rfl rfl hwait))

/-- The pass idle timer runs out in a tick. -/
theorem State.ticked_pass (hr : s.NoReads) (hc : s.Calm) (h : s.uni.pass.idle = .running n) (hn : n ≤ 1)
    (hst : s.key.stageTimer.goesOn) (hrel : s.key.releaseTimer.goesOn) (hwait : s.waitGoesOn) :
    ∃ engine ahead, s.ticked = { s.passClosed with key := s.later.key, engine := engine, ahead := ahead } ∧ ahead.position = none ∧
      ∀ c cl, engine.claims.get c = some cl → s.later.claim c = some cl := by
  let v := (s.counted.onKey fun k => { k with releaseTimer := k.releaseTimer.later }).onKey fun k => { k with stageTimer := k.stageTimer.later }
  obtain ⟨engine, ahead, hpass, hposition, hwrite, hwaited, hclaims⟩ := State.tickPass_of_expiry (s := v)
    ⟨hc.queue, hc.running, hc.job, hc.awaiting, hc.noRoom⟩ ⟨hr.linkA, hr.linkT⟩ h hn
  have hticked := State.ticked_of (State.tickRelease_of_goesOn (s := s.counted) hrel) (State.tickStage_of_goesOn hst) hpass
    (State.tickWait_of_goesOn (State.waitGoesOn_congr (s := s) hwrite rfl hwaited hwait))
  exact ⟨_, ahead, hticked, hposition, hclaims⟩

/-! ### The wait limit (R85) -/

theorem State.tickWait_of_limit {q : QueueId} {e : Entry} (hph : s.inPhase .wait = some (q, e)) (h : ¬ s.waitGoesOn) :
    s.tickWait = ((s.onEngine fun x => { x with waited := x.waited + 1 }).countBreak).waitExpired (Config.flashLeaves s.breaks) := by
  have hlimit : e.kind.waitLimit ≤ s.engine.waited + 1 := by
    refine Nat.le_of_not_lt fun hlt => h fun q' e' h' => ?_
    cases hph.symm.trans h'
    revert hlt
    cases e.kind <;> exact id
  simp only [State.tickWait, hph, if_pos hlimit]

/-- What the Arbiter does after the leaving takes nothing of it back. -/
theorem Left.of_arbiter {s t u : State} {q : QueueId} {e : Entry} {rest : List Entry} {out : Option FailReason}
    (h : Left s t q e rest out) (honly : ArbiterOnly t u) (hapart : Apart t u) (hlast : u.engine.lastSuspend = t.engine.lastSuspend) :
    Left s u q e rest out := by
  have hentries (r : QueueId) : (u.entriesOf r).map Entry.still = (t.entriesOf r).map Entry.still :=
    congrArg Queue.entries (hapart.queues r)
  have hfailures (r : QueueId) : (u.queues.get r).failures = (t.queues.get r).failures := by
    have := congrArg Queue.failures (hapart.queues r)
    exact this
  exact
    { entries := (hentries q).trans h.entries
      others := fun r hr => (hentries r).trans (h.others r hr)
      pool := honly.pool.trans h.pool
      failures := fun r => (hfailures r).trans (h.failures r)
      events := fun ho => honly.dir ▸ h.events ho
      first := fun f hf => honly.firstFailure.trans (h.first f hf)
      filled := fun hf => honly.firstFailure.trans (h.filled hf)
      portA := honly.portA.trans h.portA
      portT := honly.portT.trans h.portT
      coverage := honly.uni.trans h.coverage
      suspends := hlast.trans h.suspends
      life := honly.life.trans h.life
      key := honly.key.trans h.key
      slots := honly.dir ▸ h.slots
      seq := honly.nextSeq.trans h.seq }

theorem State.lastSuspend_ageClaim (s : State) (c : Claimant) : (s.ageClaim c).engine.lastSuspend = s.engine.lastSuspend := by
  have hpreempt (v : State) : v.judgePreempt.engine.lastSuspend = v.engine.lastSuspend := by
    rw [State.judgePreempt]
    split
    · split
      · exact State.lastSuspend_grantPoint
      · rfl
    · rfl
  rw [State.ageClaim]
  split
  · rfl
  · dsimp only
    split
    · exact hpreempt _
    · rfl

theorem State.stepClaim_cases (s : State) (c : Claimant) : s.stepClaim c = s ∨ s.stepClaim c = s.ageClaim c := by
  rw [State.stepClaim]
  split
  · split
    · exact .inr rfl
    · exact .inl rfl
  · exact .inl rfl

/-- The aging steps change only what the Arbiter holds, and not the last suspend count. -/
theorem State.foldl_stepClaim_arbiter (l : List Claimant) (s : State) :
    ArbiterOnly s (l.foldl State.stepClaim s) ∧ Apart s (l.foldl State.stepClaim s) ∧
      (l.foldl State.stepClaim s).engine.lastSuspend = s.engine.lastSuspend := by
  induction l generalizing s with
  | nil => exact ⟨ArbiterOnly.refl s, Apart.refl s, rfl⟩
  | cons c l ih =>
    rw [List.foldl_cons]
    rcases s.stepClaim_cases c with h | h <;> rw [h]
    · exact ih s
    · obtain ⟨honly, hapart, hlast⟩ := ih (s.ageClaim c)
      exact ⟨(ArbiterOnly.ageClaim s c).trans honly, (Apart.ageClaim s c).trans hapart, hlast.trans (s.lastSuspend_ageClaim c)⟩

theorem State.tick_limit {q : QueueId} {e : Entry} {rest : List Entry} (hc : s.Calm) (hr : s.NoReads) (hm : s.memoryOk)
    (hq : s.entriesOf q = e :: rest) (hph : s.inPhase .wait = some (q, e)) (h : ¬ s.waitGoesOn) (hst : s.key.stageTimer = .stopped)
    (hrel : s.key.releaseTimer = .stopped) (hpass : s.uni.pass.idle = .stopped) :
    Left s s.tick q e rest (some .flashError) ∧
      ∀ a, a < e.addr ∨ e.addr + e.kind.range ≤ a → Mem.get s.tick.flash a = Mem.get s.flash a := by
  have hstopped : s.counted.tickRelease.tickStage.tickPass = s.counted := by
    have h1 : s.counted.tickRelease = s.counted := by
      rw [State.tickRelease]
      simp only [State.counted, State.onEngine, State.onKey, hrel, Timer.tick, Bool.false_eq_true, if_false]
      rw [← hrel]
    have h2 : s.counted.tickStage = s.counted := by
      rw [State.tickStage]
      simp only [State.counted, State.onEngine, State.onKey, hst, Timer.tick, Bool.false_eq_true, if_false]
      rw [← hst]
    have h3 : s.counted.tickPass = s.counted := by
      rw [State.tickPass]
      simp only [State.counted, State.onEngine, State.onPass, State.onUni, hpass, Timer.tick, Bool.false_eq_true, if_false]
      rw [← hpass]
    rw [h1, h2, h3]
  let v := (s.counted.onEngine fun x => { x with waited := x.waited + 1 }).countBreak
  have hphv : v.inPhase .wait = some (q, e) := (State.inPhase_congr (s := s) rfl rfl .wait).trans hph
  have hticked : s.ticked = (v.setFlash (noMarker (v.flashBroken e (Config.flashLeaves s.breaks)) e)).operationEnd q (some .flashError) := by
    rw [State.ticked, hstopped, State.tickWait_of_limit (s := s.counted) hph fun hg => h (State.waitGoesOn_congr (s := s.counted) rfl rfl rfl hg)]
    exact State.waitExpired_eq hphv _
  obtain ⟨hleft, hflash⟩ := State.operationEnd_setFlash (s := v) ⟨hc.queue, hc.running, hc.job, hc.awaiting, hc.noRoom⟩
    ⟨hr.linkA, hr.linkT⟩ hq (State.write_of_inPhase hphv) (noMarker (v.flashBroken e (Config.flashLeaves s.breaks)) e) (some .flashError)
  rw [← hticked] at hleft hflash
  have hleft' : Left s s.ticked q e rest (some .flashError) :=
    { hleft with coverage := hleft.coverage.trans (State.uniTold_congr (s := s) (t := v) rfl rfl) }
  obtain ⟨honly, hapart, hlast⟩ := State.foldl_stepClaim_arbiter claimants s.ticked
  rw [State.tick_eq]
  refine ⟨hleft'.of_arbiter honly hapart hlast, fun a ha => ?_⟩
  rw [honly.flash, hflash]
  exact State.get_expired_outside (s := v) hm.1 ha

/-! ### The aging steps (R81) -/

theorem State.ageClaim_quiet {c : Claimant} {cl : Claim} (hc : s.claim c = some cl)
    (hq : (c ≠ .tRead ∧ c ≠ .aRead) ∨ s.engine.write = none) :
    s.ageClaim c = s.setClaim c (some { cl with aged := cl.aged + 1, due := s.engine.interval }) := by
  simp only [State.ageClaim, hc]
  split
  · next hport =>
    rcases hq with h | h
    · rcases (isPortRead_iff c).1 hport with rfl | rfl
      · exact absurd rfl h.1
      · exact absurd rfl h.2
    · refine State.judgePreempt_of_not fun q hw => ?_
      have : s.engine.write = some q := hw
      rw [h] at this
      nomatch this
  · rfl

theorem mem_claimants_split (c : Claimant) : ∃ before after, claimants = before ++ c :: after ∧ c ∉ before ∧ c ∉ after := by
  have hnodup : claimants.Nodup := by decide
  have hmem : c ∈ claimants := by cases c <;> decide
  obtain ⟨before, after, h⟩ := List.append_of_mem hmem
  rw [h, List.nodup_middle, List.nodup_cons, List.mem_append] at hnodup
  exact ⟨before, after, h, fun hb => hnodup.1 (.inl hb), fun ha => hnodup.1 (.inr ha)⟩

/-- One claim's interval is over: it gains its step, and no other does. -/
theorem State.foldl_stepClaim_one {c : Claimant} {cl : Claim} (hc : s.claim c = some cl) (hdue : cl.due = 0)
    (hq : (c ≠ .tRead ∧ c ≠ .aRead) ∨ s.engine.write = none) (hothers : ∀ d, d ≠ c → ∀ x, s.claim d = some x → x.due ≠ 0) :
    claimants.foldl State.stepClaim s = s.setClaim c (some { cl with aged := cl.aged + 1, due := s.engine.interval }) := by
  obtain ⟨before, after, hsplit, hb, ha⟩ := mem_claimants_split c
  have hstep : s.stepClaim c = s.setClaim c (some { cl with aged := cl.aged + 1, due := s.engine.interval }) := by
    simp only [State.stepClaim, hc, if_pos hdue]
    exact State.ageClaim_quiet hc hq
  rw [hsplit, List.foldl_append, List.foldl_cons, State.foldl_stepClaim_quiet fun d hd => hothers d fun h => hb (h ▸ hd), hstep]
  refine State.foldl_stepClaim_quiet fun d hd x hx => ?_
  have hne : d ≠ c := fun h => ha (h ▸ hd)
  exact hothers d hne x ((PerClaimant.get_put_ne _ _ hne).symm.trans hx)

end

theorem timersExpireInTicks (s : State) (hp : s.pending = []) :
    (s.key.stageTimer.goesOn → s.key.releaseTimer.goesOn → s.uni.pass.idle.goesOn → s.waitGoesOn → s.claimsGoOn none →
      step s = .next s.later) ∧
    (∀ n, s.NoReads → s.key.stageTimer = .running n → n ≤ 1 → s.key.releaseTimer.goesOn → s.uni.pass.idle.goesOn → s.waitGoesOn →
      s.claimsGoOn none →
      step s = .next { s.later with
        key := { s.later.key with staging := [], stageTimer := .stopped }
        dir := { s.dir with events := s.dir.events ||| 0x0100#13 } }) ∧
    (∀ n, s.NoReads → s.key.releaseTimer = .running n → n ≤ 1 → s.key.window = .released → s.key.stageTimer.goesOn →
      s.uni.pass.idle.goesOn → s.waitGoesOn → s.claimsGoOn none →
      step s = .next { s.later with
        key := { s.later.key with window := .hidden, releaseTimer := .stopped }
        dir := { s.dir with events := s.dir.events ||| 0x0200#13 } }) ∧
    (∀ n, s.NoReads → s.Calm → s.uni.pass.idle = .running n → n ≤ 1 → s.key.stageTimer.goesOn → s.key.releaseTimer.goesOn →
      s.waitGoesOn → s.claimsGoOn none →
      Steps s fun t =>
        t.uni = { s.uni with pass := { s.uni.pass with isOpen := false, idle := .stopped, count := s.uni.pass.count + 1 } } ∧
        t.dir = { s.dir with events := s.dir.events ||| 0x0080#13 } ∧ t.ahead.position = none ∧ t.key = s.later.key ∧
        t.life = s.life ∧ t.portA = s.portA ∧ t.portT = s.portT ∧ t.queues = s.queues) ∧
    (∀ q e rest, s.Calm → s.NoReads → s.memoryOk → s.entriesOf q = e :: rest → s.inPhase .wait = some (q, e) → ¬ s.waitGoesOn →
      s.key.stageTimer = .stopped → s.key.releaseTimer = .stopped → s.uni.pass.idle = .stopped → s.claimsGoOn none →
      Steps s fun t => Left s t q e rest (some .flashError) ∧
        ∀ a, a < e.addr ∨ e.addr + e.kind.range ≤ a → Mem.get t.flash a = Mem.get s.flash a) ∧
    (∀ c cl, s.claim c = some cl → cl.due ≤ 1 → (c ≠ .tRead ∧ c ≠ .aRead) ∨ s.engine.write = none → s.key.stageTimer.goesOn →
      s.key.releaseTimer.goesOn → s.uni.pass.idle.goesOn → s.waitGoesOn → s.claimsGoOn (some c) →
      step s = .next { s.later with
        engine := { s.later.engine with
          claims := s.later.engine.claims.put c (some { cl with aged := cl.aged + 1, due := s.engine.interval }) } }) := by
  have hquiet (h : s.claimsGoOn none) (c : Claimant) (cl : Claim) (hc : s.later.claim c = some cl) : cl.due ≠ 0 :=
    State.claim_later_due (fun x hx => h c x nofun hx) cl hc
  rw [State.step_idle hp]
  refine ⟨fun hst hrel hpass hwait hclaims => ?_, fun n hr h hn hrel hpass hwait hclaims => ?_,
    fun n hr h hn hw hst hpass hwait hclaims => ?_, fun n hr hc h hn hst hrel hwait hclaims => ?_,
    fun q e rest hc hr hm hq hph h hst hrel hpass _ => ?_, fun c cl hc hdue hq hst hrel hpass hwait hclaims => ?_⟩
  · exact congrArg _ (State.tick_of_quiet (State.ticked_later hst hrel hpass hwait) (hquiet hclaims))
  · exact congrArg _ (State.tick_of_quiet (State.ticked_stage hr h hn hrel hpass hwait) (hquiet hclaims))
  · exact congrArg _ (State.tick_of_quiet (State.ticked_release hr h hn hw hst hpass hwait) (hquiet hclaims))
  · obtain ⟨engine, ahead, hticked, hposition, hkept⟩ := State.ticked_pass hr hc h hn hst hrel hwait
    have htick := State.tick_of_quiet hticked fun c cl hcl => hquiet hclaims c cl (hkept c cl hcl)
    exact ⟨_, (State.step_idle hp).trans (congrArg _ htick), rfl, rfl, hposition, rfl, rfl, rfl, rfl, rfl⟩
  · exact ⟨_, State.step_idle hp, State.tick_limit hc hr hm hq hph h hst hrel hpass⟩
  · have hlater : s.later.claim c = some { cl with due := cl.due - 1 } := by rw [State.claim_later, hc]; rfl
    rw [State.tick_eq, State.ticked_later hst hrel hpass hwait, State.foldl_stepClaim_one hlater (show cl.due - 1 = 0 by omega) hq
      fun d hd x hx => State.claim_later_due (fun y hy => hclaims d y (fun h => hd (Option.some.inj h)) hy) x hx]
    rfl

/-- Settles O59. -/
theorem timersExpire : Obligations.TimersExpire := ⟨timersExpireAtOnce, timersExpireInTicks⟩

end Sys2Proof.Machine
end

-- Proofs of the family 'other': LOADING.
section
/-! PROOFS. LOADING reads the control sector page by page, and ends with the last (R10 to R13). -/

namespace Sys2Proof.Machine

/-! ### A page of the control sector -/

section
variable {s : State} {x : ReadRange}

theorem State.sysRead_of_loading (hl : s.life.lifecycle = none) (r : PageRead) : s.sysRead r = s.loadPage r := by
  have hloading : s.loading = true := by
    rw [State.loading, hl]
    rfl
  rw [State.sysRead, hloading, if_pos rfl]

theorem State.highest_of_no_claim (h : ∀ c, s.claim c = none) : s.highest claimants = none := by
  obtain ⟨-, -, -, hnone⟩ := highestBidWins s
  exact hnone.2 h

theorem PerClaimant.get_all {α : Type} (x : α) (c : Claimant) : (PerClaimant.all x).get c = x := by cases c <;> rfl

/-- A page that is not the last: the next one is read (R11). -/
theorem loadingGoesOn (hc : s.Calm) (hr : s.NoReads) (hl : s.life.lifecycle = none) (hw : s.engine.write = none)
    (hclaims : s.engine.claims = PerClaimant.all none) (hdef : s.engine.deferred = PerClaimant.all none)
    (hread : s.engine.read = some { claimant := .sysRead, range := x, discard := false }) (hpages : s.life.loadPages < 15) :
    Completes .pageReadEnd s fun t =>
      t.engine.read = some
        { claimant := .sysRead
          range := { page := 0x1FFF000 + 256 * (s.life.loadPages + 1), lo := 0, hi := 255 }
          discard := false } ∧
      t.life.lifecycle = none ∧ t.life.loadPages = s.life.loadPages + 1 ∧ t.portA = s.portA ∧ t.portT = s.portT := by
  let v := s.takeLoaded { claimant := .sysRead, range := x, discard := false }
  let next : ReadRange := { page := 0x1FFF000 + 256 * (s.life.loadPages + 1), lo := 0, hi := 255 }
  let u := v.setClaim .sysRead (some (v.newClaim (some next)))
  have hu : s.sysRead { claimant := .sysRead, range := x, discard := false } = u := by
    rw [State.sysRead_of_loading hl, State.loadPage, if_neg (by omega)]
    exact State.raiseClaim_sysRead_of_read (s := v) hread rfl next
  have hfinish : u.finish = u :=
    State.Calm.finish_eq ⟨hc.queue, hc.running, hc.job, hc.awaiting, hc.noRoom⟩ ⟨hr.linkA, hr.linkT⟩
  have hexec := exec_sysReadEnd hread hu (show s.engine.deferred.get .sysRead = none by rw [hdef]; rfl)
  rw [hfinish] at hexec
  have honly := ArbiterOnly.endPageRead u
  refine ⟨_, hexec, ?_, ?_, ?_, honly.portA, honly.portT⟩
  · refine State.endPageRead_of_single (s := u) hw rfl (State.claim_setClaim v .sysRead _) rfl fun d hd => ?_
    refine (PerClaimant.get_put_ne _ _ hd).trans ?_
    show s.engine.claims.get d = none
    rw [hclaims, PerClaimant.get_all]
  · rw [honly.life]
    exact hl
  · rw [honly.life]
    rfl

/-- The last page: LOADING ends (R12, R13, R140). -/
theorem loadingEnds (hc : s.Calm) (hr : s.NoReads) (hl : s.life.lifecycle = none) (hw : s.engine.write = none)
    (hclaims : s.engine.claims = PerClaimant.all none) (hdef : s.engine.deferred = PerClaimant.all none)
    (hread : s.engine.read = some { claimant := .sysRead, range := x, discard := false }) (hpages : 15 ≤ s.life.loadPages) :
    Completes .pageReadEnd s fun t =>
      let c := startupChoice s.life.fuse t.life.loaded
      t.life.loaded = s.life.loaded ++ (Mem.cut s.flash x.page 256).map (fun b => (x.page - 0x1FFF000 + b.1, b.2)) ∧
      t.life.lifecycle = some c.1 ∧ t.life.fields = c.2 ∧ t.portA = { s.portA with cause := .none } ∧
      t.portT = { s.portT with cause := .none } ∧ t.attempts = 3 ∧
      t.uni.coverage = List.replicate (bankSize c.2.map / 4096) .stale ∧ t.uni.pass.isOpen = false ∧
      t.key.window = (match c.1 with | .opened => .staging | .blank | .safe => .none | _ => .released) ∧
      t.key.releaseTimer = (match c.1 with
        | .sealed | .closed | .service => .running (1000 * c.2.releaseTime)
        | _ => .stopped) ∧
      t.key.staging = [] ∧ t.key.releaseTime = c.2.releaseTime := by
  let v := s.takeLoaded { claimant := .sysRead, range := x, discard := false }
  have hu : s.sysRead { claimant := .sysRead, range := x, discard := false } = v.endLoading := by
    rw [State.sysRead_of_loading hl, State.loadPage, if_pos (by omega)]
  generalize hchoice : startupChoice s.life.fuse (s.life.loaded ++ (Mem.cut s.flash x.page 256).map fun b => (x.page - 0x1FFF000 + b.1, b.2)) = c
  obtain ⟨l, f⟩ := c
  have hend : v.endLoading =
      { v with
        life := { v.life with lifecycle := some l, fields := f }
        uni := s.uni.atLoading (bankSize f.map) f.live
        key := s.key.atLoading l f
        attempts := 3
        portA := { s.portA with cause := .none }
        portT := { s.portT with cause := .none } } := by
    have : startupChoice v.life.fuse v.life.loaded = (l, f) := hchoice
    rw [State.endLoading, this]
    rfl
  rw [hend] at hu
  have hexec := exec_sysReadEnd hread hu (show s.engine.deferred.get .sysRead = none by rw [hdef]; rfl)
  generalize hz : ({ v with
        life := { v.life with lifecycle := some l, fields := f }
        uni := s.uni.atLoading (bankSize f.map) f.live
        key := s.key.atLoading l f
        attempts := 3
        portA := { s.portA with cause := .none }
        portT := { s.portT with cause := .none } } : State) = u at hexec
  have hfinish : u.finish = u := by
    rw [← hz]
    exact State.Calm.finish_eq ⟨hc.queue, hc.running, hc.job, hc.awaiting, nofun⟩
      ⟨(State.reading_congr rfl).trans hr.linkA, (State.reading_congr rfl).trans hr.linkT⟩
  have hfree : u.endPageRead = u.readEnded := by
    refine State.endPageRead_of_none (by rw [← hz]; exact hw) (State.highest_of_no_claim fun c => ?_)
    rw [← hz]
    show s.engine.claims.get c = none
    rw [hclaims, PerClaimant.get_all]
  rw [hfinish, hfree] at hexec
  refine ⟨_, hexec, ?_⟩
  have hloaded : u.readEnded.life.loaded = s.life.loaded ++ (Mem.cut s.flash x.page 256).map fun b => (x.page - 0x1FFF000 + b.1, b.2) := by
    rw [← hz]
    rfl
  dsimp only
  rw [hloaded, hchoice, ← hz]
  refine ⟨rfl, rfl, rfl, rfl, rfl, rfl, rfl, rfl, ?_, ?_, ?_, ?_⟩ <;> cases l <;> rfl

end

/-- Settles O49. -/
theorem loadingReadsControlSector : Obligations.LoadingReadsControlSector :=
  fun _ _ hc hr hl hw hclaims hdef hread =>
    ⟨loadingGoesOn hc hr hl hw hclaims hdef hread, loadingEnds hc hr hl hw hclaims hdef hread⟩

end Sys2Proof.Machine
end

-- Proofs of the family 'other': the segment and the first piece of a Port T read in a pass.
section
/-! PROOFS. Port T reads of the uniformity window (R108 to R110, R112, R119 to R121): the pass that is opened or continued, the position,
and the piece that the read-ahead buffer answers, holds or leaves to a claim. -/

namespace Sys2Proof.Machine

/-! ### The segment of a pass (R25, R119, R120) -/

/-- The segment of a pass on a bank that begins at `a` in the UNIFORMITY entry. -/
def MapEntry.passSegment (e : MapEntry) (a : Nat) (b : Bank) : Segment := { e.flashSegment a .uni (e.bankBase b) with inPass := true }

/-- Port T's read with its first segment, in a pass. -/
def Reading.passBegun (a : Addr) (n : Nat) (seg : Segment) : Reading := { Reading.begun a n seg with inPass := true }

/-- The state in which Port T's read has taken the pass and formed its first segment. -/
def State.passBegun (s : State) (a : Addr) (n : Nat) (e : MapEntry) : State :=
  (s.takePass.readOpened .t a n).setReading .t (Reading.passBegun a n (e.passSegment a.toNat s.takePass.uni.pass.bank))

section
variable {s : State} {a : Addr} {n : Nat} {l : Lifecycle} {e : MapEntry}

theorem State.takePass_readOpened : (s.readOpened .t a n).takePass = s.takePass.readOpened .t a n := by
  by_cases h : s.uni.pass.isOpen = true
  · rw [State.takePass, State.takePass, if_pos h]
    exact if_pos h
  · rw [State.takePass, State.takePass, if_neg h]
    exact if_neg h

theorem State.segmentOf_pass (hcls : e.cls = .uniformity) (hsafe : l ≠ .safe) :
    { s.segmentOf .t l e a.toNat with inPass := true } = e.passSegment a.toNat s.uni.pass.bank := by
  simp only [State.segmentOf, hcls, hsafe, if_false, MapEntry.passSegment, MapEntry.flashSegment, plainSegment]

theorem State.formSegment_pass (he : findEntry s.entries a.toNat = some e) (hcls : e.cls = .uniformity) (hsafe : l ≠ .safe)
    (hswitch : s.switching = false) : (s.readOpened .t a n).formSegment .t (Reading.open a n) l = s.passBegun a n e := by
  have he' : findEntry (s.readOpened .t a n).entries (Reading.open a n).addr = some e := he
  have hswitch' : (s.readOpened .t a n).switching = false := hswitch
  have hlast (b : Bool) : (b && (Reading.open a n).passLast) = false := Bool.and_false b
  rw [State.formSegment]
  simp only [he', hswitch', hcls, hsafe, ne_eq, not_false_eq_true, and_self, Bool.false_eq_true, if_false, if_true,
    State.takePass_readOpened, hlast]
  show State.setReading _ _ { Reading.open a n with
    seg := some { (s.takePass.readOpened .t a n).segmentOf .t l e a.toNat with inPass := true }, piece := .fresh, inPass := true } = _
  rw [State.segmentOf_pass hcls hsafe]
  rfl

theorem State.passBegun_apart : Apart s (s.passBegun a n e) :=
  ((Apart.takePass s).trans (State.readOpened_apart ..)).trans (Apart.setReading ..)

theorem State.reading_passBegun :
    (s.passBegun a n e).reading .t = some (Reading.passBegun a n (e.passSegment a.toNat s.takePass.uni.pass.bank)) := rfl

theorem State.uni_passBegun : (s.passBegun a n e).uni = { s.uni with pass := s.takePass.uni.pass } := by
  show s.takePass.uni = _
  rw [s.takePass_eq]

theorem State.ahead_passBegun : (s.passBegun a n e).ahead = s.ahead := by
  show s.takePass.ahead = _
  rw [s.takePass_eq]

theorem State.engine_passBegun : (s.passBegun a n e).engine = s.engine := by
  show s.takePass.engine = _
  rw [s.takePass_eq]

theorem State.queues_passBegun : (s.passBegun a n e).queues = s.queues := by
  show s.takePass.queues = _
  rw [s.takePass_eq]

theorem State.deliver_passBegun (hl : s.life.lifecycle = some l) (hn : 0 < n) (he : findEntry s.entries a.toNat = some e)
    (hcls : e.cls = .uniformity) (hsafe : l ≠ .safe) (hswitch : s.switching = false) :
    deliver n .t (s.readOpened .t a n) = deliver n .t (s.passBegun a n e) :=
  deliver_succ_congr
    (State.deliverByte_of_formed (s.reading_readOpened .t a n) rfl (((s.readOpened_apart .t a n).life).symm ▸ hl)
      (Nat.ne_of_gt hn) (State.formSegment_pass he hcls hsafe hswitch) State.reading_passBegun rfl nofun
      (State.passBegun_apart.life.symm ▸ hl) (Nat.ne_of_gt hn)) hn

end

/-! ### The position and the piece (R102, R109) -/

/-- The position stands at `i`, moved where it stood elsewhere (R109). -/
def State.placed (s : State) (i : Nat) : State := if s.ahead.position = some i then s else s.movePosition i

/-- The first piece of a read at `a` of the UNIFORMITY entry, over a bank at `base`. -/
def MapEntry.passRange (e : MapEntry) (a n base : Nat) : ReadRange := firstRange (base + (a - e.ubase)) (e.ubase + e.size - a) n

section
variable {e : MapEntry} {a n base : Nat}

theorem MapEntry.passRange_page (hbase : base % 256 = 0) : (e.passRange a n base).page = base + 256 * ((a - e.ubase) / 256) := by
  show (base + (a - e.ubase)) / 256 * 256 = _
  omega

theorem MapEntry.passRange_lo (hbase : base % 256 = 0) (hubase : e.ubase % 256 = 0) (ha : e.ubase ≤ a) :
    (e.passRange a n base).lo = a % 256 := by
  show (base + (a - e.ubase)) % 256 = _
  omega

theorem MapEntry.passRange_low (ha : a < e.ubase + e.size) (hn : 0 < n) : (e.passRange a n base).lo ≤ (e.passRange a n base).hi :=
  firstRange_low (by omega) hn

/-- A read that ends in the page and in the entry has one piece. -/
theorem MapEntry.passRange_length (hbase : base % 256 = 0) (hubase : e.ubase % 256 = 0) (ha : e.ubase ≤ a) (hn : 0 < n)
    (hpage : n ≤ 256 - a % 256) (hend : a + n ≤ e.ubase + e.size) :
    (e.passRange a n base).hi + 1 - (e.passRange a n base).lo = n := by
  rw [MapEntry.passRange, firstRange_length (by omega) hn]
  omega

end

section
variable {s : State} {i : Nat}

theorem State.placed_of_position (h : s.ahead.position = some i) : s.placed i = s := if_pos h

theorem State.placed_position : (s.placed i).ahead.position = some i := by
  rw [State.placed]
  split
  · assumption
  · rfl

theorem PieceOnly.placed (p : Port) : PieceOnly p s (s.placed i) := by
  rw [State.placed]
  split
  · exact PieceOnly.refl ..
  · exact PieceOnly.movePosition ..

theorem State.queues_dropFilling : s.dropFilling.queues = s.queues := by rw [s.dropFilling_eq]

theorem State.queues_placed : (s.placed i).queues = s.queues := by
  rw [State.placed]
  split
  · rfl
  · show ((s.mapSlots _).dropOutside _ i).queues = _
    rw [State.dropOutside]
    split
    · exact State.queues_dropFilling
    · rfl

end

section
variable {s : State} {a : Addr} {n : Nat} {e : MapEntry}

theorem State.passBase_passBegun (huni : s.uniformity = some e) :
    (s.passBegun a n e).passBase = e.bankBase s.takePass.uni.pass.bank := by
  have huni' : (s.passBegun a n e).uniformity = some e := by
    rw [State.uniformity, State.passBegun_apart.life]
    exact huni
  rw [State.passBase, huni', State.uni_passBegun]

theorem pieceRange_passBegun {b : Bank} (h : a.toNat < e.ubase + e.size) :
    pieceRange (Reading.passBegun a n (e.passSegment a.toNat b)) (e.passSegment a.toNat b) = e.passRange a.toNat n (e.bankBase b) :=
  pieceRange_begun (n := n) (q := .uni) (base := e.bankBase b) h

/-- The first piece of a read in a pass: the position is moved, the piece judged, and then the PREFETCH demand (R109, R110). -/
theorem State.preparePiece_pass (huni : s.uniformity = some e) (hlt : a.toNat < e.ubase + e.size)
    (hbase : e.bankBase s.takePass.uni.pass.bank % 256 = 0) :
    (s.passBegun a n e).preparePiece .t (Reading.passBegun a n (e.passSegment a.toNat s.takePass.uni.pass.bank))
        (e.passSegment a.toNat s.takePass.uni.pass.bank) =
      (((s.passBegun a n e).placed ((a.toNat - e.ubase) / 256)).judgePiece .t (e.passSegment a.toNat s.takePass.uni.pass.bank)
        (e.passRange a.toNat n (e.bankBase s.takePass.uni.pass.bank))).judgePrefetch := by
  have hindex : ((e.passRange a.toNat n (e.bankBase s.takePass.uni.pass.bank)).page - (s.passBegun a n e).passBase) / 256 =
      (a.toNat - e.ubase) / 256 := by
    rw [MapEntry.passRange_page hbase, State.passBase_passBegun huni]
    omega
  have hsrc : (e.passSegment a.toNat s.takePass.uni.pass.bank).source = .flash := rfl
  have hpass : (e.passSegment a.toNat s.takePass.uni.pass.bank).inPass = true := rfl
  simp only [State.preparePiece, hsrc, hpass, if_true, pieceRange_passBegun hlt, hindex]
  rfl

end

/-! ### Reads in a pass, held or answered at once (R52) -/

section
variable {s u : State} {p r : Port} {a : Addr} {n : Nat} {l : Lifecycle} {rd : Reading} {seg : Segment} {bytes : List Byte}

/-- A READ whose bytes are all ready in a state that its delivery reaches hands them over there. -/
theorem exec_read_of_ready (hne : p ≠ r) (hlink : (s.port p).link = .idle) (hr : s.reading r = none) (hn : 0 < n)
    (hdel : deliver n p (s.readOpened p a n) = deliver n p u) (hl : u.life.lifecycle = some l) (hread : u.reading p = some rd)
    (hseg : rd.seg = some seg) (hheld : seg.source ≠ .held) (hw : rd.want = n) (hp : u.Provides seg rd bytes)
    (hlen : bytes.length = n) : ∃ rd', exec (.read p (some a) n) s = .next (u.handed p rd' bytes) := by
  obtain ⟨rd', hd⟩ := hp.deliver hread hseg hheld hl (hw.trans hlen.symm) (List.ne_nil_of_length_pos (hlen.symm ▸ hn))
  rw [hlen] at hd
  exact ⟨rd', by rw [exec_read hne hlink hr, hdel, hd]⟩

end

/-- What the statements of O27 about a Port T read of the uniformity window assume. -/
structure State.ReadsPass (s : State) (a : Addr) (n : Nat) (l : Lifecycle) (e : MapEntry) : Prop where
  idle : s.portT.link = .idle
  other : s.reading .a = none
  lifecycle : s.life.lifecycle = some l
  safe : l ≠ .safe
  entry : findEntry s.entries a.toNat = some e
  uniformity : s.uniformity = some e
  empty : s.entriesOf .uni = []
  running : s.dir.running ≠ some .flipSwitch
  asked : 0 < n

section
variable {s u : State} {a : Addr} {n : Nat} {l : Lifecycle} {e : MapEntry}

theorem State.uniformity_cls (h : s.uniformity = some e) : e.cls = .uniformity := by
  obtain ⟨x, hx, rfl⟩ := Option.map_eq_some_iff.1 h
  exact of_decide_eq_true (List.find?_some (p := fun x : Nat × MapEntry => decide (x.2.cls = .uniformity)) hx)

theorem State.ReadsPass.deliver (h : s.ReadsPass a n l e) :
    Machine.deliver n .t (s.readOpened .t a n) = Machine.deliver n .t (s.passBegun a n e) :=
  State.deliver_passBegun h.lifecycle h.asked h.entry (State.uniformity_cls h.uniformity) h.safe (decide_eq_false h.running)

theorem State.ReadsPass.first (h : s.ReadsPass a n l e) : e.ubase ≤ a.toNat := (findEntry_holds h.entry).1

theorem State.ReadsPass.last (h : s.ReadsPass a n l e) : a.toNat < e.ubase + e.size := (findEntry_holds h.entry).2

/-- A read in a pass whose piece is judged and not ready is held. -/
theorem State.ReadsPass.exec_of_held (h : s.ReadsPass a n l e) {pc : Piece} {v : State}
    (hbase : e.bankBase s.takePass.uni.pass.bank % 256 = 0)
    (hjudge : ((s.passBegun a n e).placed ((a.toNat - e.ubase) / 256)).judgePiece .t
        (e.passSegment a.toNat s.takePass.uni.pass.bank) (e.passRange a.toNat n (e.bankBase s.takePass.uni.pass.bank)) = v)
    (hv : v.reading .t =
      some { Reading.passBegun a n (e.passSegment a.toNat s.takePass.uni.pass.bank) with piece := pc })
    (hfresh : pc ≠ .fresh) (hready : ∀ b, pc ≠ .ready b) : exec (.read .t (some a) n) s = .next v.judgePrefetch := by
  have hprep := State.preparePiece_pass (s := s) (a := a) (n := n) h.uniformity h.last hbase
  rw [hjudge] at hprep
  have hapart : Apart s v.judgePrefetch := by
    rw [← hprep]
    exact State.passBegun_apart.trans (Apart.preparePiece ..)
  have hreading : v.judgePrefetch.reading .t = v.reading .t := State.reading_of_port ((PieceOnly.judgePrefetch .a v).other .t nofun)
  exact exec_read_of_held (r := .a) nofun h.idle h.other h.asked h.deliver State.reading_passBegun rfl rfl
    (State.passBegun_apart.life.symm ▸ h.lifecycle) rfl rfl hprep (hreading.trans hv) rfl (hapart.life.symm ▸ h.lifecycle) rfl hfresh
    hready

/-- A read in a pass whose piece is judged ready and holds all its bytes is answered. -/
theorem State.ReadsPass.exec_of_ready (h : s.ReadsPass a n l e) {bytes : List Byte} {v : State}
    (hbase : e.bankBase s.takePass.uni.pass.bank % 256 = 0)
    (hjudge : ((s.passBegun a n e).placed ((a.toNat - e.ubase) / 256)).judgePiece .t
        (e.passSegment a.toNat s.takePass.uni.pass.bank) (e.passRange a.toNat n (e.bankBase s.takePass.uni.pass.bank)) = v)
    (hv : v.reading .t =
      some { Reading.passBegun a n (e.passSegment a.toNat s.takePass.uni.pass.bank) with piece := .ready bytes })
    (hlen : bytes.length = n) (hend : a.toNat + n ≤ e.ubase + e.size) (hspace : a.toNat + n ≤ spaceSize) :
    ∃ rd', exec (.read .t (some a) n) s = .next (v.judgePrefetch.handed .t rd' bytes) := by
  have hprep := State.preparePiece_pass (s := s) (a := a) (n := n) h.uniformity h.last hbase
  rw [hjudge] at hprep
  have hapart : Apart s v.judgePrefetch := by
    rw [← hprep]
    exact State.passBegun_apart.trans (Apart.preparePiece ..)
  have hreading := (State.reading_of_port ((PieceOnly.judgePrefetch .a v).other .t nofun)).trans hv
  have hlast : (e.passSegment a.toNat s.takePass.uni.pass.bank).last = e.ubase + e.size - 1 := rfl
  have hpos := h.asked
  refine exec_read_of_ready (r := .a) nofun h.idle h.other h.asked
    (h.deliver.trans (deliver_succ_congr (State.deliverByte_of_prepared State.reading_passBegun rfl nofun
      (State.passBegun_apart.life.symm ▸ h.lifecycle) (Nat.ne_of_gt h.asked) rfl hprep hreading rfl nofun
      (hapart.life.symm ▸ h.lifecycle) (Nat.ne_of_gt h.asked)) h.asked))
    (hapart.life.symm ▸ h.lifecycle) hreading rfl nofun rfl
    (State.provides_ready (Or.inr rfl) bytes [] (by rw [List.append_nil]) ?_ ?_) hlen
  · rw [hlen, hlast]
    show a.toNat + n ≤ _
    omega
  · rw [hlen]
    exact hspace

end

end Sys2Proof.Machine
end

-- Proofs of the family 'other': what a Port T read in a pass comes to.
section
/-! PROOFS. What a Port T read of the uniformity window comes to (R108 to R112, R119 to R121, R124), by the pass and the read-ahead buffer. -/

namespace Sys2Proof.Machine

/-! ### The slots that a move of the position frees (R109) -/

/-- A change that frees slots and leaves the one found. -/
theorem slotOf_map_freed {f : AheadSlot → AheadSlot} {page : Nat} {y : AheadSlot}
    (hf : ∀ x, (f x).page? = x.page? ∨ (f x).page? = none) (hy : f y = y) {l : List AheadSlot} (h : slotOf page l = some y) :
    slotOf page (l.map f) = some y := by
  induction l with
  | nil => nomatch h
  | cons x l ih =>
    rw [slotOf, List.find?_cons] at h
    rw [List.map_cons, slotOf, List.find?_cons]
    by_cases hx : x.page? = some page
    · rw [decide_eq_true hx] at h
      cases h
      rw [hy, decide_eq_true hx]
    · rw [decide_eq_false hx] at h
      have hfx : (f x).page? ≠ some page := by
        rcases hf x with hp | hp
        · rw [hp]
          exact hx
        · rw [hp]
          nofun
      rw [decide_eq_false hfx]
      exact ih h

theorem freeOutside_page (base i : Nat) (x : AheadSlot) :
    (AheadSlot.freeOutside base i x).page? = x.page? ∨ (AheadSlot.freeOutside base i x).page? = none := by
  cases x with
  | empty | filling => exact .inl rfl
  | held p b =>
    rw [AheadSlot.freeOutside]
    split
    · exact .inr rfl
    · exact .inl rfl

theorem freeOutside_held {base i p : Nat} (b : List Byte) (h : outside base i p = false) :
    AheadSlot.freeOutside base i (.held p b) = .held p b := by
  rw [AheadSlot.freeOutside, h]
  rfl

theorem freeOutside_eq_held {base i p : Nat} {b : List Byte} {x : AheadSlot} (h : AheadSlot.freeOutside base i x = .held p b) :
    x = .held p b ∧ outside base i p = false := by
  cases x with
  | empty | filling => nomatch h
  | held q c =>
    rw [AheadSlot.freeOutside] at h
    split at h
    · nomatch h
    · next hout =>
      cases h
      exact ⟨rfl, Bool.eq_false_iff.2 hout⟩

theorem outside_eq_false {base i p : Nat} : outside base i p = false ↔ base + 256 * i ≤ p ∧ p ≤ base + 256 * (i + 8) := by
  simp [outside]

theorem mem_fillFirst_held {page p : Nat} {b : List Byte} {l : List AheadSlot} (h : .held p b ∈ fillFirst page l) : .held p b ∈ l := by
  induction l with
  | nil => exact h
  | cons x l ih =>
    by_cases hx : x = .empty
    · subst hx
      exact (List.mem_cons.1 h).elim nofun (List.mem_cons_of_mem _)
    · rw [fillFirst_cons hx] at h
      exact List.mem_cons.2 ((List.mem_cons.1 h).imp_right ih)

section
variable {s : State} {i page p : Nat} {b : List Byte}

/-- Dropping the FILLING slot leaves a HELD one. -/
theorem State.aheadSlot_dropFilling (h : s.aheadSlot page = some (.held p b)) : s.dropFilling.aheadSlot page = some (.held p b) := by
  rw [State.dropFilling]
  split
  · refine slotOf_map_freed (fun x => ?_) rfl h
    cases x with
    | empty | held => exact .inl rfl
    | filling => exact .inr rfl
  · exact h

theorem State.held_of_dropFilling (h : .held p b ∈ s.dropFilling.ahead.slots) : .held p b ∈ s.ahead.slots := by
  rw [State.dropFilling] at h
  split at h
  · obtain ⟨x, hx, heq⟩ := List.mem_map.1 h
    cases x with
    | empty | filling => nomatch heq
    | held => exact heq ▸ hx
  · exact h

theorem State.claim_dropFilling {c : Claimant} (hc : c ≠ .prefetch) : s.dropFilling.claim c = s.claim c := by
  rw [State.dropFilling]
  split
  · exact PerClaimant.get_put_ne _ _ hc
  · rfl

theorem State.aheadSlot_movePosition (hout : outside s.passBase i p = false) (h : s.aheadSlot page = some (.held p b)) :
    (s.movePosition i).aheadSlot page = some (.held p b) := by
  have hfreed : (s.mapSlots (AheadSlot.freeOutside s.passBase i)).aheadSlot page = some (.held p b) :=
    slotOf_map_freed (freeOutside_page s.passBase i) (freeOutside_held b hout) h
  show ((s.mapSlots _).dropOutside s.passBase i).aheadSlot page = _
  rw [State.dropOutside]
  split
  · exact State.aheadSlot_dropFilling hfreed
  · exact hfreed

theorem State.held_of_movePosition (h : .held p b ∈ (s.movePosition i).ahead.slots) :
    .held p b ∈ s.ahead.slots ∧ outside s.passBase i p = false := by
  have hdropped : .held p b ∈ ((s.mapSlots (AheadSlot.freeOutside s.passBase i)).dropOutside s.passBase i).ahead.slots := h
  have hfreed : .held p b ∈ s.ahead.slots.map (AheadSlot.freeOutside s.passBase i) := by
    rw [State.dropOutside] at hdropped
    split at hdropped
    · exact State.held_of_dropFilling hdropped
    · exact hdropped
  obtain ⟨x, hx, heq⟩ := List.mem_map.1 hfreed
  obtain ⟨rfl, hout⟩ := freeOutside_eq_held heq
  exact ⟨hx, hout⟩

theorem State.claim_movePosition {c : Claimant} (hc : c ≠ .prefetch) : (s.movePosition i).claim c = s.claim c := by
  show ((s.mapSlots _).dropOutside s.passBase i).claim c = _
  rw [State.dropOutside]
  split
  · exact State.claim_dropFilling hc
  · rfl

theorem State.aheadSlot_placed (hout : outside s.passBase i p = false) (h : s.aheadSlot page = some (.held p b)) :
    (s.placed i).aheadSlot page = some (.held p b) := by
  rw [State.placed]
  split
  · exact h
  · exact State.aheadSlot_movePosition hout h

theorem State.held_of_placed (h : .held p b ∈ (s.placed i).ahead.slots) :
    .held p b ∈ s.ahead.slots ∧ (s.ahead.position ≠ some i → outside s.passBase i p = false) := by
  rw [State.placed] at h
  split at h
  · next hpos => exact ⟨h, fun hne => absurd hpos hne⟩
  · exact (State.held_of_movePosition h).imp_right fun hout _ => hout

theorem State.claim_placed {c : Claimant} (hc : c ≠ .prefetch) : (s.placed i).claim c = s.claim c := by
  rw [State.placed]
  split
  · rfl
  · exact State.claim_movePosition hc

/-- With every slot EMPTY the move only sets the position. -/
theorem State.placed_of_empty {k : Nat} (h : s.ahead.slots = List.replicate k .empty) :
    s.placed i = s.onAhead fun x => { x with position := some i } := by
  rw [State.placed]
  split
  · next hpos =>
    rw [State.onAhead, ← hpos]
  · have hmap : s.mapSlots (AheadSlot.freeOutside s.passBase i) = s := by
      have hslots : s.ahead.slots.map (AheadSlot.freeOutside s.passBase i) = s.ahead.slots := by
        rw [h, List.map_replicate]
        rfl
      rw [State.mapSlots, State.onAhead, hslots]
    have hany : s.ahead.slots.any (AheadSlot.fillsOutside s.passBase i) = false := by
      rw [h]
      exact List.any_eq_false.2 fun x hx => by rw [List.eq_of_mem_replicate hx]; exact Bool.false_ne_true
    rw [State.movePosition]
    simp only [hmap, State.dropOutside, hany, Bool.false_eq_true, if_false]

end

/-! ### The PREFETCH demand (R110) -/

section
variable {s : State} {p : Nat} {b : List Byte}

/-- A PREFETCH claim leaves the other claims as they are. -/
theorem State.claim_raiseClaim_prefetch {c : Claimant} (hc : c ≠ .prefetch) (x : Option ReadRange) :
    (s.raiseClaim .prefetch x).claim c = s.claim c := by
  have hset (v : Option Claim) : (s.setClaim .prefetch v).claim c = s.claim c := PerClaimant.get_put_ne _ _ hc
  rw [State.raiseClaim]
  split
  · rfl
  · split
    · simp only [State.grant, State.claim_setClaim, claimQueue]
      exact (PerClaimant.get_put_ne _ _ hc).trans (hset _)
    · exact hset _

theorem State.claim_judgePrefetch {c : Claimant} (hc : c ≠ .prefetch) : s.judgePrefetch.claim c = s.claim c := by
  rw [State.judgePrefetch]
  split
  · exact State.claim_raiseClaim_prefetch hc _
  · rfl

theorem State.held_of_judgePrefetch (h : .held p b ∈ s.judgePrefetch.ahead.slots) : .held p b ∈ s.ahead.slots := by
  rw [State.judgePrefetch] at h
  split at h
  · rw [(ArbiterOnly.raiseClaim _ _ _).ahead] at h
    exact mem_fillFirst_held h
  · exact h

theorem State.position_judgePrefetch : s.judgePrefetch.ahead.position = s.ahead.position := by
  rw [State.judgePrefetch]
  split
  · rw [(ArbiterOnly.raiseClaim _ _ _).ahead]
    rfl
  · rfl

/-- While a slot is FILLING nothing is demanded. -/
theorem State.judgePrefetch_of_filling (h : s.isFilling = true) : s.judgePrefetch = s := by
  have hnone : s.prefetchWanted = none := by
    rw [State.prefetchWanted]
    split
    · rfl
    · exact if_neg fun hc => by simp [h] at hc
  rw [State.judgePrefetch, hnone]

theorem State.isFilling_of_slot {page q : Nat} (h : s.aheadSlot page = some (.filling q)) : s.isFilling = true :=
  List.any_eq_true.2 ⟨_, List.mem_of_find?_eq_some h, rfl⟩

/-- With every slot EMPTY the page after the position is wanted, where it lies below the pass length. -/
theorem State.prefetchWanted_of_empty {i : Nat} (hpos : s.ahead.position = some i) (hopen : s.uni.pass.isOpen = true)
    (hsafe : s.life.lifecycle ≠ some .safe) (hslots : s.ahead.slots = List.replicate 8 .empty) :
    s.prefetchWanted = if 256 * (i + 1) < s.uni.pass.length then some (s.passBase + 256 * (i + 1)) else none := by
  have hslot (page : Nat) : s.aheadSlot page = none := by
    rw [State.aheadSlot, hslots]
    rfl
  have hfilling : s.isFilling = false := by
    rw [State.isFilling, hslots]
    rfl
  have hempty : s.ahead.slots.any (fun x => decide (x = .empty)) = true := by
    rw [hslots]
    rfl
  have hfind : ((List.range 8).map fun k => i + 1 + k).find? (fun k => (s.aheadSlot (s.passBase + 256 * k)).isNone) = some (i + 1) := by
    rw [List.range_succ_eq_map, List.map_cons]
    exact List.find?_cons_of_pos (by rw [hslot]; rfl)
  simp only [State.prefetchWanted, hpos, hfind]
  exact if_pos ⟨hopen, hsafe, hfilling, hempty⟩

/-- With every slot EMPTY and a page read in flight the demand marks a slot and its claim stands. -/
theorem State.judgePrefetch_of_empty {i : Nat} {y : PageRead} (hpos : s.ahead.position = some i) (hopen : s.uni.pass.isOpen = true)
    (hsafe : s.life.lifecycle ≠ some .safe) (hslots : s.ahead.slots = List.replicate 8 .empty) (hread : s.engine.read = some y)
    (hd : y.discard = false) :
    s.judgePrefetch =
      if 256 * (i + 1) < s.uni.pass.length then
        (s.onAhead fun x => { x with slots := .filling (s.passBase + 256 * (i + 1)) :: List.replicate 7 .empty }).setClaim .prefetch
          (some { range := some { page := s.passBase + 256 * (i + 1), lo := 0, hi := 255 }, aged := 0, due := s.engine.interval })
      else s := by
  rw [State.judgePrefetch, State.prefetchWanted_of_empty hpos hopen hsafe hslots]
  by_cases hlength : 256 * (i + 1) < s.uni.pass.length
  · simp only [if_pos hlength]
    have hfill (page : Nat) : fillFirst page s.ahead.slots = .filling page :: List.replicate 7 .empty := by
      rw [hslots]
      rfl
    rw [State.raiseClaim_of_read (s := s.onAhead _) (c := .prefetch) rfl hread hd, State.onAhead, hfill]
    rfl
  · simp only [if_neg hlength]

end

/-! ### The three pieces of O27 (R110, R112) -/

section
variable {s : State} {p : Port} {seg : Segment} {x : ReadRange}

/-- A piece of a pass whose page no slot names claims its range (R104 step 4). -/
theorem State.judgePiece_of_no_slot (hq : s.entriesOf seg.owner = []) (hx : x.lo ≤ x.hi) (hslot : s.aheadSlot x.page = none) :
    s.judgePiece p seg x = (s.setPiece p (.claim x)).raiseClaim (portClaimant p) (some x) := by
  simp only [State.judgePiece, hq, overlay_nil_not_fixed hx, headPreReads, hslot, ite_self, State.claimPiece, unfixedRange_nil hx,
    Bool.false_eq_true, if_false]

/-- A piece of a pass whose page a granted PREFETCH read is filling waits for the slot (R112). -/
theorem State.judgePiece_of_filling {page : Nat} (hq : s.entriesOf seg.owner = []) (hx : x.lo ≤ x.hi) (hpass : seg.inPass = true)
    (hslot : s.aheadSlot x.page = some (.filling page)) (hclaim : s.claim .prefetch = none) :
    s.judgePiece p seg x = s.setPiece p (.slot x) := by
  simp only [State.judgePiece, hq, overlay_nil_not_fixed hx, headPreReads, hpass, hslot, hclaim, Option.isSome_none, Bool.false_eq_true,
    if_false, if_true]

end

section
variable {s : State} {a : Addr} {n : Nat} {l : Lifecycle} {e : MapEntry}

theorem State.ReadsPass.entries (h : s.ReadsPass a n l e) (i : Nat) (b : Bank) :
    ((s.passBegun a n e).placed i).entriesOf (e.passSegment a.toNat b).owner = [] := by
  show ((s.passBegun a n e).placed i).entriesOf .uni = []
  rw [State.entriesOf, State.queues_placed, State.queues_passBegun]
  exact h.empty

theorem State.reading_placed_passBegun (i : Nat) :
    ((s.passBegun a n e).placed i).reading .t =
      some (Reading.passBegun a n (e.passSegment a.toNat s.takePass.uni.pass.bank)) :=
  (State.reading_of_port ((PieceOnly.placed .a).other .t nofun)).trans State.reading_passBegun

theorem State.bank_takePass (hopen : s.uni.pass.isOpen = true) : s.takePass.uni.pass.bank = s.uni.pass.bank := by
  rw [State.takePass_of_open hopen]

/-- The state in which a read in a pass has been granted Port F for its first piece, with the position moved and no slot changed. -/
def State.passClaimed (s : State) (a : Addr) (n : Nat) (e : MapEntry) : State :=
  let seg := e.passSegment a.toNat s.takePass.uni.pass.bank
  let x := e.passRange a.toNat n (e.bankBase s.takePass.uni.pass.bank)
  let w := ((s.passBegun a n e).onAhead fun y => { y with position := some ((a.toNat - e.ubase) / 256) }).setReading .t
    { Reading.passBegun a n seg with piece := .claim x }
  { w with engine := { w.engine with
      claims := w.engine.claims.put .tRead none, read := some { claimant := .tRead, range := x, discard := false } } }

theorem State.uni_passClaimed : (s.passClaimed a n e).uni = { s.uni with pass := s.takePass.uni.pass } :=
  State.uni_passBegun (s := s) (a := a) (n := n) (e := e)

theorem State.slots_passClaimed : (s.passClaimed a n e).ahead.slots = s.ahead.slots := by
  show (s.passBegun a n e).ahead.slots = _
  rw [State.ahead_passBegun]

theorem State.life_passClaimed : (s.passClaimed a n e).life = s.life := (State.passBegun_apart (s := s) (a := a) (n := n) (e := e)).life

theorem State.engine_passClaimed :
    (s.passClaimed a n e).engine = { s.engine with
      claims := s.engine.claims.put .tRead none
      read := some
        { claimant := .tRead, range := e.passRange a.toNat n (e.bankBase s.takePass.uni.pass.bank), discard := false } } := by
  show ({ (s.passBegun a n e).engine with
    claims := (s.passBegun a n e).engine.claims.put .tRead none, read := some _ } : Engine) = _
  rw [State.engine_passBegun]

/-- With every slot EMPTY and Port F free the read in a pass is granted Port F, and the PREFETCH demand is judged (R82, R110). -/
theorem State.ReadsPass.exec_of_empty (h : s.ReadsPass a n l e) (hslots : s.ahead.slots = List.replicate 8 .empty)
    (hwrite : s.engine.write = none) (hread : s.engine.read = none) (hbase : e.bankBase s.takePass.uni.pass.bank % 256 = 0) :
    exec (.read .t (some a) n) s = .next (s.passClaimed a n e).judgePrefetch ∧ Apart s (s.passClaimed a n e).judgePrefetch := by
  let w := s.passBegun a n e
  let v := w.onAhead fun x => { x with position := some ((a.toNat - e.ubase) / 256) }
  let x := e.passRange a.toNat n (e.bankBase s.takePass.uni.pass.bank)
  have hplaced : w.placed ((a.toNat - e.ubase) / 256) = v := State.placed_of_empty (by rw [State.ahead_passBegun]; exact hslots)
  have hslot : v.aheadSlot x.page = none := by
    show w.ahead.slots.find? _ = none
    rw [State.ahead_passBegun, hslots]
    rfl
  have hfree : (v.setReading .t
      { Reading.passBegun a n (e.passSegment a.toNat s.takePass.uni.pass.bank) with piece := .claim x }).portFree = true := by
    show (w.engine.write.isNone && w.engine.read.isNone) = true
    rw [State.engine_passBegun, hwrite, hread]
    rfl
  have hjudge : (w.placed ((a.toNat - e.ubase) / 256)).judgePiece .t (e.passSegment a.toNat s.takePass.uni.pass.bank) x =
      s.passClaimed a n e := by
    have hq := h.entries ((a.toNat - e.ubase) / 256) s.takePass.uni.pass.bank
    have hr := State.reading_placed_passBegun (s := s) (a := a) (n := n) (e := e) ((a.toNat - e.ubase) / 256)
    rw [hplaced] at hq hr ⊢
    rw [State.judgePiece_of_no_slot hq (MapEntry.passRange_low h.last h.asked) hslot, State.setPiece_of_reading hr]
    exact State.raiseClaim_of_free hfree rfl x
  refine ⟨h.exec_of_held hbase hjudge rfl nofun nofun, ?_⟩
  rw [← hjudge, ← State.preparePiece_pass h.uniformity h.last hbase]
  exact State.passBegun_apart.trans (Apart.preparePiece ..)

theorem State.ReadsPass.passLength (h : s.ReadsPass a n l e) : s.passLength = s.uni.lengthSetting.getD e.size := by
  have hentry : entryOfClass s.life.fields.map .uniformity = some e := h.uniformity
  simp only [State.passLength, bankSize, hentry]

/-- The first statement of O27 about a pass: the read opens it. -/
theorem State.ReadsPass.opens (h : s.ReadsPass a n l e) (hclosed : s.uni.pass.isOpen = false)
    (hslots : s.ahead.slots = List.replicate 8 .empty) (hwrite : s.engine.write = none) (hread : s.engine.read = none)
    (hclaims : s.engine.claims = PerClaimant.all none) (hbase : e.bankBase s.live % 256 = 0) (hubase : e.ubase % 256 = 0) :
    let i := (a.toNat - e.ubase) / 256
    let base := e.bankBase s.live
    let length := s.uni.lengthSetting.getD e.size
    let page := base + 256 * (i + 1)
    Completes (.read .t (some a) n) s fun t =>
      t.uni = { s.uni with pass := { s.uni.pass with isOpen := true, bank := s.live, length := length } } ∧
      t.ahead.position = some i ∧ t.portT.returned = [] ∧
      (∃ x, t.engine.read = some { claimant := .tRead, range := x, discard := false } ∧ x.page = base + 256 * i ∧
        x.lo = a.toNat % 256) ∧
      t.ahead.slots = (if 256 * (i + 1) < length then .filling page :: List.replicate 7 .empty else List.replicate 8 .empty) ∧
      t.claim .prefetch = (if 256 * (i + 1) < length
        then some { range := some { page := page, lo := 0, hi := 255 }, aged := 0, due := s.engine.interval } else none) ∧
      Apart s t := by
  intro i base length page
  have hpass := State.takePass_of_closed hclosed
  have hbank : s.takePass.uni.pass.bank = s.live := by rw [hpass]
  have hbase' : e.bankBase s.takePass.uni.pass.bank % 256 = 0 := by
    rw [hbank]
    exact hbase
  obtain ⟨hexec, hapart⟩ := h.exec_of_empty hslots hwrite hread hbase'
  have huni := State.uni_passClaimed (s := s) (a := a) (n := n) (e := e)
  rw [hpass, h.passLength] at huni
  have hengine := State.engine_passClaimed (s := s) (a := a) (n := n) (e := e)
  have hempty := State.slots_passClaimed (s := s) (a := a) (n := n) (e := e)
  rw [hslots] at hempty
  have hlife := State.life_passClaimed (s := s) (a := a) (n := n) (e := e)
  have hposition : (s.passClaimed a n e).ahead.position = some i := rfl
  have hreturned : (s.passClaimed a n e).portT.returned = [] := rfl
  have hpassBase : (s.passClaimed a n e).passBase = base := by
    show (s.passBegun a n e).passBase = _
    rw [State.passBase_passBegun h.uniformity, hbank]
  refine ⟨_, hexec, ?_⟩
  generalize s.passClaimed a n e = u at *
  have hgrant : ∃ x, u.engine.read = some { claimant := .tRead, range := x, discard := false } ∧ x.page = base + 256 * i ∧
      x.lo = a.toNat % 256 :=
    ⟨_, by rw [hengine], by rw [MapEntry.passRange_page hbase', hbank], MapEntry.passRange_lo hbase' hubase h.first⟩
  have hnone : u.claim .prefetch = none := by
    rw [State.claim, hengine, hclaims]
    rfl
  have hdemand := State.judgePrefetch_of_empty (s := u) hposition (by rw [huni])
    (by
      rw [hlife, h.lifecycle]
      exact fun heq => h.safe (Option.some.inj heq)) hempty hgrant.choose_spec.1 rfl
  rw [hpassBase, show u.uni.pass.length = length by rw [huni], show u.engine.interval = s.engine.interval by rw [hengine]] at hdemand
  by_cases hlt : 256 * (i + 1) < length
  · rw [if_pos hlt] at hdemand
    simp only [if_pos hlt]
    rw [hdemand] at hapart ⊢
    exact ⟨huni, hposition, hreturned, hgrant, rfl, State.claim_setClaim .., hapart⟩
  · rw [if_neg hlt] at hdemand
    simp only [if_neg hlt]
    rw [hdemand] at hapart ⊢
    exact ⟨huni, hposition, hreturned, hgrant, hempty, hnone, hapart⟩

/-- The third statement of O27 about a pass: the page is being filled. -/
theorem State.ReadsPass.waits_for_slot (h : s.ReadsPass a n l e) (hopen : s.uni.pass.isOpen = true)
    (hbase : e.bankBase s.uni.pass.bank % 256 = 0) (hpos : s.ahead.position = some ((a.toNat - e.ubase) / 256))
    (hslot : s.aheadSlot (e.bankBase s.uni.pass.bank + 256 * ((a.toNat - e.ubase) / 256)) =
      some (.filling (e.bankBase s.uni.pass.bank + 256 * ((a.toNat - e.ubase) / 256)))) (hclaim : s.claim .prefetch = none) :
    Completes (.read .t (some a) n) s fun t =>
      t.portT.returned = [] ∧ t.engine = s.engine ∧ t.ahead = s.ahead ∧
      t.uni = { s.uni with pass := { s.uni.pass with idle := .stopped } } ∧ Apart s t := by
  let w := s.passBegun a n e
  let seg := e.passSegment a.toNat s.takePass.uni.pass.bank
  let v := w.setReading .t { Reading.passBegun a n seg with piece := .slot (e.passRange a.toNat n (e.bankBase s.takePass.uni.pass.bank)) }
  have hbank := State.bank_takePass hopen
  have hbase' : e.bankBase s.takePass.uni.pass.bank % 256 = 0 := by
    rw [hbank]
    exact hbase
  have hahead : w.ahead = s.ahead := State.ahead_passBegun
  have hengine : w.engine = s.engine := State.engine_passBegun
  have hplaced : w.placed ((a.toNat - e.ubase) / 256) = w := State.placed_of_position (by rw [hahead]; exact hpos)
  have hwslot : w.aheadSlot (e.passRange a.toNat n (e.bankBase s.takePass.uni.pass.bank)).page =
      some (.filling (e.bankBase s.uni.pass.bank + 256 * ((a.toNat - e.ubase) / 256))) := by
    rw [MapEntry.passRange_page hbase', hbank, State.aheadSlot, hahead]
    exact hslot
  have hjudge : (w.placed ((a.toNat - e.ubase) / 256)).judgePiece .t seg
      (e.passRange a.toNat n (e.bankBase s.takePass.uni.pass.bank)) = v := by
    have hq := h.entries ((a.toNat - e.ubase) / 256) s.takePass.uni.pass.bank
    rw [hplaced] at hq ⊢
    rw [State.judgePiece_of_filling hq (MapEntry.passRange_low h.last h.asked) rfl hwslot (by rw [State.claim, hengine]; exact hclaim),
      State.setPiece_of_reading State.reading_passBegun]
  have hexec := h.exec_of_held hbase' hjudge rfl nofun nofun
  have hfilling : v.isFilling = true := State.isFilling_of_slot (s := w) hwslot
  rw [State.judgePrefetch_of_filling hfilling] at hexec
  refine ⟨v, hexec, rfl, hengine, hahead, ?_, State.passBegun_apart.trans (Apart.setReading ..)⟩
  rw [← State.takePass_of_open hopen]
  exact State.uni_passBegun (s := s) (a := a) (n := n) (e := e)

/-- The second statement of O27 about a pass: a HELD slot has the page. -/
theorem State.ReadsPass.answered_from_slot (h : s.ReadsPass a n l e) (bytes : List Byte) (hopen : s.uni.pass.isOpen = true)
    (hbase : e.bankBase s.uni.pass.bank % 256 = 0) (hubase : e.ubase % 256 = 0)
    (hslot : s.aheadSlot (e.bankBase s.uni.pass.bank + 256 * ((a.toNat - e.ubase) / 256)) =
      some (.held (e.bankBase s.uni.pass.bank + 256 * ((a.toNat - e.ubase) / 256)) bytes)) (hlen : bytes.length = 256)
    (hpage : n ≤ 256 - a.toNat % 256) (hend : a.toNat + n ≤ e.ubase + e.size) :
    Completes (.read .t (some a) n) s fun t =>
      t.portT.returned = (bytes.drop (a.toNat % 256)).take n ∧
      t.uni = { s.uni with pass := { s.uni.pass with idle := .stopped } } ∧ t.ahead.position = some ((a.toNat - e.ubase) / 256) ∧
      (∀ p b, .held p b ∈ t.ahead.slots → .held p b ∈ s.ahead.slots ∧
        (s.ahead.position ≠ some ((a.toNat - e.ubase) / 256) →
          e.bankBase s.uni.pass.bank + 256 * ((a.toNat - e.ubase) / 256) ≤ p ∧
          p ≤ e.bankBase s.uni.pass.bank + 256 * ((a.toNat - e.ubase) / 256 + 8))) ∧
      (t.claim .tRead = s.claim .tRead) ∧ Apart s t := by
  have hbank := State.bank_takePass hopen
  have hbase' : e.bankBase s.takePass.uni.pass.bank % 256 = 0 := by
    rw [hbank]
    exact hbase
  have hw := State.ahead_passBegun (s := s) (a := a) (n := n) (e := e)
  have hpassBase : (s.passBegun a n e).passBase = e.bankBase s.uni.pass.bank := by
    rw [State.passBase_passBegun h.uniformity, hbank]
  have hq := h.entries ((a.toNat - e.ubase) / 256) s.takePass.uni.pass.bank
  have hreading := State.reading_placed_passBegun (s := s) (a := a) (n := n) (e := e) ((a.toNat - e.ubase) / 256)
  have huni := State.uni_passBegun (s := s) (a := a) (n := n) (e := e)
  have hclaim : (s.passBegun a n e).claim .tRead = s.claim .tRead := by
    rw [State.claim, State.engine_passBegun]
    rfl
  have hpageEq := MapEntry.passRange_page (e := e) (a := a.toNat) (n := n) hbase'
  have hlo := MapEntry.passRange_lo (n := n) hbase' hubase h.first
  have hcount := MapEntry.passRange_length hbase' hubase h.first h.asked hpage hend
  have hlow := MapEntry.passRange_low (base := e.bankBase s.takePass.uni.pass.bank) h.last h.asked
  have hjudged {v : State} := h.exec_of_ready (v := v) (bytes := (bytes.drop (a.toNat % 256)).take n) hbase'
  generalize (a.toNat - e.ubase) / 256 = i at *
  have hplaced : ((s.passBegun a n e).placed i).aheadSlot (e.passRange a.toNat n (e.bankBase s.takePass.uni.pass.bank)).page =
      some (.held (e.bankBase s.uni.pass.bank + 256 * i) bytes) := by
    refine State.aheadSlot_placed ?_ ?_
    · rw [outside_eq_false, hpassBase]
      omega
    · rw [hpageEq, hbank, State.aheadSlot, hw]
      exact hslot
  have hapart : Apart s ((s.passBegun a n e).placed i) := State.passBegun_apart.trans (PieceOnly.placed .a).apart
  have hpieceUni : ((s.passBegun a n e).placed i).uni = (s.passBegun a n e).uni := (PieceOnly.placed .a).uni
  have hret : ((s.passBegun a n e).placed i).portT.returned = [] := by
    rw [show ((s.passBegun a n e).placed i).portT = (s.passBegun a n e).portT from (PieceOnly.placed .a).other .t nofun]
    rfl
  obtain ⟨rd', hexec⟩ := hjudged
    ((State.judgePiece_of_slot hq hlow rfl hplaced).trans
      ((State.setPiece_of_reading hreading _).trans (by rw [hcount, hlo])))
    (State.reading_setReading ..)
    (by
      rw [List.length_take, List.length_drop, hlen]
      omega) hend
    (by
      have := Addr.lt_spaceSize a
      have : spaceSize = 131072 * 256 := rfl
      omega)
  generalize hv : ((s.passBegun a n e).placed i).setReading .t _ = v at hexec
  have hvslots : v.ahead = ((s.passBegun a n e).placed i).ahead := hv ▸ rfl
  have hvclaim : v.claim .tRead = ((s.passBegun a n e).placed i).claim .tRead := hv ▸ rfl
  have hvuni : v.uni = ((s.passBegun a n e).placed i).uni := hv ▸ rfl
  have hvret : v.portT.returned = ((s.passBegun a n e).placed i).portT.returned := hv ▸ rfl
  have hvapart : Apart s v := hv ▸ hapart.trans (Apart.setReading ..)
  refine ⟨_, hexec, ?_, ?_, ?_, fun p b hp => ?_, ?_, (hvapart.trans (Apart.judgePrefetch _)).trans (State.handed_apart ..)⟩
  · show v.judgePrefetch.portT.returned ++ _ = _
    rw [show v.judgePrefetch.portT = v.portT from (PieceOnly.judgePrefetch .a v).other .t nofun, hvret, hret, List.nil_append]
  · show v.judgePrefetch.uni = _
    rw [(PieceOnly.judgePrefetch .a v).uni, hvuni, hpieceUni, huni, State.takePass_of_open hopen]
  · show v.judgePrefetch.ahead.position = _
    rw [State.position_judgePrefetch, hvslots, State.placed_position]
  · have hplacedHeld := State.held_of_placed (hvslots ▸ State.held_of_judgePrefetch (s := v) hp)
    rw [hw, hpassBase, outside_eq_false] at hplacedHeld
    exact hplacedHeld
  · show v.judgePrefetch.claim .tRead = _
    rw [State.claim_judgePrefetch (c := .tRead) nofun, hvclaim, State.claim_placed (c := .tRead) nofun, hclaim]

end

/-- Settles O27: reads of flash content by the state of their queue and of Port F, and reads in a pass by the read-ahead buffer. -/
theorem flashReadHeld : Obligations.FlashReadHeld := by
  refine ⟨fun p r a n s l e q base hne hlink hr hl he hflash hn => ?_,
    fun a n s l e hlink hr hl hsafe he huni hq hrun hn => ?_⟩
  · obtain ⟨hgranted, hsuspends, hstands⟩ := flashRead hne hlink hr hl he hflash hn
    exact ⟨hgranted, hsuspends, hstands, fixedRead hne hlink hr hl he hflash hn⟩
  · have h : s.ReadsPass a n l e := ⟨hlink, hr, hl, hsafe, he, huni, hq, hrun, hn⟩
    exact ⟨h.opens, h.answered_from_slot, fun hopen hbase _ hpos hslot hclaim => h.waits_for_slot hopen hbase hpos hslot hclaim⟩

end Sys2Proof.Machine
end

-- Proofs of the family 'other': the end of a pre-read, and the reads that wait for its image.
section
/-! PROOFS. The end of a pre-read (R84): the expected image, and the reads and region record reads that waited for it (R52, R103 to R106,
R150, R151, R172). -/

namespace Sys2Proof.Machine

/-! ### The expected image (R84) -/

/-- Two changes of a queue's head that agree on it. -/
theorem State.setHead_congr {s : State} {q : QueueId} {e : Entry} {f g : Entry → Entry} (h : (s.entriesOf q).head? = some e)
    (hf : f e = g e) : s.setHead q f = s.setHead q g := by
  have hentries : onFirst f (s.queues.get q).entries = onFirst g (s.queues.get q).entries := by
    change ((s.queues.get q).entries).head? = some e at h
    cases hl : (s.queues.get q).entries with
    | nil => rfl
    | cons x l =>
      rw [hl] at h
      cases h
      exact congrArg (· :: l) hf
  simp only [State.setHead, State.onQueue, hentries]

theorem expectedImage_forms {e : Entry} {flash : Mem} (hflash : Mem.wf flash = true) (hdata : OffsetBytes.ok 256 e.data = true) :
    e.Forms flash (expectedImage flash e) := by
  have hcut := Mem.wf_cut hflash e.addr 256
  refine ⟨Mem.wf_andAll hcut 0 e.data, fun o ho => ?_⟩
  rw [expectedImage, Mem.get_andAll hcut 0 ((OffsetBytes.ok_iff 256 e.data).1 hdata).1, Mem.get_cut, if_pos ho, if_pos (Nat.zero_le o)]
  rfl

/-- The entry enters PROGRAM with its image. -/
theorem State.setHead_imaged {s : State} {q : QueueId} {e : Entry} (h : s.inPhase .preRead = some (q, e)) :
    s.setHead q (Entry.imaged s.flash) = s.setHead q fun x => x.formed (expectedImage s.flash e) :=
  State.setHead_congr (State.inPhase_eq_some h).2.1 rfl

theorem exec_preReadEnd {s : State} {q : QueueId} {e : Entry} (h : s.inPhase .preRead = some (q, e)) :
    exec .preReadEnd s =
      .next (((s.setHead q fun x => x.formed (expectedImage s.flash e)).rejudgeFormed q).rejudgeRegion q).finish := by
  change execPreReadEnd s = _
  rw [execPreReadEnd, h]
  dsimp only
  rw [State.setHead_imaged h]

/-! ### What the image fixes (R103) -/

theorem Entry.over_formed {e : Entry} {img : Mem} {a : Nat} (hkind : e.kind = .program) (hlo : e.addr ≤ a) (hhi : a < e.addr + 256)
    (x : Overlaid) : (e.formed img).over a x = { fixed := true, value := Mem.get img (a - e.addr) } := by
  have htouches : (e.formed img).touches a = true := by
    simp [Entry.touches, Entry.formed, hkind, WriteKind.range, hlo, hhi]
  have hformed : (e.formed img).kind = .program := hkind
  have hstate : (e.formed img).state = .active .program := rfl
  have himage : (e.formed img).image = some img := rfl
  have haddr : (e.formed img).addr = e.addr := rfl
  simp only [Entry.over, htouches, hformed, hstate, himage, haddr, Bool.true_eq_false, if_false]

/-- No entry takes back what one before it has fixed. -/
theorem Entry.over_keeps_fixed (e : Entry) (a : Nat) {x : Overlaid} (h : x.fixed = true) : (e.over a x).fixed = true := by
  rw [Entry.over]
  split
  · exact h
  · split
    · split
      · split
        · exact h
        · exact h
      · split
        · rfl
        · exact h
    · rfl

theorem foldl_over_fixed (a : Nat) (l : List Entry) {x : Overlaid} (h : x.fixed = true) :
    (l.foldl (fun x e => e.over a x) x).fixed = true := by
  induction l generalizing x with
  | nil => exact h
  | cons e l ih => exact ih (e.over_keeps_fixed a h)

theorem overlayByte_formed_fixed {e : Entry} {img : Mem} {a : Nat} (rest : List Entry) (hkind : e.kind = .program) (hlo : e.addr ≤ a)
    (hhi : a < e.addr + 256) : (overlayByte (e.formed img :: rest) a).fixed = true := by
  rw [overlayByte, List.foldl_cons, Entry.over_formed hkind hlo hhi]
  exact foldl_over_fixed a rest rfl

theorem overlayByte_formed {e : Entry} {img : Mem} {o : Nat} (hkind : e.kind = .program) (ho : o < 256) :
    overlayByte [e.formed img] (e.addr + o) = { fixed := true, value := Mem.get img o } := by
  rw [overlayByte, List.foldl_cons, List.foldl_nil, Entry.over_formed hkind (Nat.le_add_right ..) (Nat.add_lt_add_left ho _),
    Nat.add_sub_cancel_left]

/-! ### The judgements that follow (R104, R105) -/

section
variable {s : State} {q : QueueId}

theorem State.rejudgeImage_of_none {p : Port} (h : s.reading p = none) : s.rejudgeImage q p = s := by rw [State.rejudgeImage, h]

theorem State.NoReads.rejudgeFormed (h : s.NoReads) : s.rejudgeFormed q = s := by
  rw [State.rejudgeFormed, h.rejudgeJoin, State.rejudgeImage_of_none h.linkT, State.rejudgeImage_of_none h.linkA]

theorem State.rejudgeRegion_of_idle (h : s.dir.running = none) : s.rejudgeRegion q = s := by rw [State.rejudgeRegion, h]

theorem State.rejudgeClaim_of_image {p : Port} {rd : Reading} {x : ReadRange} (hr : s.reading p = some rd) (hp : rd.piece = .image x) :
    s.rejudgeClaim q p = s := by
  cases hseg : rd.seg <;> simp only [State.rejudgeClaim, hr, hp, hseg]

theorem State.rejudgeImage_of_image {p : Port} {rd : Reading} {seg : Segment} {x : ReadRange} (hr : s.reading p = some rd)
    (hseg : rd.seg = some seg) (hp : rd.piece = .image x) (howner : seg.owner = q) : s.rejudgeImage q p = s.judgePiece p seg x := by
  simp only [State.rejudgeImage, hr, hp, hseg, howner, if_true]

/-- Where only one read stands, and waits for the image, its piece alone is judged again. -/
theorem State.rejudgeFormed_of_image {p r : Port} {rd : Reading} {seg : Segment} {x : ReadRange} (hne : p ≠ r)
    (hr : s.reading p = some rd) (hseg : rd.seg = some seg) (hp : rd.piece = .image x) (howner : seg.owner = q)
    (hother : s.reading r = none) : s.rejudgeFormed q = s.judgePiece p seg x := by
  have hjoin : s.rejudgeJoin q = s := by
    cases p with
    | a =>
      cases r with
      | a => exact absurd rfl hne
      | t => rw [State.rejudgeJoin, State.rejudgeClaim_of_none hother, State.rejudgeClaim_of_image hr hp]
    | t =>
      cases r with
      | a => rw [State.rejudgeJoin, State.rejudgeClaim_of_image hr hp, State.rejudgeClaim_of_none hother]
      | t => exact absurd rfl hne
  have hstill : (s.judgePiece p seg x).reading r = none :=
    (State.reading_of_port ((PieceOnly.judgePiece p s seg x).other r (Ne.symm hne))).trans hother
  rw [State.rejudgeFormed, hjoin]
  cases p with
  | a =>
    cases r with
    | a => exact absurd rfl hne
    | t => rw [State.rejudgeImage_of_none hother, State.rejudgeImage_of_image hr hseg hp howner]
  | t =>
    cases r with
    | a => rw [State.rejudgeImage_of_image hr hseg hp howner, State.rejudgeImage_of_none hstill]
    | t => exact absurd rfl hne

end

/-! ### A read that meets the pre-read (R104 step 2) -/

section
variable {s : State} {p : Port} {seg : Segment} {r : ReadRange}

theorem overlay_not_fixed {l : List Entry} (h : ∃ i < r.hi + 1 - r.lo, (overlayByte l (r.page + r.lo + i)).fixed = false) :
    (overlay l r).all Overlaid.fixed = false := by
  obtain ⟨i, hi, hfixed⟩ := h
  refine Bool.eq_false_iff.2 fun hall => ?_
  have hmem : overlayByte l (r.page + r.lo + i) ∈ overlay l r := List.mem_map.2 ⟨i, List.mem_range.2 hi, rfl⟩
  rw [List.all_eq_true.1 hall _ hmem] at hfixed
  nomatch hfixed

theorem State.judgePiece_of_image (hpre : headPreReads (s.entriesOf seg.owner) r.page = true)
    (h : ∃ i < r.hi + 1 - r.lo, (overlayByte (s.entriesOf seg.owner) (r.page + r.lo + i)).fixed = false) :
    s.judgePiece p seg r = s.setPiece p (.image r) := by
  simp only [State.judgePiece, overlay_not_fixed h, hpre, Bool.false_eq_true, if_false, if_true]

end

/-- A READ whose first piece stands in the page that the head of its owning queue pre-reads waits without a claim. -/
theorem read_waits_for_image {s : State} {p r : Port} {a : Addr} {n : Nat} {l : Lifecycle} {e : MapEntry} {q : QueueId} {base : Nat}
    (hne : p ≠ r) (hlink : (s.port p).link = .idle) (hr : s.reading r = none) (hl : s.life.lifecycle = some l)
    (he : findEntry s.entries a.toNat = some e) (hflash : s.ReadsFlash l e p q base) (hn : 0 < n)
    (hpre : headPreReads (s.entriesOf q) (pageOf (base + (a.toNat - e.ubase))) = true)
    (hopen : ∃ i < min (min (256 - (base + (a.toNat - e.ubase)) % 256) (e.ubase + e.size - a.toNat)) n,
      (overlayByte (s.entriesOf q) (base + (a.toNat - e.ubase) + i)).fixed = false) :
    Completes (.read p (some a) n) s fun t =>
      (t.port p).returned = [] ∧ t.engine = s.engine ∧ Apart s t ∧
      (t.reading p).map Reading.piece =
        some (.image (firstRange (base + (a.toNat - e.ubase)) (e.ubase + e.size - a.toNat) n)) := by
  have hholds := (findEntry_holds he).2
  have hcount := firstRange_length (x := base + (a.toNat - e.ubase)) (len := e.ubase + e.size - a.toNat) (n := n) (by omega) hn
  have hstart := firstRange_start (x := base + (a.toNat - e.ubase)) (len := e.ubase + e.size - a.toNat) (n := n)
  have hpage : (firstRange (base + (a.toNat - e.ubase)) (e.ubase + e.size - a.toNat) n).page = pageOf (base + (a.toNat - e.ubase)) := rfl
  have hrange := pieceRange_begun (n := n) (q := q) (base := base) hholds
  generalize firstRange (base + (a.toNat - e.ubase)) (e.ubase + e.size - a.toNat) n = x at hcount hstart hpage hrange ⊢
  rw [← hcount, ← hstart] at hopen
  rw [← hpage] at hpre
  have howner : (e.flashSegment a.toNat q base).owner = q := rfl
  have hsrc : (e.flashSegment a.toNat q base).source = .flash := rfl
  have hpass : (e.flashSegment a.toNat q base).inPass = false := rfl
  have hform : (s.readOpened p a n).formSegment p (Reading.open a n) l = s.readBegun p a n (e.flashSegment a.toNat q base) := by
    rw [← hflash.segmentOf]
    exact State.formSegment_readOpened he hflash.not_uniformity
  generalize e.flashSegment a.toNat q base = seg at hrange howner hsrc hpass hform
  have hbegun := s.readBegun_apart p a n seg
  have hentries : (s.readBegun p a n seg).entriesOf seg.owner = s.entriesOf q := by
    rw [howner]
    cases p <;> rfl
  have hprep : (s.readBegun p a n seg).preparePiece p (Reading.begun a n seg) seg =
      (s.readBegun p a n seg).setReading p { Reading.begun a n seg with piece := .image x } := by
    rw [State.preparePiece_of_flash hsrc hpass, hrange,
      State.judgePiece_of_image (by rw [hentries]; exact hpre) (by rw [hentries]; exact hopen),
      State.setPiece_of_reading (s.reading_readBegun p a n seg)]
  have hreading := State.reading_setReading (s.readBegun p a n seg) p { Reading.begun a n seg with piece := .image x }
  have hapart := hbegun.trans (Apart.setReading _ p { Reading.begun a n seg with piece := .image x })
  refine ⟨_, exec_read_of_held hne hlink hr hn (State.deliver_readBegun hl hn (by rw [hsrc]; exact nofun) hform)
    (s.reading_readBegun p a n seg) rfl hsrc (hbegun.life.symm ▸ hl) rfl rfl hprep hreading rfl (hapart.life.symm ▸ hl) rfl nofun nofun,
    by cases p <;> rfl, by cases p <;> rfl, hapart, by rw [hreading]; rfl⟩

/-! ### A read that the image answers (R52, R104 step 2) -/

/-- A read whose piece waits for the image is given its bytes from the overlay once the image is formed. -/
theorem image_answers_read {p r : Port} {s : State} {l : Lifecycle} {q : QueueId} {e : Entry} {rest : List Entry} {rd : Reading}
    {seg : Segment} {x : ReadRange} (hne : p ≠ r) (hcalm : s.Calm) (hphase : s.inPhase .preRead = some (q, e))
    (hentries : s.entriesOf q = e :: rest) (hkind : e.kind = .program) (hl : s.life.lifecycle = some l) (hother : s.reading r = none)
    (hr : s.reading p = some rd) (hseg : rd.seg = some seg) (hsrc : seg.source = .flash) (howner : seg.owner = q)
    (hp : rd.piece = .image x) (hpage : x.page = e.addr) (hhi : x.hi < 256) (haddr : rd.addr ≤ seg.last)
    (hlast : seg.last < 0x2000000) (hw : rd.want = x.hi + 1 - x.lo) (hfits : rd.want ≤ seg.last + 1 - rd.addr) :
    Completes .preReadEnd s fun t =>
      (t.port p).returned = (s.port p).returned ++ (List.range (x.hi + 1 - x.lo)).map
        (fun i => (overlayByte (e.formed (expectedImage s.flash e) :: rest) (e.addr + x.lo + i)).value) ∧
      t.engine = s.engine ∧ Apart (s.setHead q fun y => y.formed (expectedImage s.flash e)) t := by
  refine ⟨_, exec_preReadEnd hphase, ?_⟩
  generalize expectedImage s.flash e = img
  let u := s.setHead q fun y => y.formed img
  let bytes := (List.range (x.hi + 1 - x.lo)).map fun i => (overlayByte (e.formed img :: rest) (e.addr + x.lo + i)).value
  let v := u.setReading p { rd with piece := .ready bytes }
  have hlen : bytes.length = x.hi + 1 - x.lo := by
    show (List.map _ _).length = _
    rw [List.length_map, List.length_range]
  have hur (p' : Port) : u.reading p' = s.reading p' := by cases p' <;> rfl
  have huentries : u.entriesOf seg.owner = e.formed img :: rest := by
    rw [howner, State.entriesOf_setHead, hentries]
    rfl
  have hready : u.judgePiece p seg x = v := by
    rw [State.judgePiece_of_fixed, State.setPiece_of_reading ((hur p).trans hr), huentries, overlay, List.map_map, hpage]
    · rfl
    · rw [huentries, hpage]
      exact fun i hi => overlayByte_formed_fixed rest hkind (by omega) (by omega)
  have hcalmu : u.Calm := hcalm.of_fields rfl rfl rfl rfl rfl
  have hcalmv : v.Calm := hcalmu.of_apart (Apart.setReading ..)
  have hrest : ((u.rejudgeFormed q).rejudgeRegion q).finish = v.runPort p := by
    rw [State.rejudgeFormed_of_image hne ((hur p).trans hr) hseg hp howner ((hur r).trans hother), hready,
      State.rejudgeRegion_of_idle hcalmv.running, hcalmv.finish, State.runReads_of_other hne]
    exact (State.reading_of_port (State.port_setReading_ne u _ (Ne.symm hne))).trans ((hur r).trans hother)
  have hvl : v.life.lifecycle = some l := by
    rw [(Apart.setReading u p _).life]
    exact hl
  obtain ⟨rd', hrun⟩ := State.runPort_of_ready (s := v) (rd := { rd with piece := .ready bytes }) (bytes := bytes)
    (State.reading_setReading ..) hseg hsrc hvl rfl (hw.trans hlen.symm) (show rd.addr + _ ≤ _ by omega) hlast
  rw [hrest, hrun]
  refine ⟨?_, ?_, (Apart.setReading ..).trans (State.handed_apart ..)⟩
  · rw [State.returned_handed]
    cases p <;> rfl
  · rw [State.engine_handed]
    cases p <;> rfl

end Sys2Proof.Machine
end

-- Proofs of the family 'other': the region record judged from an image.
section
/-! PROOFS. The region record of SEAL and SERVICE-CLOSE judged from an expected image (R150, R151, R164, R172). -/

namespace Sys2Proof.Machine

section
variable {s : State} {se : MapEntry} {x : Entry} {img : Mem} {rest : List Entry}

/-- The bytes of the region record that the image and the entries behind it fix. -/
def imageRecord (x : Entry) (img : Mem) (rest : List Entry) : List Byte :=
  (List.range 32).map fun o => (overlayByte (x.formed img :: rest) (x.addr + o)).value

theorem State.readRegion_of_image (he : entryOfClass s.life.fields.map .settings = some se) (hq : s.entriesOf .set = x.formed img :: rest)
    (hkind : x.kind = .program) (hpage : se.pbase = x.addr) : s.readRegion = s.regionJudge (imageRecord x img rest) := by
  have hfixed : (overlay (x.formed img :: rest) { page := x.addr, lo := 0, hi := 31 }).all Overlaid.fixed = true :=
    overlay_fixed fun i hi => overlayByte_formed_fixed rest hkind (Nat.le_add_right ..) (by
      change i < 32 at hi
      show x.addr + 0 + i < _
      omega)
  have hvalues : (overlay (x.formed img :: rest) { page := x.addr, lo := 0, hi := 31 }).map Overlaid.value = imageRecord x img rest := by
    rw [overlay, List.map_map]
    rfl
  simp only [State.readRegion, State.regionRange_of_settings he, hq, hpage, hfixed, if_true, hvalues]

theorem State.regionWaits_of_none (hclaim : s.claim .sysRead = none) (hdef : s.engine.deferred.get .sysRead = none)
    (hread : s.engine.read = none) : s.regionWaits = true := by
  simp only [State.regionWaits, hclaim, hdef, hread]
  rfl

theorem State.rejudgeRegion_of_validate {len : Nat} (hr : s.dir.running = some (.sealValidate len)) (hw : s.regionWaits = true) :
    s.rejudgeRegion .set = s.readRegion := by
  simp only [State.rejudgeRegion, hr, hw, and_self, if_true]

theorem State.rejudgeRegion_of_check (hr : s.dir.running = some .serviceCloseCheck) (hw : s.regionWaits = true) :
    s.rejudgeRegion .set = s.readRegion := by
  simp only [State.rejudgeRegion, hr, hw, and_self, if_true]

theorem State.regionJudge_of_validate {len : Nat} (hr : s.dir.running = some (.sealValidate len)) (b : List Byte) :
    s.regionJudge b = s.sealJudge len b := by
  rw [State.regionJudge, hr]

theorem State.regionJudge_of_check (hr : s.dir.running = some .serviceCloseCheck) (b : List Byte) :
    s.regionJudge b = s.serviceJudge b := by
  rw [State.regionJudge, hr]

end

section
variable {s : State} {n : Nat} {ph : Phase} {x : Entry} {rest : List Entry} {se : MapEntry}

/-- A pre-read of the region record's page ends while a directive waits to read it. -/
structure State.RegionWaits (s : State) (n : Nat) (ph : Phase) (x : Entry) (rest : List Entry) (se : MapEntry) : Prop
    extends s.Alone n ph where
  phase : s.inPhase .preRead = some (.set, x)
  entries : s.entriesOf .set = x :: rest
  kind : x.kind = .program
  claim : s.claim .sysRead = none
  deferred : s.engine.deferred.get .sysRead = none
  read : s.engine.read = none
  settings : entryOfClass s.life.fields.map .settings = some se
  page : se.pbase = x.addr

/-- The state in which the image has been formed. -/
def State.imageFormed (s : State) (x : Entry) : State := s.setHead .set fun y => y.formed (expectedImage s.flash x)

theorem State.RegionWaits.readRegion (h : s.RegionWaits n ph x rest se) :
    (s.imageFormed x).readRegion = (s.imageFormed x).regionJudge (imageRecord x (expectedImage s.flash x) rest) :=
  State.readRegion_of_image h.settings (by rw [State.imageFormed, State.entriesOf_setHead, h.entries]; rfl) h.kind h.page

theorem State.RegionWaits.exec (h : s.RegionWaits n ph x rest se) :
    Machine.exec .preReadEnd s = .next ((s.imageFormed x).rejudgeRegion .set).finish := by
  have hreads : (s.imageFormed x).NoReads := h.toNoReads.of_links rfl rfl
  rw [exec_preReadEnd h.phase]
  show Host.Outcome.next (((s.imageFormed x).rejudgeFormed .set).rejudgeRegion .set).finish = _
  rw [hreads.rejudgeFormed]

theorem State.RegionWaits.waits (h : s.RegionWaits n ph x rest se) : (s.imageFormed x).regionWaits = true :=
  State.regionWaits_of_none h.claim h.deferred h.read

/-- SERVICE-CLOSE judges the record from the image. -/
theorem State.RegionWaits.exec_check (h : s.RegionWaits n .serviceCloseCheck x rest se) :
    Machine.exec .preReadEnd s = .next ((s.imageFormed x).serviceJudge (imageRecord x (expectedImage s.flash x) rest)).finish := by
  have hr : (s.imageFormed x).dir.running = some .serviceCloseCheck := h.running
  rw [h.exec, State.rejudgeRegion_of_check hr h.waits, h.readRegion, State.regionJudge_of_check hr]

/-- SEAL judges the record from the image. -/
theorem State.RegionWaits.exec_validate {len : Nat} (h : s.RegionWaits n (.sealValidate len) x rest se) :
    Machine.exec .preReadEnd s = .next ((s.imageFormed x).sealJudge len (imageRecord x (expectedImage s.flash x) rest)).finish := by
  have hr : (s.imageFormed x).dir.running = some (.sealValidate len) := h.running
  rw [h.exec, State.rejudgeRegion_of_validate hr h.waits, h.readRegion, State.regionJudge_of_validate hr]

/-- SEAL's judgement of the record, once the image is formed. -/
theorem State.RegionWaits.seals {len : Nat} (h : s.RegionWaits n (.sealValidate len) x rest se) (hj : s.job = none)
    (hd : (s.slot n).directive = some .seals) :
    let record := checkRegion (imageRecord x (expectedImage s.flash x) rest)
    (record = none → Completes .preReadEnd s fun t =>
      t.dir = s.dir.ended n .regionInvalid [] ∧ t.life = s.life ∧ t.key = s.key.unsealed) ∧
    (∀ g, record = some g → inScope g (bundleScopes s.key.staging) = false → Completes .preReadEnd s fun t =>
      t.dir = s.dir.ended n .regionOutOfScope (leBytes 2 g.code ++ [byte g.family.num]) ∧ t.life = s.life ∧
      t.key = s.key.unsealed) ∧
    (∀ g k, record = some g → inScope g (bundleScopes s.key.staging) = true → entryOfClass s.life.fields.map .key = some k →
      Completes .preReadEnd s fun t =>
        t.dir.running = some (.sealProgram len g) ∧ t.job.map Job.work = some (.keySector k.pbase len) ∧ t.life = s.life ∧
        t.key = s.key) := by
  intro record
  have hends {c : ResultCode} {r : List Byte}
      (hu : (s.imageFormed x).sealJudge len (imageRecord x (expectedImage s.flash x) rest) = (s.imageFormed x).endDirective c r) :
      Completes .preReadEnd s fun t => t.dir = s.dir.ended n c r ∧ t.life = s.life ∧ t.key = s.key.unsealed := by
    refine ⟨_, h.exec_validate, ?_⟩
    rw [hu, h.toAlone.finish_sealEnds (v := s.imageFormed x) rfl hj rfl rfl hd]
    exact ⟨rfl, rfl, rfl⟩
  refine ⟨fun hr => hends (State.sealJudge_of_none hr), fun g hr hs => hends (State.sealJudge_of_outside hr hs),
    fun g k hr hs hk => ⟨_, h.exec_validate, ?_⟩⟩
  rw [State.sealJudge_of_inside (s := s.imageFormed x) hr hs hk]
  have hmade := (s.imageFormed x).made_sealPrograms len k.pbase g
  exact ⟨hmade.running, hmade.work, hmade.life, hmade.key⟩

/-- SERVICE-CLOSE's judgement of the record, once the image is formed. -/
theorem State.RegionWaits.serviceClose (h : s.RegionWaits n .serviceCloseCheck x rest se) (hj : s.job = none)
    (hd : (s.slot n).directive = some .serviceClose) :
    let record := checkRegion (imageRecord x (expectedImage s.flash x) rest)
    (record = none → Completes .preReadEnd s fun t => t.dir = s.dir.ended n .regionInvalid [] ∧ t.life = s.life) ∧
    (∀ g, record = some g → inScope g s.life.fields.scopes = false → Completes .preReadEnd s fun t =>
      t.dir = s.dir.ended n .regionOutOfScope (leBytes 2 g.code ++ [byte g.family.num]) ∧ t.life = s.life) ∧
    (∀ g, record = some g → inScope g s.life.fields.scopes = true → Completes .preReadEnd s fun t =>
      t.dir.running = some (.serviceCloseRecord g) ∧ t.life = s.life ∧
      t.job.map Job.work = some (.record { lifecycle := .closed, fields := { s.life.fields with region := some g } } 1)) := by
  intro record
  have hends {c : ResultCode} {r : List Byte}
      (hu : (s.imageFormed x).serviceJudge (imageRecord x (expectedImage s.flash x) rest) = (s.imageFormed x).endDirective c r) :
      Completes .preReadEnd s fun t => t.dir = s.dir.ended n c r ∧ t.life = s.life := by
    refine ⟨_, h.exec_check, ?_⟩
    rw [hu, h.toAlone.finish_serviceEnds (v := s.imageFormed x) rfl hj rfl rfl hd]
    exact ⟨rfl, rfl⟩
  refine ⟨fun hr => hends (State.serviceJudge_of_none hr), fun g hr hs => hends (State.serviceJudge_of_outside hr hs),
    fun g hr hs => ⟨_, h.exec_check, ?_⟩⟩
  rw [State.serviceJudge_of_inside (s := s.imageFormed x) hr hs]
  have hmade := (s.imageFormed x).made_serviceRecords g
  exact ⟨hmade.running, hmade.life, hmade.work⟩

end

/-- Settles O51: the image, the read that waits for it and is answered from it, and the region record judged from it. -/
theorem preReadFormsImage : Obligations.PreReadFormsImage := by
  refine ⟨fun s q e hcalm hreads hmem hphase hdata => ?_,
    fun p r a n s l e q base h rest hne hlink hr hl he hflash hn hq hkind hstate => ?_,
    fun e img o hkind ho => overlayByte_formed hkind ho,
    fun p r s l q e rest rd seg x hne hcalm hmem hphase hq hkind hdata hl hother hr hseg hsrc howner hp hpage _ hhi haddr hlast hw hfits =>
      ⟨_, expectedImage_forms hmem.1 hdata, image_answers_read hne hcalm hphase hq hkind hl hother hr hseg hsrc howner hp hpage hhi haddr
        hlast hw hfits⟩,
    fun s n ph e rest se h hmem hj hphase hq hkind hdata hclaim hdef hread hse hpage => ⟨_, expectedImage_forms hmem.1 hdata, ?_⟩⟩
  · obtain ⟨hwf, hget⟩ := expectedImage_forms hmem.1 hdata
    refine ⟨_, ?_, hwf, hget⟩
    have hreads' : (s.setHead q fun x => x.formed (expectedImage s.flash e)).NoReads := hreads.of_links rfl rfl
    have hcalm' : (s.setHead q fun x => x.formed (expectedImage s.flash e)).Calm := hcalm.of_fields rfl rfl rfl rfl rfl
    rw [exec_preReadEnd hphase, hreads'.rejudgeFormed, State.rejudgeRegion_of_idle hcalm'.running, hcalm'.finish_eq hreads']
    rfl
  · intro x k haddr hopen
    change h.addr = pageOf (base + (a.toNat - e.ubase)) at haddr
    refine read_waits_for_image hne hlink hr hl he hflash hn ?_ hopen
    simp only [hq, headPreReads, hkind, hstate, haddr, decide_true, Bool.and_self]
  · intro record
    have hwait : s.RegionWaits n ph e rest se :=
      { h with phase := hphase, entries := hq, kind := hkind, claim := hclaim, deferred := hdef, read := hread, settings := hse,
               page := hpage }
    refine ⟨fun len hph hd => ?_, fun hph hd => ?_⟩
    · subst hph
      exact hwait.seals hj hd
    · subst hph
      exact hwait.serviceClose hj hd

end Sys2Proof.Machine
end
